-- ==== Sys2Proof/Word.lean ====
section
/-! DEFINITION. The word types of the processor: bytes, 64-bit words and the operand widths
(00_scope.md rules R13 and R14). -/

namespace Sys2Proof

/-- A byte: the unit of memory (R14, R100). -/
abbrev Byte := BitVec 8

/-- A quadword: the width of a general register, of RIP and of a linear address (R14, R30). -/
abbrev Word := BitVec 64

/-- The sizes an integer operand can have: byte, word, doubleword, quadword (R14). -/
inductive Width where
  | b8 | b16 | b32 | b64
  deriving DecidableEq, Repr

/-- The number of bits of an operand of this width (R14). -/
abbrev Width.bits : Width → Nat
  | .b8 => 8
  | .b16 => 16
  | .b32 => 32
  | .b64 => 64

/-- The number of bytes of an operand of this width (R14). -/
abbrev Width.bytes : Width → Nat
  | .b8 => 1
  | .b16 => 2
  | .b32 => 4
  | .b64 => 8

/-- The number of bits an immediate of this operand width has in the instruction: an immediate of a 64-bit
operation is 32 bits long (R192). -/
abbrev Width.immBits : Width → Nat
  | .b8 => 8
  | .b16 => 16
  | .b32 => 32
  | .b64 => 32

end Sys2Proof
end

