-- ==== Sys2Proof/Config.lean ====
section
/-! DEFINITION. What an implementation fixes (the parameters of R10 and of 92_eei_decisions.md section 2) and the
values the spec leaves open.

An open value is an `opaque` constant without a body: nothing can evaluate it, so a theorem about the machine holds
whatever it is. Values drawn afresh each time are the constant applied to `State.freeCount`. -/

namespace Sys2Proof.Config

/-! ### The parameters of R10, each at the value of the first implementation -/

/-- The number of implemented linear-address bits (R10, R120). -/
abbrev vaBits : Nat := 48

/-- The number of implemented physical-address bits (R10). -/
abbrev paBits : Nat := 40

/-- NUM_GPR: the general registers visible in 64-bit mode (R10). A register number has 4 bits, so none names more. -/
abbrev numGpr : Nat := 16

/-- NUM_XMM: the XMM registers visible in 64-bit mode (R10). -/
abbrev numXmm : Nat := 16

/-- CR_IMPLEMENTED: the control registers that exist; CR8 exists in 64-bit mode only (R10, R59). -/
abbrev crImplemented : List (BitVec 4) := [0, 2, 3, 4, 8]

/-- DR_IMPLEMENTED: the debug registers that exist (R10, R59). -/
abbrev drImplemented : List (BitVec 4) := [0, 1, 2, 3, 4, 5, 6, 7]

/-- CSTAR_AVAILABLE: whether SYSCALL can take its target from the CSTAR MSR (R10, R66, P4). -/
abbrev cstarAvailable : Bool := false

/-- SYSCALL_IN_COMPAT: whether SYSCALL and SYSRET exist in compatibility mode (R10, R66, P4). -/
abbrev syscallInCompat : Bool := false

/-- IMM66_NEAR_BRANCH: whether the prefix 66H is ignored on a near branch in 64-bit mode, so that its displacement keeps
32 bits (R10, R199, P3). -/
abbrev imm66Ignored : Bool := true

/-- FXSAVE_OSFXSR0: whether FXSAVE and FXRSTOR save and restore MXCSR and the XMM registers while CR4.OSFXSR is 0
(R10, R440, decision D22). -/
abbrev fxsaveOsfxsr0 : Bool := true

/-- LLDT_LTR_ACCESS_ORDER: whether LLDT and LTR read the low 8 bytes of a 16-byte descriptor before the high ones
(R10, R427). -/
abbrev descLowFirst : Bool := true

/-- CPUID_SIGNATURE: bits 31:4 of CPUID.1:EAX: family 1111B, model 0011B, type 00B (R10, R404). -/
abbrev cpuidSignature : BitVec 28 := 0xF3#28

/-- CPUID_EXT_EDX: CPUID.80000001H:EDX, with SYSCALL and Intel EM64T (R10, R407, decision D20). -/
abbrev cpuidExtEdx : BitVec 32 := 0x20000800#32

/-- The descriptors of CPUID leaf 2 in EAX and EDX, as the source quotes them (P1). -/
abbrev cpuidLeaf2 : BitVec 32 × BitVec 32 := (0x665B5001#32, 0x007A7040#32)

/-- The MXCSR bits that can be written (parameter MXCSR_MASK, default 0000FFBFH as 93_implementation_defined.md P5
prints it: bit 6, DAZ, and bits 31:16 cannot). -/
abbrev mxcsrMask : BitVec 32 := 0x0000FFBF#32

/-- The highest basic CPUID leaf (R403). -/
abbrev cpuidMaxBasic : BitVec 32 := 5#32

/-- The highest extended CPUID leaf (R403). -/
abbrev cpuidMaxExt : BitVec 32 := 0x80000008#32

/-- L2_INFO: CPUID 80000006H ECX, the second-level cache of the initial implementation (R10, R412). -/
abbrev l2Info : BitVec 32 := 0x04008040#32

/-- The flags of CPUID.1:EDX that R405 and decision D20 fix to 1: FPU, PSE, TSC, MSR, PAE, CX8, APIC, SEP, PGE, CMOV,
PAT, PSE-36, CLFSH, MMX, FXSR, SSE, SSE2. -/
abbrev cpuidEdxFixed : BitVec 32 := 0x078BAB79#32

/-- The flags of CPUID.1:EDX that stay a parameter: VME, DE, MCE, MTRR, MCA, DS, ACPI, SS, HT, TM and FERR (R405). -/
abbrev cpuidEdxOpenMask : BitVec 32 := 0xB8605086#32

/-- The flags of CPUID.1:ECX that R406 and decision D20 fix to 1: SSE3, Monitor, CMPXCHG16B. -/
abbrev cpuidEcxFixed : BitVec 32 := 0x00002009#32

/-- The flags of CPUID.1:ECX that stay a parameter: DS_CPL, EST, TM2, CNXT-ID (R406). -/
abbrev cpuidEcxOpenMask : BitVec 32 := 0x00000590#32

/-- CPUID.1:EDX bits that the source names without a value (P1). -/
opaque cpuidEdxOpen : BitVec 32

/-- CPUID.1:ECX bits that the source names without a value (P1). -/
opaque cpuidEcxOpen : BitVec 32

/-- The stepping, CPUID.1:EAX[3:0] (R404, parameter CPUID_STEPPING). -/
opaque cpuidStepping : BitVec 4

/-- The brand index, CPUID.1:EBX[7:0] (R413). -/
opaque cpuidBrandIndex : BitVec 8

/-- The number of logical processors, CPUID.1:EBX[23:16] (R413). -/
opaque cpuidLogicalCount : BitVec 8

/-- The initial APIC ID, CPUID.1:EBX[31:24] (R413). -/
opaque cpuidApicId : BitVec 8

/-- CLFLUSH_LINE: the CLFLUSH line size in units of 8 bytes, CPUID.1:EBX[15:8] (R413: a 64-byte line gives 08H). -/
abbrev clflushLine : BitVec 8 := 8#8

/-- The data of CPUID leaf 4 for a sub-leaf in ECX: register 0 is EAX, 1 EBX, 2 ECX (R410). -/
opaque cpuidLeaf4 : BitVec 32 → Nat → BitVec 32

/-- The brand string: register `r` (EAX 0, EBX 1, ECX 2, EDX 3) of leaf 80000002H + `k` (R412, P1). -/
opaque cpuidBrand : Nat → Nat → BitVec 32

/-- The smallest and the largest monitor-line size (R411, parameter MONITOR_LINE, default 64). -/
abbrev monitorLine : BitVec 32 := 64#32

/-- A value the spec leaves open, drawn afresh: the argument is `State.freeCount` at the draw (U1, U2, U10 to U12,
U19 to U22). -/
opaque freeValue : Nat → BitVec 64

/-- The value a port read returns: port, number of bytes, and the draw counter (R372, decision D9). -/
opaque ioInput : BitVec 16 → Nat → Nat → BitVec 32

/-- What one step adds to the time-stamp counter beyond 1, as a function of the counter (R771, TSC_RATE). It has 32
bits, so that one step adds between 1 and 2^32, where the spec allows any positive amount (DESIGN CHOICE, log 8). -/
opaque tscExtra : BitVec 64 → BitVec 32

/-- What the reserved encoding 01 of the precision control selects: 0 single, 1 double, else extended precision (R71
names the other three encodings only). -/
opaque reservedPrecision : BitVec 2

/-- The x87 functions whose result the architecture does not fix (R455, decision D24). FSINCOS and FPTAN deliver two
values, of which `sincosCos` and `ptan` name the approximated ones. -/
inductive Transcendental where
  | f2xm1 | cos | sin | sincosSin | sincosCos | patan | ptan | yl2x | yl2xp1
  deriving DecidableEq, Repr

/-- The result of a transcendental instruction on the operands ST(0) and ST(1) under rounding control `rc`
(R455, decision D24). The second operand is zero for the functions of one operand. -/
opaque transcendental : Transcendental → BitVec 80 → BitVec 80 → BitVec 2 → BitVec 80

/-- The exception flags a transcendental instruction reports with its result, in the positions of FSW bits 5:0, and in
bit 6 whether the result was rounded up (R453, R454, decision D24). -/
opaque transcendentalFlags : Transcendental → BitVec 80 → BitVec 80 → BitVec 2 → BitVec 7

end Sys2Proof.Config
end

