-- ==== Sys2Proof/Machine/State.lean ====
section
/-! DEFINITION. The machine's state as plain data, the reasons a step can stop, and the state after reset
(10_state.md rules R30 to R81). -/

namespace Sys2Proof.Machine

/-- Why the machine stops in a legal end state. -/
inductive Fault where
  /-- Raised by `step` when the processor is halted by HLT and no enabled interrupt or NMI is pending (R415, R773).
  Safe: the spec gives it no further step. -/
  | halted
  /-- Raised by `step` when the processor is in shutdown after a fault during the delivery of a double fault
  (R698, decision D28). Safe: nothing after it is architectural. -/
  | shutdown
  deriving DecidableEq, Repr

/-- Why the model gives a step no meaning. -/
inductive Refusal where
  /-- Answered by an arm of `exec` that has no meaning yet. Safe. -/
  | notModelled (mnemonic : String)
  /-- Answered by `step` for an opcode without a row in spec/opcode_table.json (R208, decision D13). Safe. -/
  | noSuchRow
  /-- SYSENTER: the source names neither its MSRs nor its operation (R794). Safe. -/
  | sysenterUnspecified
  /-- SYSEXIT: the source names neither its MSRs nor its operation (R794). Safe. -/
  | sysexitUnspecified
  /-- RDPMC: no performance counter is described (R803). Safe. -/
  | performanceCounters
  /-- MONITOR: the address-range monitoring hardware is not described (R804). Safe. -/
  | monitorHardware
  /-- MWAIT: the address-range monitoring hardware is not described (R804). Safe. -/
  | mwaitHardware
  /-- A pending unmasked x87 exception while CR0.NE = 0: it is signalled on a pin to external logic
  (R452, 93_implementation_defined.md U14). Safe. -/
  | externalFpuError
  /-- An exception, interrupt, far transfer or IRET that would use virtual-8086 mode's own delivery, which no source
  describes (R735, 93_implementation_defined.md U16). Safe. -/
  | virtual8086
  /-- A legacy call gate, task gate or task switch while IA-32e mode is inactive, which no source describes
  (R735, 93_implementation_defined.md U16). Safe. -/
  | legacyGate
  deriving DecidableEq, Repr

/-- A segment register: the visible selector and the hidden descriptor part (R61, R63). The limit is the byte-granular
limit. `unusable` marks a null selector's load. -/
structure SegReg where
  sel : BitVec 16
  base : Word
  limit : BitVec 32
  typ : BitVec 4
  s : Bool
  dpl : BitVec 2
  p : Bool
  avl : Bool
  l : Bool
  db : Bool
  g : Bool
  unusable : Bool
  deriving DecidableEq, Repr

/-- A descriptor-table register, GDTR or IDTR (R60). -/
structure TableReg where
  base : Word
  limit : BitVec 16
  deriving DecidableEq, Repr

/-- The x87 FPU and MMX state (R70 to R72): the data registers in physical order, the control, status and tag words,
the opcode register, and the instruction and data pointers with their selectors. -/
structure Fpu where
  r : Vector (BitVec 80) 8
  fcw : BitVec 16
  fsw : BitVec 16
  ftw : BitVec 16
  fop : BitVec 11
  fip : Word
  fcs : BitVec 16
  fdp : Word
  fds : BitVec 16
  deriving DecidableEq, Repr

/-- Whether the processor executes instructions (R415, R698, R773). -/
inductive Activity where
  | active | halted | shutdown
  deriving DecidableEq, Repr

/-- The interrupt shadow in force at an instruction boundary (R762): none, that of STI (maskable interrupts), or that
of MOV SS, POP SS and LSS (maskable interrupts, NMI and debug traps). -/
inductive Shadow where
  | none | sti | movss
  deriving DecidableEq, Repr

/-- A write to the I/O port space, seen by the platform (R772, decision D9): port, bytes, value. -/
structure IoEvent where
  port : BitVec 16
  bytes : Nat
  value : BitVec 32
  deriving DecidableEq, Repr

/-- The whole state of the processor and its physical memory. -/
structure State where
  /-- RAX to R15 (R30). -/
  gpr : Vector Word Config.numGpr
  /-- The instruction pointer, `pc` (R40, R41). -/
  rip : Word
  /-- The address of the following instruction, `next_pc`, set when an instruction is fetched (R41). -/
  nextPc : Word
  /-- EFLAGS (R45). -/
  rflags : BitVec 32
  es : SegReg
  cs : SegReg
  ss : SegReg
  ds : SegReg
  /-- FS; its base is MSR C0000100H (R64). -/
  fs : SegReg
  /-- GS; its base is MSR C0000101H (R64). -/
  gs : SegReg
  ldtr : SegReg
  tr : SegReg
  gdtr : TableReg
  idtr : TableReg
  cr0 : Word
  cr2 : Word
  cr3 : Word
  cr4 : Word
  /-- APIC.TPR; CR8 is its bits 7:4 (R58, R716). -/
  tpr : BitVec 8
  /-- Whether the local APIC is enabled (R80). -/
  apicEnabled : Bool
  dr0 : Word
  dr1 : Word
  dr2 : Word
  dr3 : Word
  dr6 : Word
  dr7 : Word
  /-- IA32_EFER, MSR C0000080H (R50). -/
  efer : Word
  /-- MSR C0000081H (R66). -/
  star : Word
  /-- MSR C0000082H (R66). -/
  lstar : Word
  /-- MSR C0000083H (R66). -/
  cstar : Word
  /-- MSR C0000084H; bits 63:32 stay 0 (R66, R795). -/
  fmask : Word
  /-- MSR C0000102H (R65). -/
  kernelGsBase : Word
  /-- IA32_CR_MISC_ENABLES bit 22, BOOT_NT4 (R67). -/
  bootNt4 : Bool
  fpu : Fpu
  /-- XMM0 to XMM15 (R73). -/
  xmm : Vector (BitVec 128) Config.numXmm
  mxcsr : BitVec 32
  /-- The time-stamp counter (R771). -/
  tsc : Word
  /-- Physical memory: the listed bytes in rising address order; an unlisted address reads 0. -/
  mem : List Host.Cell
  /-- A pending NMI, an input of the platform (R712). -/
  pendingNmi : Bool
  /-- Whether NMIs are blocked until the next IRET (R712). -/
  nmiBlocked : Bool
  /-- The vector of a pending maskable interrupt, an input of the platform (R712). -/
  pendingInt : Option Byte
  /-- A pending single-step trap (R663, R681). -/
  pendingDb : Bool
  shadow : Shadow
  /-- The model's own: the shadow in force when the instruction that runs was fetched, which an unfinished repeated string
  instruction keeps (R762). -/
  heldShadow : Shadow
  activity : Activity
  /-- The model's own: the number of open values drawn so far. -/
  freeCount : Nat
  /-- The model's own: the writes to the I/O port space, the latest first. -/
  ioLog : List IoEvent
  deriving DecidableEq, Repr

/-- A data segment as reset leaves it: selector 0, base 0, limit FFFFH (R81); a present writable accessed data segment
(the attributes are the family's). -/
def SegReg.resetData : SegReg :=
  { sel := 0, base := 0, limit := 0xFFFF, typ := 3, s := true, dpl := 0, p := true, avl := false, l := false,
    db := false, g := false, unusable := false }

/-- The code segment as reset leaves it: selector F000H, base FFFF0000H, limit FFFFH (R81). -/
def SegReg.resetCode : SegReg := { SegReg.resetData with sel := 0xF000, base := 0xFFFF0000, typ := 0xB }

/-- LDTR as reset leaves it: selector 0, base 0, limit FFFFH (R81); null, hence unusable (R380). -/
def SegReg.resetLdtr : SegReg := { SegReg.resetData with typ := 2, s := false, unusable := true }

/-- TR as reset leaves it: selector 0, base 0, limit FFFFH (R81); a busy 32-bit TSS (the family's). -/
def SegReg.resetTr : SegReg := { SegReg.resetData with typ := 0xB, s := false }

/-- The general registers after reset: RDX holds the processor signature, the others 0 (R81). -/
def resetGpr : Vector Word Config.numGpr :=
  #v[0, 0, ((Config.cpuidSignature ++ Config.cpuidStepping).setWidth 64), 0, 0, 0, 0, 0, 0, 0, 0, 0, 0, 0, 0, 0]

/-- The FPU after power-up (R81). -/
def Fpu.reset : Fpu :=
  { r := #v[0, 0, 0, 0, 0, 0, 0, 0], fcw := 0x0040, fsw := 0, ftw := 0x5555, fop := 0, fip := 0, fcs := 0,
    fdp := 0, fds := 0 }

/-- The machine after reset: the table of R81. -/
def State.reset : State :=
  { gpr := resetGpr
    rip := 0xFFF0
    nextPc := 0xFFF0
    rflags := 2
    es := .resetData, cs := .resetCode, ss := .resetData, ds := .resetData, fs := .resetData, gs := .resetData
    ldtr := .resetLdtr, tr := .resetTr
    gdtr := { base := 0, limit := 0xFFFF }, idtr := { base := 0, limit := 0xFFFF }
    cr0 := 0x60000010, cr2 := 0, cr3 := 0, cr4 := 0
    tpr := 0, apicEnabled := true
    dr0 := 0, dr1 := 0, dr2 := 0, dr3 := 0, dr6 := 0xFFFF0FF0, dr7 := 0x400
    efer := 0, star := 0, lstar := 0, cstar := 0, fmask := 0, kernelGsBase := 0, bootNt4 := false
    fpu := .reset
    xmm := #v[0, 0, 0, 0, 0, 0, 0, 0, 0, 0, 0, 0, 0, 0, 0, 0]
    mxcsr := 0x1F80
    tsc := 0
    mem := []
    pendingNmi := false, nmiBlocked := false, pendingInt := none, pendingDb := false
    shadow := .none, heldShadow := .none, activity := .active
    freeCount := 0, ioLog := [] }

end Sys2Proof.Machine
end

