-- ==== Sys2Proof/Machine/Monad.lean ====
section
/-! DEFINITION. The events an instruction can raise and the state monad in which the meanings are written: a run
answers a value and a state, or stops. -/

namespace Sys2Proof.Machine

/-- How an event came about, which decides the saved instruction pointer and the checks of its delivery
(R661, R690). -/
inductive Kind where
  | fault | trap | abort | software | external | nmi
  deriving DecidableEq, Repr

/-- An exception or interrupt to be delivered: its vector, kind, error code if it has one, and the linear address that
a page fault puts in CR2 (R660, R661, R145). -/
structure Event where
  vector : Byte
  kind : Kind
  code : Option (BitVec 32)
  cr2 : Option Word
  deriving DecidableEq, Repr

/-- Why a run of a meaning ends without completing. -/
inductive Stop where
  /-- `raise`: the instruction is abandoned, its state changes are dropped and the event is delivered (R15). -/
  | raised (e : Event)
  /-- The event is delivered from the state given: a software interrupt, or a SIMD exception whose flags are set. -/
  | raisedAfter (e : Event) (s : State)
  /-- The model gives the case no meaning. -/
  | refused (r : Refusal)
  deriving DecidableEq, Repr

/-- A computation over the machine's state that can stop. -/
abbrev M (α : Type) := StateT State (Except Stop) α

/-- The value of a function of the state. -/
def readS {α : Type} (f : State → α) : M α := fun s => .ok (f s, s)

/-- Changes the state. -/
def upd (f : State → State) : M Unit := fun s => .ok ((), f s)

/-- Stops. -/
def stop {α : Type} (x : Stop) : M α := fun _ => .error x

/-- Raises an event, abandoning the instruction. -/
def raise {α : Type} (e : Event) : M α := stop (.raised e)

/-- Raises `e` if `c` holds. -/
def raiseIf (c : Bool) (e : Event) : M Unit := if c then raise e else pure ()

/-- Raises an event delivered from the present state. -/
def raiseHere {α : Type} (e : Event) : M α := fun s => .error (.raisedAfter e s)

/-- Refuses the case. -/
def refuse {α : Type} (r : Refusal) : M α := stop (.refused r)

/-- A fault without an error code (R661). -/
def Event.plain (v : Byte) : Event := { vector := v, kind := .fault, code := none, cr2 := none }

/-- A fault with an error code (R661). -/
def Event.coded (v : Byte) (c : BitVec 32) : Event := { vector := v, kind := .fault, code := some c, cr2 := none }

/-- The fault #DE (R660). -/
def deFault : Event := .plain 0
/-- The single-step trap #DB (R660, R663). -/
def dbTrap : Event := { vector := 1, kind := .trap, code := none, cr2 := none }
/-- The non-maskable interrupt (R660). -/
def nmiEvent : Event := { vector := 2, kind := .nmi, code := none, cr2 := none }
/-- The fault #BR (R660). -/
def brFault : Event := .plain 5
/-- The fault #UD (R660). -/
def udFault : Event := .plain 6
/-- The fault #NM (R660). -/
def nmFault : Event := .plain 7
/-- The abort #DF with error code 0 (R661, R698). -/
def dfAbort : Event := { vector := 8, kind := .abort, code := some 0, cr2 := none }
/-- The fault #MF (R660). -/
def mfFault : Event := .plain 16
/-- The fault #XM, printed #XF in the vector table (R660). -/
def xmFault : Event := .plain 19
/-- The fault #GP(0). -/
def gp0 : Event := .coded 13 0
/-- The fault #SS(0). -/
def ss0 : Event := .coded 12 0
/-- The fault #AC(0). -/
def ac0 : Event := .coded 17 0

/-- A software interrupt through vector `v` (R345). -/
def softInt (v : Byte) : Event := { vector := v, kind := .software, code := none, cr2 := none }

/-- The error code that names a selector: its RPL bits cleared, EXT in bit 0 (R662). -/
def selCode (sel : BitVec 16) (ext : Bool) : BitVec 32 :=
  (sel &&& 0xFFFC).setWidth 32 ||| (if ext then 1 else 0)

/-- The error code that names an IDT entry: the vector times 8, IDT in bit 1, EXT in bit 0 (R662). -/
def idtCode (v : Byte) (ext : Bool) : BitVec 32 :=
  (v.setWidth 32 <<< 3) ||| 2 ||| (if ext then 1 else 0)

/-- #GP(selector). -/
def gpSel (sel : BitVec 16) (ext : Bool := false) : Event := .coded 13 (selCode sel ext)
/-- #NP(selector). -/
def npSel (sel : BitVec 16) (ext : Bool := false) : Event := .coded 11 (selCode sel ext)
/-- #SS(selector). -/
def ssSel (sel : BitVec 16) (ext : Bool := false) : Event := .coded 12 (selCode sel ext)
/-- #TS(selector). -/
def tsSel (sel : BitVec 16) (ext : Bool := false) : Event := .coded 10 (selCode sel ext)

/-- Draws a value the spec leaves open (93_implementation_defined.md, "any value"): the counter moves on, so each draw
is unrelated to the others. -/
def draw : M Word := fun s => .ok (Config.freeValue s.freeCount, { s with freeCount := s.freeCount + 1 })

end Sys2Proof.Machine
end

