-- ==== Sys2Proof/Syntax.lean ====
section
/-! DEFINITION. The instructions as data: operand forms and the one inductive `Instr`, one constructor for each
instruction mnemonic of spec/opcode_table.json. The rows of one mnemonic are the values of the constructor's operand
form: an operand form has one constructor for each encoding the table gives (register or memory, the short and long
forms, the immediates), so a row is a constructor of `Instr` with a constructor of its form. MOV, JMP, CALL and RET
have a constructor for each of the different operations that share the name.

Operands stand here already resolved from the encoding: register numbers are the 4-bit codes of R31 (the REX bit and
the 3-bit field), the segment of a memory operand is the one after any override (R118, R174), displacements are
sign-extended (R191). -/

namespace Sys2Proof

/-- A general, XMM, control or debug register number: the 4-bit code of R31 and R183. -/
abbrev Reg := BitVec 4

/-- An x87 stack index, an MMX register number, or a raw 3-bit segment register field (R183, R195). -/
abbrev Reg3 := BitVec 3

/-- The segment registers (R63). -/
inductive SReg where
  | es | cs | ss | ds | fs | gs
  deriving DecidableEq, Repr

/-- A general register operand of some width. `full r` names the low part of register `r`; `high h` names AH, CH, DH
or BH, the byte 15:8 of register `h`, which only a byte operand without a REX prefix can name (R31, R184). -/
inductive GReg where
  | full (r : Reg)
  | high (h : BitVec 2)
  deriving DecidableEq, Repr

/-- The effective address size (R177). -/
inductive ASize where
  | a16 | a32 | a64
  deriving DecidableEq, Repr

/-- The base of an effective address: none, a register, or the address of the next instruction (R110, R189). -/
inductive Base where
  | none
  | reg (r : Reg)
  | rip
  deriving DecidableEq, Repr

/-- The scaled index of an effective address; the factor is 2 to the power `scale` (R110, R187). -/
structure Index where
  reg : Reg
  scale : BitVec 2
  deriving DecidableEq, Repr

/-- A memory operand (R110 to R112): effective segment, base, index, displacement sign-extended to 64 bits, and
address size. -/
structure Mem where
  seg : SReg
  base : Base
  index : Option Index
  disp : Word
  asz : ASize
  deriving DecidableEq, Repr

/-- An operand named by a ModR/M byte: a register or memory (R185). -/
inductive Opnd (ρ : Type) where
  | reg (r : ρ)
  | mem (m : Mem)
  deriving DecidableEq, Repr

/-- An r/m operand of any integer width (R197). -/
abbrev RMB := Opnd GReg

/-- An r/m operand of 16, 32 or 64 bits (R197). -/
abbrev RM := Opnd Reg

/-- An xmm/m operand (R197). -/
abbrev XM := Opnd Reg

/-- An mm/m operand (R197). -/
abbrev MM := Opnd Reg3

/-- A memory operand of an x87 instruction. `form` is the ModR/M byte with its reg field cleared: the FPU opcode
register FOP records the ModR/M byte of the instruction (R457). -/
structure FMem where
  mem : Mem
  form : Byte
  deriving DecidableEq, Repr

/-- The operand forms of the eight ALU instructions (R242). -/
inductive AluArgs where
  /-- `00`/`01 /r`: r/m, r. -/
  | rmR (w : Width) (rm : RMB) (r : GReg)
  /-- `02`/`03 /r`: r, r/m. -/
  | rRm (w : Width) (r : GReg) (rm : RMB)
  /-- `04 ib`, `05 iw/id`: accumulator, immediate. -/
  | accImm (w : Width) (imm : BitVec w.immBits)
  /-- `80 ib`, `81 iw/id`: r/m, immediate. -/
  | rmImm (w : Width) (rm : RMB) (imm : BitVec w.immBits)
  /-- `83 ib`: r/m of 16, 32 or 64 bits, byte immediate sign-extended. -/
  | rmImm8 (w : Width) (rm : RM) (imm : Byte)
  deriving DecidableEq, Repr

/-- The operand forms of TEST (R798). -/
inductive TestArgs where
  /-- `84`/`85 /r`. -/
  | rmR (w : Width) (rm : RMB) (r : GReg)
  /-- `A8 ib`, `A9 iw/id`. -/
  | accImm (w : Width) (imm : BitVec w.immBits)
  /-- `F6 /0 ib`, `F7 /0 iw/id`. -/
  | rmImm (w : Width) (rm : RMB) (imm : BitVec w.immBits)
  deriving DecidableEq, Repr

/-- The operand forms of INC and DEC (R250, R251). -/
inductive IncArgs where
  /-- `FE`, `FF`. -/
  | rm (w : Width) (rm : RMB)
  /-- `40+rd`, `48+rd`, outside 64-bit mode only (R206). -/
  | short (w : Width) (r : Reg3)
  deriving DecidableEq, Repr

/-- The operand forms of IMUL (R257). -/
inductive ImulArgs where
  /-- `F6 /5`, `F7 /5`. -/
  | one (w : Width) (rm : RMB)
  /-- `0F AF /r`. -/
  | two (w : Width) (r : Reg) (src : RM)
  /-- `6B /r ib`. -/
  | three8 (w : Width) (r : Reg) (src : RM) (imm : Byte)
  /-- `69 /r iw/id`. -/
  | three (w : Width) (r : Reg) (src : RM) (imm : BitVec w.immBits)
  deriving DecidableEq, Repr

/-- The operand forms of XCHG (R799). -/
inductive XchgArgs where
  /-- `86`/`87 /r`. -/
  | rm (w : Width) (rm : RMB) (r : GReg)
  /-- `90+rd`. -/
  | acc (w : Width) (r : Reg)
  deriving DecidableEq, Repr

/-- The bit offset of the bit-test instructions: a register or a byte immediate (R300). -/
inductive BitSel where
  | reg (r : Reg)
  | imm (i : Byte)
  deriving DecidableEq, Repr

/-- The count of a shift or rotate (R797). -/
inductive ShiftCount where
  | one
  | cl
  | imm (i : Byte)
  deriving DecidableEq, Repr

/-- The displacement of a relative branch (R321). -/
inductive Rel where
  | r8 (d : Byte)
  | r16 (d : BitVec 16)
  | r32 (d : BitVec 32)
  deriving DecidableEq, Repr

/-- The repeat prefix of a string instruction (R175): none, F3H (REP, REPE) or F2H (REPNE). -/
inductive Rep where
  | none | rep | repne
  deriving DecidableEq, Repr

/-- The form of a string instruction with an overridable source at rSI (R360). -/
structure StrSrc where
  asz : ASize
  seg : SReg
  rep : Rep
  deriving DecidableEq, Repr

/-- The form of a string instruction with only the ES:rDI operand (R360). -/
structure StrDst where
  asz : ASize
  rep : Rep
  deriving DecidableEq, Repr

/-- The operand forms of MOV between registers, memory and immediates (R781). -/
inductive MovArgs where
  /-- `88`/`89 /r`. -/
  | rmR (w : Width) (rm : RMB) (r : GReg)
  /-- `8A`/`8B /r`. -/
  | rRm (w : Width) (r : GReg) (rm : RMB)
  /-- `B0+rb ib`, `B8+rd iw/id/io`. -/
  | regImm (w : Width) (r : GReg) (imm : BitVec w.bits)
  /-- `C6 /0 ib`, `C7 /0 iw/id`. -/
  | rmImm (w : Width) (rm : RMB) (imm : BitVec w.immBits)
  deriving DecidableEq, Repr

/-- The operand forms of PUSH (R787, R788). -/
inductive PushArgs where
  | reg (osz : Width) (r : Reg)
  | rm (osz : Width) (src : RM)
  | imm8 (osz : Width) (imm : Byte)
  | imm (osz : Width) (imm : BitVec osz.immBits)
  | sreg (osz : Width) (sr : SReg)
  deriving DecidableEq, Repr

/-- The operand forms of POP (R787, R788). -/
inductive PopArgs where
  | reg (osz : Width) (r : Reg)
  | rm (osz : Width) (dst : RM)
  | sreg (osz : Width) (sr : SReg)
  deriving DecidableEq, Repr

/-- The operand forms of the x87 arithmetic instructions (R463). -/
inductive FArith where
  | m32 (m : FMem)
  | m64 (m : FMem)
  /-- ST(0) is the destination. -/
  | st0 (i : Reg3)
  /-- ST(i) is the destination. -/
  | sti (i : Reg3)
  deriving DecidableEq, Repr

/-- A 16- or 32-bit integer memory operand of an x87 instruction. -/
inductive FInt where
  | m16 (m : FMem)
  | m32 (m : FMem)
  deriving DecidableEq, Repr

/-- A 16-, 32- or 64-bit integer memory operand of an x87 instruction. -/
inductive FIntL where
  | m16 (m : FMem)
  | m32 (m : FMem)
  | m64 (m : FMem)
  deriving DecidableEq, Repr

/-- The operand forms of FCOM, FCOMP and FST (R469, R499). -/
inductive FCmp where
  | m32 (m : FMem)
  | m64 (m : FMem)
  | sti (i : Reg3)
  deriving DecidableEq, Repr

/-- The operand forms of FLD and FSTP (R481, R499). -/
inductive FLong where
  | m32 (m : FMem)
  | m64 (m : FMem)
  | m80 (m : FMem)
  | sti (i : Reg3)
  deriving DecidableEq, Repr

/-- The operand forms of FNSTSW (R502). -/
inductive FSw where
  | mem (m : FMem)
  | ax
  deriving DecidableEq, Repr

/-- The instruction that stands under a LOCK prefix: one of the list of R430, or any other, which raises #UD. -/
inductive LockOp where
  | add (a : AluArgs)
  | adc (a : AluArgs)
  | and (a : AluArgs)
  | or (a : AluArgs)
  | sbb (a : AluArgs)
  | sub (a : AluArgs)
  | xor (a : AluArgs)
  | inc (a : IncArgs)
  | dec (a : IncArgs)
  | not (w : Width) (rm : RMB)
  | neg (w : Width) (rm : RMB)
  | btc (w : Width) (dst : RM) (bit : BitSel)
  | btr (w : Width) (dst : RM) (bit : BitSel)
  | bts (w : Width) (dst : RM) (bit : BitSel)
  | cmpxchg (w : Width) (dst : RMB) (src : GReg)
  | cmpxchg8b (dst : RM)
  | cmpxchg16b (dst : RM)
  | xadd (w : Width) (dst : RMB) (src : GReg)
  | xchg (a : XchgArgs)
  | other
  deriving DecidableEq, Repr

/-- The instructions of spec/opcode_table.json. -/
inductive Instr where
  /-- ADD (R245). -/
  | add (a : AluArgs)
  /-- ADC (R246). -/
  | adc (a : AluArgs)
  /-- AND (R247). -/
  | and (a : AluArgs)
  /-- CMP (R248). -/
  | cmp (a : AluArgs)
  /-- OR (R798). -/
  | or (a : AluArgs)
  /-- SBB (R798). -/
  | sbb (a : AluArgs)
  /-- SUB (R798). -/
  | sub (a : AluArgs)
  /-- XOR (R798). -/
  | xor (a : AluArgs)
  /-- TEST (R798). -/
  | test (a : TestArgs)
  /-- INC (R250). -/
  | inc (a : IncArgs)
  /-- DEC (R251). -/
  | dec (a : IncArgs)
  /-- NOT (R798). -/
  | not (w : Width) (rm : RMB)
  /-- NEG (R798). -/
  | neg (w : Width) (rm : RMB)
  /-- MUL (R798). -/
  | mul (w : Width) (rm : RMB)
  /-- DIV (R255). -/
  | div (w : Width) (rm : RMB)
  /-- IDIV (R256). -/
  | idiv (w : Width) (rm : RMB)
  /-- IMUL (R257). -/
  | imul (a : ImulArgs)
  /-- AAA (R260 to R265). -/
  | aaa
  /-- AAS (R260 to R265). -/
  | aas
  /-- DAA (R260 to R265). -/
  | daa
  /-- DAS (R260 to R265). -/
  | das
  /-- AAD (R261). -/
  | aad (base : Byte)
  /-- AAM (R262). -/
  | aam (base : Byte)
  /-- CBW and CWDE, by operand size (R268). -/
  | cbw (w : Width)
  /-- CDQE (R268). -/
  | cdqe
  /-- CWD and CDQ, by operand size (R269). -/
  | cwd (w : Width)
  /-- CQO (R269). -/
  | cqo
  /-- BSWAP (R272). -/
  | bswap (w : Width) (r : Reg)
  /-- LAHF (R285). -/
  | lahf
  /-- SAHF (R801). -/
  | sahf
  /-- LEA (R288). -/
  | lea (w : Width) (r : Reg) (src : RM)
  /-- CMOVO (R275, condition 0H of R330). -/
  | cmovo (w : Width) (r : Reg) (src : RM)
  /-- CMOVNO (R275, condition 1H of R330). -/
  | cmovno (w : Width) (r : Reg) (src : RM)
  /-- CMOVB (R275, condition 2H of R330). -/
  | cmovb (w : Width) (r : Reg) (src : RM)
  /-- CMOVAE (R275, condition 3H of R330). -/
  | cmovae (w : Width) (r : Reg) (src : RM)
  /-- CMOVE (R275, condition 4H of R330). -/
  | cmove (w : Width) (r : Reg) (src : RM)
  /-- CMOVNE (R275, condition 5H of R330). -/
  | cmovne (w : Width) (r : Reg) (src : RM)
  /-- CMOVBE (R275, condition 6H of R330). -/
  | cmovbe (w : Width) (r : Reg) (src : RM)
  /-- CMOVA (R275, condition 7H of R330). -/
  | cmova (w : Width) (r : Reg) (src : RM)
  /-- CMOVS (R275, condition 8H of R330). -/
  | cmovs (w : Width) (r : Reg) (src : RM)
  /-- CMOVNS (R275, condition 9H of R330). -/
  | cmovns (w : Width) (r : Reg) (src : RM)
  /-- CMOVP (R275, condition AH of R330). -/
  | cmovp (w : Width) (r : Reg) (src : RM)
  /-- CMOVNP (R275, condition BH of R330). -/
  | cmovnp (w : Width) (r : Reg) (src : RM)
  /-- CMOVL (R275, condition CH of R330). -/
  | cmovl (w : Width) (r : Reg) (src : RM)
  /-- CMOVGE (R275, condition DH of R330). -/
  | cmovge (w : Width) (r : Reg) (src : RM)
  /-- CMOVLE (R275, condition EH of R330). -/
  | cmovle (w : Width) (r : Reg) (src : RM)
  /-- CMOVG (R275, condition FH of R330). -/
  | cmovg (w : Width) (r : Reg) (src : RM)
  /-- CMPXCHG (R280). -/
  | cmpxchg (w : Width) (dst : RMB) (src : GReg)
  /-- CMPXCHG8B (R281). -/
  | cmpxchg8b (dst : RM)
  /-- CMPXCHG16B (R282). -/
  | cmpxchg16b (dst : RM)
  /-- XCHG (R799). -/
  | xchg (a : XchgArgs)
  /-- XADD (R799). -/
  | xadd (w : Width) (dst : RMB) (src : GReg)
  /-- NOP, and with `pause` the encoding F3 90, PAUSE (R799). -/
  | nop (pause : Bool)
  /-- BSF (R301). -/
  | bsf (w : Width) (r : Reg) (src : RM)
  /-- BSR (R302). -/
  | bsr (w : Width) (r : Reg) (src : RM)
  /-- BT (R305). -/
  | bt (w : Width) (dst : RM) (bit : BitSel)
  /-- BTC (R306). -/
  | btc (w : Width) (dst : RM) (bit : BitSel)
  /-- BTR (R307). -/
  | btr (w : Width) (dst : RM) (bit : BitSel)
  /-- BTS (R308). -/
  | bts (w : Width) (dst : RM) (bit : BitSel)
  /-- JO (R331, R332, condition 0H of R330). -/
  | jo (osz : Width) (rel : Rel)
  /-- JNO (R331, R332, condition 1H of R330). -/
  | jno (osz : Width) (rel : Rel)
  /-- JB (R331, R332, condition 2H of R330). -/
  | jb (osz : Width) (rel : Rel)
  /-- JAE (R331, R332, condition 3H of R330). -/
  | jae (osz : Width) (rel : Rel)
  /-- JE (R331, R332, condition 4H of R330). -/
  | je (osz : Width) (rel : Rel)
  /-- JNE (R331, R332, condition 5H of R330). -/
  | jne (osz : Width) (rel : Rel)
  /-- JBE (R331, R332, condition 6H of R330). -/
  | jbe (osz : Width) (rel : Rel)
  /-- JA (R331, R332, condition 7H of R330). -/
  | ja (osz : Width) (rel : Rel)
  /-- JS (R331, R332, condition 8H of R330). -/
  | js (osz : Width) (rel : Rel)
  /-- JNS (R331, R332, condition 9H of R330). -/
  | jns (osz : Width) (rel : Rel)
  /-- JP (R331, R332, condition AH of R330). -/
  | jp (osz : Width) (rel : Rel)
  /-- JNP (R331, R332, condition BH of R330). -/
  | jnp (osz : Width) (rel : Rel)
  /-- JL (R331, R332, condition CH of R330). -/
  | jl (osz : Width) (rel : Rel)
  /-- JGE (R331, R332, condition DH of R330). -/
  | jge (osz : Width) (rel : Rel)
  /-- JLE (R331, R332, condition EH of R330). -/
  | jle (osz : Width) (rel : Rel)
  /-- JG (R331, R332, condition FH of R330). -/
  | jg (osz : Width) (rel : Rel)
  /-- JCXZ, JECXZ and JRCXZ, by address size (R340). -/
  | jcxz (osz : Width) (asz : ASize) (rel : Byte)
  /-- LOOP (R337). -/
  | loop (osz : Width) (asz : ASize) (rel : Byte)
  /-- LOOPE (R338). -/
  | loope (osz : Width) (asz : ASize) (rel : Byte)
  /-- LOOPNE (R339). -/
  | loopne (osz : Width) (asz : ASize) (rel : Byte)
  /-- JMP near relative (R334). -/
  | jmpRel (osz : Width) (rel : Rel)
  /-- JMP near indirect (R335). -/
  | jmpInd (osz : Width) (src : RM)
  /-- JMP far with the pointer in the instruction (R333). -/
  | jmpFarPtr (osz : Width) (off : BitVec 32) (sel : BitVec 16)
  /-- JMP far with the pointer in memory (R333). -/
  | jmpFarMem (osz : Width) (src : RM)
  /-- CALL near relative (R322). -/
  | callRel (osz : Width) (rel : Rel)
  /-- CALL near indirect (R323). -/
  | callInd (osz : Width) (src : RM)
  /-- CALL far with the pointer in the instruction (R324). -/
  | callFarPtr (osz : Width) (off : BitVec 32) (sel : BitVec 16)
  /-- CALL far with the pointer in memory (R324). -/
  | callFarMem (osz : Width) (src : RM)
  /-- RET near (R790). -/
  | ret (osz : Width) (pop : Option (BitVec 16))
  /-- RET far (R790). -/
  | retFar (osz : Width) (pop : Option (BitVec 16))
  /-- ENTER (R342). -/
  | enter (osz : Width) (size : BitVec 16) (level : Byte)
  /-- LEAVE (R343). -/
  | leave (osz : Width)
  /-- BOUND (R350). -/
  | bound (w : Width) (r : Reg) (src : RM)
  /-- INT imm8 (R345). -/
  | int (vector : Byte)
  /-- INT 3 (R346). -/
  | int3
  /-- INTO (R347). -/
  | into
  /-- IRET and IRETD, by operand size (R348). -/
  | iret (osz : Width)
  /-- IRETQ (R348). -/
  | iretq
  /-- CMPSB (R365). -/
  | cmpsb (a : StrSrc)
  /-- CMPSW and CMPSD, by operand size (R365). -/
  | cmpsw (osz : Width) (a : StrSrc)
  /-- CMPSQ (R365). -/
  | cmpsq (a : StrSrc)
  /-- LODSB (R366). -/
  | lodsb (a : StrSrc)
  /-- LODSW and LODSD, by operand size (R366). -/
  | lodsw (osz : Width) (a : StrSrc)
  /-- LODSQ (R366). -/
  | lodsq (a : StrSrc)
  /-- MOVSB (R796). -/
  | movsb (a : StrSrc)
  /-- MOVSW and MOVSD, by operand size (R796). -/
  | movsw (osz : Width) (a : StrSrc)
  /-- MOVSQ (R796). -/
  | movsq (a : StrSrc)
  /-- STOSB (R796). -/
  | stosb (a : StrDst)
  /-- STOSW and STOSD, by operand size (R796). -/
  | stosw (osz : Width) (a : StrDst)
  /-- STOSQ (R796). -/
  | stosq (a : StrDst)
  /-- SCASB (R796). -/
  | scasb (a : StrDst)
  /-- SCASW and SCASD, by operand size (R796). -/
  | scasw (osz : Width) (a : StrDst)
  /-- SCASQ (R796). -/
  | scasq (a : StrDst)
  /-- INSB (R375). -/
  | insb (a : StrDst)
  /-- INSW and INSD, by operand size (R375). -/
  | insw (osz : Width) (a : StrDst)
  /-- OUTSB (R796). -/
  | outsb (a : StrSrc)
  /-- OUTSW and OUTSD, by operand size (R796). -/
  | outsw (osz : Width) (a : StrSrc)
  /-- IN (R372). -/
  | inp (w : Width) (port : Option Byte)
  /-- OUT (R796). -/
  | outp (w : Width) (port : Option Byte)
  /-- ARPL (R381). -/
  | arpl (dst : RM) (src : Reg)
  /-- CLC (R382). -/
  | clc
  /-- CLD (R383). -/
  | cld
  /-- CLI (R384). -/
  | cli
  /-- CLTS (R385). -/
  | clts
  /-- CMC (R386). -/
  | cmc
  /-- STC (R801). -/
  | stc
  /-- STD (R801). -/
  | std
  /-- STI (R801). -/
  | sti
  /-- CLFLUSH (R401). -/
  | clflush (m : Mem)
  /-- CPUID (R403). -/
  | cpuid
  /-- HLT (R415). -/
  | hlt
  /-- INVD (R417). -/
  | invd
  /-- INVLPG (R418). -/
  | invlpg (m : RM)
  /-- LFENCE (R424). -/
  | lfence
  /-- MFENCE (R804). -/
  | mfence
  /-- SFENCE (R804). -/
  | sfence
  /-- WBINVD (R804). -/
  | wbinvd
  /-- LAR (R420). -/
  | lar (w : Width) (r : Reg) (src : RM)
  /-- LSL (R431). -/
  | lsl (w : Width) (r : Reg) (src : RM)
  /-- LDS (R421). -/
  | lds (w : Width) (r : Reg) (src : RM)
  /-- LES (R421). -/
  | les (w : Width) (r : Reg) (src : RM)
  /-- LSS (R421). -/
  | lss (w : Width) (r : Reg) (src : RM)
  /-- LFS (R421). -/
  | lfs (w : Width) (r : Reg) (src : RM)
  /-- LGS (R421). -/
  | lgs (w : Width) (r : Reg) (src : RM)
  /-- LGDT (R425). -/
  | lgdt (osz : Width) (src : RM)
  /-- LIDT (R426). -/
  | lidt (osz : Width) (src : RM)
  /-- LLDT (R427). -/
  | lldt (src : RM)
  /-- LTR (R432). -/
  | ltr (src : RM)
  /-- LMSW (R428). -/
  | lmsw (src : RM)
  /-- SGDT (R802). -/
  | sgdt (m : Mem)
  /-- SIDT (R802). -/
  | sidt (m : Mem)
  /-- SLDT (R802). -/
  | sldt (osz : Width) (dst : RM)
  /-- STR (R802). -/
  | str (osz : Width) (dst : RM)
  /-- SMSW (R802). -/
  | smsw (osz : Width) (dst : RM)
  /-- VERR (R802). -/
  | verr (src : RM)
  /-- VERW (R802). -/
  | verw (src : RM)
  /-- the LOCK prefix with its instruction (R430). -/
  | lock (t : LockOp)
  /-- FXSAVE (R440). -/
  | fxsave (rexw : Bool) (m : Mem)
  /-- FXRSTOR (R441). -/
  | fxrstor (rexw : Bool) (m : Mem)
  /-- EMMS (R460). -/
  | emms
  /-- F2XM1 (R461). -/
  | f2xm1
  /-- FABS (R462). -/
  | fabs
  /-- FADD (R463). -/
  | fadd (a : FArith)
  /-- FADDP (R463). -/
  | faddp (i : Reg3)
  /-- FIADD (R463). -/
  | fiadd (a : FInt)
  /-- FMUL (R485). -/
  | fmul (a : FArith)
  /-- FMULP (R485). -/
  | fmulp (i : Reg3)
  /-- FIMUL (R485). -/
  | fimul (a : FInt)
  /-- FSUB (R503). -/
  | fsub (a : FArith)
  /-- FSUBP (R503). -/
  | fsubp (i : Reg3)
  /-- FISUB (R503). -/
  | fisub (a : FInt)
  /-- FSUBR (R504). -/
  | fsubr (a : FArith)
  /-- FSUBRP (R504). -/
  | fsubrp (i : Reg3)
  /-- FISUBR (R504). -/
  | fisubr (a : FInt)
  /-- FDIV (R473). -/
  | fdiv (a : FArith)
  /-- FDIVP (R473). -/
  | fdivp (i : Reg3)
  /-- FIDIV (R473). -/
  | fidiv (a : FInt)
  /-- FDIVR (R474). -/
  | fdivr (a : FArith)
  /-- FDIVRP (R474). -/
  | fdivrp (i : Reg3)
  /-- FIDIVR (R474). -/
  | fidivr (a : FInt)
  /-- FBLD (R464). -/
  | fbld (m : FMem)
  /-- FBSTP (R465). -/
  | fbstp (m : FMem)
  /-- FCHS (R466). -/
  | fchs
  /-- FNCLEX (R467). -/
  | fnclex
  /-- FCMOVB (R468). -/
  | fcmovb (i : Reg3)
  /-- FCMOVE (R468). -/
  | fcmove (i : Reg3)
  /-- FCMOVBE (R468). -/
  | fcmovbe (i : Reg3)
  /-- FCMOVU (R468). -/
  | fcmovu (i : Reg3)
  /-- FCMOVNB (R468). -/
  | fcmovnb (i : Reg3)
  /-- FCMOVNE (R468). -/
  | fcmovne (i : Reg3)
  /-- FCMOVNBE (R468). -/
  | fcmovnbe (i : Reg3)
  /-- FCMOVNU (R468). -/
  | fcmovnu (i : Reg3)
  /-- FCOM (R469). -/
  | fcom (a : FCmp)
  /-- FCOMP (R469). -/
  | fcomp (a : FCmp)
  /-- FCOMPP (R469). -/
  | fcompp
  /-- FCOMI (R470). -/
  | fcomi (i : Reg3)
  /-- FCOMIP (R470). -/
  | fcomip (i : Reg3)
  /-- FUCOMI (R470). -/
  | fucomi (i : Reg3)
  /-- FUCOMIP (R470). -/
  | fucomip (i : Reg3)
  /-- FCOS (R471). -/
  | fcos
  /-- FDECSTP (R472). -/
  | fdecstp
  /-- FFREE (R475). -/
  | ffree (i : Reg3)
  /-- FICOM (R476). -/
  | ficom (a : FInt)
  /-- FICOMP (R476). -/
  | ficomp (a : FInt)
  /-- FILD (R477). -/
  | fild (a : FIntL)
  /-- FINCSTP (R478). -/
  | fincstp
  /-- FNINIT (R487). -/
  | fninit
  /-- FIST (R479). -/
  | fist (a : FInt)
  /-- FISTP (R479). -/
  | fistp (a : FIntL)
  /-- FISTTP (R480). -/
  | fisttp (a : FIntL)
  /-- FLD (R481). -/
  | fld (a : FLong)
  /-- FLD1 (R482). -/
  | fld1
  /-- FLDL2T (R482). -/
  | fldl2t
  /-- FLDL2E (R482). -/
  | fldl2e
  /-- FLDPI (R482). -/
  | fldpi
  /-- FLDLG2 (R482). -/
  | fldlg2
  /-- FLDLN2 (R482). -/
  | fldln2
  /-- FLDZ (R482). -/
  | fldz
  /-- FLDCW (R483). -/
  | fldcw (m : FMem)
  /-- FLDENV (R484). -/
  | fldenv (osz : Width) (m : FMem)
  /-- FNOP (R486). -/
  | fnop
  /-- FPATAN (R488). -/
  | fpatan
  /-- FPREM (R489). -/
  | fprem
  /-- FPREM1 (R490). -/
  | fprem1
  /-- FPTAN (R491). -/
  | fptan
  /-- FRNDINT (R492). -/
  | frndint
  /-- FRSTOR (R493). -/
  | frstor (osz : Width) (m : FMem)
  /-- FNSAVE (R494). -/
  | fnsave (osz : Width) (m : FMem)
  /-- FSCALE (R495). -/
  | fscale
  /-- FSIN (R496). -/
  | fsin
  /-- FSINCOS (R497). -/
  | fsincos
  /-- FSQRT (R498). -/
  | fsqrt
  /-- FST (R499). -/
  | fst (a : FCmp)
  /-- FSTP (R499). -/
  | fstp (a : FLong)
  /-- FNSTCW (R500). -/
  | fnstcw (m : FMem)
  /-- FNSTENV (R501). -/
  | fnstenv (osz : Width) (m : FMem)
  /-- FNSTSW (R502). -/
  | fnstsw (a : FSw)
  /-- FTST (R505). -/
  | ftst
  /-- FUCOM (R506). -/
  | fucom (i : Reg3)
  /-- FUCOMP (R506). -/
  | fucomp (i : Reg3)
  /-- FUCOMPP (R506). -/
  | fucompp
  /-- WAIT (R507). -/
  | wait
  /-- FXAM (R508). -/
  | fxam
  /-- FXCH (R509). -/
  | fxch (i : Reg3)
  /-- FXTRACT (R510). -/
  | fxtract
  /-- FYL2X (R511). -/
  | fyl2x
  /-- FYL2XP1 (R512). -/
  | fyl2xp1
  /-- ADDPD (R580). -/
  | addpd (dst : Reg) (src : XM)
  /-- ADDPS (R581). -/
  | addps (dst : Reg) (src : XM)
  /-- ADDSD (R582). -/
  | addsd (dst : Reg) (src : XM)
  /-- ADDSS (R583). -/
  | addss (dst : Reg) (src : XM)
  /-- ADDSUBPD (R584). -/
  | addsubpd (dst : Reg) (src : XM)
  /-- ADDSUBPS (R585). -/
  | addsubps (dst : Reg) (src : XM)
  /-- HADDPD (R586). -/
  | haddpd (dst : Reg) (src : XM)
  /-- HADDPS (R587). -/
  | haddps (dst : Reg) (src : XM)
  /-- HSUBPD (R588). -/
  | hsubpd (dst : Reg) (src : XM)
  /-- HSUBPS (R589). -/
  | hsubps (dst : Reg) (src : XM)
  /-- DIVPD (R590). -/
  | divpd (dst : Reg) (src : XM)
  /-- DIVPS (R591). -/
  | divps (dst : Reg) (src : XM)
  /-- DIVSD (R592). -/
  | divsd (dst : Reg) (src : XM)
  /-- DIVSS (R593). -/
  | divss (dst : Reg) (src : XM)
  /-- ANDPD (R595). -/
  | andpd (dst : Reg) (src : XM)
  /-- ANDPS (R596). -/
  | andps (dst : Reg) (src : XM)
  /-- ANDNPD (R597). -/
  | andnpd (dst : Reg) (src : XM)
  /-- ANDNPS (R598). -/
  | andnps (dst : Reg) (src : XM)
  /-- CMPPD (R601). -/
  | cmppd (dst : Reg) (src : XM) (pred : Byte)
  /-- CMPPS (R602). -/
  | cmpps (dst : Reg) (src : XM) (pred : Byte)
  /-- CMPSD (R603). -/
  | cmpsd (dst : Reg) (src : XM) (pred : Byte)
  /-- CMPSS (R604). -/
  | cmpss (dst : Reg) (src : XM) (pred : Byte)
  /-- COMISD (R605). -/
  | comisd (dst : Reg) (src : XM)
  /-- COMISS (R606). -/
  | comiss (dst : Reg) (src : XM)
  /-- CVTDQ2PD (R622). -/
  | cvtdq2pd (dst : Reg) (src : XM)
  /-- CVTDQ2PS (R623). -/
  | cvtdq2ps (dst : Reg) (src : XM)
  /-- CVTPD2DQ (R624). -/
  | cvtpd2dq (dst : Reg) (src : XM)
  /-- CVTPD2PS (R625). -/
  | cvtpd2ps (dst : Reg) (src : XM)
  /-- CVTPS2DQ (R626). -/
  | cvtps2dq (dst : Reg) (src : XM)
  /-- CVTPS2PD (R627). -/
  | cvtps2pd (dst : Reg) (src : XM)
  /-- CVTTPD2DQ (R628). -/
  | cvttpd2dq (dst : Reg) (src : XM)
  /-- CVTTPS2DQ (R629). -/
  | cvttps2dq (dst : Reg) (src : XM)
  /-- CVTPD2PI (R630). -/
  | cvtpd2pi (dst : Reg3) (src : XM)
  /-- CVTPS2PI (R633). -/
  | cvtps2pi (dst : Reg3) (src : XM)
  /-- CVTTPD2PI (R634). -/
  | cvttpd2pi (dst : Reg3) (src : XM)
  /-- CVTTPS2PI (R635). -/
  | cvttps2pi (dst : Reg3) (src : XM)
  /-- CVTPI2PD (R631). -/
  | cvtpi2pd (dst : Reg) (src : MM)
  /-- CVTPI2PS (R632). -/
  | cvtpi2ps (dst : Reg) (src : MM)
  /-- CVTSD2SI (R636). -/
  | cvtsd2si (w : Width) (dst : Reg) (src : XM)
  /-- CVTTSD2SI (R642). -/
  | cvttsd2si (w : Width) (dst : Reg) (src : XM)
  /-- CVTSS2SI (R641). -/
  | cvtss2si (w : Width) (dst : Reg) (src : XM)
  /-- CVTTSS2SI (R643). -/
  | cvttss2si (w : Width) (dst : Reg) (src : XM)
  /-- CVTSD2SS (R637). -/
  | cvtsd2ss (dst : Reg) (src : XM)
  /-- CVTSS2SD (R640). -/
  | cvtss2sd (dst : Reg) (src : XM)
  /-- CVTSI2SD (R638). -/
  | cvtsi2sd (w : Width) (dst : Reg) (src : RM)
  /-- CVTSI2SS (R639). -/
  | cvtsi2ss (w : Width) (dst : Reg) (src : RM)
  /-- LDDQU (R650). -/
  | lddqu (dst : Reg) (src : XM)
  /-- LDMXCSR (R651). -/
  | ldmxcsr (m : Mem)
  /-- MOV between registers, memory and immediates (R781). -/
  | mov (a : MovArgs)
  /-- MOV with a direct memory offset (R782). -/
  | movMoffs (store : Bool) (w : Width) (seg : SReg) (asz : ASize) (off : Word)
  /-- MOV from a control register (R785). -/
  | movFromCr (cr : Reg) (r : Reg)
  /-- MOV to a control register (R785). -/
  | movToCr (cr : Reg) (r : Reg)
  /-- MOV from a debug register (R786). -/
  | movFromDr (dr : Reg) (r : Reg)
  /-- MOV to a debug register (R786). -/
  | movToDr (dr : Reg) (r : Reg)
  /-- MOV from a segment register (R787). -/
  | movFromSreg (osz : Width) (dst : RM) (sr : Reg3)
  /-- MOV to a segment register (R787). -/
  | movToSreg (sr : Reg3) (src : RM)
  /-- MOVSXD (R783). -/
  | movsxd (w : Width) (r : Reg) (src : RM)
  /-- MOVZX (R784). -/
  | movzx (w : Width) (sw : Width) (r : Reg) (src : RMB)
  /-- MOVSX (R784). -/
  | movsx (w : Width) (sw : Width) (r : Reg) (src : RMB)
  /-- PUSH (R787, R788). -/
  | push (a : PushArgs)
  /-- POP (R787, R788). -/
  | pop (a : PopArgs)
  /-- PUSHF, PUSHFD and PUSHFQ, by operand size (R789). -/
  | pushf (osz : Width)
  /-- POPF, POPFD and POPFQ, by operand size (R789). -/
  | popf (osz : Width)
  /-- PUSHA and PUSHAD, by operand size (R789). -/
  | pusha (osz : Width)
  /-- POPA and POPAD, by operand size (R789). -/
  | popa (osz : Width)
  /-- SWAPGS (R791). -/
  | swapgs
  /-- SYSCALL (R792). -/
  | syscall
  /-- SYSRET (R793). -/
  | sysret (rexw : Bool)
  /-- SYSENTER (R794). -/
  | sysenter
  /-- SYSEXIT (R794). -/
  | sysexit
  /-- WRMSR (R795). -/
  | wrmsr
  /-- RDMSR (R795). -/
  | rdmsr
  /-- ROL (R797). -/
  | rol (w : Width) (rm : RMB) (cnt : ShiftCount)
  /-- ROR (R797). -/
  | ror (w : Width) (rm : RMB) (cnt : ShiftCount)
  /-- RCL (R797). -/
  | rcl (w : Width) (rm : RMB) (cnt : ShiftCount)
  /-- RCR (R797). -/
  | rcr (w : Width) (rm : RMB) (cnt : ShiftCount)
  /-- SHL (R797). -/
  | shl (w : Width) (rm : RMB) (cnt : ShiftCount)
  /-- SHR (R797). -/
  | shr (w : Width) (rm : RMB) (cnt : ShiftCount)
  /-- SAR (R797). -/
  | sar (w : Width) (rm : RMB) (cnt : ShiftCount)
  /-- SHLD, by an immediate or by CL (R797). -/
  | shld (w : Width) (dst : RM) (src : Reg) (cnt : Option Byte)
  /-- SHRD, by an immediate or by CL (R797). -/
  | shrd (w : Width) (dst : RM) (src : Reg) (cnt : Option Byte)
  /-- UD2 (R800). -/
  | ud2
  /-- SETO (R801, condition 0H of R330). -/
  | seto (dst : RMB)
  /-- SETNO (R801, condition 1H of R330). -/
  | setno (dst : RMB)
  /-- SETB (R801, condition 2H of R330). -/
  | setb (dst : RMB)
  /-- SETAE (R801, condition 3H of R330). -/
  | setae (dst : RMB)
  /-- SETE (R801, condition 4H of R330). -/
  | sete (dst : RMB)
  /-- SETNE (R801, condition 5H of R330). -/
  | setne (dst : RMB)
  /-- SETBE (R801, condition 6H of R330). -/
  | setbe (dst : RMB)
  /-- SETA (R801, condition 7H of R330). -/
  | seta (dst : RMB)
  /-- SETS (R801, condition 8H of R330). -/
  | sets (dst : RMB)
  /-- SETNS (R801, condition 9H of R330). -/
  | setns (dst : RMB)
  /-- SETP (R801, condition AH of R330). -/
  | setp (dst : RMB)
  /-- SETNP (R801, condition BH of R330). -/
  | setnp (dst : RMB)
  /-- SETL (R801, condition CH of R330). -/
  | setl (dst : RMB)
  /-- SETGE (R801, condition DH of R330). -/
  | setge (dst : RMB)
  /-- SETLE (R801, condition EH of R330). -/
  | setle (dst : RMB)
  /-- SETG (R801, condition FH of R330). -/
  | setg (dst : RMB)
  /-- RDTSC (R803). -/
  | rdtsc
  /-- RDPMC (R803). -/
  | rdpmc
  /-- MONITOR (R804). -/
  | monitor
  /-- MWAIT (R804). -/
  | mwait
  /-- RSM (R804). -/
  | rsm
  /-- XLAT (R804). -/
  | xlat (asz : ASize) (seg : SReg)
  deriving DecidableEq, Repr

end Sys2Proof
end

