-- ==== Sys2Proof/Machine/Regs.lean ====
section
/-! DEFINITION. The operating mode, the privilege level, the flags and the general registers (10_state.md rules R30 to
R54, 60_exceptions.md rule R720). -/

namespace Sys2Proof.Machine

/-- The operating modes (R3, R52). -/
inductive Mode where
  | real | v86 | prot | compat | long64
  deriving DecidableEq, Repr

/-- Sets bit `i` of `v` to `b`. -/
def putBit {n : Nat} (v : BitVec n) (i : Nat) (b : Bool) : BitVec n :=
  if b then v ||| BitVec.twoPow n i else v &&& ~~~(BitVec.twoPow n i)

/-- EFLAGS bit numbers (R45). -/
abbrev fCF : Nat := 0
abbrev fPF : Nat := 2
abbrev fAF : Nat := 4
abbrev fZF : Nat := 6
abbrev fSF : Nat := 7
abbrev fTF : Nat := 8
abbrev fIF : Nat := 9
abbrev fDF : Nat := 10
abbrev fOF : Nat := 11
abbrev fNT : Nat := 14
abbrev fRF : Nat := 16
abbrev fVM : Nat := 17
abbrev fAC : Nat := 18
abbrev fVIF : Nat := 19
abbrev fVIP : Nat := 20
abbrev fID : Nat := 21

/-- One bit of EFLAGS. -/
def State.flag (s : State) (i : Nat) : Bool := s.rflags.getLsbD i

/-- The state with EFLAGS replaced. -/
def State.setRflags (s : State) (v : BitVec 32) : State := { s with rflags := v }

/-- Sets one bit of EFLAGS. -/
def State.setFlag (s : State) (i : Nat) (b : Bool) : State := s.setRflags (putBit s.rflags i b)

/-- CR0.PE, bit 0 (R54). -/
def State.pe (s : State) : Bool := s.cr0.getLsbD 0
/-- CR0.PG, bit 31 (R54). -/
def State.pg (s : State) : Bool := s.cr0.getLsbD 31
/-- IA32_EFER.LMA, bit 10 (R50). -/
def State.lma (s : State) : Bool := s.efer.getLsbD 10

/-- The operating mode (R52). -/
def State.mode (s : State) : Mode :=
  if s.lma then (if s.cs.l then .long64 else .compat)
  else if !s.pe then .real
  else if s.flag fVM then .v86
  else .prot

/-- Whether the processor is in 64-bit mode. -/
def State.is64 (s : State) : Bool := s.mode == .long64

/-- Whether the processor is in real-address or virtual-8086 mode, where selectors are paragraph numbers. -/
def State.paragraphs (s : State) : Bool := s.mode == .real || s.mode == .v86

/-- The current privilege level: the RPL of CS, 0 in real-address mode, 3 in virtual-8086 mode (R720, R105). Protected
mode that has just been entered takes the low two bits of the selector CS still holds, whatever they are (DESIGN CHOICE,
log 111). -/
def State.cpl (s : State) : Nat :=
  match s.mode with
  | .real => 0
  | .v86 => 3
  | _ => (s.cs.sel &&& 3).toNat

/-- IOPL, EFLAGS bits 13:12 (R45). -/
def State.iopl (s : State) : Nat := (s.rflags.extractLsb' 12 2).toNat

/-- The sub-mode's code size as the decoder sees it: 64-bit mode, or 32- or 16-bit code by CS.D; real-address and
virtual-8086 modes default to 16 (R52, R177). -/
inductive CodeSize where
  | c16 | c32 | c64
  deriving DecidableEq, Repr

/-- The code size in force (R52, R177). -/
def State.codeSize (s : State) : CodeSize :=
  match s.mode with
  | .long64 => .c64
  | .real => .c16
  | .v86 => .c16
  | _ => if s.cs.db then .c32 else .c16

/-- A general register, all 64 bits. -/
def State.get (s : State) (r : Reg) : Word := s.gpr[r.toNat]'(r.isLt)

/-- The state with a general register replaced, all 64 bits. -/
def State.put (s : State) (r : Reg) (v : Word) : State := { s with gpr := s.gpr.set r.toNat v r.isLt }

/-- `RegRead(n, w)` for the low part of a register (R33). -/
def State.readReg (s : State) (w : Width) (r : Reg) : BitVec w.bits := (s.get r).setWidth w.bits

/-- What a write of width `w` leaves in a 64-bit register: a 32-bit write clears the upper half, an 8- or 16-bit write
keeps the rest (R34). -/
def mergeReg : (w : Width) → Word → BitVec w.bits → Word
  | .b64, _, v => v
  | .b32, _, v => v.setWidth 64
  | .b16, old, v => old.extractLsb' 16 48 ++ v
  | .b8, old, v => old.extractLsb' 8 56 ++ v

/-- `RegWrite(n, w, v)` for the low part of a register (R34). -/
def State.writeReg (s : State) (w : Width) (r : Reg) (v : BitVec w.bits) : State :=
  s.put r (mergeReg w (s.get r) v)

/-- The register that holds the high byte AH, CH, DH or BH (R31). -/
def highReg (h : BitVec 2) : Reg := h.setWidth 4

/-- `RegRead(n, w)` (R33). -/
def State.readGReg (s : State) (w : Width) : GReg → BitVec w.bits
  | .full r => s.readReg w r
  | .high h => ((s.get (highReg h)).extractLsb' 8 8).setWidth w.bits

/-- `RegWrite(n, w, v)` (R34). -/
def State.writeGReg (s : State) (w : Width) (g : GReg) (v : BitVec w.bits) : State :=
  match g with
  | .full r => s.writeReg w r v
  | .high h =>
    let old := s.get (highReg h)
    s.put (highReg h) (old.extractLsb' 16 48 ++ v.setWidth 8 ++ old.extractLsb' 0 8)

/-- A segment register by name (R63). -/
def State.seg (s : State) : SReg → SegReg
  | .es => s.es
  | .cs => s.cs
  | .ss => s.ss
  | .ds => s.ds
  | .fs => s.fs
  | .gs => s.gs

/-- The state with a segment register replaced. -/
def State.setSeg (s : State) (r : SReg) (v : SegReg) : State :=
  match r with
  | .es => { s with es := v }
  | .cs => { s with cs := v }
  | .ss => { s with ss := v }
  | .ds => { s with ds := v }
  | .fs => { s with fs := v }
  | .gs => { s with gs := v }

/-- The state with the instruction pointer replaced. -/
def State.setRip (s : State) (v : Word) : State := { s with rip := v }

/-- The width of an address size. -/
def asizeWidth : ASize → Width
  | .a16 => .b16
  | .a32 => .b32
  | .a64 => .b64

/-- Truncates an address to an address size and extends it with zeros (R111, R113). -/
def asizeTrunc : ASize → Word → Word
  | .a16, a => a &&& 0xFFFF
  | .a32, a => a &&& 0xFFFFFFFF
  | .a64, a => a

/-- Truncates an offset to an operand width and extends it with zeros, an instruction pointer of 16 bits too (R320; against
the table of R40: DEDUCED, log 85). -/
def truncTo (w : Width) (a : Word) : Word := (a.setWidth w.bits).setWidth 64

/-- The effective address of a memory operand (R110 to R112): base, scaled index and displacement, truncated to the
address size. A RIP-relative operand counts from the next instruction. -/
def State.effAddr (s : State) (m : Mem) : Word :=
  let base : Word := match m.base with
    | .none => 0
    | .reg r => s.get r
    | .rip => s.nextPc
  let index : Word := match m.index with
    | none => 0
    | some i => s.get i.reg <<< i.scale.toNat
  asizeTrunc m.asz (base + index + m.disp)

/-- RAX, RCX, RDX, RBX, RSP, RBP, RSI, RDI by number (R30). -/
abbrev rAX : Reg := 0
abbrev rCX : Reg := 1
abbrev rDX : Reg := 2
abbrev rBX : Reg := 3
abbrev rSP : Reg := 4
abbrev rBP : Reg := 5
abbrev rSI : Reg := 6
abbrev rDI : Reg := 7

/-- Bits 63:32 of the eight legacy registers take values the spec leaves open (R35, R756,
93_implementation_defined.md U1). -/
def State.scrambleUpper (s : State) : State :=
  let half (n : Reg) (t : State) : State :=
    t.put n ((Config.freeValue (s.freeCount + n.toNat)).extractLsb' 0 32 ++ (t.get n).extractLsb' 0 32)
  let t := half 7 (half 6 (half 5 (half 4 (half 3 (half 2 (half 1 (half 0 s)))))))
  { t with freeCount := s.freeCount + 8 }

/-- Loads CS, and with it the sub-mode: when 64-bit mode is entered from another mode, the upper halves of the legacy
registers are open values (R756, 93_implementation_defined.md U1). -/
def State.loadCs (s : State) (c : SegReg) : State :=
  let t := { s with cs := c }
  if t.is64 && !s.is64 then t.scrambleUpper else t

end Sys2Proof.Machine
end

