-- ==== Sys2Proof/Machine/Flags.lean ====
section
/-! DEFINITION. The status flags: the flag computations of R241, the condition codes of R330, and the writing of open
flag values (93_implementation_defined.md U2). -/

namespace Sys2Proof.Machine

/-- The six status flags (R45). -/
structure Status where
  cf : Bool
  pf : Bool
  af : Bool
  zf : Bool
  sf : Bool
  of : Bool
  deriving DecidableEq, Repr

/-- The EFLAGS bits of the six status flags: CF, PF, AF, ZF, SF, OF. -/
abbrev statusMask : BitVec 32 := 0x8D5

/-- One bit as a 32-bit number at position `i`. -/
def bitAt (b : Bool) (i : Nat) : BitVec 32 := if b then BitVec.twoPow 32 i else 0

/-- The six flags in their EFLAGS positions. -/
def Status.bits (f : Status) : BitVec 32 :=
  bitAt f.cf fCF ||| bitAt f.pf fPF ||| bitAt f.af fAF ||| bitAt f.zf fZF ||| bitAt f.sf fSF ||| bitAt f.of fOF

/-- EFLAGS with the bits of `mask` replaced by those of `v`. -/
def maskFlags (f mask v : BitVec 32) : BitVec 32 := (f &&& ~~~mask) ||| (v &&& mask)

/-- The state with the status flags of `mask` replaced by those of `f`. -/
def State.setStatus (s : State) (mask : BitVec 32) (f : Status) : State :=
  s.setRflags (maskFlags s.rflags mask f.bits)

/-- Sets the flags of `mask` from `f`. -/
def setFlags (mask : BitVec 32) (f : Status) : M Unit := upd (·.setStatus mask f)

/-- Gives the flags of `mask` values the spec leaves open (93_implementation_defined.md U2). -/
def openFlags (mask : BitVec 32) : M Unit := do
  let v ← draw
  upd fun s => s.setRflags (maskFlags s.rflags mask (v.extractLsb' 0 32))

/-- PF: the low byte has an even number of 1 bits (R241). -/
def parity {n : Nat} (r : BitVec n) : Bool :=
  !(r.getLsbD 0 ^^ r.getLsbD 1 ^^ r.getLsbD 2 ^^ r.getLsbD 3 ^^ r.getLsbD 4 ^^ r.getLsbD 5 ^^ r.getLsbD 6 ^^
    r.getLsbD 7)

/-- The low four bits as a number. -/
def lowNibble {n : Nat} (a : BitVec n) : Nat := a.toNat % 16

/-- `a + b + cin` (R241). -/
def addRes {n : Nat} (a b : BitVec n) (cin : Bool) : BitVec n := a + b + BitVec.ofNat n cin.toNat

/-- The flags of `a + b + cin` (R241). -/
def addStatus {n : Nat} (a b : BitVec n) (cin : Bool) : Status :=
  let r := addRes a b cin
  { cf := decide (2 ^ n ≤ a.toNat + b.toNat + cin.toNat)
    of := a.msb == b.msb && r.msb != a.msb
    af := decide (15 < lowNibble a + lowNibble b + cin.toNat)
    sf := r.msb
    zf := r == 0
    pf := parity r }

/-- `a - b - bin` (R241). -/
def subRes {n : Nat} (a b : BitVec n) (bin : Bool) : BitVec n := a - b - BitVec.ofNat n bin.toNat

/-- The flags of `a - b - bin` (R241). -/
def subStatus {n : Nat} (a b : BitVec n) (bin : Bool) : Status :=
  let r := subRes a b bin
  { cf := decide (a.toNat < b.toNat + bin.toNat)
    of := a.msb != b.msb && r.msb != a.msb
    af := decide (lowNibble a < lowNibble b + bin.toNat)
    sf := r.msb
    zf := r == 0
    pf := parity r }

/-- SF, ZF and PF of a result, with CF and OF clear: the flags of a logical operation but for AF, which is open
(R241). -/
def logicStatus {n : Nat} (r : BitVec n) : Status :=
  { cf := false, of := false, af := false, sf := r.msb, zf := r == 0, pf := parity r }

/-- Sets the flags of a logical operation: AF is an open value (R241). -/
def setLogic {n : Nat} (r : BitVec n) : M Unit := do
  setFlags statusMask (logicStatus r)
  openFlags 0x10

/-- The condition codes by number (R330). -/
def State.cond (s : State) (t : BitVec 4) : Bool :=
  match t.toNat with
  | 0 => s.flag fOF
  | 1 => !s.flag fOF
  | 2 => s.flag fCF
  | 3 => !s.flag fCF
  | 4 => s.flag fZF
  | 5 => !s.flag fZF
  | 6 => s.flag fCF || s.flag fZF
  | 7 => !s.flag fCF && !s.flag fZF
  | 8 => s.flag fSF
  | 9 => !s.flag fSF
  | 10 => s.flag fPF
  | 11 => !s.flag fPF
  | 12 => s.flag fSF != s.flag fOF
  | 13 => s.flag fSF == s.flag fOF
  | 14 => s.flag fZF || s.flag fSF != s.flag fOF
  | _ => !s.flag fZF && s.flag fSF == s.flag fOF

end Sys2Proof.Machine
end

