-- ==== Sys2Proof/Machine/Memory.lean ====
section
/-! DEFINITION. Physical memory, paging, segmentation and the access pipeline (20_memory.md rules R100 to R148). -/

namespace Sys2Proof.Machine

/-- What an address without an entry reads as: 0. The spec gives RAM no contents (DESIGN CHOICE, unsafe: the log's
entry on memory). -/
def unlistedByte : Byte := 0

/-- The byte at a physical address. -/
def memGet : List Host.Cell → Nat → Byte
  | [], _ => unlistedByte
  | (k, b) :: t, a => if a < k then unlistedByte else if k = a then b else memGet t a

/-- The memory with one byte replaced, in canonical form: addresses strictly rising, no entry that equals what an
unlisted address reads as. -/
def memSet : List Host.Cell → Nat → Byte → List Host.Cell
  | [], a, v => if v = unlistedByte then [] else [(a, v)]
  | (k, b) :: t, a, v =>
    if a < k then (if v = unlistedByte then (k, b) :: t else (a, v) :: (k, b) :: t)
    else if k = a then (if v = unlistedByte then t else (a, v) :: t)
    else (k, b) :: memSet t a v

/-- The canonical form of memory: addresses strictly rising from `lo`, no entry that an unlisted address reads as. -/
def memWfFrom : Nat → List Host.Cell → Bool
  | _, [] => true
  | lo, (k, b) :: t => decide (lo ≤ k) && b != unlistedByte && memWfFrom (k + 1) t

/-- The canonical form of memory. -/
def Memory.wf (m : List Host.Cell) : Bool := memWfFrom 0 m

/-- The byte of physical memory at `a` (R100). -/
def State.byteAt (s : State) (a : Nat) : Byte := memGet s.mem a

/-- The state with one byte of physical memory replaced. -/
def State.setByte (s : State) (a : Nat) (v : Byte) : State := { s with mem := memSet s.mem a v }

/-- The `n` bytes from physical address `a` as a little-endian number (R100). -/
def readPhysLE (m : List Host.Cell) (a : Nat) : Nat → Nat
  | 0 => 0
  | n + 1 => (memGet m a).toNat + 256 * readPhysLE m (a + 1) n

/-- Stores the low `n` bytes of `v` from physical address `a`, low-order byte first (R100). -/
def writePhysLE (m : List Host.Cell) (a : Nat) : Nat → Nat → List Host.Cell
  | 0, _ => m
  | n + 1, v => writePhysLE (memSet m a (BitVec.ofNat 8 v)) (a + 1) n (v / 256)

/-- A read of physical memory, as table walks make it. -/
def physRead (a n : Nat) : M Nat := readS fun s => readPhysLE s.mem a n

/-- A write of physical memory, as table walks make it. -/
def physWrite (a n v : Nat) : M Unit := upd fun s => { s with mem := writePhysLE s.mem a n v }

/-! ### Canonical addresses (R120) -/

/-- `Canonical(a)` (R120). -/
def canonical (a : Word) : Bool :=
  let top := a.extractLsb' (Config.vaBits - 1) (65 - Config.vaBits)
  top == 0 || top == BitVec.allOnes _

/-- Whether every byte of `[a, a+n-1]` is canonical (R121, decision D6). The bytes that are not canonical form one
range far longer than any access, so the two ends decide. -/
def canonicalRange (a : Word) (n : Nat) : Bool := canonical a && canonical (a + BitVec.ofNat 64 (n - 1))

/-! ### Paging (R135 to R147) -/

/-- What a translation is for: a write, and whether it is made at CPL 3 (R143, R145). -/
structure Purpose where
  write : Bool
  user : Bool
  deriving DecidableEq, Repr

/-- The page-fault exception: P, W/R, U/S and RSVD in the error code, the linear address for CR2 (R145). -/
def pageFault (la : Word) (pu : Purpose) (present reserved : Bool) : Event :=
  let c : BitVec 32 := (if present then 1 else 0) ||| (if pu.write then 2 else 0) ||| (if pu.user then 4 else 0) |||
    (if reserved then 8 else 0)
  { vector := 14, kind := .fault, code := some c, cr2 := some la }

/-- CR0.WP, bit 16 (R54). -/
def State.wp (s : State) : Bool := s.cr0.getLsbD 16

/-- Reads a paging-structure entry of `n` bytes and checks its P flag and its checked reserved bits (R141, R144). -/
def readEntry (la : Word) (pu : Purpose) (a n : Nat) (reserved : Word → Word) : M Word := do
  let e := BitVec.ofNat 64 (← physRead a n)
  raiseIf (!e.getLsbD 0) (pageFault la pu false false)
  raiseIf (e &&& reserved e != 0) (pageFault la pu true true)
  pure e

/-- Sets flags in the paging-structure entry of `n` bytes at `a`: A, and D on a write (R146). The entry is read again, so
that a table that serves at several levels keeps the flags of all of them. -/
def markEntry (a n : Nat) (flags : Word) : M Unit := do
  let e := BitVec.ofNat 64 (← physRead a n)
  if e &&& flags == flags then pure () else physWrite a n (e ||| flags).toNat

/-- The protection check on the combined U/S and R/W of a walk (R143). -/
def checkPage (la : Word) (pu : Purpose) (us rw : Bool) : M Unit := do
  let wp ← readS State.wp
  raiseIf ((pu.user && !us) || (pu.write && !rw && (pu.user || wp))) (pageFault la pu true false)

/-- The flags a walk sets in its last entry: A, and D on a write (R146). -/
def leafFlags (pu : Purpose) : Word := if pu.write then 0x60 else 0x20

/-- Bits PA_BITS-1:12 of an entry: the base of the next table or page (R136 to R140). -/
def entryBase (e : Word) : Nat := (e.extractLsb' 12 (Config.paBits - 12)).toNat * 4096

/-- The word whose bits `hi` down to `lo` are set. -/
def bitRange (hi lo : Nat) : Word := (BitVec.allOnes 64 <<< lo) &&& (BitVec.allOnes 64 >>> (63 - hi))

/-- The checked reserved bits of an IA-32e entry that is not a 2-MByte page: 63 and 51:PA_BITS (R144). -/
def rsvd64 (_ : Word) : Word := bitRange 63 63 ||| bitRange 51 Config.paBits

/-- The reserved bits 20:13 of an entry that is a 2-MByte page (R144). -/
def rsvdLarge (e : Word) : Word := if e.getLsbD 7 then bitRange 20 13 else 0

/-- The checked reserved bits of an IA-32e page-directory entry: with PS = 1 also 20:13 (R144). -/
def rsvdPde64 (e : Word) : Word := rsvd64 e ||| rsvdLarge e

/-- The checked reserved bits of a legacy PAE entry: 63:PA_BITS (R144). -/
def rsvdPae (_ : Word) : Word := bitRange 63 Config.paBits

/-- The checked reserved bits of a legacy PAE page-directory-pointer entry: 63:PA_BITS, 8:5 and 2:1 (R144). -/
def rsvdPaePdpte (e : Word) : Word := rsvdPae e ||| bitRange 8 5 ||| bitRange 2 1

/-- The checked reserved bits of a legacy PAE page-directory entry: with PS = 1 also 20:13 (R144). -/
def rsvdPaePde (e : Word) : Word := rsvdPae e ||| rsvdLarge e

/-- Nine index bits of a linear address (R141). -/
def tableIndex (la : Word) (lo : Nat) : Nat := (la.extractLsb' lo 9).toNat

/-- The last two levels of a PAE-format walk, from the page directory (R137 to R141): a 2-MByte page, or a page table
and a 4-KByte page. `us` and `rw` are the combined flags of the levels above. -/
def walkDirectory (la : Word) (pu : Purpose) (rsvdPde rsvdPte : Word → Word) (dir : Nat) (us rw : Bool) : M Nat := do
  let da := dir + 8 * tableIndex la 21
  let d ← readEntry la pu da 8 rsvdPde
  let us := us && d.getLsbD 2
  let rw := rw && d.getLsbD 1
  if d.getLsbD 7 then
    checkPage la pu us rw
    markEntry da 8 (leafFlags pu)
    pure ((d.extractLsb' 21 (Config.paBits - 21)).toNat * 0x200000 + (la.extractLsb' 0 21).toNat)
  else
    let ta := entryBase d + 8 * tableIndex la 12
    let e ← readEntry la pu ta 8 rsvdPte
    checkPage la pu (us && e.getLsbD 2) (rw && e.getLsbD 1)
    markEntry da 8 0x20
    markEntry ta 8 (leafFlags pu)
    pure (entryBase e + (la.extractLsb' 0 12).toNat)

/-- The four-level walk of IA-32e mode (R135, R141). -/
def walk64 (la : Word) (pu : Purpose) : M Nat := do
  let cr3 ← readS (·.cr3)
  let a4 := entryBase cr3 + 8 * tableIndex la 39
  let e4 ← readEntry la pu a4 8 rsvd64
  let a3 := entryBase e4 + 8 * tableIndex la 30
  let e3 ← readEntry la pu a3 8 rsvd64
  let pa ← walkDirectory la pu rsvdPde64 rsvd64 (entryBase e3) (e4.getLsbD 2 && e3.getLsbD 2)
    (e4.getLsbD 1 && e3.getLsbD 1)
  markEntry a4 8 0x20
  markEntry a3 8 0x20
  pure pa

/-- The three-level walk of legacy PAE paging (R144, R147): four page-directory-pointer entries at CR3[31:5], which
carry no protection flags. -/
def walkPae (la : Word) (pu : Purpose) : M Nat := do
  let cr3 ← readS (·.cr3)
  let a3 := (cr3.extractLsb' 5 27).toNat * 32 + 8 * (la.extractLsb' 30 2).toNat
  let e3 ← readEntry la pu a3 8 rsvdPaePdpte
  walkDirectory la pu rsvdPaePde rsvdPae (entryBase e3) true true

/-- The two-level walk of legacy paging without PAE, with 4-MByte pages and their extension to PA_BITS bits, which starts at
bit 13, when CR4.PSE = 1; what is left of bits 21:13 is reserved, bit 21 with 40 bits (R144, R147). -/
def walkLegacy (la : Word) (pu : Purpose) : M Nat := do
  let cr3 ← readS (·.cr3)
  let pse ← readS fun s => s.cr4.getLsbD 4
  let da := (cr3.extractLsb' 12 20).toNat * 4096 + 4 * (la.extractLsb' 22 10).toNat
  let d ← readEntry la pu da 4 fun e => if pse && e.getLsbD 7 then bitRange 21 (Config.paBits - 19) else 0
  if pse && d.getLsbD 7 then
    checkPage la pu (d.getLsbD 2) (d.getLsbD 1)
    markEntry da 4 (leafFlags pu)
    pure ((d.extractLsb' 13 (Config.paBits - 32) ++ d.extractLsb' 22 10 ++ la.extractLsb' 0 22).toNat)
  else
    let ta := (d.extractLsb' 12 20).toNat * 4096 + 4 * (la.extractLsb' 12 10).toNat
    let e ← readEntry la pu ta 4 fun _ => 0
    checkPage la pu (d.getLsbD 2 && e.getLsbD 2) (d.getLsbD 1 && e.getLsbD 1)
    markEntry da 4 0x20
    markEntry ta 4 (leafFlags pu)
    pure ((e.extractLsb' 12 20).toNat * 4096 + (la.extractLsb' 0 12).toNat)

/-- The physical address of a linear address (R130 step 4): itself without paging, else by the paging mode in force. -/
def translate (la : Word) (pu : Purpose) : M Nat := do
  let s ← readS id
  if !s.pg then pure (la.extractLsb' 0 32).toNat
  else if s.lma then walk64 la pu
  else if s.cr4.getLsbD 5 then walkPae la pu
  else walkLegacy la pu

/-! ### Spans of bytes -/

/-- Where the bytes of one access lie in physical memory: `split` bytes from `first`, the others from `rest`, the start
of the second page. -/
structure Span where
  first : Nat
  rest : Nat
  split : Nat
  deriving DecidableEq, Repr

/-- The physical address of byte `k` of a span. -/
def Span.addr (sp : Span) (k : Nat) : Nat := if k < sp.split then sp.first + k else sp.rest + (k - sp.split)

/-- The linear address `k` bytes on, in a linear space of 64 bits or of 32 (R113, R115). -/
def laStep (wide : Bool) (la : Word) (k : Nat) : Word :=
  let t := la + BitVec.ofNat 64 k
  if wide then t else t &&& 0xFFFFFFFF

/-- Translates every page that the `n` bytes at `la` touch, at most two (R130 step 4). The lower page is translated first,
so that its page fault is the one reported where both have one; a fault of the second page reports that page's first byte
(DESIGN CHOICE, log 122). -/
def spanOf (wide : Bool) (la : Word) (n : Nat) (pu : Purpose) : M Span := do
  let off := (la.extractLsb' 0 12).toNat
  let a ← translate la pu
  if off + n ≤ 4096 then pure { first := a, rest := 0, split := n }
  else
    let b ← translate (laStep wide la (4096 - off)) pu
    pure { first := a, rest := b, split := 4096 - off }

/-- The bytes of a span from byte `k` on as a little-endian number (R100). -/
def spanGet (m : List Host.Cell) (sp : Span) (k : Nat) : Nat → Nat
  | 0 => 0
  | n + 1 => (memGet m (sp.addr k)).toNat + 256 * spanGet m sp (k + 1) n

/-- Memory with `n` bytes of `v` stored in a span from byte `k` on, low-order byte first (R100). -/
def spanSet (m : List Host.Cell) (sp : Span) (k : Nat) : Nat → Nat → List Host.Cell
  | 0, _ => m
  | n + 1, v => spanSet (memSet m (sp.addr k) (BitVec.ofNat 8 v)) sp (k + 1) n (v / 256)

/-- Reads `n` bytes of a span. -/
def loadSpan (sp : Span) (n : Nat) : M Nat := readS fun s => spanGet s.mem sp 0 n

/-- The state after `n` bytes of `v` are stored in a span. -/
def State.storeAt (s : State) (sp : Span) (n v : Nat) : State := { s with mem := spanSet s.mem sp 0 n v }

/-- Stores `n` bytes of `v` in a span. -/
def storeSpan (sp : Span) (n v : Nat) : M Unit := upd fun s => s.storeAt sp n v

/-! ### The access pipeline (R130) -/

/-- What alignment an access needs (R105, R106): none, a natural size that alignment checking enforces, or a multiple
of 16 that is always enforced. -/
inductive Align where
  | any
  | natural (n : Nat)
  | para
  deriving DecidableEq, Repr

/-- The base a segment contributes to a linear address (R115 to R117). -/
def State.segBase (s : State) (sr : SReg) : Word :=
  if s.is64 then
    match sr with
    | .fs => s.fs.base
    | .gs => s.gs.base
    | _ => 0
  else (s.seg sr).base

/-- `LA(seg, EA)` (R115). -/
def State.linear (s : State) (sr : SReg) (ea : Word) : Word :=
  let t := s.segBase sr + ea
  if s.is64 then t else t &&& 0xFFFFFFFF

/-- The exception of a bad reference through a segment: #SS(0) through SS, else #GP(0) (R119, R121). -/
def segEvent (sr : SReg) : Event := if sr = .ss then ss0 else gp0

/-- Whether the bytes `[off, off+n-1]` lie inside a segment's limit; an expand-down data segment holds the offsets
above its limit, up to FFFFFFFFH or FFFFH as its D/B bit says (R119, R125; the upper bound is PRESUMED, log 79). -/
def SegReg.inLimit (g : SegReg) (off : Word) (n : Nat) : Bool :=
  let last := off.toNat + n - 1
  if g.s && !g.typ.getLsbD 3 && g.typ.getLsbD 2 then
    decide (g.limit.toNat < off.toNat) && decide (last ≤ (if g.db then 0xFFFFFFFF else 0xFFFF))
  else decide (last ≤ g.limit.toNat)

/-- Whether a segment's type permits the access: a write needs a writable data segment, a read a data segment or a
readable code segment (R119). -/
def SegReg.permits (g : SegReg) (write : Bool) : Bool :=
  if write then !g.typ.getLsbD 3 && g.typ.getLsbD 1 else !g.typ.getLsbD 3 || g.typ.getLsbD 1

/-- The segment checks of R119 and R130 step 1: none in 64-bit mode; the limit in real-address and virtual-8086 mode;
the null selector, the type and the limit in protected and compatibility mode. R119 gives #GP(0) for a null DS, ES, FS
or GS and names no exception for a null SS, which raises #SS(0) here (DESIGN CHOICE, log 101). -/
def segCheck (sr : SReg) (ea : Word) (n : Nat) (write : Bool) : M Unit := do
  let s ← readS id
  let g := s.seg sr
  match s.mode with
  | .long64 => pure ()
  | .real => raiseIf (!g.inLimit ea n) (segEvent sr)
  | .v86 => raiseIf (!g.inLimit ea n) (segEvent sr)
  | _ =>
    raiseIf g.unusable (segEvent sr)
    raiseIf (!g.permits write) gp0
    raiseIf (!g.inLimit ea n) (segEvent sr)

/-- Whether alignment checking is enabled at this moment: CR0.AM = 1, EFLAGS.AC = 1 and CPL = 3 (R105). -/
def State.alignChecked (s : State) : Bool := s.cr0.getLsbD 18 && s.flag fAC && s.cpl == 3

/-- The purpose of a program's access at the present privilege level. -/
def State.purpose (s : State) (write : Bool) : Purpose := { write := write, user := s.cpl == 3 }

/-- Steps 1 to 5 of the access pipeline for `n` bytes at `seg:ea` (R130): segment checks, linear address, canonical
check, 16-byte alignment, paging, alignment check. Answers where the bytes lie. -/
def resolve (sr : SReg) (ea : Word) (n : Nat) (write : Bool) (al : Align) : M Span := do
  segCheck sr ea n write
  let s ← readS id
  let la := s.linear sr ea
  raiseIf (s.is64 && !canonicalRange la n) (segEvent sr)
  raiseIf (al == .para && la.extractLsb' 0 4 != 0) gp0
  let sp ← spanOf s.is64 la n (s.purpose write)
  match al with
  | .natural k => raiseIf (s.alignChecked && la.toNat % k != 0) ac0
  | _ => pure ()
  pure sp

/-- `MemRead` of `n` bytes at `seg:ea` with natural alignment `n` (R130). -/
def readMem (sr : SReg) (ea : Word) (n : Nat) : M Nat := do
  let sp ← resolve sr ea n false (.natural n)
  loadSpan sp n

/-- `MemWrite` of `n` bytes at `seg:ea` with natural alignment `n` (R130). -/
def writeMem (sr : SReg) (ea : Word) (n v : Nat) : M Unit := do
  let sp ← resolve sr ea n true (.natural n)
  storeSpan sp n v

/-- Where the memory operand `m` of `n` bytes lies. -/
def resolveMem (m : Mem) (n : Nat) (write : Bool) (al : Align) : M Span := do
  let ea ← readS fun s => s.effAddr m
  resolve m.seg ea n write al

/-- Reads the memory operand `m` at width `w` (R102, R130). -/
def loadMem (w : Width) (m : Mem) : M (BitVec w.bits) := do
  let sp ← resolveMem m w.bytes false (.natural w.bytes)
  let v ← loadSpan sp w.bytes
  pure (BitVec.ofNat w.bits v)

/-- Writes the memory operand `m` at width `w` (R102, R130). -/
def storeMem (w : Width) (m : Mem) (v : BitVec w.bits) : M Unit := do
  let sp ← resolveMem m w.bytes true (.natural w.bytes)
  storeSpan sp w.bytes v.toNat

/-- A read by linear address with supervisor privilege, as the processor makes it of descriptor tables and of the TSS;
no alignment check (R380, R691). Outside IA-32e mode the address is 32 bits wide. -/
def sysRead (la : Word) (n : Nat) : M Nat := do
  let wide ← readS State.lma
  let sp ← spanOf wide (if wide then la else la &&& 0xFFFFFFFF) n { write := false, user := false }
  loadSpan sp n

/-- A write by linear address with supervisor or user privilege, as the processor makes it of descriptor tables and of
an interrupt stack frame; no alignment check (R380, R694). -/
def sysWrite (la : Word) (n v : Nat) (user : Bool) : M Unit := do
  let wide ← readS State.lma
  let sp ← spanOf wide (if wide then la else la &&& 0xFFFFFFFF) n { write := true, user := user }
  storeSpan sp n v

/-- A read-modify-write by linear address with supervisor privilege, in one pass that is checked for writing, as the
processor makes it of a descriptor (R432, log 80); no alignment check. -/
def sysUpdate (la : Word) (n : Nat) (f : Nat → Nat) : M Unit := do
  let wide ← readS State.lma
  let sp ← spanOf wide (if wide then la else la &&& 0xFFFFFFFF) n { write := true, user := false }
  let v ← loadSpan sp n
  storeSpan sp n (f v)

end Sys2Proof.Machine
end

