-- ==== Sys2Proof/Machine/Ops.lean ====
section
/-! DEFINITION. The shared operations of the meanings: the stack, branch targets, descriptors and segment loads, far
transfers, taking an exception or interrupt and returning from one, the I/O permission check (30_encoding.md rule
R198, 42_control.md, 43_string_io.md rule R373, 44_system.md rules R380 and R421, 60_exceptions.md). -/

namespace Sys2Proof.Machine

/-! ### The stack (R198) -/

/-- StackAddrSize (R198). -/
def State.stackSize (s : State) : ASize := if s.is64 then .a64 else if s.ss.db then .a32 else .a16

/-- The stack pointer at the stack address size, zero-extended. -/
def State.sp (s : State) : Word := asizeTrunc s.stackSize (s.get rSP)

/-- The state with the stack pointer written at the stack address size. -/
def State.setSp (s : State) (v : Word) : State :=
  let w := asizeWidth s.stackSize
  s.writeReg w rSP (v.setWidth w.bits)

/-- `Push(v, n)` (R198). The stack pointer changes only if the write succeeds. -/
def push (n v : Nat) : M Unit := do
  let s ← readS id
  let p := asizeTrunc s.stackSize (s.sp - BitVec.ofNat 64 n)
  writeMem .ss p n v
  upd (·.setSp p)

/-- `Pop(n)` (R198). -/
def pop (n : Nat) : M Nat := do
  let s ← readS id
  let v ← readMem .ss s.sp n
  upd fun t => t.setSp (s.sp + BitVec.ofNat 64 n)
  pure v

/-! ### Branch targets (R320, R321) -/

/-- Commits a near branch to `t`: the target is truncated to the operand size and must be canonical in 64-bit mode,
inside the CS limit elsewhere; what the truncation leaves is RIP, zero-extended (R320). -/
def jumpTo (osz : Width) (t : Word) : M Unit := do
  let s ← readS id
  let t := truncTo osz t
  if s.is64 then raiseIf (!canonical t) gp0 else raiseIf (decide (s.cs.limit.toNat < t.toNat)) gp0
  upd (·.setRip t)

/-- The displacement of a relative branch, sign-extended (R321). -/
def relDisp : Rel → Word
  | .r8 d => d.signExtend 64
  | .r16 d => d.signExtend 64
  | .r32 d => d.signExtend 64

/-- An instruction that is not a control transfer ends at the next instruction (R41). -/
def advance : M Unit := upd fun s => s.setRip s.nextPc

/-! ### Descriptors (R125, R380) -/

/-- The segment register that a code or data descriptor describes, with the selector given (R125). -/
def descSeg (d : BitVec 64) (sel : BitVec 16) : SegReg :=
  let lim : BitVec 32 := (d.extractLsb' 48 4 ++ d.extractLsb' 0 16).setWidth 32
  let g := d.getLsbD 55
  { sel := sel
    base := (d.extractLsb' 56 8 ++ d.extractLsb' 16 24).setWidth 64
    limit := if g then (lim <<< 12) ||| 0xFFF else lim
    typ := d.extractLsb' 40 4
    s := d.getLsbD 44
    dpl := d.extractLsb' 45 2
    p := d.getLsbD 47
    avl := d.getLsbD 52
    l := d.getLsbD 53
    db := d.getLsbD 54
    g := g
    unusable := false }

/-- Whether a segment is a code segment: S = 1 and type bit 3 (R125). -/
def SegReg.isCode (g : SegReg) : Bool := g.s && g.typ.getLsbD 3
/-- Whether a segment is a data segment (R125). -/
def SegReg.isData (g : SegReg) : Bool := g.s && !g.typ.getLsbD 3
/-- Whether a code segment is conforming: type bit 2 (R125). -/
def SegReg.conforming (g : SegReg) : Bool := g.typ.getLsbD 2
/-- Whether a segment is a writable data segment: type bit 1 (R125). -/
def SegReg.writableData (g : SegReg) : Bool := g.isData && g.typ.getLsbD 1
/-- Whether a segment is a readable code segment: type bit 1 (R125). -/
def SegReg.readableCode (g : SegReg) : Bool := g.isCode && g.typ.getLsbD 1

/-- Whether a selector is null: bits 15:2 are 0 (R326 step 1). -/
def selNull (sel : BitVec 16) : Bool := sel.extractLsb' 2 14 == 0

/-- The RPL of a selector (R63). -/
def selRpl (sel : BitVec 16) : Nat := (sel &&& 3).toNat

/-- The selector with its RPL replaced. -/
def selWithRpl (sel : BitVec 16) (rpl : Nat) : BitVec 16 := (sel &&& 0xFFFC) ||| BitVec.ofNat 16 (rpl % 4)

/-- Base and limit of the table a selector indexes (R380). -/
def State.tableOf (s : State) (sel : BitVec 16) : Word × Nat :=
  if sel.getLsbD 2 then (s.ldtr.base, s.ldtr.limit.toNat) else (s.gdtr.base, s.gdtr.limit.toNat)

/-- The offset of a selector's descriptor in its table (R380). -/
def selOffset (sel : BitVec 16) : Nat := (sel &&& 0xFFF8).toNat

/-- The linear address of a selector's descriptor (R380). -/
def State.descAddr (s : State) (sel : BitVec 16) : Word := (s.tableOf sel).1 + BitVec.ofNat 64 (selOffset sel)

/-- Whether the first `n` bytes of a selector's descriptor lie inside its table, and the table is usable (R380). -/
def State.descInTable (s : State) (sel : BitVec 16) (n : Nat) : Bool :=
  decide (selOffset sel + n - 1 ≤ (s.tableOf sel).2) && !(sel.getLsbD 2 && s.ldtr.unusable)

/-- The 8 bytes of a descriptor at offset `k` of a selector's table entry, after the checks of R380 for `n` bytes. -/
def readDescPart (sel : BitVec 16) (ext : Bool) (n k : Nat) : M (BitVec 64) := do
  let s ← readS id
  raiseIf (!s.descInTable sel n) (gpSel sel ext)
  raiseIf (s.lma && !canonicalRange (s.descAddr sel) n) (gpSel sel ext)
  let v ← sysRead (s.descAddr sel + BitVec.ofNat 64 k) 8
  pure (BitVec.ofNat 64 v)

/-- `ReadDescriptor(sel)` of 8 bytes (R380). -/
def readDesc (sel : BitVec 16) (ext : Bool := false) : M (BitVec 64) := readDescPart sel ext 8 0

/-- The high 8 bytes of a 16-byte system descriptor (R127, R128, R380). -/
def readDescHigh (sel : BitVec 16) : M (BitVec 64) := readDescPart sel false 16 8

/-! ### Segment loads (R421, R787) -/

/-- A segment register loaded with a null selector: it is unusable, and its base stays (R421, decision D21). -/
def SegReg.nulled (g : SegReg) (sel : BitVec 16) : SegReg := { g with sel := sel, unusable := true }

/-- A segment register loaded in real-address or virtual-8086 mode: the base is the selector times 16 (R421, which says so
for real-address mode). Limit and attributes stay, and the register is usable, in both modes (DESIGN CHOICE, log 123; for CS
PRESUMED, log 72). -/
def SegReg.paragraph (g : SegReg) (sel : BitVec 16) : SegReg :=
  { g with sel := sel, base := sel.setWidth 64 <<< 4, unusable := false }

/-- `LoadDataSeg` for DS, ES, FS and GS (R421). The accessed bit is set by a write of byte 5 of the descriptor (DESIGN
CHOICE, log 114). -/
def loadData (r : SReg) (sel : BitVec 16) : M Unit := do
  let s ← readS id
  if selNull sel then upd fun t => t.setSeg r ((t.seg r).nulled sel)
  else
    let d ← readDesc sel
    let g := descSeg d sel
    raiseIf (!g.isData && !g.readableCode) (gpSel sel)
    raiseIf ((g.isData || !g.conforming) && decide (g.dpl.toNat < selRpl sel) && decide (g.dpl.toNat < s.cpl))
      (gpSel sel)
    raiseIf (!g.p) (npSel sel)
    if g.typ.getLsbD 0 then pure ()
    else sysWrite (s.descAddr sel + 5) 1 ((d.extractLsb' 40 8).toNat + 1) false
    upd fun t => t.setSeg r { g with typ := g.typ ||| 1 }

/-- The checks and the load of SS with a descriptor at privilege level `cpl` (R421, R790). No accessed bit is written,
as R421 names none for SS (DESIGN CHOICE, log 15). -/
def loadStackAt (sel : BitVec 16) (cpl : Nat) : M Unit := do
  let d ← readDesc sel
  let g := descSeg d sel
  raiseIf (selRpl sel != cpl || !g.writableData || g.dpl.toNat != cpl) (gpSel sel)
  raiseIf (!g.p) (ssSel sel)
  upd fun t => { t with ss := g }

/-- A null SS at privilege level `cpl`, whose descriptor level follows it (R63, R728). -/
def SegReg.nullStack (g : SegReg) (sel : BitVec 16) (cpl : Nat) : SegReg :=
  { g with sel := sel, unusable := true, dpl := BitVec.ofNat 2 cpl }

/-- `LoadDataSeg(SS, sel)` (R421). -/
def loadStack (sel : BitVec 16) : M Unit := do
  let s ← readS id
  if selNull sel then
    raiseIf (!(s.is64 && s.cpl != 3 && selRpl sel == s.cpl)) gp0
    upd fun t => { t with ss := t.ss.nullStack sel s.cpl }
  else loadStackAt sel s.cpl

/-- Loads a data or stack segment register with a selector, in any mode (R421, R787). -/
def loadSegment (r : SReg) (sel : BitVec 16) : M Unit := do
  let s ← readS id
  if s.paragraphs then upd fun t => t.setSeg r ((t.seg r).paragraph sel)
  else if r = .ss then loadStack sel
  else loadData r sel

/-- After a return to an outer level, a data segment register whose segment the new level may not use is null
(R348 step 13, R790); of the null selectors it holds 0000H (DESIGN CHOICE, log 112). -/
def SegReg.afterReturn (g : SegReg) (cpl : Nat) : SegReg :=
  if !g.unusable && (g.isData || !g.conforming) && decide (g.dpl.toNat < cpl) then g.nulled 0 else g

/-- The four data segment registers after a return to an outer level (R348 step 13, R790). -/
def State.dropDataSegs (s : State) (cpl : Nat) : State :=
  { s with ds := s.ds.afterReturn cpl, es := s.es.afterReturn cpl, fs := s.fs.afterReturn cpl,
           gs := s.gs.afterReturn cpl }

/-! ### Taking an exception or interrupt (R690 to R698, R735) -/

/-- The 64-bit target offset of a 16-byte gate (R128, R129). -/
def gateOffset (lo hi : BitVec 64) : Word := hi.extractLsb' 0 32 ++ lo.extractLsb' 48 16 ++ lo.extractLsb' 0 16

/-- The linear address of a field of the TSS. -/
def State.tssAddr (s : State) (off : Nat) : Word := s.tr.base + BitVec.ofNat 64 off

/-- A stack pointer read from the 64-bit TSS: #TS if it lies outside the TSS or at a non-canonical address
(R693, R725). -/
def tssStack (off : Nat) (ext : Bool) : M Word := do
  let s ← readS id
  raiseIf (decide (s.tr.limit.toNat < off + 7)) (tsSel s.tr.sel ext)
  raiseIf (!canonicalRange (s.tssAddr off) 8) (tsSel s.tr.sel ext)
  let v ← sysRead (s.tssAddr off) 8
  pure (BitVec.ofNat 64 v)

/-- Stores 8-byte items downward from `p` by linear address; `bad` is the exception of a non-canonical slot
(R694, R725). Answers the address of the last item. -/
def pushItems (bad : Event) (user : Bool) : Word → List Word → M Word
  | p, [] => pure p
  | p, v :: rest => do
    let q := p - 8
    raiseIf (!canonicalRange q 8) bad
    sysWrite q 8 v.toNat user
    pushItems bad user q rest

/-- The RFLAGS image pushed by a delivery: RF reads 1 for a fault (R690). -/
def flagsImage (s : State) (k : Kind) : BitVec 32 := if k = .fault then putBit s.rflags fRF true else s.rflags

/-- EFLAGS after a delivery: TF, NT, RF and VM cleared, IF cleared through an interrupt gate (R690 step 11). -/
def deliveredFlags (f : BitVec 32) (interruptGate : Bool) : BitVec 32 :=
  let g := putBit (putBit (putBit (putBit f fTF false) fNT false) fRF false) fVM false
  if interruptGate then putBit g fIF false else g

/-- What every completed delivery does besides the transfer: the processor is active, no single-step trap and no
shadow remain, and an NMI blocks further NMIs (R690 step 12, R712). -/
def State.delivered (s : State) (k : Kind) : State :=
  { s with activity := .active, pendingDb := false, shadow := .none, nmiBlocked := s.nmiBlocked || decide (k = .nmi) }

/-- `Deliver` in IA-32e mode (R690, R691, R693, R694). -/
def deliver64 (ev : Event) (ext : Bool) (saved : Word) : M Unit := do
  let s ← readS id
  let bad := Event.coded 13 (idtCode ev.vector ext)
  let a := s.idtr.base + BitVec.ofNat 64 (ev.vector.toNat * 16)
  raiseIf (decide (s.idtr.limit.toNat < ev.vector.toNat * 16 + 15)) bad
  raiseIf (!canonicalRange a 16) bad
  let lo := BitVec.ofNat 64 (← sysRead a 8)
  let hi := BitVec.ofNat 64 (← sysRead (a + 8) 8)
  let t := lo.extractLsb' 40 5
  raiseIf (t != 0xE && t != 0xF) bad
  raiseIf (!lo.getLsbD 47) (.coded 11 (idtCode ev.vector ext))
  raiseIf (decide (ev.kind = .software) && decide ((lo.extractLsb' 45 2).toNat < s.cpl)) bad
  let sel := lo.extractLsb' 16 16
  raiseIf (selNull sel) (gpSel 0 ext)
  let d := descSeg (← readDesc sel ext) sel
  raiseIf (!d.isCode) (gpSel sel ext)
  raiseIf (!d.l || d.db) (gpSel sel ext)
  raiseIf (decide (s.cpl < d.dpl.toNat)) (gpSel sel ext)
  raiseIf (!d.p) (npSel sel ext)
  let newCpl := if d.conforming then s.cpl else d.dpl.toNat
  let ist := (lo.extractLsb' 32 3).toNat
  let oldSp := if s.is64 then s.get rSP else truncTo .b32 (s.get rSP)
  let switched := ist != 0 || decide (newCpl < s.cpl)
  let newSp ←
    if ist != 0 then tssStack (0x24 + (ist - 1) * 8) ext
    else if newCpl < s.cpl then tssStack (4 + newCpl * 8) ext
    else pure oldSp
  raiseIf (!canonical (gateOffset lo hi)) gp0
  let frame : List Word :=
    [s.ss.sel.setWidth 64, oldSp, (flagsImage s ev.kind).setWidth 64, s.cs.sel.setWidth 64, saved] ++
      (match ev.code with | some c => [c.setWidth 64] | none => [])
  let p ← pushItems (if switched then ssSel 0 ext else ss0) (newCpl == 3) (newSp &&& 0xFFFFFFFFFFFFFFF0) frame
  if newCpl != s.cpl then upd fun u => { u with ss := u.ss.nullStack (BitVec.ofNat 16 newCpl) newCpl } else pure ()
  upd fun u => u.loadCs { d with sel := selWithRpl sel newCpl }
  upd fun u => ((u.put rSP p).setRip (gateOffset lo hi)).setRflags (deliveredFlags u.rflags (t == 0xE))
  upd (·.delivered ev.kind)

/-- Delivery in real-address mode, from the outline of R735: a 4-byte vector, FLAGS, CS and IP pushed as 16-bit items,
IF and TF cleared, no error code. -/
def deliverReal (ev : Event) (saved : Word) : M Unit := do
  let s ← readS id
  raiseIf (decide (s.idtr.limit.toNat < ev.vector.toNat * 4 + 3)) (.plain 13)
  let e := BitVec.ofNat 32 (← sysRead (s.idtr.base + BitVec.ofNat 64 (ev.vector.toNat * 4)) 4)
  push 2 (s.rflags.extractLsb' 0 16).toNat
  push 2 s.cs.sel.toNat
  push 2 (saved.extractLsb' 0 16).toNat
  upd fun u => u.loadCs (u.cs.paragraph (e.extractLsb' 16 16))
  upd fun u => (u.setRip ((e.extractLsb' 0 16).setWidth 64)).setRflags (putBit (putBit u.rflags fTF false) fIF false)
  upd (·.delivered ev.kind)

/-- The stack of an inner level from a legacy TSS, with its SS loaded (R735; the 16- and 32-bit TSS layouts are the
family's). -/
def legacyStackSwitch (newCpl : Nat) (ext : Bool) : M Unit := do
  let s ← readS id
  let wide := s.tr.typ.getLsbD 3
  let n := if wide then 4 else 2
  let off := if wide then 4 + newCpl * 8 else 2 + newCpl * 4
  raiseIf (decide (s.tr.limit.toNat < off + n + 1)) (tsSel s.tr.sel ext)
  let sp := BitVec.ofNat 64 (← sysRead (s.tssAddr off) n)
  let sel := BitVec.ofNat 16 (← sysRead (s.tssAddr (off + n)) 2)
  raiseIf (selNull sel) (tsSel sel ext)
  raiseIf (!s.descInTable sel 8) (tsSel sel ext)
  let g := descSeg (← readDesc sel ext) sel
  raiseIf (selRpl sel != newCpl || !g.writableData || g.dpl.toNat != newCpl) (tsSel sel ext)
  raiseIf (!g.p) (ssSel sel ext)
  upd fun u => { u with ss := g }
  upd (·.setSp sp)

/-- Pushes a list of items of `n` bytes, the first highest. -/
def pushAll (n : Nat) : List Word → M Unit
  | [] => pure ()
  | v :: rest => do
    push n v.toNat
    pushAll n rest

/-- Delivery in protected mode while IA-32e mode is inactive, from the outline of R735: 8-byte gates, items of 2 or 4
bytes by the gate's size, SS:ESP pushed only on a change of level. The items are pushed as every push is: one beyond the
limit of the new stack raises #SS(0) (DESIGN CHOICE, log 127), and one at level 3 is alignment-checked (DESIGN CHOICE,
log 128). -/
def deliverProt (ev : Event) (ext : Bool) (saved : Word) : M Unit := do
  let s ← readS id
  let bad := Event.coded 13 (idtCode ev.vector ext)
  raiseIf (decide (s.idtr.limit.toNat < ev.vector.toNat * 8 + 7)) bad
  let gate := BitVec.ofNat 64 (← sysRead (s.idtr.base + BitVec.ofNat 64 (ev.vector.toNat * 8)) 8)
  let t := gate.extractLsb' 40 5
  if t == 5 then refuse .legacyGate else pure ()
  raiseIf (t != 6 && t != 7 && t != 0xE && t != 0xF) bad
  raiseIf (!gate.getLsbD 47) (.coded 11 (idtCode ev.vector ext))
  raiseIf (decide (ev.kind = .software) && decide ((gate.extractLsb' 45 2).toNat < s.cpl)) bad
  let sel := gate.extractLsb' 16 16
  raiseIf (selNull sel) (gpSel 0 ext)
  let d := descSeg (← readDesc sel ext) sel
  raiseIf (!d.isCode || decide (s.cpl < d.dpl.toNat)) (gpSel sel ext)
  raiseIf (!d.p) (npSel sel ext)
  let wide := t.getLsbD 3
  let off : Word := if wide then (gate.extractLsb' 48 16 ++ gate.extractLsb' 0 16).setWidth 64
    else (gate.extractLsb' 0 16).setWidth 64
  let newCpl := if d.conforming then s.cpl else d.dpl.toNat
  let inner := decide (newCpl < s.cpl)
  if inner then legacyStackSwitch newCpl ext else pure ()
  raiseIf (decide (d.limit.toNat < off.toNat)) gp0
  upd fun u => u.loadCs { d with sel := selWithRpl sel newCpl }
  pushAll (if wide then 4 else 2) ((if inner then [s.ss.sel.setWidth 64, s.get rSP] else []) ++
    [(flagsImage s ev.kind).setWidth 64, s.cs.sel.setWidth 64, saved] ++
    (match ev.code with | some c => [c.setWidth 64] | none => []))
  upd fun u => (u.setRip off).setRflags (deliveredFlags u.rflags (!t.getLsbD 0))
  upd (·.delivered ev.kind)

/-- One attempt at a delivery, in the mode in force. -/
def deliverOnce (ev : Event) (ext : Bool) (saved : Word) : M Unit := do
  match ← readS State.mode with
  | .long64 => deliver64 ev ext saved
  | .compat => deliver64 ev ext saved
  | .real => deliverReal ev saved
  | .prot => deliverProt ev ext saved
  | .v86 => refuse .virtual8086

/-- The instruction pointer a delivery saves (R661): the instruction itself for a fault, the next one for a software
interrupt, the present RIP between instructions, an open value for #DF (93_implementation_defined.md U21). -/
def savedRip (ev : Event) (s : State) : Word :=
  match ev.kind with
  | .software => s.nextPc
  | .abort => Config.freeValue s.freeCount
  | _ => s.rip

/-- #DE, #TS, #NP, #SS and #GP are contributory (R698). -/
def contributory (v : Byte) : Bool := v == 0 || v == 10 || v == 11 || v == 12 || v == 13

/-- Whether a second exception during the delivery of a first event makes a double fault: the first must be an exception
too, no software or external interrupt through the same vector (R698). -/
def makesDouble (first second : Event) : Bool :=
  decide (first.kind = .fault) && ((contributory first.vector && contributory second.vector) ||
    (first.vector == 14 && (contributory second.vector || second.vector == 14)))

/-- The state with CR2 written if the event is a page fault, before its delivery (R145, R690 step 12). -/
def State.withCr2 (s : State) (ev : Event) : State :=
  match ev.cr2 with
  | some a => { s with cr2 := a }
  | none => s

/-- EXT, bit 0 of the error codes that the delivery of an event raises: 1 for an external interrupt, an NMI and an
exception, 0 for a software interrupt (the table of R662, before R690's operation by the order of authority of
90_conflicts.md: DEDUCED, log 90). -/
def Event.ext (ev : Event) : Bool := decide (ev.kind ≠ .software)

/-- Delivers an event, and the exceptions its delivery raises: a double fault where R698 says so, shutdown where the
delivery of #DF raises a contributory exception or #PF, else the second exception in place of the first. `fuel` bounds
the chain. A chain that ends has at most six members; a longer one repeats a vector and never ends (#AC raised by the
delivery of #AC), and leads to shutdown here (DESIGN CHOICE, log 126). -/
def deliverChain : Nat → Event → State → Host.Outcome State Fault Refusal
  | 0, _, s => .next { s with activity := .shutdown }
  | fuel + 1, ev, s =>
    let s1 := s.withCr2 ev
    let s2 := if ev.kind = .abort then { s1 with freeCount := s1.freeCount + 1 } else s1
    match deliverOnce ev ev.ext (savedRip ev s1) s2 with
    | .ok (_, t) => .next t
    | .error (.raised e) =>
      if ev.kind = .abort ∧ (contributory e.vector || e.vector == 14) = true then .next { s2 with activity := .shutdown }
      else if makesDouble ev e then deliverChain fuel dfAbort (s2.withCr2 e)
      else deliverChain fuel e s2
    | .error (.raisedAfter _ _) => .next { s2 with activity := .shutdown }
    | .error (.refused r) => .refused r

/-- TAKING AN EXCEPTION OR INTERRUPT: the one operation every exception, software interrupt, NMI and external interrupt
goes through (R690, R698). -/
def deliver (ev : Event) (s : State) : Host.Outcome State Fault Refusal := deliverChain 6 ev s

/-- Runs a meaning from `s`: a raised exception is delivered from `s` itself, so an instruction that faults has changed
nothing (R15, R661). -/
def runInstr (m : M Unit) (s : State) : Host.Outcome State Fault Refusal :=
  match m s with
  | .ok (_, t) => .next t
  | .error (.raised e) => deliver e s
  | .error (.raisedAfter e t) => deliver e t
  | .error (.refused r) => .refused r

/-- Runs the meaning of an instruction that is not a control transfer: it ends at the next instruction (R41). -/
def runSeq (m : M Unit) (s : State) : Host.Outcome State Fault Refusal :=
  runInstr (do m; advance) s

/-! ### Far transfers (R326, R725) -/

/-- The target check of a far transfer into the code segment `d` (R326 step 3d, R348 step 11). -/
def checkTarget (d : SegReg) (is64 : Bool) (off : Word) : M Unit :=
  if is64 then raiseIf (!canonical off) gp0 else raiseIf (decide (d.limit.toNat < off.toNat)) gp0

/-- A far transfer through a 64-bit call gate, whose first 8 bytes are `lo` (R725). -/
def callGate (call : Bool) (sel : BitVec 16) (lo : BitVec 64) : M Unit := do
  let s ← readS id
  let hi ← readDescHigh sel
  let gdpl := (lo.extractLsb' 45 2).toNat
  raiseIf (decide (gdpl < s.cpl) || decide (gdpl < selRpl sel)) (gpSel sel)
  raiseIf (hi.extractLsb' 40 5 != 0) (gpSel sel)
  raiseIf (!lo.getLsbD 47) (npSel sel)
  let csel := lo.extractLsb' 16 16
  raiseIf (selNull csel) gp0
  let d := descSeg (← readDesc csel) csel
  raiseIf (!d.isCode) (gpSel csel)
  raiseIf (!d.l || d.db) (gpSel csel)
  raiseIf (decide (s.cpl < d.dpl.toNat)) (gpSel csel)
  raiseIf (!call && !d.conforming && d.dpl.toNat != s.cpl) (gpSel csel)
  raiseIf (!d.p) (npSel csel)
  let off := gateOffset lo hi
  raiseIf (!canonical off) gp0
  let oldSp := if s.is64 then s.get rSP else truncTo .b32 (s.get rSP)
  if call && !d.conforming && decide (d.dpl.toNat < s.cpl) then
    let newCpl := d.dpl.toNat
    let newSp ← tssStack (4 + newCpl * 8) false
    let p ← pushItems (ssSel 0) false newSp [s.ss.sel.setWidth 64, oldSp, s.cs.sel.setWidth 64, s.nextPc]
    upd fun u => { u with ss := u.ss.nullStack (BitVec.ofNat 16 newCpl) newCpl }
    upd fun u => u.loadCs { d with sel := selWithRpl csel newCpl }
    upd fun u => (u.put rSP p).setRip off
  else
    if call then
      push 8 s.cs.sel.toNat
      push 8 s.nextPc.toNat
    else pure ()
    upd fun u => (u.loadCs { d with sel := selWithRpl csel s.cpl }).setRip off

/-- `FarTransfer(kind, sel, off)` (R326), and in real-address and virtual-8086 mode the load of CS with base selector
times 16. R326 covers 64-bit and compatibility mode: in protected mode while IA-32e mode is inactive the same steps are
taken with the L bit not looked at (DESIGN CHOICE, log 113), and gates and task segments are refused. -/
def farTransfer (call : Bool) (osz : Width) (sel : BitVec 16) (off : Word) : M Unit := do
  let s ← readS id
  if s.paragraphs then
    raiseIf (decide (s.cs.limit.toNat < off.toNat)) gp0
    if call then
      push osz.bytes s.cs.sel.toNat
      push osz.bytes (truncTo osz s.nextPc).toNat
    else pure ()
    upd fun u => (u.loadCs (u.cs.paragraph sel)).setRip off
  else
    raiseIf (selNull sel) gp0
    let raw ← readDesc sel
    let d := descSeg raw sel
    if d.isCode then
      let to64 := s.lma && d.l
      raiseIf (to64 && d.db) (gpSel sel)
      raiseIf (if d.conforming then decide (s.cpl < d.dpl.toNat)
        else d.dpl.toNat != s.cpl || decide (s.cpl < selRpl sel)) (gpSel sel)
      raiseIf (!d.p) (npSel sel)
      checkTarget d to64 off
      if call then
        push osz.bytes s.cs.sel.toNat
        push osz.bytes (truncTo osz s.nextPc).toNat
      else pure ()
      upd fun u => (u.loadCs { d with sel := selWithRpl sel s.cpl }).setRip off
    else if s.lma then
      if !d.s && d.typ == 0xC then callGate call sel raw else raise (gpSel sel)
    else if !d.s && (d.typ == 1 || d.typ == 3 || d.typ == 4 || d.typ == 5 || d.typ == 9 || d.typ == 0xB || d.typ == 0xC)
    then refuse .legacyGate
    else raise (gpSel sel)

/-- The checks of a return's code segment selector. IRET refuses a 64-bit segment with D = 1 before it looks at the
privilege levels and P (R348 steps 3 to 8), far RET after them (R790). -/
def returnCode (iret : Bool) (sel : BitVec 16) : M SegReg := do
  let s ← readS id
  raiseIf (selNull sel) gp0
  let d := descSeg (← readDesc sel) sel
  let mixed := s.lma && d.l && d.db
  raiseIf (!d.isCode) (gpSel sel)
  raiseIf (iret && mixed) (gpSel sel)
  raiseIf (decide (selRpl sel < s.cpl)) (gpSel sel)
  raiseIf (if d.conforming then decide (selRpl sel < d.dpl.toNat) else d.dpl.toNat != selRpl sel) (gpSel sel)
  raiseIf (!d.p) (npSel sel)
  raiseIf mixed (gpSel sel)
  pure d

/-- The stack pointer after a return that popped it: whole into 64-bit mode, else at the stack size of the SS just loaded
(R348, R790; that the new stack decides, and not the old one, is a DESIGN CHOICE, log 103). -/
def State.setReturnSp (s : State) (v : Word) : State := if s.is64 then s.put rSP v else s.setSp v

/-- Far return (R790). In real-address and virtual-8086 mode, for which R790 gives no steps, IP and CS are popped and IP
is tested against the limit of the old CS (DESIGN CHOICE, log 117). -/
def farReturn (osz : Width) (imm : Word) : M Unit := do
  let s ← readS id
  let n := osz.bytes
  let slot (k : Nat) : Word := asizeTrunc s.stackSize (s.sp + BitVec.ofNat 64 (k * n))
  let newIp := BitVec.ofNat 64 (← readMem .ss (slot 0) n)
  let newCs := BitVec.ofNat 16 (← readMem .ss (slot 1) n)
  if s.paragraphs then
    raiseIf (decide (s.cs.limit.toNat < newIp.toNat)) gp0
    upd fun u => ((u.setSp (slot 2 + imm)).loadCs (u.cs.paragraph newCs)).setRip newIp
  else
    let d ← returnCode false newCs
    let to64 := s.lma && d.l
    let rpl := selRpl newCs
    if rpl == s.cpl then
      checkTarget d to64 newIp
      upd fun u => ((u.setSp (slot 2 + imm)).loadCs d).setRip newIp
    else
      let newSp := BitVec.ofNat 64 (← readMem .ss (asizeTrunc s.stackSize (slot 2 + imm)) n)
      let newSs := BitVec.ofNat 16 (← readMem .ss (asizeTrunc s.stackSize (slot 3 + imm)) n)
      if selNull newSs then
        raiseIf (!(to64 && rpl != 3)) gp0
        upd fun u => { u with ss := u.ss.nullStack (selWithRpl newSs rpl) rpl }
      else loadStackAt newSs rpl
      checkTarget d to64 newIp
      upd fun u => ((u.loadCs d).setReturnSp (newSp + imm)).setRip newIp
      upd (·.dropDataSegs rpl)

/-! ### Returning from an exception or interrupt (R348) -/

/-- The flags an IRET or POPF of operand width `osz` writes at privilege level `cpl` (R348, R789): CF, PF, AF, ZF, SF,
TF, DF, OF and NT always; AC and ID (and RF for IRET) at 32 bits and more; IF if CPL <= IOPL; IOPL if CPL = 0. -/
def mergeFlags (s : State) (osz : Width) (new : BitVec 32) (withRf : Bool) : BitVec 32 :=
  let m0 : BitVec 32 := 0x00004DD5
  let m1 : BitVec 32 := if osz = .b16 then 0 else if withRf then 0x00250000 else 0x00240000
  let m2 : BitVec 32 := if s.cpl ≤ s.iopl then 0x200 else 0
  let m3 : BitVec 32 := if s.cpl = 0 then 0x3000 else 0
  let m := m0 ||| m1 ||| m2 ||| m3
  (s.rflags &&& ~~~m) ||| (new &&& m)

/-- The state after an IRET has completed: NMIs are no longer blocked (R348, R712). -/
def State.nmiUnblocked (s : State) : State := { s with nmiBlocked := false }

/-- IRET in real-address mode, and in virtual-8086 mode with IOPL 3: IP, CS and FLAGS are popped, IP is tested against
the limit of CS, and the flags are merged as in step 12 of R348. R348 gives steps for IA-32e mode only, so that all of
this is the model's (DESIGN CHOICE, log 102). -/
def iretParagraphs (osz : Width) : M Unit := do
  let s ← readS id
  raiseIf (s.mode == .v86 && s.iopl != 3) gp0
  let ip := BitVec.ofNat 64 (← pop osz.bytes)
  let cs := BitVec.ofNat 16 (← pop osz.bytes)
  let fl := BitVec.ofNat 32 (← pop osz.bytes)
  raiseIf (decide (s.cs.limit.toNat < ip.toNat)) gp0
  upd fun u => ((u.loadCs (u.cs.paragraph cs)).setRip ip).setRflags (mergeFlags s osz fl true)
  upd State.nmiUnblocked

/-- The SS load of an IRET that pops the stack (R348 step 10). -/
def iretStack (d : SegReg) (newSs newCs : BitVec 16) : M Unit := do
  let s ← readS id
  let rpl := selRpl newCs
  if selNull newSs then
    raiseIf (!(s.lma && d.l)) gp0
    raiseIf (rpl == 3) gp0
    raiseIf (selRpl newSs != rpl) gp0
    upd fun u => { u with ss := u.ss.nullStack newSs rpl }
  else
    let g := descSeg (← readDesc newSs) newSs
    raiseIf (selRpl newSs != rpl || !g.writableData || g.dpl.toNat != rpl) (gpSel newSs)
    raiseIf (!g.p) (npSel newSs)
    upd fun u => { u with ss := g }

/-- RETURNING FROM AN EXCEPTION OR INTERRUPT: IRET of operand size `osz` (R348). R348 gives the steps for IA-32e mode; in
protected mode outside it the model takes the same steps, with L not looked at (DESIGN CHOICE, log 86). -/
def interruptReturn (osz : Width) : M Unit := do
  let s ← readS id
  if s.paragraphs then iretParagraphs osz
  else
    if s.flag fNT then (if s.lma then raise gp0 else refuse .legacyGate) else pure ()
    let newRip := BitVec.ofNat 64 (← pop osz.bytes)
    let newCs := BitVec.ofNat 16 (← pop osz.bytes)
    let newFl := BitVec.ofNat 32 (← pop osz.bytes)
    if !s.lma && newFl.getLsbD fVM && s.cpl == 0 && osz == .b32 then refuse .virtual8086 else pure ()
    let d ← returnCode true newCs
    let rpl := selRpl newCs
    let to64 := s.lma && d.l
    if s.is64 || decide (s.cpl < rpl) then
      let newSp := BitVec.ofNat 64 (← pop osz.bytes)
      let newSs := BitVec.ofNat 16 (← pop osz.bytes)
      iretStack d newSs newCs
      checkTarget d to64 newRip
      upd fun u => ((u.loadCs d).setReturnSp newSp).setRip newRip
    else
      checkTarget d to64 newRip
      upd fun u => (u.loadCs d).setRip newRip
    upd (·.setRflags (mergeFlags s osz newFl true))
    if s.cpl < rpl then upd (·.dropDataSegs rpl) else pure ()
    upd State.nmiUnblocked

/-! ### The I/O permission check (R373) -/

/-- `IoPermission(port, n)` (R373): allowed in real-address mode and at CPL <= IOPL; else, and always in virtual-8086
mode, every bit of the ports in the TSS's map must be 0. In IA-32e mode every byte read of the TSS must be canonical
(R121). -/
def ioPermission (port : BitVec 16) (n : Nat) : M Unit := do
  let s ← readS id
  if s.mode == .real || (s.mode != .v86 && decide (s.cpl ≤ s.iopl)) then pure ()
  else
    raiseIf (s.lma && !canonicalRange (s.tssAddr 0x66) 2) gp0
    let base ← sysRead (s.tssAddr 0x66) 2
    raiseIf (decide (s.tr.limit.toNat < base + port.toNat / 8 + 1)) gp0
    raiseIf (s.lma && !canonicalRange (s.tssAddr (base + port.toNat / 8)) 2) gp0
    let bits ← sysRead (s.tssAddr (base + port.toNat / 8)) 2
    raiseIf (bits / 2 ^ (port.toNat % 8) % 2 ^ n != 0) gp0

end Sys2Proof.Machine
end

