-- ==== Sys2Proof/Machine/Operands.lean ====
section
/-! DEFINITION. The operand forms: reading, writing and updating register and memory operands (R240). -/

namespace Sys2Proof.Machine

/-- An r/m operand of 16, 32 or 64 bits as an r/m operand of any width. -/
def asRmb : RM → RMB
  | .reg r => .reg (.full r)
  | .mem m => .mem m

/-- Reads an r/m operand (R240). -/
def readRmb (w : Width) : RMB → M (BitVec w.bits)
  | .reg g => readS fun s => s.readGReg w g
  | .mem m => loadMem w m

/-- Writes an r/m operand (R240). -/
def writeRmb (w : Width) (rm : RMB) (v : BitVec w.bits) : M Unit :=
  match rm with
  | .reg g => upd fun s => s.writeGReg w g v
  | .mem m => storeMem w m v

/-- Reads an r/m operand of 16, 32 or 64 bits (R240). -/
def readRm (w : Width) (rm : RM) : M (BitVec w.bits) := readRmb w (asRmb rm)

/-- Writes an r/m operand of 16, 32 or 64 bits (R240). -/
def writeRm (w : Width) (rm : RM) (v : BitVec w.bits) : M Unit := writeRmb w (asRmb rm) v

/-- Reads an r/m operand, computes, and writes the result back. A memory operand is checked for writing before it is
read, so the write cannot fault (R240); a page fault of it reports W/R = 1 (DESIGN CHOICE, log 80). -/
def updateRmb (w : Width) (rm : RMB) (f : BitVec w.bits → M (BitVec w.bits)) : M Unit :=
  match rm with
  | .reg g => do
    let v ← readS fun s => s.readGReg w g
    let r ← f v
    upd fun s => s.writeGReg w g r
  | .mem m => do
    let sp ← resolveMem m w.bytes true (.natural w.bytes)
    let v ← loadSpan sp w.bytes
    let r ← f (BitVec.ofNat w.bits v)
    storeSpan sp w.bytes r.toNat

/-- The address of a memory operand, where a register operand raises #UD. -/
def memOnly : RM → M Mem
  | .reg _ => raise udFault
  | .mem m => pure m

/-- An immediate sign-extended to the operand width (R192). -/
def immOf (w : Width) (imm : BitVec w.immBits) : BitVec w.bits := imm.signExtend w.bits

/-- A byte immediate sign-extended to the operand width (R192). -/
def imm8Of (w : Width) (imm : Byte) : BitVec w.bits := imm.signExtend w.bits

/-- The accumulator AL, AX, EAX or RAX. -/
def accReg : GReg := .full rAX

/-- A two-operand operation: it computes the result from destination and source and sets the flags. -/
abbrev BinOp := (w : Width) → BitVec w.bits → BitVec w.bits → M (BitVec w.bits)

/-- Runs a two-operand operation on an operand form and writes the destination (R240, R242). -/
def aluUpdate (op : BinOp) : AluArgs → M Unit
  | .rmR w rm r => do
    let b ← readS fun s => s.readGReg w r
    updateRmb w rm fun a => op w a b
  | .rRm w r rm => do
    let b ← readRmb w rm
    updateRmb w (.reg r) fun a => op w a b
  | .accImm w imm => updateRmb w (.reg accReg) fun a => op w a (immOf w imm)
  | .rmImm w rm imm => updateRmb w rm fun a => op w a (immOf w imm)
  | .rmImm8 w rm imm => updateRmb w (asRmb rm) fun a => op w a (imm8Of w imm)

/-- Runs a two-operand operation for its flags only (R248). -/
def aluRead (op : BinOp) : AluArgs → M Unit
  | .rmR w rm r => do
    let a ← readRmb w rm
    let b ← readS fun s => s.readGReg w r
    let _ ← op w a b
  | .rRm w r rm => do
    let b ← readRmb w rm
    let a ← readS fun s => s.readGReg w r
    let _ ← op w a b
  | .accImm w imm => do
    let a ← readS fun s => s.readGReg w accReg
    let _ ← op w a (immOf w imm)
  | .rmImm w rm imm => do
    let a ← readRmb w rm
    let _ ← op w a (immOf w imm)
  | .rmImm8 w rm imm => do
    let a ← readRm w rm
    let _ ← op w a (imm8Of w imm)

/-- Whether the destination of a two-operand form is in memory (R430). -/
def aluToMemory : AluArgs → Bool
  | .rmR _ (.mem _) _ => true
  | .rmImm _ (.mem _) _ => true
  | .rmImm8 _ (.mem _) _ => true
  | _ => false

/-- Whether an r/m operand is in memory. -/
def inMemory {ρ : Type} : Opnd ρ → Bool
  | .mem _ => true
  | .reg _ => false

/-- Reads `n` bytes of the memory operand `m` as a little-endian number (R100, R130). -/
def loadBytes (m : Mem) (n : Nat) (al : Align) : M Nat := do
  let sp ← resolveMem m n false al
  loadSpan sp n

/-- In real-address and virtual-8086 mode an operand of an SSE instruction, of FXSAVE, FXRSTOR or CLFLUSH must lie in
the addresses 0 to FFFFH, whatever its segment (R401, R440, R672, R673). -/
def needLow (m : Mem) (n : Nat) : M Unit := do
  let s ← readS id
  raiseIf (s.paragraphs && decide (0xFFFF < (s.effAddr m).toNat + n - 1)) gp0

/-- Where the `n` bytes of such an operand lie. -/
def resolveLow (m : Mem) (n : Nat) (write : Bool) (al : Align) : M Span := do
  needLow m n
  resolveMem m n write al

/-- Reads `n` bytes of such an operand. -/
def loadLow (m : Mem) (n : Nat) (al : Align) : M Nat := do
  let sp ← resolveLow m n false al
  loadSpan sp n

/-- Writes `n` bytes of such an operand. -/
def storeLow (m : Mem) (n : Nat) (al : Align) (v : Nat) : M Unit := do
  let sp ← resolveLow m n true al
  storeSpan sp n v

/-- Writes `n` bytes of the operand `m`. -/
def storeBytes (m : Mem) (n : Nat) (al : Align) (v : Nat) : M Unit := do
  let sp ← resolveMem m n true al
  storeSpan sp n v

end Sys2Proof.Machine
end

