-- ==== Sys2Proof/Machine/Data.lean ====
section
/-! DEFINITION. Moves, the stack instructions and XLAT (48_vol2_partial.md rules R781 to R784, R787 to R789, R804). -/

namespace Sys2Proof.Machine

/-- Raises #UD in 64-bit mode, where the instruction is invalid (R207). -/
def invalid64 : M Unit := do
  let b ← readS State.is64
  raiseIf b udFault

/-! ### MOV -/

/-- MOV on its operand forms (R781). -/
def movForm : MovArgs → M Unit
  | .rmR w rm r => do
    let v ← readS fun s => s.readGReg w r
    writeRmb w rm v
  | .rRm w r rm => do
    let v ← readRmb w rm
    upd fun s => s.writeGReg w r v
  | .regImm w r imm => upd fun s => s.writeGReg w r imm
  | .rmImm w rm imm => writeRmb w rm (immOf w imm)

/-- MOV (R781). -/
def execMov (a : MovArgs) (s : State) : Host.Outcome State Fault Refusal := runSeq (movForm a) s

/-- MOV between the accumulator and memory at an offset (R782). -/
def moffsForm (store : Bool) (w : Width) (seg : SReg) (off : Word) : M Unit :=
  if store then do
    let v ← readS fun s => s.readReg w rAX
    writeMem seg off w.bytes v.toNat
  else do
    let v ← readMem seg off w.bytes
    upd fun s => s.writeReg w rAX (BitVec.ofNat w.bits v)

/-- MOV with a direct memory offset (R782). -/
def execMovMoffs (store : Bool) (w : Width) (seg : SReg) (asz : ASize) (off : Word) (s : State) :
    Host.Outcome State Fault Refusal :=
  runSeq (moffsForm store w seg (asizeTrunc asz off)) s

/-- MOVSXD: sign extension with a 64-bit operand size, else a plain move (R783). -/
def movsxdForm (w : Width) (r : Reg) (src : RM) : M Unit := do
  let v ← readRm .b32 src
  upd fun s => s.writeReg w r (v.signExtend w.bits)

/-- MOVSXD (R783). -/
def execMovsxd (w : Width) (r : Reg) (src : RM) (s : State) : Host.Outcome State Fault Refusal :=
  runSeq (movsxdForm w r src) s

/-- MOVZX and MOVSX: a source of `sw` bits, extended by `ext` (R784). -/
def movxForm (w sw : Width) (r : Reg) (src : RMB) (ext : BitVec sw.bits → BitVec w.bits) : M Unit := do
  let v ← readRmb sw src
  upd fun s => s.writeReg w r (ext v)

/-- MOVZX (R784). -/
def execMovzx (w sw : Width) (r : Reg) (src : RMB) (s : State) : Host.Outcome State Fault Refusal :=
  runSeq (movxForm w sw r src fun v => v.setWidth w.bits) s

/-- MOVSX (R784). -/
def execMovsx (w sw : Width) (r : Reg) (src : RMB) (s : State) : Host.Outcome State Fault Refusal :=
  runSeq (movxForm w sw r src fun v => v.signExtend w.bits) s

/-! ### Segment registers (R787) -/

/-- The segment register a reg field names: 6 and 7 name none (R63, R787). -/
def sregOf (n : Reg3) : Option SReg :=
  match n.toNat with
  | 0 => some .es
  | 1 => some .cs
  | 2 => some .ss
  | 3 => some .ds
  | 4 => some .fs
  | 5 => some .gs
  | _ => none

/-- MOV from a segment register: a register destination receives the selector zero-extended to the operand size, a
memory destination 16 bits (R787). The numbers 6 and 7 raise #UD (DESIGN CHOICE, log 97: R787 says so of 8E). -/
def movFromSregForm (osz : Width) (dst : RM) (sr : Reg3) : M Unit :=
  match sregOf sr with
  | none => raise udFault
  | some g => do
    let sel ← readS fun s => (s.seg g).sel
    match dst with
    | .reg r => upd fun s => s.writeReg osz r (sel.setWidth osz.bits)
    | .mem m => storeMem .b16 m sel

/-- MOV from a segment register (R787). -/
def execMovFromSreg (osz : Width) (dst : RM) (sr : Reg3) (s : State) : Host.Outcome State Fault Refusal :=
  runSeq (movFromSregForm osz dst sr) s

/-- A load of SS holds interrupts and debug traps off until the next instruction has completed (R787, R762). -/
def shadowSs (g : SReg) : M Unit := if g = .ss then upd fun s => { s with shadow := .movss } else pure ()

/-- MOV to a segment register; CS cannot be loaded (R787). -/
def movToSregForm (sr : Reg3) (src : RM) : M Unit :=
  match sregOf sr with
  | none => raise udFault
  | some .cs => raise udFault
  | some g => do
    let sel ← readRm .b16 src
    loadSegment g sel
    shadowSs g

/-- MOV to a segment register (R787). -/
def execMovToSreg (sr : Reg3) (src : RM) (s : State) : Host.Outcome State Fault Refusal :=
  runSeq (movToSregForm sr src) s

/-! ### The stack (R787 to R789) -/

/-- Whether a segment register can be pushed or popped in 64-bit mode: FS and GS only (R787). -/
def stackable64 (g : SReg) : Bool := g == .fs || g == .gs

/-- PUSH on its operand forms: the operand is read before the stack pointer changes (R787, R788). -/
def pushForm : PushArgs → M Unit
  | .reg w r => do
    let v ← readS fun s => s.readReg w r
    push w.bytes v.toNat
  | .rm w src => do
    let v ← readRm w src
    push w.bytes v.toNat
  | .imm8 w imm => push w.bytes (imm8Of w imm).toNat
  | .imm w imm => push w.bytes (immOf w imm).toNat
  | .sreg w g => do
    let s ← readS id
    raiseIf (s.is64 && !stackable64 g) udFault
    push w.bytes (s.seg g).sel.toNat

/-- PUSH (R787, R788). -/
def execPush (a : PushArgs) (s : State) : Host.Outcome State Fault Refusal := runSeq (pushForm a) s

/-- POP on its operand forms: a memory destination is addressed after the stack pointer has moved, and POP of the stack
pointer loads the popped value (R787, R788). R787 gives the steps of POP for FS and GS only: POP SS moves the stack
pointer at the size of the stack it pops from, before SS is loaded (DESIGN CHOICE, log 116). -/
def popForm : PopArgs → M Unit
  | .reg w r => do
    let v ← pop w.bytes
    upd fun s => s.writeReg w r (BitVec.ofNat w.bits v)
  | .rm w dst => do
    let v ← pop w.bytes
    writeRm w dst (BitVec.ofNat w.bits v)
  | .sreg w g => do
    let b ← readS State.is64
    raiseIf (g == .cs || (b && !stackable64 g)) udFault
    let v ← pop w.bytes
    loadSegment g (BitVec.ofNat 16 v)
    shadowSs g

/-- POP (R787, R788). -/
def execPop (a : PopArgs) (s : State) : Host.Outcome State Fault Refusal := runSeq (popForm a) s

/-- PUSHF: VM and RF are pushed as 0 (R789). -/
def pushfForm (osz : Width) : M Unit := do
  let f ← readS (·.rflags)
  push osz.bytes (f &&& 0xFCFFFF).toNat

/-- PUSHF (R789). -/
def execPushf (osz : Width) (s : State) : Host.Outcome State Fault Refusal := runSeq (pushfForm osz) s

/-- POPF: the fields by operand size and privilege, and RF cleared (R789). -/
def popfForm (osz : Width) : M Unit := do
  let v ← pop osz.bytes
  upd fun s => s.setRflags (putBit (mergeFlags s osz (BitVec.ofNat 32 v) false) fRF false)

/-- POPF (R789). -/
def execPopf (osz : Width) (s : State) : Host.Outcome State Fault Refusal := runSeq (popfForm osz) s

/-- Pushes a list of registers, as they were in the state `s`. -/
def pushRegs (osz : Width) (s : State) : List Reg → M Unit
  | [] => pure ()
  | r :: rest => do
    push osz.bytes (s.readReg osz r).toNat
    pushRegs osz s rest

/-- Pops into a list of registers; the slot of the stack pointer is skipped. -/
def popRegs (osz : Width) : List Reg → M Unit
  | [] => pure ()
  | r :: rest => do
    let v ← pop osz.bytes
    if r == rSP then pure () else upd fun s => s.writeReg osz r (BitVec.ofNat osz.bits v)
    popRegs osz rest

/-- PUSHA: invalid in 64-bit mode (R789); the order AX, CX, DX, BX, the old SP, BP, SI, DI is the family's
(PRESUMED). -/
def pushaForm (osz : Width) : M Unit := do
  invalid64
  let s ← readS id
  pushRegs osz s [rAX, rCX, rDX, rBX, rSP, rBP, rSI, rDI]

/-- PUSHA (R789). -/
def execPusha (osz : Width) (s : State) : Host.Outcome State Fault Refusal := runSeq (pushaForm osz) s

/-- POPA: invalid in 64-bit mode (R789); the reverse order of PUSHA (PRESUMED). -/
def popaForm (osz : Width) : M Unit := do
  invalid64
  popRegs osz [rDI, rSI, rBP, rSP, rBX, rDX, rCX, rAX]

/-- POPA (R789). -/
def execPopa (osz : Width) (s : State) : Host.Outcome State Fault Refusal := runSeq (popaForm osz) s

/-! ### XLAT -/

/-- XLAT: AL receives the byte at rBX + AL (R804). -/
def xlatForm (asz : ASize) (seg : SReg) : M Unit := do
  let s ← readS id
  let v ← readMem seg (asizeTrunc asz (s.get rBX + (s.readReg .b8 rAX).setWidth 64)) 1
  upd fun t => t.writeReg .b8 rAX (BitVec.ofNat 8 v)

/-- XLAT (R804). -/
def execXlat (asz : ASize) (seg : SReg) (s : State) : Host.Outcome State Fault Refusal := runSeq (xlatForm asz seg) s

end Sys2Proof.Machine
end

