-- ==== Sys2Proof/Machine/IntArith.lean ====
section
/-! DEFINITION. Integer arithmetic, logic, conversion and exchange (40_int_arith.md; 48_vol2_partial.md rules R798,
R799, R801). -/

namespace Sys2Proof.Machine

/-! ### The eight ALU operations (R242, R245 to R248, R798) -/

/-- `a + b` with its flags (R245). -/
def addOp : BinOp := fun _ a b => do
  setFlags statusMask (addStatus a b false)
  pure (addRes a b false)

/-- `a + b + CF` with its flags (R246). -/
def adcOp : BinOp := fun _ a b => do
  let c ← readS (·.flag fCF)
  setFlags statusMask (addStatus a b c)
  pure (addRes a b c)

/-- `a - b` with its flags (R798, R248). -/
def subOp : BinOp := fun _ a b => do
  setFlags statusMask (subStatus a b false)
  pure (subRes a b false)

/-- `a - b - CF` with its flags (R798). -/
def sbbOp : BinOp := fun _ a b => do
  let c ← readS (·.flag fCF)
  setFlags statusMask (subStatus a b c)
  pure (subRes a b c)

/-- `a and b` with its flags (R247). -/
def andOp : BinOp := fun _ a b => do
  setLogic (a &&& b)
  pure (a &&& b)

/-- `a or b` with its flags (R798). -/
def orOp : BinOp := fun _ a b => do
  setLogic (a ||| b)
  pure (a ||| b)

/-- `a xor b` with its flags (R798). -/
def xorOp : BinOp := fun _ a b => do
  setLogic (a ^^^ b)
  pure (a ^^^ b)

/-- ADD (R245). -/
def execAdd (a : AluArgs) (s : State) : Host.Outcome State Fault Refusal := runSeq (aluUpdate addOp a) s
/-- ADC (R246). -/
def execAdc (a : AluArgs) (s : State) : Host.Outcome State Fault Refusal := runSeq (aluUpdate adcOp a) s
/-- AND (R247). -/
def execAnd (a : AluArgs) (s : State) : Host.Outcome State Fault Refusal := runSeq (aluUpdate andOp a) s
/-- CMP (R248). -/
def execCmp (a : AluArgs) (s : State) : Host.Outcome State Fault Refusal := runSeq (aluRead subOp a) s
/-- OR (R798). -/
def execOr (a : AluArgs) (s : State) : Host.Outcome State Fault Refusal := runSeq (aluUpdate orOp a) s
/-- SBB (R798). -/
def execSbb (a : AluArgs) (s : State) : Host.Outcome State Fault Refusal := runSeq (aluUpdate sbbOp a) s
/-- SUB (R798). -/
def execSub (a : AluArgs) (s : State) : Host.Outcome State Fault Refusal := runSeq (aluUpdate subOp a) s
/-- XOR (R798). -/
def execXor (a : AluArgs) (s : State) : Host.Outcome State Fault Refusal := runSeq (aluUpdate xorOp a) s

/-- TEST on its operand forms: those of the ALU instructions without a result (R798). -/
def testForm : TestArgs → M Unit
  | .rmR w rm r => aluRead andOp (.rmR w rm r)
  | .accImm w imm => aluRead andOp (.accImm w imm)
  | .rmImm w rm imm => aluRead andOp (.rmImm w rm imm)

/-- TEST (R798). -/
def execTest (a : TestArgs) (s : State) : Host.Outcome State Fault Refusal := runSeq (testForm a) s

/-- The status flags but CF (R250, R251). -/
abbrev incMask : BitVec 32 := 0x8D4

/-- `a + 1` with its flags, CF unchanged (R250). -/
def incOp (w : Width) (a : BitVec w.bits) : M (BitVec w.bits) := do
  setFlags incMask (addStatus a 1 false)
  pure (addRes a 1 false)

/-- `a - 1` with its flags, CF unchanged (R251). -/
def decOp (w : Width) (a : BitVec w.bits) : M (BitVec w.bits) := do
  setFlags incMask (subStatus a 1 false)
  pure (subRes a 1 false)

/-- INC or DEC on its operand forms (R250, R251). -/
def incForm (op : (w : Width) → BitVec w.bits → M (BitVec w.bits)) : IncArgs → M Unit
  | .rm w rm => updateRmb w rm (op w)
  | .short w r => updateRmb w (.reg (.full (r.setWidth 4))) (op w)

/-- INC (R250). -/
def execInc (a : IncArgs) (s : State) : Host.Outcome State Fault Refusal := runSeq (incForm incOp a) s
/-- DEC (R251). -/
def execDec (a : IncArgs) (s : State) : Host.Outcome State Fault Refusal := runSeq (incForm decOp a) s

/-- The complement, without flags (R798). -/
def notOp (w : Width) (a : BitVec w.bits) : M (BitVec w.bits) := pure (~~~a)

/-- `0 - a` with its flags (R798). -/
def negOp (w : Width) (a : BitVec w.bits) : M (BitVec w.bits) := do
  setFlags statusMask (subStatus 0 a false)
  pure (subRes 0 a false)

/-- NOT (R798). -/
def execNot (w : Width) (rm : RMB) (s : State) : Host.Outcome State Fault Refusal := runSeq (updateRmb w rm (notOp w)) s
/-- NEG (R798). -/
def execNeg (w : Width) (rm : RMB) (s : State) : Host.Outcome State Fault Refusal := runSeq (updateRmb w rm (negOp w)) s

/-! ### Multiply and divide (R255 to R257, R798) -/

/-- Two numbers in the low and the high half of the accumulator: AX for bytes, else rAX and rDX (R255, R257). -/
def State.writePair (s : State) (w : Width) (lo hi : BitVec w.bits) : State :=
  match w, lo, hi with
  | .b8, l, h => s.writeReg .b16 rAX (h ++ l)
  | .b16, l, h => (s.writeReg .b16 rAX l).writeReg .b16 rDX h
  | .b32, l, h => (s.writeReg .b32 rAX l).writeReg .b32 rDX h
  | .b64, l, h => (s.writeReg .b64 rAX l).writeReg .b64 rDX h

/-- The high half of the accumulator: AH for bytes, else rDX (R255). -/
def State.highHalf (s : State) (w : Width) : BitVec w.bits :=
  match w with
  | .b8 => s.readGReg .b8 (.high 0)
  | .b16 => s.readReg .b16 rDX
  | .b32 => s.readReg .b32 rDX
  | .b64 => s.readReg .b64 rDX

/-- The flags of a multiplication: CF and OF, the others open (R257, R798). -/
def mulFlags (c : Bool) : M Unit := do
  setFlags 0x801 { cf := c, of := c, af := false, pf := false, zf := false, sf := false }
  openFlags 0xD4

/-- The exact product of two numbers of `w` bits in the accumulator halves (R257, R798). -/
def putProduct (w : Width) (p : Int) : M Unit :=
  upd fun s => s.writePair w (BitVec.ofInt w.bits p) (BitVec.ofInt w.bits (p / 2 ^ w.bits))

/-- MUL: CF and OF say that the upper half is not zero (R798). -/
def mulForm (w : Width) (rm : RMB) : M Unit := do
  let b ← readRmb w rm
  let a ← readS fun s => s.readReg w rAX
  let p := a.toNat * b.toNat
  putProduct w p
  mulFlags (decide (2 ^ w.bits ≤ p))

/-- MUL (R798). -/
def execMul (w : Width) (rm : RMB) (s : State) : Host.Outcome State Fault Refusal := runSeq (mulForm w rm) s

/-- Whether a signed product does not fit in `w` bits (R257). -/
def overflows (w : Width) (p : Int) : Bool := decide ((BitVec.ofInt w.bits p).toInt ≠ p)

/-- IMUL with a destination register: the low half of the product (R257). -/
def imulTo (w : Width) (r : Reg) (a b : BitVec w.bits) : M Unit := do
  let p := a.toInt * b.toInt
  upd fun s => s.writeReg w r (BitVec.ofInt w.bits p)
  mulFlags (overflows w p)

/-- IMUL on its operand forms (R257). -/
def imulForm : ImulArgs → M Unit
  | .one w rm => do
    let b ← readRmb w rm
    let a ← readS fun s => s.readReg w rAX
    let p := a.toInt * b.toInt
    putProduct w p
    mulFlags (overflows w p)
  | .two w r src => do
    let b ← readRm w src
    let a ← readS fun s => s.readReg w r
    imulTo w r a b
  | .three8 w r src imm => do
    let a ← readRm w src
    imulTo w r a (imm8Of w imm)
  | .three w r src imm => do
    let a ← readRm w src
    imulTo w r a (immOf w imm)

/-- IMUL (R257). -/
def execImul (a : ImulArgs) (s : State) : Host.Outcome State Fault Refusal := runSeq (imulForm a) s

/-- DIV: #DE for a divisor of 0 and for a quotient that is too large; all six flags open (R255). -/
def divForm (w : Width) (rm : RMB) : M Unit := do
  let d ← readRmb w rm
  let s ← readS id
  let n := (s.highHalf w).toNat * 2 ^ w.bits + (s.readReg w rAX).toNat
  raiseIf (d == 0) deFault
  raiseIf (decide (2 ^ w.bits ≤ n / d.toNat)) deFault
  upd fun t => t.writePair w (BitVec.ofNat w.bits (n / d.toNat)) (BitVec.ofNat w.bits (n % d.toNat))
  openFlags statusMask

/-- DIV (R255). -/
def execDiv (w : Width) (rm : RMB) (s : State) : Host.Outcome State Fault Refusal := runSeq (divForm w rm) s

/-- IDIV: the quotient is truncated toward zero, the remainder has the sign of the dividend (R256). -/
def idivForm (w : Width) (rm : RMB) : M Unit := do
  let d ← readRmb w rm
  let s ← readS id
  let n : Int := (s.highHalf w).toInt * 2 ^ w.bits + (s.readReg w rAX).toNat
  raiseIf (d == 0) deFault
  let q := n.tdiv d.toInt
  raiseIf (overflows w q) deFault
  upd fun t => t.writePair w (BitVec.ofInt w.bits q) (BitVec.ofInt w.bits (n.tmod d.toInt))
  openFlags statusMask

/-- IDIV (R256). -/
def execIdiv (w : Width) (rm : RMB) (s : State) : Host.Outcome State Fault Refusal := runSeq (idivForm w rm) s

/-! ### ASCII and decimal adjust (R260 to R265) -/

/-- AL (R31). -/
def State.al (s : State) : BitVec 8 := s.readReg .b8 rAX
/-- AH (R31). -/
def State.ah (s : State) : BitVec 8 := s.readGReg .b8 (.high 0)
/-- The state with AX replaced, high byte first. -/
def State.putAx (s : State) (ah al : BitVec 8) : State := s.writeReg .b16 rAX (ah ++ al)

/-- The carries of a decimal adjustment: CF and AF set alike, OF, SF, ZF and PF open (R260, R263). -/
def adjustFlags (c : Bool) : M Unit := do
  setFlags 0x11 { cf := c, af := c, of := false, pf := false, zf := false, sf := false }
  openFlags 0x8C4

/-- AAA and AAS: the digit and the byte above it adjusted by the functions given (R260, R263). -/
def asciiAdjust (low high : BitVec 8 → BitVec 8) : M Unit := do
  invalid64
  let s ← readS id
  let c := decide (9 < (s.al &&& 0xF).toNat) || s.flag fAF
  upd fun t => if c then t.putAx (high s.ah) (low s.al &&& 0xF) else t.putAx s.ah (s.al &&& 0xF)
  adjustFlags c

/-- AAA (R260). -/
def execAaa (s : State) : Host.Outcome State Fault Refusal := runSeq (asciiAdjust (· + 6) (· + 1)) s
/-- AAS (R263). -/
def execAas (s : State) : Host.Outcome State Fault Refusal := runSeq (asciiAdjust (· - 6) (· - 1)) s

/-- SF, ZF and PF of the byte left in AL; OF, AF and CF open (R261, R262). -/
def byteFlags (al : BitVec 8) : M Unit := do
  setFlags 0xC4 (logicStatus al)
  openFlags 0x811

/-- AAD (R261). -/
def aadForm (base : Byte) : M Unit := do
  invalid64
  let s ← readS id
  let r := s.al + s.ah * base
  upd fun t => t.putAx 0 r
  byteFlags r

/-- AAD (R261). -/
def execAad (base : Byte) (s : State) : Host.Outcome State Fault Refusal := runSeq (aadForm base) s

/-- AAM: #DE for a base of 0 (R262). -/
def aamForm (base : Byte) : M Unit := do
  invalid64
  raiseIf (base == 0) deFault
  let s ← readS id
  upd fun t => t.putAx (s.al / base) (s.al % base)
  byteFlags (s.al % base)

/-- AAM (R262). -/
def execAam (base : Byte) (s : State) : Host.Outcome State Fault Refusal := runSeq (aamForm base) s

/-- The result of DAA or DAS in AL with its flags; OF open (R264, R265). -/
def putDecimal (r : BitVec 8) (cf af : Bool) : M Unit := do
  upd fun t => t.writeReg .b8 rAX r
  setFlags 0xD5 { logicStatus r with cf := cf, af := af }
  openFlags 0x800

/-- Whether the low digit is adjusted (R264, R265). -/
def State.lowAdjust (s : State) : Bool := decide (9 < (s.al &&& 0xF).toNat) || s.flag fAF
/-- Whether the high digit is adjusted (R264, R265). -/
def State.highAdjust (s : State) : Bool := decide (0x99 < s.al.toNat) || s.flag fCF

/-- DAA (R264). -/
def daaForm : M Unit := do
  invalid64
  let s ← readS id
  let a := if s.lowAdjust then s.al + 6 else s.al
  putDecimal (if s.highAdjust then a + 0x60 else a) s.highAdjust s.lowAdjust

/-- DAA (R264). -/
def execDaa (s : State) : Host.Outcome State Fault Refusal := runSeq daaForm s

/-- DAS (R265). -/
def dasForm : M Unit := do
  invalid64
  let s ← readS id
  let a := if s.lowAdjust then s.al - 6 else s.al
  let borrow := s.lowAdjust && (s.flag fCF || decide (s.al.toNat < 6))
  putDecimal (if s.highAdjust then a - 0x60 else a) (s.highAdjust || borrow) s.lowAdjust

/-- DAS (R265). -/
def execDas (s : State) : Host.Outcome State Fault Refusal := runSeq dasForm s

/-! ### Sign extension, byte swap, flags and AH (R268 to R288, R801) -/

/-- CBW and CWDE by the operand size, and CDQE (R268). -/
def State.convert (s : State) : Width → State
  | .b16 => s.writeReg .b16 rAX ((s.readReg .b8 rAX).signExtend 16)
  | .b32 => s.writeReg .b32 rAX ((s.readReg .b16 rAX).signExtend 32)
  | .b64 => s.writeReg .b64 rAX ((s.readReg .b32 rAX).signExtend 64)
  | .b8 => s

/-- CBW and CWDE (R268). -/
def execCbw (w : Width) (s : State) : Host.Outcome State Fault Refusal := runSeq (upd (·.convert w)) s
/-- CDQE (R268). -/
def execCdqe (s : State) : Host.Outcome State Fault Refusal := runSeq (upd (·.convert .b64)) s

/-- The sign of the accumulator in every bit of rDX (R269). -/
def State.spreadSign (s : State) (w : Width) : State :=
  s.writeReg w rDX (if (s.readReg w rAX).msb then BitVec.allOnes w.bits else 0)

/-- CWD and CDQ (R269). -/
def execCwd (w : Width) (s : State) : Host.Outcome State Fault Refusal := runSeq (upd (·.spreadSign w)) s
/-- CQO (R269). -/
def execCqo (s : State) : Host.Outcome State Fault Refusal := runSeq (upd (·.spreadSign .b64)) s

/-- The bytes of a doubleword in reverse order (R272). -/
def swap32 (v : BitVec 32) : BitVec 32 :=
  v.extractLsb' 0 8 ++ v.extractLsb' 8 8 ++ v.extractLsb' 16 8 ++ v.extractLsb' 24 8

/-- The bytes of a quadword in reverse order (R272). -/
def swap64 (v : BitVec 64) : BitVec 64 := swap32 (v.extractLsb' 0 32) ++ swap32 (v.extractLsb' 32 32)

/-- BSWAP; with a 16-bit operand size bits 15:0 are an open value (R272, 93_implementation_defined.md U10). -/
def bswapForm (w : Width) (r : Reg) : M Unit :=
  match w with
  | .b32 => upd fun s => s.writeReg .b32 r (swap32 (s.readReg .b32 r))
  | .b64 => upd fun s => s.writeReg .b64 r (swap64 (s.readReg .b64 r))
  | _ => do
    let v ← draw
    upd fun s => s.writeReg .b16 r (v.setWidth 16)

/-- BSWAP (R272). -/
def execBswap (w : Width) (r : Reg) (s : State) : Host.Outcome State Fault Refusal := runSeq (bswapForm w r) s

/-- The flags in AH's positions: SF:ZF:0:AF:0:PF:1:CF (R285). -/
def State.flagByte (s : State) : BitVec 8 := (s.rflags.extractLsb' 0 8 &&& 0xD5) ||| 2

/-- LAHF: invalid in 64-bit mode (R285). -/
def lahfForm : M Unit := do
  invalid64
  upd fun s => s.writeGReg .b8 (.high 0) s.flagByte

/-- LAHF (R285). -/
def execLahf (s : State) : Host.Outcome State Fault Refusal := runSeq lahfForm s

/-- SAHF: invalid in 64-bit mode (R801). -/
def sahfForm : M Unit := do
  invalid64
  upd fun s => s.setRflags (maskFlags s.rflags 0xD5 (s.ah.setWidth 32))

/-- SAHF (R801). -/
def execSahf (s : State) : Host.Outcome State Fault Refusal := runSeq sahfForm s

/-- LEA: the effective address, truncated or zero-extended; a register operand raises #UD (R288, decision D15). -/
def leaForm (w : Width) (r : Reg) (src : RM) : M Unit := do
  let m ← memOnly src
  upd fun s => s.writeReg w r ((s.effAddr m).setWidth w.bits)

/-- LEA (R288). -/
def execLea (w : Width) (r : Reg) (src : RM) (s : State) : Host.Outcome State Fault Refusal := runSeq (leaForm w r src) s

/-! ### Conditional move (R275) -/

/-- CMOVcc: the source is read in either case; with a 32-bit operand size a false condition still clears bits 63:32
of the destination (R275). -/
def cmovForm (t : BitVec 4) (w : Width) (r : Reg) (src : RM) : M Unit := do
  let v ← readRm w src
  upd fun s =>
    if s.cond t then s.writeReg w r v
    else if w = .b32 then s.writeReg w r (s.readReg w r)
    else s

/-- CMOVO (R275). -/
def execCmovo (w : Width) (r : Reg) (src : RM) (s : State) : Host.Outcome State Fault Refusal :=
  runSeq (cmovForm 0 w r src) s
/-- CMOVNO (R275). -/
def execCmovno (w : Width) (r : Reg) (src : RM) (s : State) : Host.Outcome State Fault Refusal :=
  runSeq (cmovForm 1 w r src) s
/-- CMOVB (R275). -/
def execCmovb (w : Width) (r : Reg) (src : RM) (s : State) : Host.Outcome State Fault Refusal :=
  runSeq (cmovForm 2 w r src) s
/-- CMOVAE (R275). -/
def execCmovae (w : Width) (r : Reg) (src : RM) (s : State) : Host.Outcome State Fault Refusal :=
  runSeq (cmovForm 3 w r src) s
/-- CMOVE (R275). -/
def execCmove (w : Width) (r : Reg) (src : RM) (s : State) : Host.Outcome State Fault Refusal :=
  runSeq (cmovForm 4 w r src) s
/-- CMOVNE (R275). -/
def execCmovne (w : Width) (r : Reg) (src : RM) (s : State) : Host.Outcome State Fault Refusal :=
  runSeq (cmovForm 5 w r src) s
/-- CMOVBE (R275). -/
def execCmovbe (w : Width) (r : Reg) (src : RM) (s : State) : Host.Outcome State Fault Refusal :=
  runSeq (cmovForm 6 w r src) s
/-- CMOVA (R275). -/
def execCmova (w : Width) (r : Reg) (src : RM) (s : State) : Host.Outcome State Fault Refusal :=
  runSeq (cmovForm 7 w r src) s
/-- CMOVS (R275). -/
def execCmovs (w : Width) (r : Reg) (src : RM) (s : State) : Host.Outcome State Fault Refusal :=
  runSeq (cmovForm 8 w r src) s
/-- CMOVNS (R275). -/
def execCmovns (w : Width) (r : Reg) (src : RM) (s : State) : Host.Outcome State Fault Refusal :=
  runSeq (cmovForm 9 w r src) s
/-- CMOVP (R275). -/
def execCmovp (w : Width) (r : Reg) (src : RM) (s : State) : Host.Outcome State Fault Refusal :=
  runSeq (cmovForm 10 w r src) s
/-- CMOVNP (R275). -/
def execCmovnp (w : Width) (r : Reg) (src : RM) (s : State) : Host.Outcome State Fault Refusal :=
  runSeq (cmovForm 11 w r src) s
/-- CMOVL (R275). -/
def execCmovl (w : Width) (r : Reg) (src : RM) (s : State) : Host.Outcome State Fault Refusal :=
  runSeq (cmovForm 12 w r src) s
/-- CMOVGE (R275). -/
def execCmovge (w : Width) (r : Reg) (src : RM) (s : State) : Host.Outcome State Fault Refusal :=
  runSeq (cmovForm 13 w r src) s
/-- CMOVLE (R275). -/
def execCmovle (w : Width) (r : Reg) (src : RM) (s : State) : Host.Outcome State Fault Refusal :=
  runSeq (cmovForm 14 w r src) s
/-- CMOVG (R275). -/
def execCmovg (w : Width) (r : Reg) (src : RM) (s : State) : Host.Outcome State Fault Refusal :=
  runSeq (cmovForm 15 w r src) s

/-! ### Compare and exchange (R280 to R282, R799) -/

/-- CMPXCHG: a memory destination is written in either case; on a mismatch the accumulator receives the destination
(R280). As in `updateRmb`, a page fault of the destination reports W/R = 1 (DESIGN CHOICE, log 80). -/
def cmpxchgForm (w : Width) (dst : RMB) (src : GReg) : M Unit := do
  let acc ← readS fun s => s.readReg w rAX
  let new ← readS fun s => s.readGReg w src
  match dst with
  | .reg g => do
    let d ← readS fun s => s.readGReg w g
    setFlags statusMask (subStatus acc d false)
    upd fun s => if acc = d then s.writeGReg w g new else s.writeReg w rAX d
  | .mem m => do
    let sp ← resolveMem m w.bytes true (.natural w.bytes)
    let v ← loadSpan sp w.bytes
    let d := BitVec.ofNat w.bits v
    setFlags statusMask (subStatus acc d false)
    storeSpan sp w.bytes (if acc = d then new else d).toNat
    upd fun s => if acc = d then s else s.writeReg w rAX d

/-- CMPXCHG (R280). -/
def execCmpxchg (w : Width) (dst : RMB) (src : GReg) (s : State) : Host.Outcome State Fault Refusal :=
  runSeq (cmpxchgForm w dst src) s

/-- CMPXCHG8B and CMPXCHG16B: the pair rDX:rAX of width `w` against memory of twice that width, ZF alone changes
(R281, R282; W/R of a page fault: DESIGN CHOICE, log 80). -/
def cmpxchgPair (w : Width) (al : Align) (dst : RM) : M Unit := do
  let m ← memOnly dst
  let s ← readS id
  let sp ← resolveMem m (2 * w.bytes) true al
  let d ← loadSpan sp (2 * w.bytes)
  let old := (s.readReg w rDX).toNat * 2 ^ w.bits + (s.readReg w rAX).toNat
  if d = old then
    storeSpan sp (2 * w.bytes) ((s.readReg w rCX).toNat * 2 ^ w.bits + (s.readReg w rBX).toNat)
    upd (·.setFlag fZF true)
  else
    storeSpan sp (2 * w.bytes) d
    upd fun t => ((t.writeReg w rAX (BitVec.ofNat w.bits d)).writeReg w rDX
      (BitVec.ofNat w.bits (d / 2 ^ w.bits))).setFlag fZF false

/-- CMPXCHG8B (R281). -/
def execCmpxchg8b (dst : RM) (s : State) : Host.Outcome State Fault Refusal :=
  runSeq (cmpxchgPair .b32 (.natural 8) dst) s
/-- CMPXCHG16B: the operand is a multiple of 16, else #GP(0) (R282). -/
def execCmpxchg16b (dst : RM) (s : State) : Host.Outcome State Fault Refusal := runSeq (cmpxchgPair .b64 .para dst) s

/-- XCHG on its operand forms (R799). -/
def xchgForm : XchgArgs → M Unit
  | .rm w rm r => do
    let b ← readS fun s => s.readGReg w r
    updateRmb w rm fun a => do
      upd fun s => s.writeGReg w r a
      pure b
  | .acc w r => do
    let a ← readS fun s => s.readReg w rAX
    let b ← readS fun s => s.readReg w r
    upd fun s => (s.writeReg w rAX b).writeReg w r a

/-- XCHG (R799). -/
def execXchg (a : XchgArgs) (s : State) : Host.Outcome State Fault Refusal := runSeq (xchgForm a) s

/-- XADD: the source receives the old destination, then the destination the sum (R799). -/
def xaddForm (w : Width) (dst : RMB) (src : GReg) : M Unit := do
  let b ← readS fun s => s.readGReg w src
  updateRmb w dst fun a => do
    setFlags statusMask (addStatus a b false)
    upd fun s => s.writeGReg w src a
    pure (addRes a b false)

/-- XADD (R799). -/
def execXadd (w : Width) (dst : RMB) (src : GReg) (s : State) : Host.Outcome State Fault Refusal :=
  runSeq (xaddForm w dst src) s

/-- NOP and PAUSE do nothing (R799). -/
def execNop (_pause : Bool) (s : State) : Host.Outcome State Fault Refusal := runSeq (pure ()) s

end Sys2Proof.Machine
end

