-- ==== Sys2Proof/Machine/BitOps.lean ====
section
/-! DEFINITION. Bit scans, bit tests, shifts, rotates, SETcc and the LOCK prefix (41_bit_ops.md; 48_vol2_partial.md
rules R797, R801; 44_system.md rule R430). -/

namespace Sys2Proof.Machine

/-! ### Bit scans (R301, R302) -/

/-- The least number below `n` of a set bit. -/
def lowestBit {n : Nat} (v : BitVec n) : Option Nat := (List.range n).find? fun i => v.getLsbD i

/-- The greatest number below `n` of a set bit. -/
def highestBit {n : Nat} (v : BitVec n) : Option Nat := (List.range n).reverse.find? fun i => v.getLsbD i

/-- A bit scan: ZF says that the source is 0, in which case the destination is an open value; the other flags are open
(R301, R302, decision D17, 93_implementation_defined.md U11). -/
def scanForm (find : (w : Width) → BitVec w.bits → Option Nat) (w : Width) (r : Reg) (src : RM) : M Unit := do
  let v ← readRm w src
  match find w v with
  | some i => do
    upd fun s => (s.writeReg w r (BitVec.ofNat w.bits i)).setFlag fZF false
    openFlags 0x895
  | none => do
    let x ← draw
    upd fun s => (s.writeReg w r (x.setWidth w.bits)).setFlag fZF true
    openFlags 0x895

/-- BSF (R301). -/
def execBsf (w : Width) (r : Reg) (src : RM) (s : State) : Host.Outcome State Fault Refusal :=
  runSeq (scanForm (fun _ v => lowestBit v) w r src) s
/-- BSR (R302). -/
def execBsr (w : Width) (r : Reg) (src : RM) (s : State) : Host.Outcome State Fault Refusal :=
  runSeq (scanForm (fun _ v => highestBit v) w r src) s

/-! ### Bit tests (R300, R305 to R308) -/

/-- The signed bit offset of a memory operand: a register as it is, an immediate modulo the width (R300). -/
def State.bitOffset (s : State) (w : Width) : BitSel → Int
  | .reg r => (s.readReg w r).toInt
  | .imm i => (i.toNat % w.bits : Nat)

/-- The bit number inside the operand (R300). -/
def State.bitIndex (s : State) (w : Width) (b : BitSel) : Nat := (s.bitOffset w b % w.bits).toNat

/-- The effective address of the operand that holds the bit (R300). -/
def State.bitAddr (s : State) (w : Width) (m : Mem) (b : BitSel) : Word :=
  asizeTrunc m.asz (s.effAddr m + BitVec.ofInt 64 (w.bytes * (s.bitOffset w b / w.bits)))

/-- CF receives the selected bit; OF, SF, ZF, AF and PF are open (R305). -/
def bitFlags (c : Bool) : M Unit := do
  upd (·.setFlag fCF c)
  openFlags 0x8D4

/-- BT: the operand is only read (R305). -/
def btForm (w : Width) (dst : RM) (b : BitSel) : M Unit := do
  let s ← readS id
  match dst with
  | .reg r => bitFlags ((s.readReg w r).getLsbD (s.bitIndex w b))
  | .mem m => do
    let v ← readMem m.seg (s.bitAddr w m b) w.bytes
    bitFlags (v.testBit (s.bitIndex w b))

/-- BTC, BTR and BTS: the selected bit is replaced by `f` of it (R306 to R308). -/
def btxForm (f : Bool → Bool) (w : Width) (dst : RM) (b : BitSel) : M Unit := do
  let s ← readS id
  let n := s.bitIndex w b
  match dst with
  | .reg r => do
    let v := s.readReg w r
    upd fun t => t.writeReg w r (putBit v n (f (v.getLsbD n)))
    bitFlags (v.getLsbD n)
  | .mem m => do
    let sp ← resolve m.seg (s.bitAddr w m b) w.bytes true (.natural w.bytes)
    let x ← loadSpan sp w.bytes
    let v := BitVec.ofNat w.bits x
    storeSpan sp w.bytes (putBit v n (f (v.getLsbD n))).toNat
    bitFlags (v.getLsbD n)

/-- BT (R305). -/
def execBt (w : Width) (dst : RM) (bit : BitSel) (s : State) : Host.Outcome State Fault Refusal :=
  runSeq (btForm w dst bit) s
/-- BTC (R306). -/
def execBtc (w : Width) (dst : RM) (bit : BitSel) (s : State) : Host.Outcome State Fault Refusal :=
  runSeq (btxForm (!·) w dst bit) s
/-- BTR (R307). -/
def execBtr (w : Width) (dst : RM) (bit : BitSel) (s : State) : Host.Outcome State Fault Refusal :=
  runSeq (btxForm (fun _ => false) w dst bit) s
/-- BTS (R308). -/
def execBts (w : Width) (dst : RM) (bit : BitSel) (s : State) : Host.Outcome State Fault Refusal :=
  runSeq (btxForm (fun _ => true) w dst bit) s

/-! ### Shifts and rotates (R797) -/

/-- What a shift or rotate by `c > 0` gives: the result, CF and OF, where none is an open value, and whether SF, ZF and
PF are set from the result. -/
structure ShiftOut (n : Nat) where
  res : BitVec n
  cf : Option Bool
  of : Option Bool
  szp : Bool

/-- A shift function: the count is the masked count, the last argument CF. -/
abbrev ShiftFn := (n : Nat) → BitVec n → Nat → Bool → ShiftOut n

/-- OF is defined only for a count of 1 (R797). -/
def ofOne (c : Nat) (b : Bool) : Option Bool := if c = 1 then some b else none

/-- SHL (R797). -/
def shlFn : ShiftFn := fun n a c _ =>
  let r := a <<< c
  let cf := if c ≤ n then some (a.getLsbD (n - c)) else none
  { res := r, cf := cf, of := ofOne c (r.msb ^^ a.getLsbD (n - c)), szp := true }

/-- SHR; for a count above the width CF is no bit of the operand, hence open (R797). -/
def shrFn : ShiftFn := fun n a c _ =>
  { res := a >>> c, cf := if c ≤ n then some (a.getLsbD (c - 1)) else none, of := ofOne c a.msb, szp := true }

/-- SAR (R797). -/
def sarFn : ShiftFn := fun n a c _ =>
  { res := a.sshiftRight c, cf := some (if c ≤ n then a.getLsbD (c - 1) else a.msb), of := ofOne c false, szp := true }

/-- ROL (R797). -/
def rolFn : ShiftFn := fun n a c _ =>
  let r := a.rotateLeft (c % n)
  { res := r, cf := some (r.getLsbD 0), of := ofOne c (r.msb ^^ r.getLsbD 0), szp := false }

/-- ROR (R797). -/
def rorFn : ShiftFn := fun n a c _ =>
  let r := a.rotateRight (c % n)
  { res := r, cf := some r.msb, of := ofOne c (r.msb ^^ r.getLsbD (n - 2)), szp := false }

/-- RCL: the rotation of CF above the operand (R797). -/
def rclFn : ShiftFn := fun n a c cin =>
  let x := (BitVec.ofBool cin ++ a).rotateLeft (c % (n + 1))
  let r := x.setWidth n
  { res := r, cf := some x.msb, of := ofOne c (r.msb ^^ x.msb), szp := false }

/-- RCR: the rotation of CF above the operand (R797). -/
def rcrFn : ShiftFn := fun n a c cin =>
  let x := (BitVec.ofBool cin ++ a).rotateRight (c % (n + 1))
  let r := x.setWidth n
  { res := r, cf := some x.msb, of := ofOne c (r.msb ^^ r.getLsbD (n - 2)), szp := false }

/-- One flag, or an open value for it. -/
def setOrOpen (i : Nat) : Option Bool → M Unit
  | some b => upd (·.setFlag i b)
  | none => openFlags (BitVec.twoPow 32 i)

/-- The flags of a shift or rotate: AF is open (R797). -/
def shiftFlags {n : Nat} (o : ShiftOut n) : M Unit := do
  setOrOpen fCF o.cf
  setOrOpen fOF o.of
  if o.szp then setFlags 0xC4 (logicStatus o.res) else pure ()
  openFlags 0x10

/-- The count operand, masked to 5 bits, or 6 with a 64-bit operand (R797). -/
def State.shiftCount (s : State) (w : Width) (c : ShiftCount) : Nat :=
  let v : Byte := match c with
    | .one => 1
    | .cl => s.readReg .b8 rCX
    | .imm i => i
  v.toNat % (if w = .b64 then 64 else 32)

/-- A shift or rotate: for a masked count of 0 the operand keeps its value and no flag changes (R797). -/
def shiftForm (f : ShiftFn) (w : Width) (rm : RMB) (cnt : ShiftCount) : M Unit := do
  let s ← readS id
  let c := s.shiftCount w cnt
  updateRmb w rm fun a =>
    if c = 0 then pure a
    else do
      let o := f w.bits a c (s.flag fCF)
      shiftFlags o
      pure o.res

/-- ROL (R797). -/
def execRol (w : Width) (rm : RMB) (cnt : ShiftCount) (s : State) : Host.Outcome State Fault Refusal :=
  runSeq (shiftForm rolFn w rm cnt) s
/-- ROR (R797). -/
def execRor (w : Width) (rm : RMB) (cnt : ShiftCount) (s : State) : Host.Outcome State Fault Refusal :=
  runSeq (shiftForm rorFn w rm cnt) s
/-- RCL (R797). -/
def execRcl (w : Width) (rm : RMB) (cnt : ShiftCount) (s : State) : Host.Outcome State Fault Refusal :=
  runSeq (shiftForm rclFn w rm cnt) s
/-- RCR (R797). -/
def execRcr (w : Width) (rm : RMB) (cnt : ShiftCount) (s : State) : Host.Outcome State Fault Refusal :=
  runSeq (shiftForm rcrFn w rm cnt) s
/-- SHL (R797). -/
def execShl (w : Width) (rm : RMB) (cnt : ShiftCount) (s : State) : Host.Outcome State Fault Refusal :=
  runSeq (shiftForm shlFn w rm cnt) s
/-- SHR (R797). -/
def execShr (w : Width) (rm : RMB) (cnt : ShiftCount) (s : State) : Host.Outcome State Fault Refusal :=
  runSeq (shiftForm shrFn w rm cnt) s
/-- SAR (R797). -/
def execSar (w : Width) (rm : RMB) (cnt : ShiftCount) (s : State) : Host.Outcome State Fault Refusal :=
  runSeq (shiftForm sarFn w rm cnt) s

/-- SHLD of `a` filled from `b` by `c ≤ n` (R797). -/
def shldFn {n : Nat} (a b : BitVec n) (c : Nat) : ShiftOut n :=
  let r := a <<< c ||| b >>> (n - c)
  { res := r, cf := some (a.getLsbD (n - c)), of := ofOne c (r.msb != a.msb), szp := true }

/-- SHRD of `a` filled from `b` by `c ≤ n` (R797). -/
def shrdFn {n : Nat} (a b : BitVec n) (c : Nat) : ShiftOut n :=
  let r := a >>> c ||| b <<< (n - c)
  { res := r, cf := some (a.getLsbD (c - 1)), of := ofOne c (r.msb != a.msb), szp := true }

/-- SHLD and SHRD; a count above the width, which the rule's formula does not cover, gives an open result with its
flags computed from it (R797). -/
def doubleForm (f : {n : Nat} → BitVec n → BitVec n → Nat → ShiftOut n) (w : Width) (dst : RM) (src : Reg)
    (cnt : Option Byte) : M Unit := do
  let s ← readS id
  let c := s.shiftCount w (match cnt with | some i => .imm i | none => .cl)
  let b := s.readReg w src
  updateRmb w (asRmb dst) fun a =>
    if c = 0 then pure a
    else if c ≤ w.bits then do
      let o := f a b c
      shiftFlags o
      pure o.res
    else do
      let x ← draw
      let r := x.setWidth w.bits
      shiftFlags { res := r, cf := none, of := none, szp := true }
      pure r

/-- SHLD (R797). -/
def execShld (w : Width) (dst : RM) (src : Reg) (cnt : Option Byte) (s : State) : Host.Outcome State Fault Refusal :=
  runSeq (doubleForm shldFn w dst src cnt) s
/-- SHRD (R797). -/
def execShrd (w : Width) (dst : RM) (src : Reg) (cnt : Option Byte) (s : State) : Host.Outcome State Fault Refusal :=
  runSeq (doubleForm shrdFn w dst src cnt) s

/-! ### SETcc (R801) -/

/-- SETcc: 1 if the condition holds, else 0 (R801, R330). -/
def setForm (t : BitVec 4) (dst : RMB) : M Unit := do
  let c ← readS (·.cond t)
  writeRmb .b8 dst (if c then 1 else 0)

/-- SETO (R801). -/
def execSeto (dst : RMB) (s : State) : Host.Outcome State Fault Refusal := runSeq (setForm 0 dst) s
/-- SETNO (R801). -/
def execSetno (dst : RMB) (s : State) : Host.Outcome State Fault Refusal := runSeq (setForm 1 dst) s
/-- SETB (R801). -/
def execSetb (dst : RMB) (s : State) : Host.Outcome State Fault Refusal := runSeq (setForm 2 dst) s
/-- SETAE (R801). -/
def execSetae (dst : RMB) (s : State) : Host.Outcome State Fault Refusal := runSeq (setForm 3 dst) s
/-- SETE (R801). -/
def execSete (dst : RMB) (s : State) : Host.Outcome State Fault Refusal := runSeq (setForm 4 dst) s
/-- SETNE (R801). -/
def execSetne (dst : RMB) (s : State) : Host.Outcome State Fault Refusal := runSeq (setForm 5 dst) s
/-- SETBE (R801). -/
def execSetbe (dst : RMB) (s : State) : Host.Outcome State Fault Refusal := runSeq (setForm 6 dst) s
/-- SETA (R801). -/
def execSeta (dst : RMB) (s : State) : Host.Outcome State Fault Refusal := runSeq (setForm 7 dst) s
/-- SETS (R801). -/
def execSets (dst : RMB) (s : State) : Host.Outcome State Fault Refusal := runSeq (setForm 8 dst) s
/-- SETNS (R801). -/
def execSetns (dst : RMB) (s : State) : Host.Outcome State Fault Refusal := runSeq (setForm 9 dst) s
/-- SETP (R801). -/
def execSetp (dst : RMB) (s : State) : Host.Outcome State Fault Refusal := runSeq (setForm 10 dst) s
/-- SETNP (R801). -/
def execSetnp (dst : RMB) (s : State) : Host.Outcome State Fault Refusal := runSeq (setForm 11 dst) s
/-- SETL (R801). -/
def execSetl (dst : RMB) (s : State) : Host.Outcome State Fault Refusal := runSeq (setForm 12 dst) s
/-- SETGE (R801). -/
def execSetge (dst : RMB) (s : State) : Host.Outcome State Fault Refusal := runSeq (setForm 13 dst) s
/-- SETLE (R801). -/
def execSetle (dst : RMB) (s : State) : Host.Outcome State Fault Refusal := runSeq (setForm 14 dst) s
/-- SETG (R801). -/
def execSetg (dst : RMB) (s : State) : Host.Outcome State Fault Refusal := runSeq (setForm 15 dst) s

/-! ### LOCK (R430) -/

/-- The operation under a LOCK prefix if its destination is in memory, else #UD (R430). -/
def lockedIf (c : Bool) (m : M Unit) : M Unit := if c then m else raise udFault

/-- Whether the destination of INC and DEC is in memory. -/
def incToMemory : IncArgs → Bool
  | .rm _ rm => inMemory rm
  | .short _ _ => false

/-- Whether XCHG has a memory operand. -/
def xchgToMemory : XchgArgs → Bool
  | .rm _ rm _ => inMemory rm
  | .acc _ _ => false

/-- The LOCK prefix: the instructions of the list with a memory destination do what they do without it, one processor
seeing no difference; anything else raises #UD (R430, R162). -/
def lockForm : LockOp → M Unit
  | .add a => lockedIf (aluToMemory a) (aluUpdate addOp a)
  | .adc a => lockedIf (aluToMemory a) (aluUpdate adcOp a)
  | .and a => lockedIf (aluToMemory a) (aluUpdate andOp a)
  | .or a => lockedIf (aluToMemory a) (aluUpdate orOp a)
  | .sbb a => lockedIf (aluToMemory a) (aluUpdate sbbOp a)
  | .sub a => lockedIf (aluToMemory a) (aluUpdate subOp a)
  | .xor a => lockedIf (aluToMemory a) (aluUpdate xorOp a)
  | .inc a => lockedIf (incToMemory a) (incForm incOp a)
  | .dec a => lockedIf (incToMemory a) (incForm decOp a)
  | .not w rm => lockedIf (inMemory rm) (updateRmb w rm (notOp w))
  | .neg w rm => lockedIf (inMemory rm) (updateRmb w rm (negOp w))
  | .btc w d b => lockedIf (inMemory d) (btxForm (!·) w d b)
  | .btr w d b => lockedIf (inMemory d) (btxForm (fun _ => false) w d b)
  | .bts w d b => lockedIf (inMemory d) (btxForm (fun _ => true) w d b)
  | .cmpxchg w d r => lockedIf (inMemory d) (cmpxchgForm w d r)
  | .cmpxchg8b d => lockedIf (inMemory d) (cmpxchgPair .b32 (.natural 8) d)
  | .cmpxchg16b d => lockedIf (inMemory d) (cmpxchgPair .b64 .para d)
  | .xadd w d r => lockedIf (inMemory d) (xaddForm w d r)
  | .xchg a => lockedIf (xchgToMemory a) (xchgForm a)
  | .other => raise udFault

/-- LOCK (R430). -/
def execLock (t : LockOp) (s : State) : Host.Outcome State Fault Refusal := runSeq (lockForm t) s

end Sys2Proof.Machine
end

