-- ==== Sys2Proof/Machine/Control.lean ====
section
/-! DEFINITION. Control transfers, procedure frames, software interrupts and the interrupt return (42_control.md;
48_vol2_partial.md rules R790, R800). -/

namespace Sys2Proof.Machine

/-! ### Jumps -/

/-- A relative near jump (R320, R321, R334). -/
def jumpRel (osz : Width) (rel : Rel) : M Unit := do
  let n ← readS (·.nextPc)
  jumpTo osz (n + relDisp rel)

/-- A conditional relative near branch, taken if `c` holds: in real-address and virtual-8086 mode its target must lie in
the addresses 0 to FFFFH (R331). -/
def branchIf (c : Bool) (osz : Width) (rel : Rel) : M Unit :=
  if c then do
    let s ← readS id
    raiseIf (s.paragraphs && decide (0xFFFF < (truncTo osz (s.nextPc + relDisp rel)).toNat)) gp0
    jumpRel osz rel
  else advance

/-- Jcc (R331, R332). -/
def jccForm (t : BitVec 4) (osz : Width) (rel : Rel) : M Unit := do
  let c ← readS (·.cond t)
  branchIf c osz rel

/-- JO (R331, R332). -/
def execJo (osz : Width) (rel : Rel) (s : State) : Host.Outcome State Fault Refusal := runInstr (jccForm 0 osz rel) s
/-- JNO (R331, R332). -/
def execJno (osz : Width) (rel : Rel) (s : State) : Host.Outcome State Fault Refusal := runInstr (jccForm 1 osz rel) s
/-- JB (R331, R332). -/
def execJb (osz : Width) (rel : Rel) (s : State) : Host.Outcome State Fault Refusal := runInstr (jccForm 2 osz rel) s
/-- JAE (R331, R332). -/
def execJae (osz : Width) (rel : Rel) (s : State) : Host.Outcome State Fault Refusal := runInstr (jccForm 3 osz rel) s
/-- JE (R331, R332). -/
def execJe (osz : Width) (rel : Rel) (s : State) : Host.Outcome State Fault Refusal := runInstr (jccForm 4 osz rel) s
/-- JNE (R331, R332). -/
def execJne (osz : Width) (rel : Rel) (s : State) : Host.Outcome State Fault Refusal := runInstr (jccForm 5 osz rel) s
/-- JBE (R331, R332). -/
def execJbe (osz : Width) (rel : Rel) (s : State) : Host.Outcome State Fault Refusal := runInstr (jccForm 6 osz rel) s
/-- JA (R331, R332). -/
def execJa (osz : Width) (rel : Rel) (s : State) : Host.Outcome State Fault Refusal := runInstr (jccForm 7 osz rel) s
/-- JS (R331, R332). -/
def execJs (osz : Width) (rel : Rel) (s : State) : Host.Outcome State Fault Refusal := runInstr (jccForm 8 osz rel) s
/-- JNS (R331, R332). -/
def execJns (osz : Width) (rel : Rel) (s : State) : Host.Outcome State Fault Refusal := runInstr (jccForm 9 osz rel) s
/-- JP (R331, R332). -/
def execJp (osz : Width) (rel : Rel) (s : State) : Host.Outcome State Fault Refusal := runInstr (jccForm 10 osz rel) s
/-- JNP (R331, R332). -/
def execJnp (osz : Width) (rel : Rel) (s : State) : Host.Outcome State Fault Refusal := runInstr (jccForm 11 osz rel) s
/-- JL (R331, R332). -/
def execJl (osz : Width) (rel : Rel) (s : State) : Host.Outcome State Fault Refusal := runInstr (jccForm 12 osz rel) s
/-- JGE (R331, R332). -/
def execJge (osz : Width) (rel : Rel) (s : State) : Host.Outcome State Fault Refusal := runInstr (jccForm 13 osz rel) s
/-- JLE (R331, R332). -/
def execJle (osz : Width) (rel : Rel) (s : State) : Host.Outcome State Fault Refusal := runInstr (jccForm 14 osz rel) s
/-- JG (R331, R332). -/
def execJg (osz : Width) (rel : Rel) (s : State) : Host.Outcome State Fault Refusal := runInstr (jccForm 15 osz rel) s

/-- The count register of LOOP and JCXZ at the address size (R336). -/
def State.count (s : State) (asz : ASize) : Word := truncTo (asizeWidth asz) (s.get rCX)

/-- The state with the count register replaced at the address size (R336, decision D18). -/
def State.setCount (s : State) (asz : ASize) (v : Word) : State :=
  s.writeReg (asizeWidth asz) rCX (v.setWidth (asizeWidth asz).bits)

/-- LOOP, LOOPE and LOOPNE: the count is decremented, and the branch taken if it is not 0 and `c` holds (R337). -/
def loopForm (c : State → Bool) (osz : Width) (asz : ASize) (rel : Byte) : M Unit := do
  let s ← readS id
  let t := s.setCount asz (s.count asz - 1)
  upd fun _ => t
  branchIf (t.count asz != 0 && c s) osz (.r8 rel)

/-- LOOP (R337). -/
def execLoop (osz : Width) (asz : ASize) (rel : Byte) (s : State) : Host.Outcome State Fault Refusal :=
  runInstr (loopForm (fun _ => true) osz asz rel) s
/-- LOOPE (R338). -/
def execLoope (osz : Width) (asz : ASize) (rel : Byte) (s : State) : Host.Outcome State Fault Refusal :=
  runInstr (loopForm (·.flag fZF) osz asz rel) s
/-- LOOPNE (R339). -/
def execLoopne (osz : Width) (asz : ASize) (rel : Byte) (s : State) : Host.Outcome State Fault Refusal :=
  runInstr (loopForm (fun t => !t.flag fZF) osz asz rel) s

/-- JCXZ, JECXZ and JRCXZ (R340). -/
def jcxzForm (osz : Width) (asz : ASize) (rel : Byte) : M Unit := do
  let s ← readS id
  branchIf (s.count asz == 0) osz (.r8 rel)

/-- JCXZ (R340). -/
def execJcxz (osz : Width) (asz : ASize) (rel : Byte) (s : State) : Host.Outcome State Fault Refusal :=
  runInstr (jcxzForm osz asz rel) s

/-- JMP near relative (R334). -/
def execJmpRel (osz : Width) (rel : Rel) (s : State) : Host.Outcome State Fault Refusal :=
  runInstr (jumpRel osz rel) s

/-- JMP near indirect: the target is the operand, zero-extended (R335). -/
def jmpIndForm (osz : Width) (src : RM) : M Unit := do
  let v ← readRm osz src
  jumpTo osz (v.setWidth 64)

/-- JMP near indirect (R335). -/
def execJmpInd (osz : Width) (src : RM) (s : State) : Host.Outcome State Fault Refusal :=
  runInstr (jmpIndForm osz src) s

/-- A far transfer to a pointer in the instruction, invalid in 64-bit mode (R324, R333). -/
def farPtrForm (call : Bool) (osz : Width) (off : BitVec 32) (sel : BitVec 16) : M Unit := do
  invalid64
  farTransfer call osz sel (off.setWidth 64)

/-- A far transfer to a pointer in memory: the offset first, the selector after it, at the address that follows and not
truncated to the address size; a register operand raises #UD (R324, R333). -/
def farMemForm (call : Bool) (osz : Width) (src : RM) : M Unit := do
  let m ← memOnly src
  let ea ← readS fun s => s.effAddr m
  let off ← readMem m.seg ea osz.bytes
  let sel ← readMem m.seg (ea + BitVec.ofNat 64 osz.bytes) 2
  farTransfer call osz (BitVec.ofNat 16 sel) (BitVec.ofNat 64 off)

/-- JMP far, pointer in the instruction (R333). -/
def execJmpFarPtr (osz : Width) (off : BitVec 32) (sel : BitVec 16) (s : State) : Host.Outcome State Fault Refusal :=
  runInstr (farPtrForm false osz off sel) s
/-- JMP far, pointer in memory (R333). -/
def execJmpFarMem (osz : Width) (src : RM) (s : State) : Host.Outcome State Fault Refusal :=
  runInstr (farMemForm false osz src) s

/-! ### Calls and returns -/

/-- A near call to `t`: the target is checked before the return address is pushed (R322). -/
def callTo (osz : Width) (t : Word) : M Unit := do
  jumpTo osz t
  let n ← readS (·.nextPc)
  push osz.bytes n.toNat

/-- CALL near relative (R322). -/
def callRelForm (osz : Width) (rel : Rel) : M Unit := do
  let n ← readS (·.nextPc)
  callTo osz (n + relDisp rel)

/-- CALL near relative (R322). -/
def execCallRel (osz : Width) (rel : Rel) (s : State) : Host.Outcome State Fault Refusal :=
  runInstr (callRelForm osz rel) s

/-- CALL near indirect: the operand is read before the stack pointer changes (R323). -/
def callIndForm (osz : Width) (src : RM) : M Unit := do
  let v ← readRm osz src
  callTo osz (v.setWidth 64)

/-- CALL near indirect (R323). -/
def execCallInd (osz : Width) (src : RM) (s : State) : Host.Outcome State Fault Refusal :=
  runInstr (callIndForm osz src) s

/-- CALL far, pointer in the instruction (R324). -/
def execCallFarPtr (osz : Width) (off : BitVec 32) (sel : BitVec 16) (s : State) : Host.Outcome State Fault Refusal :=
  runInstr (farPtrForm true osz off sel) s
/-- CALL far, pointer in memory (R324). -/
def execCallFarMem (osz : Width) (src : RM) (s : State) : Host.Outcome State Fault Refusal :=
  runInstr (farMemForm true osz src) s

/-- The bytes a return adds to the stack pointer (R790). -/
def popBytes : Option (BitVec 16) → Word
  | none => 0
  | some i => i.setWidth 64

/-- RET near (R790). -/
def retForm (osz : Width) (n : Option (BitVec 16)) : M Unit := do
  let t ← pop osz.bytes
  jumpTo osz (BitVec.ofNat 64 t)
  upd fun s => s.setSp (s.sp + popBytes n)

/-- RET near (R790). -/
def execRet (osz : Width) (pop : Option (BitVec 16)) (s : State) : Host.Outcome State Fault Refusal :=
  runInstr (retForm osz pop) s
/-- RET far (R790). -/
def execRetFar (osz : Width) (pop : Option (BitVec 16)) (s : State) : Host.Outcome State Fault Refusal :=
  runInstr (farReturn osz (popBytes pop)) s

/-! ### Procedure frames (R342, R343) -/

/-- The frame pointer at the stack address size. -/
def State.bp (s : State) : Word := asizeTrunc s.stackSize (s.get rBP)

/-- The state with the frame pointer written at the stack address size. -/
def State.setBp (s : State) (v : Word) : State :=
  let w := asizeWidth s.stackSize
  s.writeReg w rBP (v.setWidth w.bits)

/-- The copies of outer frame pointers that ENTER makes (R342). -/
def enterCopies (n : Nat) : Nat → M Unit
  | 0 => pure ()
  | k + 1 => do
    upd fun s => s.setBp (s.bp - BitVec.ofNat 64 n)
    let s ← readS id
    let v ← readMem .ss s.bp n
    push n v
    enterCopies n k

/-- ENTER (R342). Outside 64-bit mode a new stack pointer beyond the stack segment limit raises #SS(0). A 32-bit operand
size on a 16-bit stack pushes the whole of EBP (DESIGN CHOICE, log 81). -/
def enterForm (osz : Width) (size : BitVec 16) (level : Byte) : M Unit := do
  let k := level.toNat % 32
  let bp ← readS fun s => s.readReg osz rBP
  push osz.bytes bp.toNat
  let frame ← readS State.sp
  if 0 < k then
    enterCopies osz.bytes (k - 1)
    push osz.bytes frame.toNat
  else pure ()
  upd fun s => s.writeReg osz rBP (frame.setWidth osz.bits)
  upd fun s => s.setSp (s.sp - size.setWidth 64)
  let s ← readS id
  raiseIf (!s.is64 && !s.ss.inLimit s.sp 1) ss0

/-- ENTER (R342). -/
def execEnter (osz : Width) (size : BitVec 16) (level : Byte) (s : State) : Host.Outcome State Fault Refusal :=
  runSeq (enterForm osz size level) s

/-- LEAVE: in real-address and virtual-8086 mode a frame pointer beyond FFFFH raises #GP (R343, log 82). -/
def leaveForm (osz : Width) : M Unit := do
  let s ← readS id
  raiseIf (s.paragraphs && decide (0xFFFF < s.bp.toNat)) gp0
  upd fun s => s.setSp s.bp
  let v ← pop osz.bytes
  upd fun s => s.writeReg osz rBP (BitVec.ofNat osz.bits v)

/-- LEAVE (R343). -/
def execLeave (osz : Width) (s : State) : Host.Outcome State Fault Refusal := runSeq (leaveForm osz) s

/-- BOUND: invalid in 64-bit mode; #BR if the index is outside the two signed bounds in memory, of which the upper one
follows the lower (R350). -/
def boundForm (w : Width) (r : Reg) (src : RM) : M Unit := do
  invalid64
  let m ← memOnly src
  let ea ← readS fun s => s.effAddr m
  let lo ← readMem m.seg ea w.bytes
  let hi ← readMem m.seg (ea + BitVec.ofNat 64 w.bytes) w.bytes
  let x ← readS fun s => s.readReg w r
  raiseIf (x.slt (BitVec.ofNat w.bits lo) || (BitVec.ofNat w.bits hi).slt x) brFault

/-- BOUND (R350). -/
def execBound (w : Width) (r : Reg) (src : RM) (s : State) : Host.Outcome State Fault Refusal :=
  runSeq (boundForm w r src) s

/-! ### Software interrupts and the interrupt return (R345 to R348, R800) -/

/-- INT imm8 (R345). -/
def execInt (vector : Byte) (s : State) : Host.Outcome State Fault Refusal := runInstr (raise (softInt vector)) s
/-- INT 3 (R346). -/
def execInt3 (s : State) : Host.Outcome State Fault Refusal := runInstr (raise (softInt 3)) s

/-- INTO: invalid in 64-bit mode; vector 4 if OF is 1 (R347). -/
def intoForm : M Unit := do
  invalid64
  let o ← readS (·.flag fOF)
  raiseIf o (softInt 4)

/-- INTO (R347). -/
def execInto (s : State) : Host.Outcome State Fault Refusal := runSeq intoForm s

/-- IRET and IRETD (R348). -/
def execIret (osz : Width) (s : State) : Host.Outcome State Fault Refusal := runInstr (interruptReturn osz) s
/-- IRETQ (R348). -/
def execIretq (s : State) : Host.Outcome State Fault Refusal := runInstr (interruptReturn .b64) s

/-- UD2 (R800). -/
def execUd2 (s : State) : Host.Outcome State Fault Refusal := runInstr (raise udFault) s

end Sys2Proof.Machine
end

