-- ==== Sys2Proof/Machine/Float.lean ====
section
/-! DEFINITION. Floating-point arithmetic: the three formats, exact arithmetic on unpacked values, and one rounding
step with its exceptions (45_x87.md rules R453, R455; 46_sse_a.md rules R573, R574; 47_sse_b.md rule R620). -/

namespace Sys2Proof.Machine

/-- A floating-point value. A finite nonzero value is `m * 2 ^ e` with its sign; `den` says that it was encoded as a
denormal. The fraction of a NaN is left-aligned in 63 bits, its top bit set in a quiet NaN. `unsupported` is an 80-bit
encoding with J = 0 and a nonzero exponent (R453). -/
inductive FVal where
  | nan (sign : Bool) (frac : BitVec 63)
  | inf (sign : Bool)
  | zero (sign : Bool)
  | fin (sign : Bool) (m : Nat) (e : Int) (den : Bool)
  | unsupported
  deriving DecidableEq, Repr

/-- The QNaN real indefinite (R453, R573). -/
def FVal.indef : FVal := .nan true (BitVec.twoPow 63 62)

/-- The sign of a value; the unsupported formats have none. -/
def FVal.sign : FVal → Bool
  | .nan s _ => s
  | .inf s => s
  | .zero s => s
  | .fin s _ _ _ => s
  | .unsupported => false

/-- The value with its sign replaced. -/
def FVal.withSign (b : Bool) : FVal → FVal
  | .nan _ f => .nan b f
  | .inf _ => .inf b
  | .zero _ => .zero b
  | .fin _ m e d => .fin b m e d
  | .unsupported => .unsupported

/-- Whether a value is a signalling NaN: M = 0 (R455). -/
def FVal.signals : FVal → Bool
  | .nan _ f => !f.getLsbD 62
  | _ => false

/-- Whether a value is a NaN. -/
def FVal.isNan : FVal → Bool
  | .nan _ _ => true
  | _ => false

/-- A NaN made quiet (R453). -/
def FVal.quiet : FVal → FVal
  | .nan s f => .nan s (f ||| BitVec.twoPow 63 62)
  | v => v

/-- Whether a value was encoded as a denormal. -/
def FVal.isDen : FVal → Bool
  | .fin _ _ _ d => d
  | _ => false

/-- The exception flags, in the positions of FSW and MXCSR (R71, R74). -/
abbrev xI : BitVec 6 := 1
abbrev xD : BitVec 6 := 2
abbrev xZ : BitVec 6 := 4
abbrev xO : BitVec 6 := 8
abbrev xU : BitVec 6 := 16
abbrev xP : BitVec 6 := 32

/-- The flags `f` if `c` holds. -/
def whenFlag (c : Bool) (f : BitVec 6) : BitVec 6 := if c then f else 0

/-! ### The formats (R70, R574) -/

/-- Unpacks a format with a hidden bit, `p` significand bits and exponent bias `bias` (R574). -/
def unpackHidden (p bias : Nat) (sign : Bool) (exp frac : Nat) : FVal :=
  if exp = 2 * bias + 1 then
    if frac = 0 then .inf sign else .nan sign (BitVec.ofNat 63 (frac * 2 ^ (64 - p)))
  else if exp = 0 then
    if frac = 0 then .zero sign else .fin sign frac (2 - bias - p : Int) true
  else .fin sign (2 ^ (p - 1) + frac) (exp + 1 - bias - p : Int) false

/-- Unpacks single precision (R574). -/
def unpack32 (b : BitVec 32) : FVal := unpackHidden 24 127 b.msb (b.extractLsb' 23 8).toNat (b.extractLsb' 0 23).toNat

/-- Unpacks double precision (R574). -/
def unpack64 (b : BitVec 64) : FVal :=
  unpackHidden 53 1023 b.msb (b.extractLsb' 52 11).toNat (b.extractLsb' 0 52).toNat

/-- Unpacks double extended precision (R70, R453). -/
def unpack80 (b : BitVec 80) : FVal :=
  let exp := (b.extractLsb' 64 15).toNat
  let sig := b.extractLsb' 0 64
  if exp = 0 then
    if sig = 0 then .zero b.msb else .fin b.msb sig.toNat (-16445) true
  else if !sig.msb then .unsupported
  else if exp = 0x7FFF then
    if sig.extractLsb' 0 63 = 0 then .inf b.msb else .nan b.msb (sig.extractLsb' 0 63)
  else .fin b.msb sig.toNat (exp - 16446 : Int) false

/-- Biased exponent and significand of `m * 2 ^ e` in a format of `p` significand bits: a value below the normal range
has exponent 0 and a truncated significand; one above the range has the largest exponent plus one and significand
`2 ^ (p - 1)`, that of an infinity. Only FSCALE packs values that its own rounding has not brought into the format (DESIGN
CHOICE, log 104). -/
def packParts (p bias m : Nat) (e : Int) : Nat × Nat :=
  let top := e + m.log2
  if top < 1 - bias then
    let lsb : Int := 2 - bias - p
    (0, if lsb ≤ e then m * 2 ^ (e - lsb).toNat else m / 2 ^ (lsb - e).toNat)
  else if (bias : Int) < top then (2 * bias + 1, 2 ^ (p - 1))
  else ((top + bias).toNat, if m.log2 < p then m * 2 ^ (p - 1 - m.log2) else m / 2 ^ (m.log2 - (p - 1)))

/-- Sign, exponent and fraction fields of a value in a format with a hidden bit. Of a NaN the sign and the top `p - 1`
fraction bits are kept and the rest is dropped (R620 says only that it is quieted; DESIGN CHOICE, log 121). -/
def packHidden (p bias : Nat) : FVal → Bool × Nat × Nat
  | .nan s f => (s, 2 * bias + 1, f.toNat / 2 ^ (64 - p))
  | .inf s => (s, 2 * bias + 1, 0)
  | .zero s => (s, 0, 0)
  | .fin s m e _ => let q := packParts p bias m e; (s, q.1, q.2 % 2 ^ (p - 1))
  | .unsupported => (true, 2 * bias + 1, 2 ^ (p - 2))

/-- Packs single precision (R574). -/
def pack32 (v : FVal) : BitVec 32 :=
  let q := packHidden 24 127 v
  BitVec.ofBool q.1 ++ BitVec.ofNat 8 q.2.1 ++ BitVec.ofNat 23 q.2.2

/-- Packs double precision (R574). -/
def pack64 (v : FVal) : BitVec 64 :=
  let q := packHidden 53 1023 v
  BitVec.ofBool q.1 ++ BitVec.ofNat 11 q.2.1 ++ BitVec.ofNat 52 q.2.2

/-- Packs double extended precision (R70). -/
def pack80 : FVal → BitVec 80
  | .nan s f => BitVec.ofBool s ++ 0x7FFF#15 ++ 1#1 ++ f
  | .inf s => BitVec.ofBool s ++ 0x7FFF#15 ++ 0x8000000000000000#64
  | .zero s => BitVec.ofBool s ++ 0#79
  | .fin s m e _ =>
    let q := packParts 64 16383 m e
    BitVec.ofBool s ++ BitVec.ofNat 15 q.1 ++ BitVec.ofNat 64 q.2
  | .unsupported => 0xFFFFC000000000000000#80

/-! ### Rounding -/

/-- How results are rounded and which exceptions are masked: rounding control, significand bits, exponent bias, masks
in the positions of the flags, flush-to-zero, and whether of two NaNs the larger significand is delivered (x87) or the
first operand (SSE). -/
structure Env where
  rc : BitVec 2
  p : Nat
  bias : Nat
  masks : BitVec 6
  fz : Bool
  larger : Bool
  deriving DecidableEq, Repr

/-- The outcome of an operation: its value with all exceptions masked that are masked, the exceptions it reports, and
whether rounding enlarged the magnitude (C1, R454). -/
structure FpOut where
  val : FVal
  flags : BitVec 6
  up : Bool
  deriving DecidableEq, Repr

/-- A magnitude rounded. -/
structure Rounded where
  m : Nat
  e : Int
  inexact : Bool
  up : Bool
  deriving DecidableEq, Repr

/-- Drops the low `s` bits of a magnitude with rounding in direction `rc`: 00 nearest even, 01 down, 10 up, 11 toward
zero (R71). -/
def roundBits (rc : BitVec 2) (sign : Bool) (m s : Nat) : Nat × Bool × Bool :=
  let q := m / 2 ^ s
  let r := m % 2 ^ s
  let inc : Bool := match rc.toNat with
    | 0 => decide (2 ^ s < 2 * r) || (decide (2 * r = 2 ^ s) && decide (q % 2 = 1))
    | 1 => sign && decide (r ≠ 0)
    | 2 => !sign && decide (r ≠ 0)
    | _ => false
  (if inc then q + 1 else q, decide (r ≠ 0), inc)

/-- Rounds `m * 2 ^ e` to a multiple of `2 ^ q`. -/
def roundAt (rc : BitVec 2) (sign : Bool) (m : Nat) (e q : Int) : Rounded :=
  if q ≤ e then { m := m, e := e, inexact := false, up := false }
  else
    let t := roundBits rc sign m (q - e).toNat
    { m := t.1, e := q, inexact := t.2.1, up := t.2.2 }

/-- The largest finite value of the rounding precision. -/
def Env.maxFinite (n : Env) (sign : Bool) : FVal := .fin sign (2 ^ n.p - 1) (n.bias + 1 - n.p : Int) false

/-- The masked response to overflow: infinity, or the largest finite value where the direction points to zero
(R573). -/
def Env.overflow (n : Env) (sign : Bool) : FVal :=
  match n.rc.toNat with
  | 0 => .inf sign
  | 1 => if sign then .inf sign else n.maxFinite sign
  | 2 => if sign then n.maxFinite sign else .inf sign
  | _ => n.maxFinite sign

/-- Whether an exception is masked. -/
def Env.masked (n : Env) (f : BitVec 6) : Bool := n.masks &&& f == f

/-- A finite value, or zero where rounding left no magnitude. -/
def finOrZero (sign : Bool) (m : Nat) (e : Int) : FVal := if m = 0 then .zero sign else .fin sign m e false

/-- Rounds the exact nonzero value `m * 2 ^ e` into the format, with overflow, underflow and inexactness detected after
rounding (R453, R573). An unmasked overflow or underflow delivers the value with its exponent biased by 24576, which
only a register destination of the x87 FPU uses. A masked underflow is reported only for an inexact result, which R573
says of SSE and the model takes for the x87 FPU too (DESIGN CHOICE, log 88). Beside an unmasked overflow or underflow the
precision exception is judged by the rounding with an unbounded exponent (DESIGN CHOICE, log 96). A masked tiny result is
rounded to a denormal of a format of `n.p` bits, a multiple of 2 ^ (2 - bias - p), also where FCW.PC chooses 24 or 53
bits in an 80-bit register (DESIGN CHOICE, log 109). -/
def finish (n : Env) (sign : Bool) (m : Nat) (e : Int) : FpOut :=
  let wide := roundAt n.rc sign m e (e + m.log2 + 1 - n.p)
  let top := wide.e + wide.m.log2
  if (n.bias : Int) < top then
    if n.masked xO then
      let v := n.overflow sign
      { val := v, flags := xO ||| xP, up := decide (v = .inf sign) }
    else
      { val := .fin sign wide.m (wide.e - 24576) false, flags := xO ||| whenFlag wide.inexact xP, up := wide.up }
  else if top < 1 - n.bias then
    if n.masked xU then
      if n.fz then { val := .zero sign, flags := xU ||| xP, up := false }
      else
        let near := roundAt n.rc sign m e (max (e + m.log2 + 1 - n.p) (2 - n.bias - n.p))
        { val := finOrZero sign near.m near.e, flags := whenFlag near.inexact (xU ||| xP), up := near.up }
    else
      { val := .fin sign wide.m (wide.e + 24576) false, flags := xU ||| whenFlag wide.inexact xP, up := wide.up }
  else { val := .fin sign wide.m wide.e false, flags := whenFlag wide.inexact xP, up := wide.up }

/-! ### Operations -/

/-- An exact outcome. -/
def FpOut.exact (v : FVal) : FpOut := { val := v, flags := 0, up := false }

/-- The outcome with the exception of a denormal operand added if `d` holds. -/
def FpOut.withDen (d : Bool) (o : FpOut) : FpOut := { o with flags := o.flags ||| whenFlag d xD }

/-- The invalid operation: the indefinite (R453, R573). -/
def FpOut.invalid : FpOut := { val := .indef, flags := xI, up := false }

/-- Of two values of which one is a NaN, the NaN that is delivered, quiet: for the x87 FPU the one with the larger
significand (of two equal ones the positive), for SSE the first (R453, R573). -/
def pickNan (n : Env) : FVal → FVal → FVal
  | .nan s f, .nan t g =>
    if n.larger then
      if g.toNat < f.toNat then (FVal.nan s f).quiet
      else if f.toNat < g.toNat then (FVal.nan t g).quiet
      else if s then (FVal.nan t g).quiet else (FVal.nan s f).quiet
    else (FVal.nan s f).quiet
  | .nan s f, _ => (FVal.nan s f).quiet
  | _, b => b.quiet

/-- Runs an operation on two values: unsupported formats and NaNs are answered first; a denormal operand is reported
unless the operation is invalid or divides by zero (R453, R573). -/
def binary (n : Env) (core : FVal → FVal → FpOut) (a b : FVal) : FpOut :=
  if a = .unsupported ∨ b = .unsupported then .invalid
  else if a.isNan || b.isNan then
    { val := pickNan n a b, flags := whenFlag (a.signals || b.signals) xI, up := false }
  else
    let o := core a b
    if o.flags &&& (xI ||| xZ) != 0 then o else { o with flags := o.flags ||| whenFlag (a.isDen || b.isDen) xD }

/-- Runs an operation on one value, with the same order of checks; `den` says whether a denormal operand is
reported. -/
def unary (den : Bool) (core : FVal → FpOut) (a : FVal) : FpOut :=
  if a = .unsupported then .invalid
  else if a.isNan then { val := a.quiet, flags := whenFlag a.signals xI, up := false }
  else
    let o := core a
    if o.flags &&& (xI ||| xZ) != 0 then o else { o with flags := o.flags ||| whenFlag (den && a.isDen) xD }

/-- Magnitude and exponent of a finite value. -/
def FVal.parts : FVal → Nat × Int
  | .fin _ m e _ => (m, e)
  | _ => (0, 0)

/-- A finite value as a multiple of `2 ^ q`, `q` not above its exponent. -/
def FVal.scaled (v : FVal) (q : Int) : Int :=
  let k : Int := (v.parts.1 * 2 ^ (v.parts.2 - q).toNat : Nat)
  if v.sign then -k else k

/-- The smaller exponent of two finite values. -/
def lowExp (a b : FVal) : Int := min a.parts.2 b.parts.2

/-- The sign of a sum that is exactly zero: minus when rounding down (R463). -/
def Env.zeroSign (n : Env) : Bool := n.rc == 1

/-- Addition (R463, R574). -/
def addCore (n : Env) (a b : FVal) : FpOut :=
  match a, b with
  | .inf s, .inf t => if s = t then .exact (.inf s) else .invalid
  | .inf s, _ => .exact (.inf s)
  | _, .inf t => .exact (.inf t)
  | .zero s, .zero t => .exact (.zero (if s = t then s else n.zeroSign))
  | x, y =>
    let q := lowExp x y
    let v := x.scaled q + y.scaled q
    if v = 0 then .exact (.zero n.zeroSign) else finish n (decide (v < 0)) v.natAbs q

/-- Subtraction (R503, R574). -/
def subCore (n : Env) (a b : FVal) : FpOut := addCore n a (b.withSign (!b.sign))

/-- Multiplication (R485). -/
def mulCore (n : Env) (a b : FVal) : FpOut :=
  let s := a.sign != b.sign
  match a, b with
  | .inf _, .zero _ => .invalid
  | .zero _, .inf _ => .invalid
  | .inf _, _ => .exact (.inf s)
  | _, .inf _ => .exact (.inf s)
  | .fin _ m e _, .fin _ k f _ => finish n s (m * k) (e + f)
  | _, _ => .exact (.zero s)

/-- Division (R473, R574): the quotient has more bits than the format, the last of them set when a remainder is
left. An infinity divided by a zero is an exact infinity, without #Z (R573; for the x87 FPU DEDUCED, log 94). -/
def divCore (n : Env) (a b : FVal) : FpOut :=
  let s := a.sign != b.sign
  match a, b with
  | .inf _, .inf _ => .invalid
  | .zero _, .zero _ => .invalid
  | .inf _, _ => .exact (.inf s)
  | _, .inf _ => .exact (.zero s)
  | .fin _ _ _ _, .zero _ => { val := .inf s, flags := xZ, up := false }
  | .fin _ m e _, .fin _ k f _ =>
    let sh := n.p + 3 + k.log2
    let q := m * 2 ^ sh / k
    let r := m * 2 ^ sh % k
    finish n s (2 * q + (if r = 0 then 0 else 1)) (e - f - sh - 1)
  | _, _ => .exact (.zero s)

/-- The integer square root of `n`, found bit by bit from bit `k - 1` down. -/
def isqrt : Nat → Nat → Nat → Nat
  | 0, _, r => r
  | k + 1, n, r => let t := r + 2 ^ k; if t * t ≤ n then isqrt k n t else isqrt k n r

/-- Square root (R498). -/
def sqrtCore (n : Env) : FVal → FpOut
  | .inf s => if s then .invalid else .exact (.inf s)
  | .zero s => .exact (.zero s)
  | .fin s m e _ =>
    if s then .invalid
    else
      let k : Nat := 2 * n.p + 6 + (e % 2).toNat
      let w := m * 2 ^ k
      let r := isqrt (w.log2 / 2 + 1) w 0
      finish n false (2 * r + (if r * r = w then 0 else 1)) ((e - k) / 2 - 1)
  | v => .exact v

/-- The result of a comparison (R469). -/
inductive Cmp where
  | lt | eq | gt | un
  deriving DecidableEq, Repr

/-- Compares two values; signed zeros are equal (R469, R600). -/
def compareVal (a b : FVal) : Cmp :=
  match a, b with
  | .nan _ _, _ => .un
  | _, .nan _ _ => .un
  | .unsupported, _ => .un
  | _, .unsupported => .un
  | .inf s, .inf t => if s = t then .eq else if s then .lt else .gt
  | .inf s, _ => if s then .lt else .gt
  | _, .inf t => if t then .gt else .lt
  | x, y =>
    let q := lowExp x y
    let v := x.scaled q
    let w := y.scaled q
    if v < w then .lt else if v = w then .eq else .gt

/-- The exceptions of a comparison: invalid for an unsupported format, for a signalling NaN, and with `quietToo` for any
NaN; else a denormal operand if `den` (R469, R470, R506, R600, R605). -/
def compareFlags (quietToo den : Bool) (a b : FVal) : BitVec 6 :=
  if a = .unsupported ∨ b = .unsupported then xI
  else if a.signals || b.signals || (quietToo && (a.isNan || b.isNan)) then xI
  else if a.isNan || b.isNan then 0
  else whenFlag (den && (a.isDen || b.isDen)) xD

/-- Rounds a finite magnitude `m * 2 ^ e` to an integer (R455). -/
def roundInteger (rc : BitVec 2) (sign : Bool) (m : Nat) (e : Int) : Nat × Bool × Bool :=
  if 0 ≤ e then (m * 2 ^ e.toNat, false, false) else roundBits rc sign m (-e).toNat

/-- Conversion to a signed integer of `w` bits: the integer indefinite, with the invalid exception, for a NaN, an
infinity, an unsupported format or a value out of range (R479, R620). -/
def toSigned (w : Nat) (rc : BitVec 2) (v : FVal) : BitVec w × BitVec 6 × Bool :=
  match v with
  | .zero _ => (0, 0, false)
  | .fin s m e _ =>
    let t := roundInteger rc s m e
    if t.1 < 2 ^ (w - 1) ∨ (s = true ∧ t.1 = 2 ^ (w - 1)) then
      (if s then -BitVec.ofNat w t.1 else BitVec.ofNat w t.1, whenFlag t.2.1 xP, t.2.2)
    else (BitVec.intMin w, xI, false)
  | _ => (BitVec.intMin w, xI, false)

/-- A signed integer as an exact value. -/
def intVal (i : Int) : FVal := if i = 0 then .zero false else .fin (decide (i < 0)) i.natAbs 0 false

/-- Rounds a value into the format (R455, R620). -/
def convertCore (n : Env) : FVal → FpOut
  | .fin s m e _ => finish n s m e
  | v => .exact v

/-- Conversion between floating-point formats (R499, R620). -/
def convert (n : Env) (den : Bool) (v : FVal) : FpOut := unary den (convertCore n) v

end Sys2Proof.Machine
end

