-- ==== Sys2Proof/Machine/Fpu.lean ====
section
/-! DEFINITION. The shared operations of the x87 FPU: its stack and tags, status and control words, the checks before an
instruction, the recording of its pointers, and the delivery of results and exceptions (45_x87.md rules R450 to R458;
10_state.md rules R70 to R72). -/

namespace Sys2Proof.Machine

/-! ### The register stack (R70, R456) -/

/-- TOP, FSW bits 13:11 (R71). -/
def Fpu.top (f : Fpu) : BitVec 3 := f.fsw.extractLsb' 11 3

/-- FSW with the bits of `mask` replaced. -/
def Fpu.putFsw (f : Fpu) (mask v : BitVec 16) : Fpu := { f with fsw := (f.fsw &&& ~~~mask) ||| (v &&& mask) }

/-- The FPU with TOP replaced. -/
def Fpu.setTop (f : Fpu) (t : BitVec 3) : Fpu := f.putFsw 0x3800 (t.setWidth 16 <<< 11)

/-- The tag of a physical register: 00 valid, 01 zero, 10 special, 11 empty (R71). -/
def Fpu.tag (f : Fpu) (k : BitVec 3) : BitVec 2 := f.ftw.extractLsb' (2 * k.toNat) 2

/-- The FPU with the tag of a physical register replaced. -/
def Fpu.setTag (f : Fpu) (k : BitVec 3) (t : BitVec 2) : Fpu :=
  { f with ftw := (f.ftw &&& ~~~((3 : BitVec 16) <<< (2 * k.toNat))) ||| (t.setWidth 16 <<< (2 * k.toNat)) }

/-- The class of a value as a tag: zero, special for NaN, infinity, denormal and unsupported, else valid
(R442, R456). -/
def tagOf (v : BitVec 80) : BitVec 2 :=
  let exp := v.extractLsb' 64 15
  let sig := v.extractLsb' 0 64
  if exp = 0 then (if sig = 0 then 1 else 2) else if exp = 0x7FFF then 2 else if sig.msb then 0 else 2

/-- A physical data register. -/
def Fpu.reg (f : Fpu) (k : BitVec 3) : BitVec 80 := f.r[k.toNat]'(k.isLt)

/-- The FPU with a physical data register replaced, its tag unchanged. -/
def Fpu.setReg (f : Fpu) (k : BitVec 3) (v : BitVec 80) : Fpu := { f with r := f.r.set k.toNat v k.isLt }

/-- ST(i): physical register TOP + i (R70). -/
def Fpu.st (f : Fpu) (i : Reg3) : BitVec 80 := f.reg (f.top + i)

/-- ST(i) unpacked. -/
def Fpu.val (f : Fpu) (i : Reg3) : FVal := unpack80 (f.st i)

/-- Whether ST(i) is empty (R456). -/
def Fpu.emptyAt (f : Fpu) (i : Reg3) : Bool := f.tag (f.top + i) == 3

/-- Writes ST(i) with the tag given. -/
def Fpu.writeTagged (f : Fpu) (i : Reg3) (v : BitVec 80) (t : BitVec 2) : Fpu :=
  (f.setReg (f.top + i) v).setTag (f.top + i) t

/-- Writes ST(i), tagged by the class of the value (R456). -/
def Fpu.write (f : Fpu) (i : Reg3) (v : BitVec 80) : Fpu := f.writeTagged i v (tagOf v)

/-- The tag of ST(i). -/
def Fpu.tagAt (f : Fpu) (i : Reg3) : BitVec 2 := f.tag (f.top + i)

/-- Copies ST(j) to ST(i), tag included (R468, R499). -/
def Fpu.copy (f : Fpu) (i j : Reg3) : Fpu := f.writeTagged i (f.st j) (f.tagAt j)

/-- Pushes a value (R456). -/
def Fpu.push (f : Fpu) (v : BitVec 80) : Fpu := (f.setTop (f.top - 1)).write 0 v

/-- Pops: ST(0) becomes empty and TOP moves up (R456). -/
def Fpu.pop (f : Fpu) : Fpu := (f.setTag f.top 3).setTop (f.top + 1)

/-- Pops `n` times. -/
def Fpu.popN (f : Fpu) : Nat → Fpu
  | 0 => f
  | n + 1 => f.pop.popN n

/-- The MMX state: TOP 0 and every tag valid (R72, R621). -/
def Fpu.toMmx (f : Fpu) : Fpu := { f.setTop 0 with ftw := 0 }

/-- MMi: the low 64 bits of physical register i (R72). -/
def Fpu.mmx (f : Fpu) (i : Reg3) : BitVec 64 := (f.reg i).extractLsb' 0 64

/-- Writes MMi: bits 79:64 of the register become ones (R72). -/
def Fpu.setMmx (f : Fpu) (i : Reg3) (v : BitVec 64) : Fpu := f.toMmx.setReg i (0xFFFF#16 ++ v)

/-! ### Status and control words (R71, R452, R454) -/

/-- The exception masks, FCW bits 5:0. -/
def Fpu.masks (f : Fpu) : BitVec 6 := f.fcw.extractLsb' 0 6

/-- Whether some of the exceptions `x` is unmasked. -/
def Fpu.unmasked (f : Fpu) (x : BitVec 6) : Bool := x &&& ~~~f.masks != 0

/-- ES, and B which mirrors it: some exception flag is set whose mask is 0 (R452). -/
def Fpu.summarize (f : Fpu) : Fpu :=
  if f.unmasked (f.fsw.extractLsb' 0 6) then f.putFsw 0x8080 0x8080 else f.putFsw 0x8080 0

/-- C1, FSW bit 9 (R454). -/
def Fpu.setC1 (f : Fpu) (b : Bool) : Fpu := f.putFsw 0x200 (if b then 0x200 else 0)

/-- C3, C2 and C0 of a comparison (R469). -/
def Fpu.setCmp (f : Fpu) (c : Cmp) : Fpu :=
  f.putFsw 0x4500 (match c with | .gt => 0 | .lt => 0x100 | .eq => 0x4000 | .un => 0x4500)

/-- Sets exception flags, and ES with them (R452). -/
def Fpu.report (f : Fpu) (x : BitVec 6) : Fpu := ({ f with fsw := f.fsw ||| x.setWidth 16 }).summarize

/-- A stack fault: IE and SF are set, C1 tells overflow from underflow (R453). -/
def Fpu.stackFault (f : Fpu) (full : Bool) : Fpu :=
  (({ f with fsw := f.fsw ||| 0x41 }).setC1 full).summarize

/-- FINIT (R487). -/
def Fpu.init (f : Fpu) : Fpu := { f with fcw := 0x37F, fsw := 0, ftw := 0xFFFF, fip := 0, fcs := 0, fdp := 0, fds := 0, fop := 0 }

/-- RC, FCW bits 11:10. -/
def Fpu.rc (f : Fpu) : BitVec 2 := f.fcw.extractLsb' 10 2

/-- The significand bits a precision control selects; 01 is reserved (R71, R455). -/
def precision (pc : BitVec 2) : Nat :=
  match pc.toNat with
  | 0 => 24
  | 2 => 53
  | 3 => 64
  | _ => match Config.reservedPrecision.toNat with | 0 => 24 | 1 => 53 | _ => 64

/-- The rounding of a result to `p` significand bits with the extended exponent range (R455); its denormals are those of a
format of `p` bits (DESIGN CHOICE, log 109). -/
def Fpu.envAt (f : Fpu) (p : Nat) : Env :=
  { rc := f.rc, p := p, bias := 16383, masks := f.masks, fz := false, larger := true }

/-- The rounding of the arithmetic instructions, which obey PC (R455). -/
def Fpu.env (f : Fpu) : Env := f.envAt (precision (f.fcw.extractLsb' 8 2))

/-- The rounding of a store to single precision. -/
def Fpu.env32 (f : Fpu) : Env := { f.envAt 24 with bias := 127 }

/-- The rounding of a store to double precision. -/
def Fpu.env64 (f : Fpu) : Env := { f.envAt 53 with bias := 1023 }

/-- The QNaN floating-point indefinite (R453). -/
abbrev indef80 : BitVec 80 := 0xFFFFC000000000000000

/-! ### Checks and recording (R451, R452, R457) -/

/-- Changes the FPU. -/
def updFpu (g : Fpu → Fpu) : M Unit := upd fun s => { s with fpu := g s.fpu }

/-- #NM if CR0.EM or CR0.TS is set (R451 step 2). -/
def fpuEnabled : M Unit := do
  let s ← readS id
  raiseIf (s.cr0.getLsbD 2 || s.cr0.getLsbD 3) nmFault

/-- A pending unmasked exception is delivered as #MF with CR0.NE = 1 and refused without it (R452, U14). -/
def fpuPending : M Unit := do
  let s ← readS id
  if s.fpu.fsw.getLsbD 7 then (if s.cr0.getLsbD 5 then raise mfFault else refuse .externalFpuError) else pure ()

/-- The checks of a waiting instruction (R451 steps 2 and 3). -/
def fpuReady : M Unit := do
  fpuEnabled
  fpuPending

/-- Records a non-control instruction: its opcode and its address (R457). -/
def State.recordCode (s : State) (op : BitVec 11) : State :=
  { s with fpu := { s.fpu with fop := op, fip := s.rip, fcs := s.cs.sel } }

/-- Records the address of a memory operand (R457). -/
def State.recordData (s : State) (m : Mem) : State :=
  { s with fpu := { s.fpu with fdp := s.effAddr m, fds := (s.seg m.seg).sel } }

/-- A register instruction with escape opcode D8H + `esc` and second byte `b` (R451, R457). -/
def fpuReg (esc : BitVec 3) (b : Byte) (body : M Unit) : M Unit := do
  fpuReady
  body
  upd (·.recordCode (esc ++ b))

/-- The second byte of a register instruction `/digit` with ST(i). -/
def regByte (digit i : BitVec 3) : Byte := 3#2 ++ digit ++ i

/-- An instruction that reads `n` bytes of memory, with natural alignment `al` (R451, R457). -/
def fpuLoad (esc digit : BitVec 3) (m : FMem) (n al : Nat) (body : Nat → M Unit) : M Unit := do
  fpuReady
  let v ← loadBytes m.mem n (.natural al)
  body v
  upd fun s => (s.recordCode (esc ++ (m.form ||| (digit.setWidth 8 <<< 3)))).recordData m.mem

/-- An instruction that writes `n` bytes of memory, with natural alignment `al` (R451, R457). The destination is checked
for writing first, so its page becomes dirty even where an unmasked exception then stores nothing (DESIGN CHOICE,
log 91). -/
def fpuStore (esc digit : BitVec 3) (m : FMem) (n al : Nat) (body : Span → M Unit) : M Unit := do
  fpuReady
  let sp ← resolveMem m.mem n true (.natural al)
  body sp
  upd fun s => (s.recordCode (esc ++ (m.form ||| (digit.setWidth 8 <<< 3)))).recordData m.mem

/-- Gives condition codes values the spec leaves open (R454, U2). -/
def openCodes (mask : BitVec 16) : M Unit := do
  let v ← draw
  updFpu (·.putFsw mask (v.extractLsb' 0 16))

/-- C0, C2 and C3. -/
abbrev codes023 : BitVec 16 := 0x4500
/-- C0, C1, C2 and C3. -/
abbrev codesAll : BitVec 16 := 0x4700

/-! ### Delivering results (R453, R454) -/

/-- What an unmasked pre-computation exception leaves to report (R453). -/
def Fpu.reported (f : Fpu) (x : BitVec 6) : BitVec 6 := if f.unmasked (x &&& 7) then x &&& 7 else x

/-- Delivers a result to ST(i): with an unmasked invalid, zero-divide or denormal exception nothing is written, else
the value is written and `pops` values popped; C1 says whether rounding enlarged the magnitude (R453, R454). -/
def Fpu.deliver (f : Fpu) (i : Reg3) (pops : Nat) (o : FpOut) : Fpu :=
  if f.unmasked (o.flags &&& 7) then (f.setC1 false).report (o.flags &&& 7)
  else (((f.setC1 (o.up && o.flags.getLsbD 5)).report o.flags).write i (pack80 o.val)).popN pops

/-- A stack underflow of an instruction with destination ST(i): the indefinite is written and the pops are made if the
invalid exception is masked, else nothing (R453). -/
def Fpu.underflow (f : Fpu) (i : Reg3) (pops : Nat) : Fpu :=
  let g := f.stackFault false
  if f.unmasked xI then g else (g.write i indef80).popN pops

/-- An arithmetic instruction with sources `need` and destination ST(i) (R453, R454). -/
def arith (need : List Reg3) (i : Reg3) (pops : Nat) (op : Fpu → FpOut) : M Unit := do
  updFpu fun f => if need.any f.emptyAt then f.underflow i pops else f.deliver i pops (op f)
  openCodes codes023

/-- A push of a value with exceptions `x` (R453, R456). -/
def Fpu.pushResult (f : Fpu) (v : BitVec 80) (x : BitVec 6) : Fpu :=
  if !f.emptyAt 7 then
    let g := f.stackFault true
    if f.unmasked xI then g else g.push indef80
  else if f.unmasked x then (f.setC1 false).report x
  else ((f.setC1 false).report x).push v

/-- A load instruction (R453, R454). -/
def pushForm87 (op : Fpu → BitVec 80 × BitVec 6) : M Unit := do
  updFpu fun f => f.pushResult (op f).1 (op f).2
  openCodes codes023

/-- A comparison of ST(0) with a value: with an unmasked exception nothing changes but the flags, else C3, C2 and C0
are set and `pops` values popped (R469). That an unmasked denormal operand keeps the codes and pops nothing is the
model's choice (DESIGN CHOICE, log 119): the footnote of R469 names an unmasked #IA only. -/
def Fpu.compareWith (f : Fpu) (quietToo : Bool) (pops : Nat) (b : FVal) : Fpu :=
  let x := compareFlags quietToo true (f.val 0) b
  let g := (f.setC1 false).report x
  if f.unmasked x then g else (g.setCmp (compareVal (f.val 0) b)).popN pops

/-- A comparison, with its stack check: a masked underflow compares as unordered (R453, R469; DESIGN CHOICE,
log 115), an unmasked one keeps C3, C2 and C0 (DESIGN CHOICE, log 131). -/
def compare (need : List Reg3) (quietToo : Bool) (pops : Nat) (b : Fpu → FVal) : M Unit :=
  updFpu fun f =>
    if need.any f.emptyAt then
      let g := f.stackFault false
      if f.unmasked xI then g else (g.setCmp .un).popN pops
    else f.compareWith quietToo pops (b f)

/-- The outcome of a store of ST(0): the bytes to write, or none where an unmasked exception forbids the store, the
exceptions and the rounding direction. -/
structure StoreOut where
  bytes : Option Nat
  flags : BitVec 6
  up : Bool
  deriving DecidableEq, Repr

/-- Stores the `n` bytes of an outcome, if any, and pops (R453, R454). Where an unmasked exception leaves nothing to
store, nothing is popped, by FISTTP neither (R453; DEDUCED, log 95). -/
def finishStore (sp : Span) (n pops : Nat) (o : StoreOut) : M Unit := do
  updFpu fun f => (f.setC1 (o.up && o.flags.getLsbD 5)).report o.flags
  match o.bytes with
  | none => pure ()
  | some v =>
    storeSpan sp n v
    updFpu (·.popN pops)

/-- A store of ST(0), with its stack check: on a masked underflow the indefinite `bad` is stored (R453). -/
def storeForm (sp : Span) (n pops : Nat) (bad : M Nat) (op : Fpu → M StoreOut) : M Unit := do
  let f ← readS (·.fpu)
  if f.emptyAt 0 then
    updFpu (·.stackFault false)
    if f.unmasked xI then pure ()
    else
      let v ← bad
      storeSpan sp n v
      updFpu (·.popN pops)
  else
    let o ← op f
    finishStore sp n pops o
  openCodes codes023

/-- The store of a rounded value: an unmasked invalid, overflow or underflow exception forbids it (R453); then an
inexact result is not reported. -/
def Fpu.storeReal (f : Fpu) (o : FpOut) (bits : FVal → Nat) : StoreOut :=
  if f.unmasked (o.flags &&& 7) then { bytes := none, flags := o.flags &&& 7, up := false }
  else if f.unmasked (o.flags &&& (xO ||| xU)) then { bytes := none, flags := o.flags &&& (xO ||| xU), up := false }
  else { bytes := some (bits o.val), flags := o.flags, up := o.up }

/-- The store of an integer of `w` bits (R479). -/
def Fpu.storeInt (f : Fpu) (w : Nat) (rc : BitVec 2) (c1 : Bool) : StoreOut :=
  let t := toSigned w rc (f.val 0)
  if f.unmasked (t.2.1 &&& 7) then { bytes := none, flags := t.2.1 &&& 7, up := false }
  else { bytes := some t.1.toNat, flags := t.2.1, up := c1 && t.2.2 }

/-- `n` bytes of open values as a little-endian number. -/
def openBytes : Nat → M Nat
  | 0 => pure 0
  | n + 1 => do
    let v ← draw
    let r ← openBytes n
    pure ((v.extractLsb' 0 8).toNat + 256 * r)

/-- A list of fields, each with its length in bytes, as a little-endian number. -/
def packFields : List (Nat × Nat) → Nat
  | [] => 0
  | (n, v) :: t => v % 256 ^ n + 256 ^ n * packFields t

/-- `n` bytes at offset `k` of a little-endian image. -/
def fieldAt (img k n : Nat) : Nat := img / 256 ^ k % 256 ^ n

end Sys2Proof.Machine
end

