-- ==== Sys2Proof/Machine/X87.lean ====
section
/-! DEFINITION. The x87 FPU instructions, WAIT, EMMS, FXSAVE and FXRSTOR (45_x87.md; 44_system.md rules R440 to
R442). The transcendental functions are uninterpreted, with the special cases their rules list (R455, decision D24). -/

namespace Sys2Proof.Machine

/-! ### Arithmetic (R463, R473, R474, R485, R503, R504) -/

/-- An operation of the arithmetic instructions, on destination and source. -/
abbrev FOp := Env → FVal → FVal → FpOut

/-- FADD's operation. -/
def fAdd : FOp := fun n a b => binary n (addCore n) a b
/-- FMUL's operation. -/
def fMul : FOp := fun n a b => binary n (mulCore n) a b
/-- FSUB's operation. -/
def fSub : FOp := fun n a b => binary n (subCore n) a b
/-- FSUBR's operation: source minus destination. -/
def fSubr : FOp := fun n a b => fSub n b a
/-- FDIV's operation. -/
def fDiv : FOp := fun n a b => binary n (divCore n) a b
/-- FDIVR's operation: source by destination. -/
def fDivr : FOp := fun n a b => fDiv n b a

/-- An arithmetic instruction: `digit` is its opcode digit where ST(0) is the destination, `digitI` where ST(i) is
(R463). -/
def arithForm (op : FOp) (digit digitI : BitVec 3) : FArith → M Unit
  | .m32 m => fpuLoad 0 digit m 4 4 fun v => arith [0] 0 0 fun f => op f.env (f.val 0) (unpack32 (BitVec.ofNat 32 v))
  | .m64 m => fpuLoad 4 digit m 8 8 fun v => arith [0] 0 0 fun f => op f.env (f.val 0) (unpack64 (BitVec.ofNat 64 v))
  | .st0 i => fpuReg 0 (regByte digit i) (arith [0, i] 0 0 fun f => op f.env (f.val 0) (f.val i))
  | .sti i => fpuReg 4 (regByte digitI i) (arith [0, i] i 0 fun f => op f.env (f.val i) (f.val 0))

/-- An arithmetic instruction that pops (R463). -/
def arithPop (op : FOp) (digitI : BitVec 3) (i : Reg3) : M Unit :=
  fpuReg 6 (regByte digitI i) (arith [0, i] i 1 fun f => op f.env (f.val i) (f.val 0))

/-- An arithmetic instruction with an integer operand (R463). -/
def arithInt (op : FOp) (digit : BitVec 3) : FInt → M Unit
  | .m16 m => fpuLoad 6 digit m 2 2 fun v =>
    arith [0] 0 0 fun f => op f.env (f.val 0) (intVal (BitVec.ofNat 16 v).toInt)
  | .m32 m => fpuLoad 2 digit m 4 4 fun v =>
    arith [0] 0 0 fun f => op f.env (f.val 0) (intVal (BitVec.ofNat 32 v).toInt)

/-- FADD (R463). -/
def execFadd (a : FArith) (s : State) : Host.Outcome State Fault Refusal := runSeq (arithForm fAdd 0 0 a) s
/-- FADDP (R463). -/
def execFaddp (i : Reg3) (s : State) : Host.Outcome State Fault Refusal := runSeq (arithPop fAdd 0 i) s
/-- FIADD (R463). -/
def execFiadd (a : FInt) (s : State) : Host.Outcome State Fault Refusal := runSeq (arithInt fAdd 0 a) s
/-- FMUL (R485). -/
def execFmul (a : FArith) (s : State) : Host.Outcome State Fault Refusal := runSeq (arithForm fMul 1 1 a) s
/-- FMULP (R485). -/
def execFmulp (i : Reg3) (s : State) : Host.Outcome State Fault Refusal := runSeq (arithPop fMul 1 i) s
/-- FIMUL (R485). -/
def execFimul (a : FInt) (s : State) : Host.Outcome State Fault Refusal := runSeq (arithInt fMul 1 a) s
/-- FSUB (R503). -/
def execFsub (a : FArith) (s : State) : Host.Outcome State Fault Refusal := runSeq (arithForm fSub 4 5 a) s
/-- FSUBP (R503). -/
def execFsubp (i : Reg3) (s : State) : Host.Outcome State Fault Refusal := runSeq (arithPop fSub 5 i) s
/-- FISUB (R503). -/
def execFisub (a : FInt) (s : State) : Host.Outcome State Fault Refusal := runSeq (arithInt fSub 4 a) s
/-- FSUBR (R504). -/
def execFsubr (a : FArith) (s : State) : Host.Outcome State Fault Refusal := runSeq (arithForm fSubr 5 4 a) s
/-- FSUBRP (R504). -/
def execFsubrp (i : Reg3) (s : State) : Host.Outcome State Fault Refusal := runSeq (arithPop fSubr 4 i) s
/-- FISUBR (R504). -/
def execFisubr (a : FInt) (s : State) : Host.Outcome State Fault Refusal := runSeq (arithInt fSubr 5 a) s
/-- FDIV (R473). -/
def execFdiv (a : FArith) (s : State) : Host.Outcome State Fault Refusal := runSeq (arithForm fDiv 6 7 a) s
/-- FDIVP (R473). -/
def execFdivp (i : Reg3) (s : State) : Host.Outcome State Fault Refusal := runSeq (arithPop fDiv 7 i) s
/-- FIDIV (R473). -/
def execFidiv (a : FInt) (s : State) : Host.Outcome State Fault Refusal := runSeq (arithInt fDiv 6 a) s
/-- FDIVR (R474). -/
def execFdivr (a : FArith) (s : State) : Host.Outcome State Fault Refusal := runSeq (arithForm fDivr 7 6 a) s
/-- FDIVRP (R474). -/
def execFdivrp (i : Reg3) (s : State) : Host.Outcome State Fault Refusal := runSeq (arithPop fDivr 6 i) s
/-- FIDIVR (R474). -/
def execFidivr (a : FInt) (s : State) : Host.Outcome State Fault Refusal := runSeq (arithInt fDivr 7 a) s

/-- FSQRT (R498). -/
def execFsqrt (s : State) : Host.Outcome State Fault Refusal :=
  runSeq (fpuReg 1 0xFA (arith [0] 0 0 fun f => unary true (sqrtCore f.env) (f.val 0))) s

/-! ### Sign and rounding (R462, R466, R492) -/

/-- FABS and FCHS: the sign bit of ST(0) changes, nothing is signalled but an empty register (R462, R466). -/
def signForm (b : Byte) (g : BitVec 80 → BitVec 80) : M Unit :=
  fpuReg 1 b do
    updFpu fun f => if f.emptyAt 0 then f.underflow 0 0 else (f.setC1 false).write 0 (g (f.st 0))
    openCodes codes023

/-- FABS (R462). -/
def execFabs (s : State) : Host.Outcome State Fault Refusal := runSeq (signForm 0xE1 fun v => putBit v 79 false) s
/-- FCHS (R466). -/
def execFchs (s : State) : Host.Outcome State Fault Refusal := runSeq (signForm 0xE0 fun v => putBit v 79 (!v.msb)) s

/-- A finite value rounded to an integral value (R492). -/
def integralCore (rc : BitVec 2) : FVal → FpOut
  | .fin s m e _ =>
    let t := roundInteger rc s m e
    { val := if 0 ≤ e then .fin s m e false else finOrZero s t.1 0, flags := whenFlag t.2.1 xP, up := t.2.2 }
  | v => .exact v

/-- FRNDINT (R492). -/
def execFrndint (s : State) : Host.Outcome State Fault Refusal :=
  runSeq (fpuReg 1 0xFC (arith [0] 0 0 fun f => unary true (integralCore f.rc) (f.val 0))) s

/-! ### Scaling and remainders (R489, R490, R495) -/

/-- The bound beyond which a scale factor overflows or underflows any value. -/
abbrev scaleLimit : Nat := 0x10000

/-- FSCALE: ST(0) times 2 to the power of ST(1) chopped toward zero (R495). For an infinite ST(1) the result is the
limit, invalid where 0 meets plus infinity or infinity meets minus infinity (PRESUMED, log 54). An unmasked overflow or
underflow whose result does not fit with its exponent biased by 24576 either is packed as `packParts` says (DESIGN
CHOICE, log 104). -/
def scaleCore (n : Env) (a b : FVal) : FpOut :=
  match a, b with
  | .zero _, .inf false => .invalid
  | .inf _, .inf true => .invalid
  | .fin s _ _ _, .inf t => .exact (if t then .zero s else .inf s)
  | .fin s m e _, .fin t k f _ =>
    let j := min (roundInteger 3 t k f).1 scaleLimit
    finish n s m (if t then e - j else e + j)
  | .fin s m e _, _ => finish n s m e
  | v, _ => .exact v

/-- FSCALE (R495), rounded to 64 bits whatever FCW.PC, as R455 does not name it among the instructions that obey PC (DESIGN
CHOICE, log 105). -/
def execFscale (s : State) : Host.Outcome State Fault Refusal :=
  runSeq (fpuReg 1 0xFD (arith [0, 1] 0 0 fun f =>
    let n := f.envAt 64
    binary n (scaleCore n) (f.val 0) (f.val 1))) s

/-- The outcome of a partial remainder: the value, the quotient's low bits, and whether the reduction is complete. -/
structure RemOut where
  out : FpOut
  quot : Nat
  complete : Bool
  deriving DecidableEq, Repr

/-- The partial remainder of two values (R489, R490): `near` rounds the quotient to nearest even, else it is chopped;
`n` is the number N of a partial reduction, a value from 32 to 63. With an infinite ST(1) the quotient is 0 and ST(0) is
the remainder. -/
def partialRem (env : Env) (near : Bool) (n : Nat) (a b : FVal) : RemOut :=
  match a, b with
  | .inf _, _ => { out := .invalid, quot := 0, complete := true }
  | _, .zero _ => { out := .invalid, quot := 0, complete := true }
  | .fin s m e _, .fin _ k f _ =>
    let d : Int := (e + m.log2) - (f + k.log2)
    let lift : Int := if d < 64 then 0 else d - n
    let q0 := min e (f + lift)
    let x := m * 2 ^ (e - q0).toNat
    let y := k * 2 ^ (f + lift - q0).toNat
    let q := x / y
    let r := x % y
    let up := near && decide (d < 64) && (decide (y < 2 * r) || (decide (2 * r = y) && decide (q % 2 = 1)))
    let mag := if up then y - r else r
    let sign := if up then !s else s
    { out := if mag = 0 then .exact (.zero s) else finish env sign mag q0
      quot := if up then q + 1 else q
      complete := decide (d < 64) }
  | v, _ => { out := convertCore env v, quot := 0, complete := true }

/-- C0, C3 and C1 from the low three bits of a quotient, with C2 clear (R489). -/
def Fpu.setQuotient (f : Fpu) (q : Nat) : Fpu :=
  f.putFsw codesAll ((if q.testBit 2 then 0x100 else 0) ||| (if q.testBit 1 then 0x4000 else 0) |||
    (if q.testBit 0 then 0x200 else 0))

/-- FPREM and FPREM1 (R489, R490). A quiet NaN is delivered without IE also beside an infinite dividend or a zero modulus,
which the #IA lines name (DESIGN CHOICE, log 124). -/
def remForm (b : Byte) (near : Bool) : M Unit :=
  fpuReg 1 b do
    let v ← draw
    let f ← readS (·.fpu)
    let env := { f.envAt 64 with rc := 0 }
    let t := partialRem env near (32 + (v.extractLsb' 0 5).toNat) (f.val 0) (f.val 1)
    let o := binary env (fun _ _ => t.out) (f.val 0) (f.val 1)
    let numeric := !(f.emptyAt 0 || f.emptyAt 1 || (f.val 0).isNan || (f.val 1).isNan) && o.flags &&& xI == 0 &&
      !f.unmasked (o.flags &&& 7)
    updFpu fun f => if f.emptyAt 0 || f.emptyAt 1 then f.underflow 0 0 else f.deliver 0 0 o
    if !numeric then openCodes codes023
    else if t.complete then updFpu (·.setQuotient t.quot)
    else
      openCodes codesAll
      updFpu (·.putFsw 0x400 0x400)

/-- FPREM (R489). -/
def execFprem (s : State) : Host.Outcome State Fault Refusal := runSeq (remForm 0xF8 false) s
/-- FPREM1 (R490). -/
def execFprem1 (s : State) : Host.Outcome State Fault Refusal := runSeq (remForm 0xF5 true) s

/-- FXTRACT on a value: exponent, significand and exceptions (R510). Both results of a NaN are that NaN made quiet, and
both results of an unsupported format are the indefinite (DESIGN CHOICE, log 125). -/
def extractParts (v : FVal) : FVal × FVal × BitVec 6 :=
  match v with
  | .unsupported => (.indef, .indef, xI)
  | .nan s g => ((FVal.nan s g).quiet, (FVal.nan s g).quiet, whenFlag v.signals xI)
  | .zero s => (.inf true, .zero s, xZ)
  | .inf s => (.inf false, .inf s, 0)
  | .fin s m e d => (intVal (e + m.log2), .fin s m (-(m.log2 : Int)) false, whenFlag d xD)

/-- FXTRACT on the FPU: the exponent replaces ST(0) and the significand is pushed (R510); a stack fault writes the
indefinite to both (PRESUMED, log 56). An empty ST(0) below a full ST(7) is an underflow (DESIGN CHOICE, log 106). -/
def Fpu.extract (f : Fpu) : Fpu :=
  let t := extractParts (f.val 0)
  if f.emptyAt 0 || !f.emptyAt 7 then
    let g := f.stackFault (!f.emptyAt 0)
    if f.unmasked xI then g else (g.write 0 indef80).push indef80
  else if f.unmasked t.2.2 then (f.setC1 false).report t.2.2
  else (((f.setC1 false).report t.2.2).write 0 (pack80 t.1)).push (pack80 t.2.1)

/-- FXTRACT (R510). -/
def execFxtract (s : State) : Host.Outcome State Fault Refusal :=
  runSeq (fpuReg 1 0xF4 do updFpu (·.extract); openCodes codes023) s

/-! ### Comparisons (R469, R470, R476, R505, R506, R508) -/

/-- FCOM and FCOMP (R469). -/
def fcomForm (digit : BitVec 3) (pops : Nat) : FCmp → M Unit
  | .m32 m => fpuLoad 0 digit m 4 4 fun v => compare [0] true pops fun _ => unpack32 (BitVec.ofNat 32 v)
  | .m64 m => fpuLoad 4 digit m 8 8 fun v => compare [0] true pops fun _ => unpack64 (BitVec.ofNat 64 v)
  | .sti i => fpuReg 0 (regByte digit i) (compare [0, i] true pops fun f => f.val i)

/-- FCOM (R469). -/
def execFcom (a : FCmp) (s : State) : Host.Outcome State Fault Refusal := runSeq (fcomForm 2 0 a) s
/-- FCOMP (R469). -/
def execFcomp (a : FCmp) (s : State) : Host.Outcome State Fault Refusal := runSeq (fcomForm 3 1 a) s
/-- FCOMPP (R469). -/
def execFcompp (s : State) : Host.Outcome State Fault Refusal :=
  runSeq (fpuReg 6 0xD9 (compare [0, 1] true 2 fun f => f.val 1)) s
/-- FUCOM (R506). -/
def execFucom (i : Reg3) (s : State) : Host.Outcome State Fault Refusal :=
  runSeq (fpuReg 5 (regByte 4 i) (compare [0, i] false 0 fun f => f.val i)) s
/-- FUCOMP (R506). -/
def execFucomp (i : Reg3) (s : State) : Host.Outcome State Fault Refusal :=
  runSeq (fpuReg 5 (regByte 5 i) (compare [0, i] false 1 fun f => f.val i)) s
/-- FUCOMPP (R506). -/
def execFucompp (s : State) : Host.Outcome State Fault Refusal :=
  runSeq (fpuReg 2 0xE9 (compare [0, 1] false 2 fun f => f.val 1)) s
/-- FTST (R505). -/
def execFtst (s : State) : Host.Outcome State Fault Refusal :=
  runSeq (fpuReg 1 0xE4 (compare [0] true 0 fun _ => .zero false)) s

/-- FICOM and FICOMP (R476). -/
def ficomForm (digit : BitVec 3) (pops : Nat) : FInt → M Unit
  | .m16 m => fpuLoad 6 digit m 2 2 fun v => compare [0] true pops fun _ => intVal (BitVec.ofNat 16 v).toInt
  | .m32 m => fpuLoad 2 digit m 4 4 fun v => compare [0] true pops fun _ => intVal (BitVec.ofNat 32 v).toInt

/-- FICOM (R476). -/
def execFicom (a : FInt) (s : State) : Host.Outcome State Fault Refusal := runSeq (ficomForm 2 0 a) s
/-- FICOMP (R476). -/
def execFicomp (a : FInt) (s : State) : Host.Outcome State Fault Refusal := runSeq (ficomForm 3 1 a) s

/-- The flags of a comparison in EFLAGS: OF, SF and AF are cleared (R470, R605). -/
def Cmp.status (c : Cmp) : Status :=
  { cf := c == .lt || c == .un, pf := c == .un, af := false, zf := c == .eq || c == .un, sf := false, of := false }

/-- FCOMI, FCOMIP, FUCOMI and FUCOMIP: with an unmasked exception EFLAGS stays (R470). A masked stack underflow gives the
unordered result (DESIGN CHOICE, log 115), an unmasked one leaves EFLAGS too (DESIGN CHOICE, log 131). -/
def comiForm (esc digit : BitVec 3) (quietToo : Bool) (pops : Nat) (i : Reg3) : M Unit :=
  fpuReg esc (regByte digit i) do
    let f ← readS (·.fpu)
    if f.emptyAt 0 || f.emptyAt i then
      updFpu (·.stackFault false)
      if f.unmasked xI then pure ()
      else
        setFlags statusMask (Cmp.un).status
        updFpu (·.popN pops)
    else
      let x := compareFlags quietToo false (f.val 0) (f.val i)
      updFpu fun f => (f.setC1 false).report x
      if f.unmasked x then pure ()
      else
        setFlags statusMask (compareVal (f.val 0) (f.val i)).status
        updFpu (·.popN pops)

/-- FCOMI (R470). -/
def execFcomi (i : Reg3) (s : State) : Host.Outcome State Fault Refusal := runSeq (comiForm 3 6 true 0 i) s
/-- FCOMIP (R470). -/
def execFcomip (i : Reg3) (s : State) : Host.Outcome State Fault Refusal := runSeq (comiForm 7 6 true 1 i) s
/-- FUCOMI (R470). -/
def execFucomi (i : Reg3) (s : State) : Host.Outcome State Fault Refusal := runSeq (comiForm 3 5 false 0 i) s
/-- FUCOMIP (R470). -/
def execFucomip (i : Reg3) (s : State) : Host.Outcome State Fault Refusal := runSeq (comiForm 7 5 false 1 i) s

/-- C3, C2 and C0 of a class (R508). -/
def classCodes (empty : Bool) (v : FVal) : BitVec 16 :=
  if empty then 0x4100
  else match v with
    | .unsupported => 0
    | .nan _ _ => 0x100
    | .fin _ _ _ d => if d then 0x4400 else 0x400
    | .inf _ => 0x500
    | .zero _ => 0x4000

/-- FXAM: C1 is the sign bit, also of an empty register (R508). -/
def execFxam (s : State) : Host.Outcome State Fault Refusal :=
  runSeq (fpuReg 1 0xE5 (updFpu fun f =>
    (f.setC1 (f.st 0).msb).putFsw codes023 (classCodes (f.emptyAt 0) (f.val 0)))) s

/-! ### Loads (R464, R477, R481, R482) -/

/-- A value read from memory in single or double precision: a signalling NaN is made quiet (R481). -/
def loadReal (v : FVal) : BitVec 80 × BitVec 6 :=
  (pack80 v.quiet, if v.signals then xI else whenFlag v.isDen xD)

/-- FLD (R481). -/
def fldForm : FLong → M Unit
  | .m32 m => fpuLoad 1 0 m 4 4 fun v => pushForm87 fun _ => loadReal (unpack32 (BitVec.ofNat 32 v))
  | .m64 m => fpuLoad 5 0 m 8 8 fun v => pushForm87 fun _ => loadReal (unpack64 (BitVec.ofNat 64 v))
  | .m80 m => fpuLoad 3 5 m 10 8 fun v => pushForm87 fun _ => (BitVec.ofNat 80 v, 0)
  | .sti i => fpuReg 1 (regByte 0 i) do
    let f ← readS (·.fpu)
    if f.emptyAt i && f.emptyAt 7 then
      updFpu fun f =>
        let g := f.stackFault false
        if f.unmasked xI then g else g.push indef80
      openCodes codes023
    else pushForm87 fun f => (f.st i, 0)

/-- FLD (R481). -/
def execFld (a : FLong) (s : State) : Host.Outcome State Fault Refusal := runSeq (fldForm a) s

/-- FILD (R477). -/
def fildForm : FIntL → M Unit
  | .m16 m => fpuLoad 7 0 m 2 2 fun v => pushForm87 fun _ => (pack80 (intVal (BitVec.ofNat 16 v).toInt), 0)
  | .m32 m => fpuLoad 3 0 m 4 4 fun v => pushForm87 fun _ => (pack80 (intVal (BitVec.ofNat 32 v).toInt), 0)
  | .m64 m => fpuLoad 7 5 m 8 8 fun v => pushForm87 fun _ => (pack80 (intVal (BitVec.ofNat 64 v).toInt), 0)

/-- FILD (R477). -/
def execFild (a : FIntL) (s : State) : Host.Outcome State Fault Refusal := runSeq (fildForm a) s

/-- The value of `n` packed decimal bytes, and whether every digit is below 10 (R464). -/
def bcdValue : Nat → Nat → Nat × Bool
  | 0, _ => (0, true)
  | n + 1, v =>
    let t := bcdValue n (v / 256)
    (v % 16 + 10 * (v / 16 % 16) + 100 * t.1, t.2 && decide (v % 16 < 10) && decide (v / 16 % 16 < 10))

/-- `n` packed decimal bytes of a number (R465). -/
def bcdBytes : Nat → Nat → Nat
  | 0, _ => 0
  | n + 1, v => v % 10 + 16 * (v / 10 % 10) + 256 * bcdBytes n (v / 100)

/-- FBLD; a digit above 9 gives an open value (R464, U19). -/
def fbldForm (m : FMem) : M Unit :=
  fpuLoad 7 4 m 10 8 fun v => do
    let hi ← draw
    let lo ← draw
    let t := bcdValue 9 v
    let sign := v.testBit 79
    let w : BitVec 80 := if t.2 then pack80 (if t.1 = 0 then .zero sign else .fin sign t.1 0 false)
      else hi.extractLsb' 0 16 ++ lo
    pushForm87 fun _ => (w, 0)

/-- FBLD (R464). -/
def execFbld (m : FMem) (s : State) : Host.Outcome State Fault Refusal := runSeq (fbldForm m) s

/-- A load of a constant: `near` is its image rounded to nearest; `low` says that the image is above the constant, so
that rounding down or toward zero gives the next smaller image, and `high` that it is below, so that rounding up gives
the next larger one (R482). -/
def constForm (b : Byte) (near : BitVec 80) (low high : Bool) : M Unit :=
  fpuReg 1 b (pushForm87 fun f =>
    ((match f.rc.toNat with
      | 0 => near
      | 2 => if high then near + 1 else near
      | _ => if low then near - 1 else near), 0))

/-- FLD1 (R482). -/
def execFld1 (s : State) : Host.Outcome State Fault Refusal :=
  runSeq (constForm 0xE8 0x3FFF8000000000000000 false false) s
/-- FLDL2T (R482). -/
def execFldl2t (s : State) : Host.Outcome State Fault Refusal :=
  runSeq (constForm 0xE9 0x4000D49A784BCD1B8AFE false true) s
/-- FLDL2E (R482). -/
def execFldl2e (s : State) : Host.Outcome State Fault Refusal :=
  runSeq (constForm 0xEA 0x3FFFB8AA3B295C17F0BC true false) s
/-- FLDPI (R482). -/
def execFldpi (s : State) : Host.Outcome State Fault Refusal :=
  runSeq (constForm 0xEB 0x4000C90FDAA22168C235 true false) s
/-- FLDLG2 (R482). -/
def execFldlg2 (s : State) : Host.Outcome State Fault Refusal :=
  runSeq (constForm 0xEC 0x3FFD9A209A84FBCFF799 true false) s
/-- FLDLN2 (R482). -/
def execFldln2 (s : State) : Host.Outcome State Fault Refusal :=
  runSeq (constForm 0xED 0x3FFEB17217F7D1CF79AC true false) s
/-- FLDZ (R482). -/
def execFldz (s : State) : Host.Outcome State Fault Refusal := runSeq (constForm 0xEE 0 false false) s

/-! ### Stores (R465, R479, R480, R499) -/

/-- A store of ST(0) in single precision (R499). -/
def store32 (digit : BitVec 3) (pops : Nat) (m : FMem) : M Unit :=
  fpuStore 1 digit m 4 4 fun sp => storeForm sp 4 pops (pure 0xFFC00000) fun f =>
    pure (f.storeReal (convert f.env32 false (f.val 0)) fun v => (pack32 v).toNat)

/-- A store of ST(0) in double precision (R499). -/
def store64 (digit : BitVec 3) (pops : Nat) (m : FMem) : M Unit :=
  fpuStore 5 digit m 8 8 fun sp => storeForm sp 8 pops (pure 0xFFF8000000000000) fun f =>
    pure (f.storeReal (convert f.env64 false (f.val 0)) fun v => (pack64 v).toNat)

/-- A copy of ST(0) to ST(i), tag included (R499). -/
def storeSti (digit : BitVec 3) (pops : Nat) (i : Reg3) : M Unit :=
  fpuReg 5 (regByte digit i) do
    updFpu fun f =>
      if f.emptyAt 0 then f.underflow i pops else ((f.setC1 false).copy i 0).popN pops
    openCodes codes023

/-- FST (R499). -/
def fstForm : FCmp → M Unit
  | .m32 m => store32 2 0 m
  | .m64 m => store64 2 0 m
  | .sti i => storeSti 2 0 i

/-- FST (R499). -/
def execFst (a : FCmp) (s : State) : Host.Outcome State Fault Refusal := runSeq (fstForm a) s

/-- FSTP (R499). -/
def fstpForm : FLong → M Unit
  | .m32 m => store32 3 1 m
  | .m64 m => store64 3 1 m
  | .m80 m => fpuStore 3 7 m 10 8 fun sp => storeForm sp 10 1 (pure indef80.toNat) fun f =>
    pure { bytes := some (f.st 0).toNat, flags := 0, up := false }
  | .sti i => storeSti 3 1 i

/-- FSTP (R499). -/
def execFstp (a : FLong) (s : State) : Host.Outcome State Fault Refusal := runSeq (fstpForm a) s

/-- A store of ST(0) as an integer of `n` bytes, rounded as FCW.RC says or, with `chop`, toward zero; then C1 is
cleared (R479, R480). -/
def storeInteger (esc digit : BitVec 3) (n pops : Nat) (chop : Bool) (m : FMem) : M Unit :=
  fpuStore esc digit m n n fun sp => storeForm sp n pops (pure (2 ^ (8 * n - 1))) fun f =>
    pure (f.storeInt (8 * n) (if chop then 3 else f.rc) (!chop))

/-- FIST (R479). -/
def fistForm : FInt → M Unit
  | .m16 m => storeInteger 7 2 2 0 false m
  | .m32 m => storeInteger 3 2 4 0 false m

/-- FIST (R479). -/
def execFist (a : FInt) (s : State) : Host.Outcome State Fault Refusal := runSeq (fistForm a) s

/-- FISTP (R479). -/
def fistpForm : FIntL → M Unit
  | .m16 m => storeInteger 7 3 2 1 false m
  | .m32 m => storeInteger 3 3 4 1 false m
  | .m64 m => storeInteger 7 7 8 1 false m

/-- FISTP (R479). -/
def execFistp (a : FIntL) (s : State) : Host.Outcome State Fault Refusal := runSeq (fistpForm a) s

/-- FISTTP (R480). -/
def fisttpForm : FIntL → M Unit
  | .m16 m => storeInteger 7 1 2 1 true m
  | .m32 m => storeInteger 3 1 4 1 true m
  | .m64 m => storeInteger 5 1 8 1 true m

/-- FISTTP (R480). -/
def execFisttp (a : FIntL) (s : State) : Host.Outcome State Fault Refusal := runSeq (fisttpForm a) s

/-- The BCD indefinite: bytes 0 to 6 are open values, byte 7 is C0H, bytes 8 and 9 are FFH (R465, U20). -/
def bcdIndefinite : M Nat := do
  let v ← openBytes 7
  pure (v + 256 ^ 7 * 0xFFFFC0)

/-- The store of ST(0) in packed decimal (R465). -/
def storeBcd (f : Fpu) : M StoreOut := do
  let t : Option (Nat × BitVec 6 × Bool) := match f.val 0 with
    | .zero _ => some (0, 0, false)
    | .fin s m e _ =>
      let r := roundInteger f.rc s m e
      if r.1 < 10 ^ 18 then some (r.1, whenFlag r.2.1 xP, r.2.2) else none
    | _ => none
  match t with
  | some (v, x, up) =>
    pure { bytes := some (bcdBytes 9 v + (if (f.val 0).sign then 0x80 * 256 ^ 9 else 0)), flags := x, up := up }
  | none =>
    if f.unmasked xI then pure { bytes := none, flags := xI, up := false }
    else
      let v ← bcdIndefinite
      pure { bytes := some v, flags := xI, up := false }

/-- FBSTP (R465). -/
def execFbstp (m : FMem) (s : State) : Host.Outcome State Fault Refusal :=
  runSeq (fpuStore 7 6 m 10 8 fun sp => storeForm sp 10 1 bcdIndefinite storeBcd) s

/-! ### Moves in the stack (R468, R472, R475, R478, R486, R509) -/

/-- FCMOVcc: an empty ST(0) or ST(i) is a stack underflow whatever the condition (R468). -/
def fcmovForm (esc digit : BitVec 3) (c : State → Bool) (i : Reg3) : M Unit :=
  fpuReg esc (regByte digit i) do
    let b ← readS c
    updFpu fun f =>
      if f.emptyAt 0 || f.emptyAt i then f.underflow 0 0
      else if b then (f.setC1 false).copy 0 i else f.setC1 false
    openCodes codes023

/-- FCMOVB (R468). -/
def execFcmovb (i : Reg3) (s : State) : Host.Outcome State Fault Refusal := runSeq (fcmovForm 2 0 (·.flag fCF) i) s
/-- FCMOVE (R468). -/
def execFcmove (i : Reg3) (s : State) : Host.Outcome State Fault Refusal := runSeq (fcmovForm 2 1 (·.flag fZF) i) s
/-- FCMOVBE (R468). -/
def execFcmovbe (i : Reg3) (s : State) : Host.Outcome State Fault Refusal :=
  runSeq (fcmovForm 2 2 (fun t => t.flag fCF || t.flag fZF) i) s
/-- FCMOVU (R468). -/
def execFcmovu (i : Reg3) (s : State) : Host.Outcome State Fault Refusal := runSeq (fcmovForm 2 3 (·.flag fPF) i) s
/-- FCMOVNB (R468). -/
def execFcmovnb (i : Reg3) (s : State) : Host.Outcome State Fault Refusal :=
  runSeq (fcmovForm 3 0 (fun t => !t.flag fCF) i) s
/-- FCMOVNE (R468). -/
def execFcmovne (i : Reg3) (s : State) : Host.Outcome State Fault Refusal :=
  runSeq (fcmovForm 3 1 (fun t => !t.flag fZF) i) s
/-- FCMOVNBE (R468). -/
def execFcmovnbe (i : Reg3) (s : State) : Host.Outcome State Fault Refusal :=
  runSeq (fcmovForm 3 2 (fun t => !t.flag fCF && !t.flag fZF) i) s
/-- FCMOVNU (R468). -/
def execFcmovnu (i : Reg3) (s : State) : Host.Outcome State Fault Refusal :=
  runSeq (fcmovForm 3 3 (fun t => !t.flag fPF) i) s

/-- FDECSTP and FINCSTP: TOP moves, C1 is cleared (R472, R478). -/
def stepForm (b : Byte) (d : BitVec 3) : M Unit :=
  fpuReg 1 b do
    updFpu fun f => (f.setTop (f.top + d)).setC1 false
    openCodes codes023

/-- FDECSTP (R472). -/
def execFdecstp (s : State) : Host.Outcome State Fault Refusal := runSeq (stepForm 0xF6 7) s
/-- FINCSTP (R478). -/
def execFincstp (s : State) : Host.Outcome State Fault Refusal := runSeq (stepForm 0xF7 1) s

/-- FFREE (R475). -/
def execFfree (i : Reg3) (s : State) : Host.Outcome State Fault Refusal :=
  runSeq (fpuReg 5 (regByte 0 i) do updFpu (fun f => f.setTag (f.top + i) 3); openCodes codesAll) s

/-- FNOP (R486). -/
def execFnop (s : State) : Host.Outcome State Fault Refusal := runSeq (fpuReg 1 0xD0 (openCodes codesAll)) s

/-- ST(i) and its tag for an exchange: an empty register counts as the indefinite. -/
def Fpu.filled (f : Fpu) (i : Reg3) : BitVec 80 × BitVec 2 :=
  if f.emptyAt i then (indef80, tagOf indef80) else (f.st i, f.tagAt i)

/-- The contents and the tags of ST(0) and ST(i) swapped (R509). -/
def Fpu.swap (f : Fpu) (i : Reg3) : Fpu :=
  (f.writeTagged 0 (f.filled i).1 (f.filled i).2).writeTagged i (f.filled 0).1 (f.filled 0).2

/-- FXCH on the FPU (R509). -/
def Fpu.exchange (f : Fpu) (i : Reg3) : Fpu :=
  if f.emptyAt 0 || f.emptyAt i then
    let g := f.stackFault false
    if f.unmasked xI then g else g.swap i
  else (f.setC1 false).swap i

/-- FXCH (R509). -/
def execFxch (i : Reg3) (s : State) : Host.Outcome State Fault Refusal :=
  runSeq (fpuReg 1 (regByte 1 i) do updFpu (·.exchange i); openCodes codes023) s

/-! ### Transcendental functions (R455, R461, R471, R488, R491, R496, R497, R511, R512) -/

/-- The uninterpreted result of a transcendental function; the exceptions it may report beside those of its operands
are `may` (R455, decision D24). -/
def approx (t : Config.Transcendental) (may : BitVec 6) (f : Fpu) : BitVec 80 × BitVec 6 × Bool :=
  let x := Config.transcendentalFlags t (f.st 0) (f.st 1) f.rc
  (Config.transcendental t (f.st 0) (f.st 1) f.rc, x.extractLsb' 0 6 &&& may, x.getLsbD 6)

/-- The same for a function of ST(0) alone. -/
def approx1 (t : Config.Transcendental) (f : Fpu) : BitVec 80 × BitVec 6 × Bool :=
  let x := Config.transcendentalFlags t (f.st 0) 0 f.rc
  (Config.transcendental t (f.st 0) 0 f.rc, x.extractLsb' 0 6 &&& (xU ||| xP), x.getLsbD 6)

/-- Delivers packed bits with their exceptions, as `Fpu.deliver` does a value (R453, R454). -/
def Fpu.deliverBits (f : Fpu) (i : Reg3) (pops : Nat) (o : BitVec 80 × BitVec 6 × Bool) : Fpu :=
  if f.unmasked (o.2.1 &&& 7) then (f.setC1 false).report (o.2.1 &&& 7)
  else (((f.setC1 (o.2.2 && o.2.1.getLsbD 5)).report o.2.1).write i o.1).popN pops

/-- Packs an outcome. -/
def FpOut.packed (o : FpOut) : BitVec 80 × BitVec 6 × Bool := (pack80 o.val, o.flags, o.up)

/-- Adds the exception of a denormal operand. -/
def withDen (d : Bool) (o : BitVec 80 × BitVec 6 × Bool) : BitVec 80 × BitVec 6 × Bool :=
  (o.1, o.2.1 ||| whenFlag d xD, o.2.2)

/-- Whether `|v| <= 1`. -/
def atMostOne : FVal → Bool
  | .zero _ => true
  | .fin _ m e _ => compareVal (.fin false m e false) (intVal 1) != .gt
  | _ => false

/-- F2XM1: exact for 0 and 1, uninterpreted up to magnitude 1, open beyond (R461, U19). -/
def f2xm1Result (any : BitVec 80) (f : Fpu) : BitVec 80 × BitVec 6 × Bool :=
  let v := f.val 0
  if v = .unsupported then FpOut.invalid.packed
  else if v.isNan then (pack80 v.quiet, whenFlag v.signals xI, false)
  else match v with
    | .zero s => (pack80 (.zero s), 0, false)
    | x =>
      if compareVal x (intVal 1) = .eq then (pack80 (intVal 1), 0, false)
      else
        let t := approx1 .f2xm1 f
        withDen x.isDen (if atMostOne x then t.1 else any, t.2)

/-- Eighty open bits. -/
def drawBits80 : M (BitVec 80) := do
  let hi ← draw
  let lo ← draw
  pure (hi.extractLsb' 0 16 ++ lo)

/-- F2XM1 (R461). -/
def execF2xm1 (s : State) : Host.Outcome State Fault Refusal :=
  runSeq (fpuReg 1 0xF0 do
    let any ← drawBits80
    updFpu fun f => if f.emptyAt 0 then f.underflow 0 0 else f.deliverBits 0 0 (f2xm1Result any f)
    openCodes codes023) s

/-- Whether a finite value is in the range of the trigonometric functions: magnitude below 2^63 (R471). -/
def trigRange : FVal → Bool
  | .zero _ => true
  | .fin _ m e _ => compareVal (.fin false m e false) (.fin false 1 63 false) == .lt
  | _ => false

/-- The result of a trigonometric function of ST(0), given its value at zero (R455, R471). -/
def trigResult (t : Config.Transcendental) (atZero : Bool → FVal) (f : Fpu) : BitVec 80 × BitVec 6 × Bool :=
  match f.val 0 with
  | .zero s => (pack80 (atZero s), 0, false)
  | .nan s g => (pack80 (FVal.nan s g).quiet, whenFlag (FVal.nan s g).signals xI, false)
  | .fin _ _ _ d => withDen d (approx1 t f)
  | _ => FpOut.invalid.packed

/-- Whether ST(0) is finite and outside the range of the trigonometric functions; an infinite operand is invalid instead
and clears C2 (DEDUCED, log 87). -/
def Fpu.outOfTrig (f : Fpu) : Bool :=
  !f.emptyAt 0 && (match f.val 0 with | .fin s m e d => !trigRange (.fin s m e d) | _ => false)

/-- The codes after a trigonometric instruction: C2 says whether the operand was out of range; C0 and C3 are open, and
for an operand out of range the codes `mask` too (R471, R491, R496, R497). -/
def trigCodes (mask : BitVec 16) (out : Bool) : M Unit := do
  openCodes (if out then codes023 ||| mask else codes023)
  updFpu (·.putFsw 0x400 (if out then 0x400 else 0))

/-- FCOS and FSIN; `range` is what an operand out of range does beside the codes (R471, R496). -/
def trigForm (b : Byte) (mask : BitVec 16) (range : Fpu → Fpu) (t : Config.Transcendental) (atZero : Bool → FVal) :
    M Unit :=
  fpuReg 1 b do
    let f ← readS (·.fpu)
    updFpu fun f =>
      if f.emptyAt 0 then f.underflow 0 0
      else if f.outOfTrig then range f
      else f.deliverBits 0 0 (trigResult t atZero f)
    trigCodes mask f.outOfTrig

/-- FCOS: with C2 = 1 the value of C1 is open (R471). -/
def execFcos (s : State) : Host.Outcome State Fault Refusal :=
  runSeq (trigForm 0xFF 0x200 id .cos fun _ => intVal 1) s
/-- FSIN: with C2 = 1 nothing is rounded and C1 is cleared (R454, R496). -/
def execFsin (s : State) : Host.Outcome State Fault Refusal :=
  runSeq (trigForm 0xFE 0 (·.setC1 false) .sin .zero) s

/-- FPTAN and FSINCOS on the FPU: the first result replaces ST(0), the second is pushed (R491, R497); a stack fault writes
the indefinite to both (PRESUMED, log 56). An empty ST(0) below a full ST(7) is an underflow (DESIGN CHOICE, log 106). -/
def Fpu.trigPush (f : Fpu) (first : BitVec 80 × BitVec 6 × Bool) (second : BitVec 80) : Fpu :=
  if f.emptyAt 0 || !f.emptyAt 7 then
    let g := f.stackFault (!f.emptyAt 0)
    if f.unmasked xI then g else (g.write 0 indef80).push indef80
  else
    let g := f.deliverBits 0 0 first
    if f.unmasked (first.2.1 &&& 7) then g else g.push second

/-- FPTAN and FSINCOS; `range` is what an operand out of range does beside the codes (R491, R497). With #IA masked, and of
a NaN, FSINCOS delivers the indefinite or the quiet NaN twice, and FPTAN pushes 1.0 (DESIGN CHOICE, log 125). -/
def trigPairForm (b : Byte) (range : Fpu → Fpu) (first : Fpu → BitVec 80 × BitVec 6 × Bool)
    (second : Fpu → BitVec 80) : M Unit :=
  fpuReg 1 b do
    let f ← readS (·.fpu)
    updFpu fun f => if f.outOfTrig then range f else f.trigPush (first f) (second f)
    trigCodes 0 f.outOfTrig

/-- FPTAN: with C2 = 1 nothing else changes but the open codes (R491). -/
def execFptan (s : State) : Host.Outcome State Fault Refusal :=
  runSeq (trigPairForm 0xF2 id (trigResult .ptan .zero) fun _ => pack80 (intVal 1)) s

/-- FSINCOS: with C2 = 1 nothing is rounded and C1 is cleared (R454, R497). -/
def execFsincos (s : State) : Host.Outcome State Fault Refusal :=
  runSeq (trigPairForm 0xFB (·.setC1 false) (trigResult .sincosSin .zero) fun f => (trigResult .sincosCos (fun _ => intVal 1) f).1) s

/-- A function of ST(1) and ST(0) that replaces ST(1) and pops: unsupported formats and NaNs first, then the special
cases of its rule (R453, R455). A quiet NaN in ST(1) is delivered without IE also where ST(0) is a negative finite value,
which the #IA line of FYL2X names (R511; DESIGN CHOICE, log 120). -/
def trans2Form (b : Byte) (op : BitVec 80 → Fpu → BitVec 80 × BitVec 6 × Bool) : M Unit :=
  fpuReg 1 b do
    let any ← drawBits80
    updFpu fun f =>
      if f.emptyAt 0 || f.emptyAt 1 then f.underflow 1 1
      else
        let a := f.val 0
        let c := f.val 1
        f.deliverBits 1 1 (
          if a = .unsupported ∨ c = .unsupported ∨ (a.isNan || c.isNan) = true then
            (binary f.env (fun _ _ => .invalid) c a).packed
          else op any f)
    openCodes codes023

/-- The value with sign `neg` whose exponent and significand are those of `v`, brought between the images `lo` and `hi`;
the integer bit of `v` is made to agree with its exponent, so that the value is finite. -/
def clampBits (neg : Bool) (lo hi : BitVec 79) (v : BitVec 80) : BitVec 80 :=
  let exp := v.extractLsb' 64 15
  let m : BitVec 79 := exp ++ BitVec.ofBool (exp != 0) ++ v.extractLsb' 0 63
  BitVec.ofBool neg ++ (if m.toNat < lo.toNat then lo else if hi.toNat < m.toNat then hi else m)

/-- The magnitudes an arctangent can have: from 0 to pi / 2 where ST(0) has no minus sign, else from pi / 2 to pi, each
bound rounded outward to the format (R488). -/
def patanBounds (neg : Bool) : BitVec 79 × BitVec 79 :=
  if neg then (0x3FFFC90FDAA22168C234, 0x4000C90FDAA22168C235) else (0, 0x3FFFC90FDAA22168C235)

/-- FPATAN: the arctangent of a zero over a positive value is that zero; else the result is in the quadrant that the
signs of the operands choose (R488). -/
def patanResult (f : Fpu) : BitVec 80 × BitVec 6 × Bool :=
  match f.val 1, f.val 0 with
  | .zero s, .fin false _ _ d => (pack80 (.zero s), whenFlag d xD, false)
  | .zero s, .inf false => (pack80 (.zero s), 0, false)
  | y, x =>
    let b := patanBounds x.sign
    let t := approx .patan (xU ||| xP) f
    withDen (x.isDen || y.isDen) (clampBits y.sign b.1 b.2 t.1, t.2)

/-- FPATAN (R488). -/
def execFpatan (s : State) : Host.Outcome State Fault Refusal := runSeq (trans2Form 0xF3 fun _ f => patanResult f) s

/-- The base-2 logarithm of a power of two. -/
def exactLog2 (m : Nat) (e : Int) : Option Int := if m = 2 ^ m.log2 then some (e + m.log2) else none

/-- An exact logarithm as an operand that counts as a denormal if `d` holds: a denormal power of two has a logarithm other
than 0. -/
def logVal (k : Int) (d : Bool) : FVal :=
  match intVal k with
  | .fin s m e _ => .fin s m e d
  | v => v

/-- FYL2X: negative finite ST(0) is invalid, zero with finite nonzero ST(1) divides by zero, and a power of two gives
the product with its exact logarithm (R511; DESIGN CHOICE, log 59). A zero ST(0) with a zero or infinite ST(1) sets no ZE
and has an opaque result (DESIGN CHOICE, log 107). The product of the logarithm 0 of an ST(0) of 1.0 with an infinite
ST(1) is invalid (DESIGN CHOICE, log 108). -/
def yl2xResult (f : Fpu) : BitVec 80 × BitVec 6 × Bool :=
  let n := f.envAt 64
  let y := f.val 1
  let other (d : Bool) := withDen (d || y.isDen) (approx .yl2x (xO ||| xU ||| xP) f)
  match f.val 0 with
  | .fin true _ _ _ => FpOut.invalid.packed
  | .fin false m e d =>
    match exactLog2 m e with
    | some k => (binary n (mulCore n) y (logVal k d)).packed
    | none => other d
  | .zero _ =>
    match y with
    | .fin s _ _ _ => (pack80 (.inf (!s)), xZ, false)
    | _ => other false
  | _ => other false

/-- FYL2X (R511). -/
def execFyl2x (s : State) : Host.Outcome State Fault Refusal := runSeq (trans2Form 0xF1 fun _ f => yl2xResult f) s

/-- Whether a magnitude `m * 2 ^ e` is at most 1 - sqrt 2 / 2: with `d = 2 ^ (-e)`, that `2 (d - m)^2 >= d^2`
(R512). -/
def yl2xp1Range (m : Nat) (e : Int) : Bool :=
  let d := 2 ^ (-e).toNat
  decide (e < 0) && decide (m ≤ d) && decide (d * d ≤ 2 * ((d - m) * (d - m)))

/-- FYL2XP1: a zero ST(0) gives a zero whose sign is the product of the signs; out of its range the result is open
(R512, U19). -/
def yl2xp1Result (any : BitVec 80) (f : Fpu) : BitVec 80 × BitVec 6 × Bool :=
  let y := f.val 1
  let t := approx .yl2xp1 (xO ||| xU ||| xP) f
  match f.val 0 with
  | .zero s => (pack80 (.zero (s != y.sign)), whenFlag y.isDen xD, false)
  | .fin _ m e d => withDen (d || y.isDen) (if yl2xp1Range m e then t.1 else any, t.2)
  | _ => withDen y.isDen (any, t.2)

/-- FYL2XP1 (R512). -/
def execFyl2xp1 (s : State) : Host.Outcome State Fault Refusal := runSeq (trans2Form 0xF9 yl2xp1Result) s

/-! ### Control (R452, R467, R483, R484, R487, R493, R494, R500 to R502, R507) -/

/-- FNCLEX: the exception flags, SF, ES and B are cleared (R467). -/
def fnclexForm : M Unit := do
  fpuEnabled
  updFpu (·.putFsw 0x80FF 0)
  openCodes codesAll

/-- FNCLEX (R467). -/
def execFnclex (s : State) : Host.Outcome State Fault Refusal := runSeq fnclexForm s

/-- FNINIT (R487). -/
def fninitForm : M Unit := do
  fpuEnabled
  updFpu (·.init)

/-- FNINIT (R487). -/
def execFninit (s : State) : Host.Outcome State Fault Refusal := runSeq fninitForm s

/-- FLDCW: ES follows the new masks (R483). -/
def fldcwForm (m : FMem) : M Unit := do
  fpuReady
  let v ← loadBytes m.mem 2 (.natural 2)
  updFpu fun f => { f with fcw := BitVec.ofNat 16 v }.summarize
  openCodes codesAll

/-- FLDCW (R483). -/
def execFldcw (m : FMem) (s : State) : Host.Outcome State Fault Refusal := runSeq (fldcwForm m) s

/-- FNSTCW (R500). -/
def fnstcwForm (m : FMem) : M Unit := do
  fpuEnabled
  let f ← readS (·.fpu)
  storeBytes m.mem 2 (.natural 2) f.fcw.toNat
  openCodes codesAll

/-- FNSTCW (R500). -/
def execFnstcw (m : FMem) (s : State) : Host.Outcome State Fault Refusal := runSeq (fnstcwForm m) s

/-- FNSTSW: FSW itself does not change (R502). -/
def fnstswForm (a : FSw) : M Unit := do
  fpuEnabled
  let f ← readS (·.fpu)
  match a with
  | .mem m => storeBytes m.mem 2 (.natural 2) f.fsw.toNat
  | .ax => upd fun s => s.writeReg .b16 rAX f.fsw

/-- FNSTSW (R502). -/
def execFnstsw (a : FSw) (s : State) : Host.Outcome State Fault Refusal := runSeq (fnstswForm a) s

/-- The length of an environment image (R456). -/
def envSize (osz : Width) : Nat := if osz = .b16 then 14 else 28

/-- The alignment of an environment or state image: its items have 2 or 4 bytes (the family's). -/
def envAlign (osz : Width) : Align := .natural (if osz = .b16 then 2 else 4)

/-- A 20-bit linear pointer of the real-mode images. -/
def realPointer (sel : BitVec 16) (off : Word) : BitVec 32 := (sel.setWidth 32 <<< 4) + off.extractLsb' 0 32

/-- The environment image (R456): the protected-mode formats, or in real-address and virtual-8086 mode the formats with
linear pointers and the opcode (the family's). `free` holds the bytes that are reserved. -/
def envImage (f : Fpu) (osz : Width) (paragraphs : Bool) (free : Nat) : Nat :=
  let ip := realPointer f.fcs f.fip
  let dp := realPointer f.fds f.fdp
  let fop := f.fop.toNat
  if osz = .b16 then
    packFields [(2, f.fcw.toNat), (2, f.fsw.toNat), (2, f.ftw.toNat),
      (2, if paragraphs then ip.toNat else f.fip.toNat),
      (2, if paragraphs then fop + (ip.extractLsb' 16 4).toNat * 4096 else f.fcs.toNat),
      (2, if paragraphs then dp.toNat else f.fdp.toNat),
      (2, if paragraphs then (dp.extractLsb' 16 4).toNat * 4096 else f.fds.toNat)]
  else
    packFields [(2, f.fcw.toNat), (2, fieldAt free 0 2), (2, f.fsw.toNat), (2, fieldAt free 2 2), (2, f.ftw.toNat),
      (2, fieldAt free 4 2),
      (4, if paragraphs then (ip.extractLsb' 0 16).toNat + fieldAt free 6 2 * 65536 else f.fip.toNat),
      (4, if paragraphs then fop + (ip.extractLsb' 16 16).toNat * 4096 else f.fcs.toNat + fop * 65536),
      (4, if paragraphs then (dp.extractLsb' 0 16).toNat + fieldAt free 8 2 * 65536 else f.fdp.toNat),
      (4, if paragraphs then (dp.extractLsb' 16 16).toNat * 4096 else f.fds.toNat + fieldAt free 8 2 * 65536)]

/-- The FPU with an environment image loaded, ES computed anew (R456, R484, R493). What an image has no place for the spec
does not say: FOP is kept with the protected-mode image of 14 bytes, the upper halves of FIP and FDP become 0, and FCS
and FDS become 0 with the real-mode images (DESIGN CHOICE, log 89). -/
def Fpu.loadEnv (f : Fpu) (osz : Width) (paragraphs : Bool) (img : Nat) : Fpu :=
  let w (k : Nat) : BitVec 16 := BitVec.ofNat 16 (fieldAt img k 2)
  let d (k : Nat) : BitVec 32 := BitVec.ofNat 32 (fieldAt img k 4)
  let g : Fpu :=
    if osz = .b16 then
      let base : Fpu := { f with fcw := w 0, fsw := w 2, ftw := w 4 }
      if paragraphs then
        { base with fip := ((w 8).extractLsb' 12 4 ++ w 6).setWidth 64, fcs := 0, fop := (w 8).extractLsb' 0 11,
                    fdp := ((w 12).extractLsb' 12 4 ++ w 10).setWidth 64, fds := 0 }
      else { base with fip := (w 6).setWidth 64, fcs := w 8, fdp := (w 10).setWidth 64, fds := w 12 }
    else
      let base : Fpu := { f with fcw := w 0, fsw := w 4, ftw := w 8, fop := (d 16).extractLsb' (if paragraphs then 0 else 16) 11 }
      if paragraphs then
        { base with fip := ((d 16).extractLsb' 12 16 ++ w 12).setWidth 64, fcs := 0,
                    fdp := ((d 24).extractLsb' 12 16 ++ w 20).setWidth 64, fds := 0 }
      else { base with fip := (d 12).setWidth 64, fcs := w 16, fdp := (d 20).setWidth 64, fds := w 24 }
  g.summarize

/-- The data registers in stack order from ST(i) on, 10 bytes each (R456). -/
def stackImage (f : Fpu) : Nat → Nat
  | 0 => 0
  | n + 1 => (f.st (BitVec.ofNat 3 (7 - n))).toNat + 256 ^ 10 * stackImage f n

/-- The FPU with ST(i) and the following registers loaded from an image, `stride` bytes apart; the tags stay. -/
def Fpu.loadStack (f : Fpu) (stride img : Nat) : Nat → Fpu
  | 0 => f
  | n + 1 =>
    let i : Reg3 := BitVec.ofNat 3 (7 - n)
    (f.setReg (f.top + i) (BitVec.ofNat 80 (fieldAt img (stride * (7 - n)) 10))).loadStack stride img n

/-- FLDENV (R484). -/
def fldenvForm (osz : Width) (m : FMem) : M Unit := do
  fpuReady
  let v ← loadBytes m.mem (envSize osz) (envAlign osz)
  upd fun s => { s with fpu := s.fpu.loadEnv osz s.paragraphs v }

/-- FLDENV (R484). -/
def execFldenv (osz : Width) (m : FMem) (s : State) : Host.Outcome State Fault Refusal := runSeq (fldenvForm osz m) s

/-- FNSTENV: the image is stored and every exception masked (R501). -/
def fnstenvForm (osz : Width) (m : FMem) : M Unit := do
  fpuEnabled
  let free ← openBytes 10
  let s ← readS id
  storeBytes m.mem (envSize osz) (envAlign osz) (envImage s.fpu osz s.paragraphs free)
  updFpu fun f => { f with fcw := f.fcw ||| 0x3F }.summarize
  openCodes codesAll

/-- FNSTENV (R501). -/
def execFnstenv (osz : Width) (m : FMem) (s : State) : Host.Outcome State Fault Refusal :=
  runSeq (fnstenvForm osz m) s

/-- FRSTOR: the environment, then ST(0) to ST(7) by the TOP just loaded (R493). -/
def frstorForm (osz : Width) (m : FMem) : M Unit := do
  fpuReady
  let v ← loadBytes m.mem (envSize osz + 80) (envAlign osz)
  upd fun s =>
    { s with fpu := (s.fpu.loadEnv osz s.paragraphs v).loadStack 10 (v / 256 ^ envSize osz) 8 }

/-- FRSTOR (R493). -/
def execFrstor (osz : Width) (m : FMem) (s : State) : Host.Outcome State Fault Refusal := runSeq (frstorForm osz m) s

/-- FNSAVE: the environment and the registers are stored, then the FPU is initialized (R494). -/
def fnsaveForm (osz : Width) (m : FMem) : M Unit := do
  fpuEnabled
  let free ← openBytes 10
  let s ← readS id
  storeBytes m.mem (envSize osz + 80) (envAlign osz)
    (envImage s.fpu osz s.paragraphs free + 256 ^ envSize osz * stackImage s.fpu 8)
  updFpu (·.init)

/-- FNSAVE (R494). -/
def execFnsave (osz : Width) (m : FMem) (s : State) : Host.Outcome State Fault Refusal := runSeq (fnsaveForm osz m) s

/-- WAIT: #NM only if MP and TS are both set; then a pending exception is delivered (R507). -/
def waitForm : M Unit := do
  let s ← readS id
  raiseIf (s.cr0.getLsbD 1 && s.cr0.getLsbD 3) nmFault
  fpuPending

/-- WAIT (R507). -/
def execWait (s : State) : Host.Outcome State Fault Refusal := runSeq waitForm s

/-- EMMS: with CR0.EM it raises #UD (R460). -/
def emmsForm : M Unit := do
  let s ← readS id
  raiseIf (s.cr0.getLsbD 2) udFault
  raiseIf (s.cr0.getLsbD 3) nmFault
  fpuPending
  updFpu fun f => { f with ftw := 0xFFFF }

/-- EMMS (R460). -/
def execEmms (s : State) : Host.Outcome State Fault Refusal := runSeq emmsForm s

/-! ### FXSAVE and FXRSTOR (R440 to R442) -/

/-- #UD with CR0.EM, then #NM with CR0.TS (R440). -/
def fxReady : M Unit := do
  let s ← readS id
  raiseIf (s.cr0.getLsbD 2) udFault
  raiseIf (s.cr0.getLsbD 3) nmFault

/-- The abridged tag word: bit i is set if physical register i is not empty, for the registers from `8 - n` on
(R440). -/
def abridgedTags (f : Fpu) : Nat → Nat
  | 0 => 0
  | n + 1 => (if f.tag (BitVec.ofNat 3 (7 - n)) = 3 then 0 else 1) + 2 * abridgedTags f n

/-- The rows of ST(0) to ST(7): 10 bytes each, and 6 reserved bytes (R440). -/
def stackRows (f : Fpu) : Nat → M (List (Nat × Nat))
  | 0 => pure []
  | n + 1 => do
    let r ← openBytes 6
    let t ← stackRows f n
    pure ((10, (f.st (BitVec.ofNat 3 (7 - n))).toNat) :: (6, r) :: t)

/-- The rows of the XMM registers from `16 - n` on (R440). -/
def xmmRows (s : State) : Nat → List (Nat × Nat)
  | 0 => []
  | n + 1 => (16, (s.xmm[(BitVec.ofNat 4 (15 - n)).toNat]'(BitVec.isLt _)).toNat) :: xmmRows s n

/-- An instruction or operand pointer with its selector, 8 bytes: the two layouts of R440. In 16-bit code the high half
of the 32-bit instruction pointer is reserved too. -/
def pointerField (wide narrow : Bool) (off : Word) (sel : BitVec 16) (free : Nat) : List (Nat × Nat) :=
  if wide then [(8, off.toNat)]
  else [(2, off.toNat), (2, if narrow then fieldAt free 2 2 else off.toNat / 65536), (2, sel.toNat), (2, fieldAt free 0 2)]

/-- Whether FXSAVE and FXRSTOR handle MXCSR and the XMM registers: with CR4.OSFXSR, and without it as the parameter
FXSAVE_OSFXSR0 says (R440, R441, decision D22). -/
def State.fxSimd (s : State) : Bool := s.cr4.getLsbD 9 || Config.fxsaveOsfxsr0

/-- The XMM part of the image: the registers that the mode shows, in the place of the others the open bytes `hidden`;
open bytes `skipped` throughout where the registers are not saved (R440). -/
def xmmFields (s : State) (hidden skipped : Nat) : List (Nat × Nat) :=
  if !s.fxSimd then [(256, skipped / 256 ^ 4)]
  else if s.is64 then xmmRows s Config.numXmm
  else (xmmRows s Config.numXmm).take 8 ++ [(128, hidden)]

/-- FXSAVE: the image of 512 bytes in the layout the mode and REX.W select; its reserved bytes are open values
(R440, U12). -/
def fxsaveForm (rexw : Bool) (m : Mem) : M Unit := do
  fxReady
  let s ← readS id
  let f := s.fpu
  let wide := rexw && s.is64
  let free ← openBytes 10
  let rows ← stackRows f 8
  let hidden ← openBytes 128
  let tail ← openBytes 96
  let skipped ← if s.fxSimd then pure 0 else openBytes 260
  storeLow m 512 .para (packFields (
    [(2, f.fcw.toNat), (2, f.fsw.toNat), (1, abridgedTags f 8), (1, fieldAt free 0 1),
     (2, f.fop.toNat + fieldAt free 1 1 / 8 * 2048)] ++
    pointerField wide (s.codeSize == .c16) f.fip f.fcs (fieldAt free 2 4) ++
    pointerField wide false f.fdp f.fds (fieldAt free 6 4) ++
    [(4, if s.fxSimd then s.mxcsr.toNat else fieldAt skipped 0 4), (4, Config.mxcsrMask.toNat)] ++ rows ++
    xmmFields s hidden skipped ++ [(96, tail)]))

/-- FXSAVE (R440). -/
def execFxsave (rexw : Bool) (m : Mem) (s : State) : Host.Outcome State Fault Refusal := runSeq (fxsaveForm rexw m) s

/-- The FPU with the tags of an image: empty where the abridged bit is 0, else by the class of the register's value,
for the physical registers from `8 - n` on (R441, R442). -/
def Fpu.loadTags (f : Fpu) (bits : Nat) : Nat → Fpu
  | 0 => f
  | n + 1 =>
    let k : BitVec 3 := BitVec.ofNat 3 (7 - n)
    (f.setTag k (if bits.testBit (7 - n) then tagOf (f.reg k) else 3)).loadTags bits n

/-- The FPU with an FXSAVE image loaded (R441). The pointers take all 32 bits of their fields in 16-bit code too (DESIGN
CHOICE, log 92). -/
def Fpu.loadFx (f : Fpu) (wide : Bool) (img : Nat) : Fpu :=
  let w (k : Nat) : BitVec 16 := BitVec.ofNat 16 (fieldAt img k 2)
  let q (k n : Nat) : Word := BitVec.ofNat 64 (fieldAt img k n)
  let g : Fpu := { f with fcw := w 0, fsw := w 2, fop := (w 6).extractLsb' 0 11 }
  let h : Fpu := if wide then { g with fip := q 8 8, fdp := q 16 8 }
    else { g with fip := q 8 4, fcs := w 12, fdp := q 16 4, fds := w 20 }
  ((h.loadStack 16 (img / 256 ^ 32) 8).loadTags (fieldAt img 4 1) 8).summarize

/-- The XMM registers 0 to `n - 1` loaded from an image (R441). -/
def loadXmm (img : Nat) (x : Vector (BitVec 128) Config.numXmm) : Nat → Vector (BitVec 128) Config.numXmm
  | 0 => x
  | n + 1 => loadXmm img (x.set (BitVec.ofNat 4 n).toNat (BitVec.ofNat 128 (fieldAt img (160 + 16 * n) 16)) (BitVec.isLt _)) n

/-- The state with MXCSR and the XMM registers that the mode shows loaded from an image, where FXRSTOR handles them
(R441). -/
def State.loadSimd (s : State) (img : Nat) (mx : BitVec 32) : State :=
  if s.fxSimd then { s with mxcsr := mx, xmm := loadXmm img s.xmm (if s.is64 then Config.numXmm else 8) } else s

/-- FXRSTOR: a reserved bit of MXCSR raises #GP(0) (R441). -/
def fxrstorForm (rexw : Bool) (m : Mem) : M Unit := do
  fxReady
  let v ← loadLow m 512 .para
  let mx := BitVec.ofNat 32 (fieldAt v 24 4)
  let simd ← readS State.fxSimd
  raiseIf (simd && mx &&& ~~~Config.mxcsrMask != 0) gp0
  upd fun s => ({ s with fpu := s.fpu.loadFx (rexw && s.is64) v } : State).loadSimd v mx

/-- FXRSTOR (R441). -/
def execFxrstor (rexw : Bool) (m : Mem) (s : State) : Host.Outcome State Fault Refusal :=
  runSeq (fxrstorForm rexw m) s

end Sys2Proof.Machine
end

