-- ==== Sys2Proof/Machine/Sse.lean ====
section
/-! DEFINITION. The SSE, SSE2 and SSE3 instructions: arithmetic, logic, comparison, conversion, LDDQU and LDMXCSR
(46_sse_a.md, 47_sse_b.md). -/

namespace Sys2Proof.Machine

/-! ### Registers, lanes and checks (R570 to R574) -/

/-- An XMM register (R73). -/
def State.xmmReg (s : State) (r : Reg) : BitVec 128 := s.xmm[r.toNat]'(r.isLt)

/-- The state with an XMM register replaced. -/
def State.setXmm (s : State) (r : Reg) (v : BitVec 128) : State := { s with xmm := s.xmm.set r.toNat v r.isLt }

/-- Single-precision lane `k` (R73). -/
def laneS (x : BitVec 128) (k : Nat) : BitVec 32 := x.extractLsb' (32 * k) 32

/-- Double-precision lane `k` (R73). -/
def laneD (x : BitVec 128) (k : Nat) : BitVec 64 := x.extractLsb' (64 * k) 64

/-- A result in the low 32 bits of a register, the rest unchanged (R574). -/
def putLowS (old : BitVec 128) (v : BitVec 32) : BitVec 128 := old.extractLsb' 32 96 ++ v

/-- A result in the low 64 bits of a register, the rest unchanged (R574). -/
def putLowD (old : BitVec 128) (v : BitVec 64) : BitVec 128 := old.extractLsb' 64 64 ++ v

/-- The checks of every SSE instruction: #UD with CR0.EM or without CR4.OSFXSR, #NM with CR0.TS (R572). -/
def sseReady : M Unit := do
  let s ← readS id
  raiseIf (s.cr0.getLsbD 2 || !s.cr4.getLsbD 9) udFault
  raiseIf (s.cr0.getLsbD 3) nmFault

/-- The checks of an instruction with an MMX operand: also a pending x87 exception (R572 step 3). -/
def mmxReady : M Unit := do
  sseReady
  fpuPending

/-- Reads an xmm/m operand of `n` bytes: a register whole, memory extended with zeros (R571). -/
def readXm (n : Nat) (al : Align) : XM → M (BitVec 128)
  | .reg r => readS fun s => s.xmmReg r
  | .mem m => do
    let v ← loadLow m n al
    pure (BitVec.ofNat 128 v)

/-- Reads a 16-byte operand, which must be aligned (R570). -/
def readX128 (src : XM) : M (BitVec 128) := readXm 16 .para src
/-- Reads an 8-byte operand (R570). -/
def readX64 (src : XM) : M (BitVec 128) := readXm 8 (.natural 8) src
/-- Reads a 4-byte operand (R570). -/
def readX32 (src : XM) : M (BitVec 128) := readXm 4 (.natural 4) src

/-- The exception masks, MXCSR bits 12:7 (R74). -/
def State.mxMasks (s : State) : BitVec 6 := s.mxcsr.extractLsb' 7 6

/-- The rounding MXCSR selects, for a format of `p` significand bits (R573). -/
def State.mxEnv (s : State) (p bias : Nat) : Env :=
  { rc := s.mxcsr.extractLsb' 13 2, p := p, bias := bias, masks := s.mxMasks, fz := s.mxcsr.getLsbD 15,
    larger := false }

/-- Single-precision rounding. -/
def State.env32 (s : State) : Env := s.mxEnv 24 127
/-- Double-precision rounding. -/
def State.env64 (s : State) : Env := s.mxEnv 53 1023

/-- With MXCSR.DAZ a denormal source counts as zero of its sign (R573). -/
def State.daz (s : State) (v : FVal) : FVal := if s.mxcsr.getLsbD 6 && v.isDen then .zero v.sign else v

/-- A single-precision lane as a value. -/
def State.valS (s : State) (x : BitVec 128) (k : Nat) : FVal := s.daz (unpack32 (laneS x k))
/-- A double-precision lane as a value. -/
def State.valD (s : State) (x : BitVec 128) (k : Nat) : FVal := s.daz (unpack64 (laneD x k))

/-- The exceptions an instruction reports: with an unmasked pre-computation exception only those (R573). -/
def State.mxReported (s : State) (x : BitVec 6) : BitVec 6 := if x &&& 7 &&& ~~~s.mxMasks != 0 then x &&& 7 else x

/-- The exceptions among those reported that are not masked. -/
def State.mxUnmasked (s : State) (x : BitVec 6) : BitVec 6 := s.mxReported x &&& ~~~s.mxMasks

/-- The state with exception flags set in MXCSR. -/
def State.setMxFlags (s : State) (x : BitVec 6) : State := { s with mxcsr := s.mxcsr ||| x.setWidth 32 }

/-- If an exception of the lanes is unmasked, the flags of the unmasked ones are set in MXCSR, and #XM is raised, or #UD
without CR4.OSXMMEXCPT; else the flags of all are set (R572 step 6; DEDUCED, log 52). The exception is delivered from the
state after the operand was read, whose page walk keeps the accessed flags it has set (DESIGN CHOICE, log 110). -/
def signalSimd (x : BitVec 6) : M Unit := do
  let s ← readS id
  if s.mxUnmasked x != 0 then
    upd (·.setMxFlags (s.mxUnmasked x))
    raiseHere (if s.cr4.getLsbD 10 then xmFault else udFault)
  else upd (·.setMxFlags (s.mxReported x))

/-- The bits of a lane's result with its exceptions. -/
structure Lane (n : Nat) where
  bits : BitVec n
  flags : BitVec 6
  deriving DecidableEq, Repr

/-- A single-precision result. -/
def FpOut.lane32 (o : FpOut) : Lane 32 := { bits := pack32 o.val, flags := o.flags }
/-- A double-precision result. -/
def FpOut.lane64 (o : FpOut) : Lane 64 := { bits := pack64 o.val, flags := o.flags }

/-- Two double-precision lanes, lane 0 first. -/
def pairD (a b : Lane 64) : Lane 128 := { bits := b.bits ++ a.bits, flags := a.flags ||| b.flags }
/-- Four single-precision lanes, lane 0 first. -/
def quadS (a b c d : Lane 32) : Lane 128 :=
  { bits := d.bits ++ c.bits ++ b.bits ++ a.bits, flags := a.flags ||| b.flags ||| c.flags ||| d.flags }

/-- Reports a result's exceptions and writes it to an XMM register (R572). -/
def commitXmm (dst : Reg) (r : Lane 128) : M Unit := do
  signalSimd r.flags
  upd fun s => s.setXmm dst r.bits

/-- A packed instruction on destination and source (R574). -/
def packedForm (dst : Reg) (src : XM) (g : State → BitVec 128 → BitVec 128 → Lane 128) : M Unit := do
  sseReady
  let b ← readX128 src
  let s ← readS id
  commitXmm dst (g s (s.xmmReg dst) b)

/-- A scalar double-precision instruction: bits 127:64 stay (R574). -/
def scalarD (dst : Reg) (src : XM) (g : State → BitVec 128 → BitVec 128 → Lane 64) : M Unit := do
  sseReady
  let b ← readX64 src
  let s ← readS id
  let r := g s (s.xmmReg dst) b
  commitXmm dst { bits := putLowD (s.xmmReg dst) r.bits, flags := r.flags }

/-- A scalar single-precision instruction: bits 127:32 stay (R574). -/
def scalarS (dst : Reg) (src : XM) (g : State → BitVec 128 → BitVec 128 → Lane 32) : M Unit := do
  sseReady
  let b ← readX32 src
  let s ← readS id
  let r := g s (s.xmmReg dst) b
  commitXmm dst { bits := putLowS (s.xmmReg dst) r.bits, flags := r.flags }

/-! ### Add, subtract, divide (R580 to R593) -/

/-- An operation with the denormal exception reported whenever an operand is a denormal, beside any other exception
(R573). -/
def laneOp (op : FOp) (n : Env) (a b : FVal) : FpOut := (op n a b).withDen (a.isDen || b.isDen)

/-- An operation on a single-precision lane of each operand. -/
def opS (s : State) (op : FOp) (a : BitVec 128) (i : Nat) (b : BitVec 128) (j : Nat) : Lane 32 :=
  (laneOp op s.env32 (s.valS a i) (s.valS b j)).lane32

/-- An operation on a double-precision lane of each operand. -/
def opD (s : State) (op : FOp) (a : BitVec 128) (i : Nat) (b : BitVec 128) (j : Nat) : Lane 64 :=
  (laneOp op s.env64 (s.valD a i) (s.valD b j)).lane64

/-- A packed double-precision operation, `op0` in lane 0 and `op1` in lane 1. -/
def packD (op0 op1 : FOp) (s : State) (a b : BitVec 128) : Lane 128 := pairD (opD s op0 a 0 b 0) (opD s op1 a 1 b 1)

/-- A packed single-precision operation, `op0` in the even lanes and `op1` in the odd ones. -/
def packS (op0 op1 : FOp) (s : State) (a b : BitVec 128) : Lane 128 :=
  quadS (opS s op0 a 0 b 0) (opS s op1 a 1 b 1) (opS s op0 a 2 b 2) (opS s op1 a 3 b 3)

/-- A horizontal double-precision operation (R586). -/
def horizD (op : FOp) (s : State) (a b : BitVec 128) : Lane 128 := pairD (opD s op a 0 a 1) (opD s op b 0 b 1)

/-- A horizontal single-precision operation (R587). -/
def horizS (op : FOp) (s : State) (a b : BitVec 128) : Lane 128 :=
  quadS (opS s op a 0 a 1) (opS s op a 2 a 3) (opS s op b 0 b 1) (opS s op b 2 b 3)

/-- ADDPD (R580). -/
def execAddpd (dst : Reg) (src : XM) (s : State) : Host.Outcome State Fault Refusal :=
  runSeq (packedForm dst src (packD fAdd fAdd)) s
/-- ADDPS (R581). -/
def execAddps (dst : Reg) (src : XM) (s : State) : Host.Outcome State Fault Refusal :=
  runSeq (packedForm dst src (packS fAdd fAdd)) s
/-- ADDSD (R582). -/
def execAddsd (dst : Reg) (src : XM) (s : State) : Host.Outcome State Fault Refusal :=
  runSeq (scalarD dst src fun t a b => opD t fAdd a 0 b 0) s
/-- ADDSS (R583). -/
def execAddss (dst : Reg) (src : XM) (s : State) : Host.Outcome State Fault Refusal :=
  runSeq (scalarS dst src fun t a b => opS t fAdd a 0 b 0) s
/-- ADDSUBPD (R584). -/
def execAddsubpd (dst : Reg) (src : XM) (s : State) : Host.Outcome State Fault Refusal :=
  runSeq (packedForm dst src (packD fSub fAdd)) s
/-- ADDSUBPS (R585). -/
def execAddsubps (dst : Reg) (src : XM) (s : State) : Host.Outcome State Fault Refusal :=
  runSeq (packedForm dst src (packS fSub fAdd)) s
/-- HADDPD (R586). -/
def execHaddpd (dst : Reg) (src : XM) (s : State) : Host.Outcome State Fault Refusal :=
  runSeq (packedForm dst src (horizD fAdd)) s
/-- HADDPS (R587). -/
def execHaddps (dst : Reg) (src : XM) (s : State) : Host.Outcome State Fault Refusal :=
  runSeq (packedForm dst src (horizS fAdd)) s
/-- HSUBPD (R588). -/
def execHsubpd (dst : Reg) (src : XM) (s : State) : Host.Outcome State Fault Refusal :=
  runSeq (packedForm dst src (horizD fSub)) s
/-- HSUBPS (R589). -/
def execHsubps (dst : Reg) (src : XM) (s : State) : Host.Outcome State Fault Refusal :=
  runSeq (packedForm dst src (horizS fSub)) s
/-- DIVPD (R590). -/
def execDivpd (dst : Reg) (src : XM) (s : State) : Host.Outcome State Fault Refusal :=
  runSeq (packedForm dst src (packD fDiv fDiv)) s
/-- DIVPS (R591). -/
def execDivps (dst : Reg) (src : XM) (s : State) : Host.Outcome State Fault Refusal :=
  runSeq (packedForm dst src (packS fDiv fDiv)) s
/-- DIVSD (R592). -/
def execDivsd (dst : Reg) (src : XM) (s : State) : Host.Outcome State Fault Refusal :=
  runSeq (scalarD dst src fun t a b => opD t fDiv a 0 b 0) s
/-- DIVSS (R593). -/
def execDivss (dst : Reg) (src : XM) (s : State) : Host.Outcome State Fault Refusal :=
  runSeq (scalarS dst src fun t a b => opS t fDiv a 0 b 0) s

/-! ### Bitwise logic (R595 to R598) -/

/-- A bitwise operation on all 128 bits: MXCSR is neither read nor written (R595). -/
def logicForm (g : BitVec 128 → BitVec 128 → BitVec 128) (dst : Reg) (src : XM) : M Unit := do
  sseReady
  let b ← readX128 src
  upd fun s => s.setXmm dst (g (s.xmmReg dst) b)

/-- ANDPD (R595). -/
def execAndpd (dst : Reg) (src : XM) (s : State) : Host.Outcome State Fault Refusal :=
  runSeq (logicForm (fun a b => a &&& b) dst src) s
/-- ANDPS (R596). -/
def execAndps (dst : Reg) (src : XM) (s : State) : Host.Outcome State Fault Refusal :=
  runSeq (logicForm (fun a b => a &&& b) dst src) s
/-- ANDNPD (R597). -/
def execAndnpd (dst : Reg) (src : XM) (s : State) : Host.Outcome State Fault Refusal :=
  runSeq (logicForm (fun a b => ~~~a &&& b) dst src) s
/-- ANDNPS (R598). -/
def execAndnps (dst : Reg) (src : XM) (s : State) : Host.Outcome State Fault Refusal :=
  runSeq (logicForm (fun a b => ~~~a &&& b) dst src) s

/-! ### Comparison (R600 to R606) -/

/-- The predicates of CMPPD and its companions, by the low three bits of the immediate (R600, U15). -/
def predicate (p : Byte) (c : Cmp) : Bool :=
  match (p.extractLsb' 0 3).toNat with
  | 0 => c == .eq
  | 1 => c == .lt
  | 2 => c == .lt || c == .eq
  | 3 => c == .un
  | 4 => c != .eq
  | 5 => c != .lt
  | 6 => !(c == .lt || c == .eq)
  | _ => c != .un

/-- Whether a predicate signals a quiet NaN: LT, LE, NLT and NLE (R600). -/
def predicateSignals (p : Byte) : Bool := let k := (p.extractLsb' 0 2).toNat; k == 1 || k == 2

/-- The exceptions of an SSE comparison: a denormal operand is reported beside an invalid one (R573, R600, R605). -/
def compareSignals (quietToo : Bool) (a b : FVal) : BitVec 6 :=
  compareFlags quietToo false a b ||| whenFlag (a.isDen || b.isDen) xD

/-- The mask a comparison leaves in a lane, with its exceptions (R600). -/
def compareLane (n : Nat) (p : Byte) (a b : FVal) : Lane n :=
  { bits := if predicate p (compareVal a b) then BitVec.allOnes n else 0
    flags := compareSignals (predicateSignals p) a b }

/-- A comparison of a double-precision lane. -/
def cmpD (s : State) (p : Byte) (a b : BitVec 128) (k : Nat) : Lane 64 := compareLane 64 p (s.valD a k) (s.valD b k)
/-- A comparison of a single-precision lane. -/
def cmpS (s : State) (p : Byte) (a b : BitVec 128) (k : Nat) : Lane 32 := compareLane 32 p (s.valS a k) (s.valS b k)

/-- CMPPD (R601). -/
def execCmppd (dst : Reg) (src : XM) (pred : Byte) (s : State) : Host.Outcome State Fault Refusal :=
  runSeq (packedForm dst src fun t a b => pairD (cmpD t pred a b 0) (cmpD t pred a b 1)) s
/-- CMPPS (R602). -/
def execCmpps (dst : Reg) (src : XM) (pred : Byte) (s : State) : Host.Outcome State Fault Refusal :=
  runSeq (packedForm dst src fun t a b =>
    quadS (cmpS t pred a b 0) (cmpS t pred a b 1) (cmpS t pred a b 2) (cmpS t pred a b 3)) s
/-- CMPSD (R603). -/
def execCmpsd (dst : Reg) (src : XM) (pred : Byte) (s : State) : Host.Outcome State Fault Refusal :=
  runSeq (scalarD dst src fun t a b => cmpD t pred a b 0) s
/-- CMPSS (R604). -/
def execCmpss (dst : Reg) (src : XM) (pred : Byte) (s : State) : Host.Outcome State Fault Refusal :=
  runSeq (scalarS dst src fun t a b => cmpS t pred a b 0) s

/-- COMISD and COMISS on two values: every NaN signals (R605). -/
def comiCommit (a b : FVal) : M Unit := do
  signalSimd (compareSignals true a b)
  setFlags statusMask (compareVal a b).status

/-- COMISD (R605). -/
def comisdForm (dst : Reg) (src : XM) : M Unit := do
  sseReady
  let b ← readX64 src
  let s ← readS id
  comiCommit (s.valD (s.xmmReg dst) 0) (s.valD b 0)

/-- COMISD (R605). -/
def execComisd (dst : Reg) (src : XM) (s : State) : Host.Outcome State Fault Refusal := runSeq (comisdForm dst src) s

/-- COMISS (R606). -/
def comissForm (dst : Reg) (src : XM) : M Unit := do
  sseReady
  let b ← readX32 src
  let s ← readS id
  comiCommit (s.valS (s.xmmReg dst) 0) (s.valS b 0)

/-- COMISS (R606). -/
def execComiss (dst : Reg) (src : XM) (s : State) : Host.Outcome State Fault Refusal := runSeq (comissForm dst src) s

/-! ### Conversions (R620 to R643) -/

/-- A value converted to a signed integer, in the direction MXCSR selects or chopped (R620). -/
def intLane (s : State) (n : Nat) (chop : Bool) (v : FVal) : Lane n :=
  let t := toSigned n (if chop then 3 else s.mxcsr.extractLsb' 13 2) v
  { bits := t.1, flags := t.2.1 }

/-- A signed integer converted to single precision (R620). -/
def fromIntS (s : State) (i : Int) : Lane 32 := (convert s.env32 false (intVal i)).lane32
/-- A signed integer converted to double precision (R620). -/
def fromIntD (s : State) (i : Int) : Lane 64 := (convert s.env64 false (intVal i)).lane64

/-- Doubleword `k` of a 64-bit operand as a signed integer. -/
def dwordOf (x : BitVec 64) (k : Nat) : Int := (x.extractLsb' (32 * k) 32).toInt

/-- A packed conversion with a 16-byte source (R620). -/
def convert128 (dst : Reg) (src : XM) (g : State → BitVec 128 → Lane 128) : M Unit :=
  packedForm dst src fun s _ b => g s b

/-- A packed conversion with an 8-byte source (R620). -/
def convert64 (dst : Reg) (src : XM) (g : State → BitVec 128 → Lane 128) : M Unit := do
  sseReady
  let b ← readX64 src
  let s ← readS id
  commitXmm dst (g s b)

/-- CVTDQ2PD: exact (R622). -/
def execCvtdq2pd (dst : Reg) (src : XM) (s : State) : Host.Outcome State Fault Refusal :=
  runSeq (convert64 dst src fun t b => pairD (fromIntD t (laneS b 0).toInt) (fromIntD t (laneS b 1).toInt)) s
/-- CVTDQ2PS (R623). -/
def execCvtdq2ps (dst : Reg) (src : XM) (s : State) : Host.Outcome State Fault Refusal :=
  runSeq (convert128 dst src fun t b =>
    quadS (fromIntS t (laneS b 0).toInt) (fromIntS t (laneS b 1).toInt) (fromIntS t (laneS b 2).toInt)
      (fromIntS t (laneS b 3).toInt)) s

/-- Two doublewords in the low half of a register, the upper half cleared (R624). -/
def lowPair (a b : Lane 32) : Lane 128 := { bits := 0#64 ++ b.bits ++ a.bits, flags := a.flags ||| b.flags }

/-- The two double-precision lanes converted to doublewords. -/
def pdToDq (chop : Bool) (s : State) (b : BitVec 128) : Lane 128 :=
  lowPair (intLane s 32 chop (s.valD b 0)) (intLane s 32 chop (s.valD b 1))

/-- The four single-precision lanes converted to doublewords. -/
def psToDq (chop : Bool) (s : State) (b : BitVec 128) : Lane 128 :=
  quadS (intLane s 32 chop (s.valS b 0)) (intLane s 32 chop (s.valS b 1)) (intLane s 32 chop (s.valS b 2))
    (intLane s 32 chop (s.valS b 3))

/-- CVTPD2DQ (R624). -/
def execCvtpd2dq (dst : Reg) (src : XM) (s : State) : Host.Outcome State Fault Refusal :=
  runSeq (convert128 dst src (pdToDq false)) s
/-- CVTTPD2DQ (R628). -/
def execCvttpd2dq (dst : Reg) (src : XM) (s : State) : Host.Outcome State Fault Refusal :=
  runSeq (convert128 dst src (pdToDq true)) s
/-- CVTPS2DQ (R626). -/
def execCvtps2dq (dst : Reg) (src : XM) (s : State) : Host.Outcome State Fault Refusal :=
  runSeq (convert128 dst src (psToDq false)) s
/-- CVTTPS2DQ (R629). -/
def execCvttps2dq (dst : Reg) (src : XM) (s : State) : Host.Outcome State Fault Refusal :=
  runSeq (convert128 dst src (psToDq true)) s

/-- A value narrowed to single precision (R620). -/
def narrow (s : State) (v : FVal) : Lane 32 := (convert s.env32 true v).lane32
/-- A value widened to double precision (R620). -/
def widen (s : State) (v : FVal) : Lane 64 := (convert s.env64 true v).lane64

/-- CVTPD2PS (R625). -/
def execCvtpd2ps (dst : Reg) (src : XM) (s : State) : Host.Outcome State Fault Refusal :=
  runSeq (convert128 dst src fun t b => lowPair (narrow t (t.valD b 0)) (narrow t (t.valD b 1))) s
/-- CVTPS2PD (R627). -/
def execCvtps2pd (dst : Reg) (src : XM) (s : State) : Host.Outcome State Fault Refusal :=
  runSeq (convert64 dst src fun t b => pairD (widen t (t.valS b 0)) (widen t (t.valS b 1))) s
/-- CVTSD2SS (R637). -/
def execCvtsd2ss (dst : Reg) (src : XM) (s : State) : Host.Outcome State Fault Refusal :=
  runSeq (do
    sseReady
    let b ← readX64 src
    let t ← readS id
    let r := narrow t (t.valD b 0)
    commitXmm dst { bits := putLowS (t.xmmReg dst) r.bits, flags := r.flags }) s
/-- CVTSS2SD (R640). -/
def execCvtss2sd (dst : Reg) (src : XM) (s : State) : Host.Outcome State Fault Refusal :=
  runSeq (do
    sseReady
    let b ← readX32 src
    let t ← readS id
    let r := widen t (t.valS b 0)
    commitXmm dst { bits := putLowD (t.xmmReg dst) r.bits, flags := r.flags }) s

/-- A conversion to two doublewords in an MMX register: the x87 state becomes an MMX state (R621). -/
def toMmxForm (dst : Reg3) (read : XM → M (BitVec 128)) (src : XM) (g : State → BitVec 128 → Nat → Lane 32) :
    M Unit := do
  mmxReady
  let b ← read src
  let s ← readS id
  let lo := g s b 0
  let hi := g s b 1
  signalSimd (lo.flags ||| hi.flags)
  updFpu (·.setMmx dst (hi.bits ++ lo.bits))

/-- CVTPD2PI (R630). -/
def execCvtpd2pi (dst : Reg3) (src : XM) (s : State) : Host.Outcome State Fault Refusal :=
  runSeq (toMmxForm dst readX128 src fun t b k => intLane t 32 false (t.valD b k)) s
/-- CVTTPD2PI (R634). -/
def execCvttpd2pi (dst : Reg3) (src : XM) (s : State) : Host.Outcome State Fault Refusal :=
  runSeq (toMmxForm dst readX128 src fun t b k => intLane t 32 true (t.valD b k)) s
/-- CVTPS2PI (R633). -/
def execCvtps2pi (dst : Reg3) (src : XM) (s : State) : Host.Outcome State Fault Refusal :=
  runSeq (toMmxForm dst readX64 src fun t b k => intLane t 32 false (t.valS b k)) s
/-- CVTTPS2PI (R635). -/
def execCvttps2pi (dst : Reg3) (src : XM) (s : State) : Host.Outcome State Fault Refusal :=
  runSeq (toMmxForm dst readX64 src fun t b k => intLane t 32 true (t.valS b k)) s

/-- Reads an mm/m64 operand (R621). -/
def readMm : MM → M (BitVec 64)
  | .reg i => readS fun s => s.fpu.mmx i
  | .mem m => do
    let v ← loadLow m 8 (.natural 8)
    pure (BitVec.ofNat 64 v)

/-- CVTPI2PD: with a memory source the x87 state is left alone (R621, R631). -/
def cvtpi2pdForm (dst : Reg) (src : MM) : M Unit := do
  mmxReady
  let b ← readMm src
  let s ← readS id
  commitXmm dst (pairD (fromIntD s (dwordOf b 0)) (fromIntD s (dwordOf b 1)))
  if inMemory src then pure () else updFpu (·.toMmx)

/-- CVTPI2PD (R631). -/
def execCvtpi2pd (dst : Reg) (src : MM) (s : State) : Host.Outcome State Fault Refusal :=
  runSeq (cvtpi2pdForm dst src) s

/-- CVTPI2PS: bits 127:64 of the destination stay (R621, R632). -/
def cvtpi2psForm (dst : Reg) (src : MM) : M Unit := do
  mmxReady
  let b ← readMm src
  let s ← readS id
  let lo := fromIntS s (dwordOf b 0)
  let hi := fromIntS s (dwordOf b 1)
  commitXmm dst { bits := putLowD (s.xmmReg dst) (hi.bits ++ lo.bits), flags := lo.flags ||| hi.flags }
  updFpu (·.toMmx)

/-- CVTPI2PS (R632). -/
def execCvtpi2ps (dst : Reg) (src : MM) (s : State) : Host.Outcome State Fault Refusal :=
  runSeq (cvtpi2psForm dst src) s

/-- A conversion of a scalar to an integer in a general register (R636). -/
def toGprForm (w : Width) (dst : Reg) (read : XM → M (BitVec 128)) (src : XM) (g : State → BitVec 128 → Lane w.bits) :
    M Unit := do
  sseReady
  let b ← read src
  let s ← readS id
  signalSimd (g s b).flags
  upd fun t => t.writeReg w dst (g s b).bits

/-- CVTSD2SI (R636). -/
def execCvtsd2si (w : Width) (dst : Reg) (src : XM) (s : State) : Host.Outcome State Fault Refusal :=
  runSeq (toGprForm w dst readX64 src fun t b => intLane t w.bits false (t.valD b 0)) s
/-- CVTTSD2SI (R642). -/
def execCvttsd2si (w : Width) (dst : Reg) (src : XM) (s : State) : Host.Outcome State Fault Refusal :=
  runSeq (toGprForm w dst readX64 src fun t b => intLane t w.bits true (t.valD b 0)) s
/-- CVTSS2SI (R641). -/
def execCvtss2si (w : Width) (dst : Reg) (src : XM) (s : State) : Host.Outcome State Fault Refusal :=
  runSeq (toGprForm w dst readX32 src fun t b => intLane t w.bits false (t.valS b 0)) s
/-- CVTTSS2SI (R643). -/
def execCvttss2si (w : Width) (dst : Reg) (src : XM) (s : State) : Host.Outcome State Fault Refusal :=
  runSeq (toGprForm w dst readX32 src fun t b => intLane t w.bits true (t.valS b 0)) s

/-- Reads an r/m source of an SSE instruction (R638, R673). -/
def readRmLow (w : Width) : RM → M (BitVec w.bits)
  | .reg r => readS fun s => s.readReg w r
  | .mem m => do
    let v ← loadLow m w.bytes (.natural w.bytes)
    pure (BitVec.ofNat w.bits v)

/-- CVTSI2SD (R638). -/
def cvtsi2sdForm (w : Width) (dst : Reg) (src : RM) : M Unit := do
  sseReady
  let v ← readRmLow w src
  let s ← readS id
  let r := fromIntD s v.toInt
  commitXmm dst { bits := putLowD (s.xmmReg dst) r.bits, flags := r.flags }

/-- CVTSI2SD (R638). -/
def execCvtsi2sd (w : Width) (dst : Reg) (src : RM) (s : State) : Host.Outcome State Fault Refusal :=
  runSeq (cvtsi2sdForm w dst src) s

/-- CVTSI2SS (R639). -/
def cvtsi2ssForm (w : Width) (dst : Reg) (src : RM) : M Unit := do
  sseReady
  let v ← readRmLow w src
  let s ← readS id
  let r := fromIntS s v.toInt
  commitXmm dst { bits := putLowS (s.xmmReg dst) r.bits, flags := r.flags }

/-- CVTSI2SS (R639). -/
def execCvtsi2ss (w : Width) (dst : Reg) (src : RM) (s : State) : Host.Outcome State Fault Refusal :=
  runSeq (cvtsi2ssForm w dst src) s

/-! ### LDDQU and LDMXCSR (R650, R651) -/

/-- LDDQU: 16 bytes at any alignment; a register operand raises #UD (R650, decision D25). -/
def lddquForm (dst : Reg) (src : XM) : M Unit := do
  let m ← memOnly src
  sseReady
  let v ← loadLow m 16 .any
  upd fun s => s.setXmm dst (BitVec.ofNat 128 v)

/-- LDDQU (R650). -/
def execLddqu (dst : Reg) (src : XM) (s : State) : Host.Outcome State Fault Refusal := runSeq (lddquForm dst src) s

/-- LDMXCSR: a reserved bit raises #GP(0) (R651). -/
def ldmxcsrForm (m : Mem) : M Unit := do
  sseReady
  let v ← loadLow m 4 (.natural 4)
  let mx := BitVec.ofNat 32 v
  raiseIf (mx &&& ~~~Config.mxcsrMask != 0) gp0
  upd fun s => { s with mxcsr := mx }

/-- LDMXCSR (R651). -/
def execLdmxcsr (m : Mem) (s : State) : Host.Outcome State Fault Refusal := runSeq (ldmxcsrForm m) s

end Sys2Proof.Machine
end

