-- ==== Sys2Proof/Machine/StringIo.lean ====
section
/-! DEFINITION. The string and port instructions (43_string_io.md; 48_vol2_partial.md rule R796). -/

namespace Sys2Proof.Machine

/-! ### Common rules (R360 to R362) -/

/-- A string pointer at the address size (R360). -/
def State.ptr (s : State) (asz : ASize) (r : Reg) : Word := asizeTrunc asz (s.get r)

/-- The state with a string pointer advanced by `n` bytes, downward if DF is 1 (R362, decision D18). -/
def State.stepPtr (s : State) (asz : ASize) (r : Reg) (n : Nat) : State :=
  let d : Word := if s.flag fDF then -BitVec.ofNat 64 n else BitVec.ofNat 64 n
  s.writeReg (asizeWidth asz) r ((s.get r + d).setWidth (asizeWidth asz).bits)

/-- A string instruction with its repeat prefix. Without one, the iteration and the end of the instruction. With one, a
step is one iteration: nothing for a count of 0; else the iteration and the count, and the instruction ends when the
count reaches 0 or `done` holds; otherwise it stays in place, and with it the interrupt shadow that lasts until it has
completed (R361, R762, R787, R801, decision D31). -/
def repeated (p : Rep) (asz : ASize) (done : State → Bool) (body : M Unit) : M Unit :=
  match p with
  | .none => do
    body
    advance
  | _ => do
    let s ← readS id
    if s.count asz == 0 then advance
    else
      body
      upd fun t => t.setCount asz (t.count asz - 1)
      let t ← readS id
      if t.count asz == 0 || done t then advance else upd fun t => { t with shadow := t.heldShadow }

/-- The instructions that compare stop when ZF contradicts the prefix (R361). -/
def compareDone (p : Rep) (s : State) : Bool :=
  match p with
  | .none => false
  | .rep => !s.flag fZF
  | .repne => s.flag fZF

/-- The others stop on the count alone (R361). -/
def neverDone (_ : State) : Bool := false

/-! ### Iterations (R365, R366, R796) -/

/-- One iteration of CMPS: the rSI operand minus the rDI operand (R365). -/
def cmpsBody (w : Width) (a : StrSrc) : M Unit := do
  let s ← readS id
  let x ← readMem a.seg (s.ptr a.asz rSI) w.bytes
  let y ← readMem .es (s.ptr a.asz rDI) w.bytes
  setFlags statusMask (subStatus (BitVec.ofNat w.bits x) (BitVec.ofNat w.bits y) false)
  upd fun t => (t.stepPtr a.asz rSI w.bytes).stepPtr a.asz rDI w.bytes

/-- One iteration of LODS (R366). -/
def lodsBody (w : Width) (a : StrSrc) : M Unit := do
  let s ← readS id
  let x ← readMem a.seg (s.ptr a.asz rSI) w.bytes
  upd fun t => (t.writeReg w rAX (BitVec.ofNat w.bits x)).stepPtr a.asz rSI w.bytes

/-- One iteration of MOVS (R796). -/
def movsBody (w : Width) (a : StrSrc) : M Unit := do
  let s ← readS id
  let x ← readMem a.seg (s.ptr a.asz rSI) w.bytes
  writeMem .es (s.ptr a.asz rDI) w.bytes x
  upd fun t => (t.stepPtr a.asz rSI w.bytes).stepPtr a.asz rDI w.bytes

/-- One iteration of STOS (R796). -/
def stosBody (w : Width) (a : StrDst) : M Unit := do
  let s ← readS id
  writeMem .es (s.ptr a.asz rDI) w.bytes (s.readReg w rAX).toNat
  upd fun t => t.stepPtr a.asz rDI w.bytes

/-- One iteration of SCAS (R796). -/
def scasBody (w : Width) (a : StrDst) : M Unit := do
  let s ← readS id
  let y ← readMem .es (s.ptr a.asz rDI) w.bytes
  setFlags statusMask (subStatus (s.readReg w rAX) (BitVec.ofNat w.bits y) false)
  upd fun t => t.stepPtr a.asz rDI w.bytes

/-- CMPS at a width (R365). -/
def cmpsForm (w : Width) (a : StrSrc) : M Unit := repeated a.rep a.asz (compareDone a.rep) (cmpsBody w a)
/-- LODS at a width (R366). -/
def lodsForm (w : Width) (a : StrSrc) : M Unit := repeated a.rep a.asz neverDone (lodsBody w a)
/-- MOVS at a width (R796). -/
def movsForm (w : Width) (a : StrSrc) : M Unit := repeated a.rep a.asz neverDone (movsBody w a)
/-- STOS at a width (R796). -/
def stosForm (w : Width) (a : StrDst) : M Unit := repeated a.rep a.asz neverDone (stosBody w a)
/-- SCAS at a width (R796). -/
def scasForm (w : Width) (a : StrDst) : M Unit := repeated a.rep a.asz (compareDone a.rep) (scasBody w a)

/-- CMPSB (R365). -/
def execCmpsb (a : StrSrc) (s : State) : Host.Outcome State Fault Refusal := runInstr (cmpsForm .b8 a) s
/-- CMPSW and CMPSD (R365). -/
def execCmpsw (osz : Width) (a : StrSrc) (s : State) : Host.Outcome State Fault Refusal := runInstr (cmpsForm osz a) s
/-- CMPSQ (R365). -/
def execCmpsq (a : StrSrc) (s : State) : Host.Outcome State Fault Refusal := runInstr (cmpsForm .b64 a) s
/-- LODSB (R366). -/
def execLodsb (a : StrSrc) (s : State) : Host.Outcome State Fault Refusal := runInstr (lodsForm .b8 a) s
/-- LODSW and LODSD (R366). -/
def execLodsw (osz : Width) (a : StrSrc) (s : State) : Host.Outcome State Fault Refusal := runInstr (lodsForm osz a) s
/-- LODSQ (R366). -/
def execLodsq (a : StrSrc) (s : State) : Host.Outcome State Fault Refusal := runInstr (lodsForm .b64 a) s
/-- MOVSB (R796). -/
def execMovsb (a : StrSrc) (s : State) : Host.Outcome State Fault Refusal := runInstr (movsForm .b8 a) s
/-- MOVSW and MOVSD (R796). -/
def execMovsw (osz : Width) (a : StrSrc) (s : State) : Host.Outcome State Fault Refusal := runInstr (movsForm osz a) s
/-- MOVSQ (R796). -/
def execMovsq (a : StrSrc) (s : State) : Host.Outcome State Fault Refusal := runInstr (movsForm .b64 a) s
/-- STOSB (R796). -/
def execStosb (a : StrDst) (s : State) : Host.Outcome State Fault Refusal := runInstr (stosForm .b8 a) s
/-- STOSW and STOSD (R796). -/
def execStosw (osz : Width) (a : StrDst) (s : State) : Host.Outcome State Fault Refusal := runInstr (stosForm osz a) s
/-- STOSQ (R796). -/
def execStosq (a : StrDst) (s : State) : Host.Outcome State Fault Refusal := runInstr (stosForm .b64 a) s
/-- SCASB (R796). -/
def execScasb (a : StrDst) (s : State) : Host.Outcome State Fault Refusal := runInstr (scasForm .b8 a) s
/-- SCASW and SCASD (R796). -/
def execScasw (osz : Width) (a : StrDst) (s : State) : Host.Outcome State Fault Refusal := runInstr (scasForm osz a) s
/-- SCASQ (R796). -/
def execScasq (a : StrDst) (s : State) : Host.Outcome State Fault Refusal := runInstr (scasForm .b64 a) s

/-! ### Ports (R372, R373, R375, R796) -/

/-- A port read: an input of the platform, drawn afresh (R372, decision D9). -/
def ioRead (port : BitVec 16) (n : Nat) : M (BitVec 32) := fun s =>
  .ok (Config.ioInput port n s.freeCount, { s with freeCount := s.freeCount + 1 })

/-- A port write, seen by the platform (R796, decision D9). -/
def ioWrite (port : BitVec 16) (n : Nat) (v : BitVec 32) : M Unit :=
  upd fun s => { s with ioLog := { port := port, bytes := n, value := v } :: s.ioLog }

/-- The port: the immediate, or DX (R372). -/
def State.portOf (s : State) : Option Byte → BitVec 16
  | some p => p.setWidth 16
  | none => s.readReg .b16 rDX

/-- IN (R372). -/
def inForm (w : Width) (port : Option Byte) : M Unit := do
  let p ← readS (·.portOf port)
  ioPermission p w.bytes
  let v ← ioRead p w.bytes
  upd fun s => s.writeReg w rAX (v.setWidth w.bits)

/-- IN (R372). -/
def execInp (w : Width) (port : Option Byte) (s : State) : Host.Outcome State Fault Refusal := runSeq (inForm w port) s

/-- OUT (R796). -/
def outForm (w : Width) (port : Option Byte) : M Unit := do
  let p ← readS (·.portOf port)
  ioPermission p w.bytes
  let v ← readS fun s => s.readReg w rAX
  ioWrite p w.bytes (v.setWidth 32)

/-- OUT (R796). -/
def execOutp (w : Width) (port : Option Byte) (s : State) : Host.Outcome State Fault Refusal := runSeq (outForm w port) s

/-- One iteration of INS: the destination is checked before the port is read (R375). -/
def insBody (w : Width) (a : StrDst) : M Unit := do
  let s ← readS id
  let p := s.portOf none
  ioPermission p w.bytes
  let sp ← resolve .es (s.ptr a.asz rDI) w.bytes true (.natural w.bytes)
  let v ← ioRead p w.bytes
  storeSpan sp w.bytes v.toNat
  upd fun t => t.stepPtr a.asz rDI w.bytes

/-- One iteration of OUTS (R796). -/
def outsBody (w : Width) (a : StrSrc) : M Unit := do
  let s ← readS id
  let p := s.portOf none
  ioPermission p w.bytes
  let x ← readMem a.seg (s.ptr a.asz rSI) w.bytes
  ioWrite p w.bytes (BitVec.ofNat 32 x)
  upd fun t => t.stepPtr a.asz rSI w.bytes

/-- INS at a width (R375). -/
def insForm (w : Width) (a : StrDst) : M Unit := repeated a.rep a.asz neverDone (insBody w a)
/-- OUTS at a width (R796). -/
def outsForm (w : Width) (a : StrSrc) : M Unit := repeated a.rep a.asz neverDone (outsBody w a)

/-- INSB (R375). -/
def execInsb (a : StrDst) (s : State) : Host.Outcome State Fault Refusal := runInstr (insForm .b8 a) s
/-- INSW and INSD (R375). -/
def execInsw (osz : Width) (a : StrDst) (s : State) : Host.Outcome State Fault Refusal := runInstr (insForm osz a) s
/-- OUTSB (R796). -/
def execOutsb (a : StrSrc) (s : State) : Host.Outcome State Fault Refusal := runInstr (outsForm .b8 a) s
/-- OUTSW and OUTSD (R796). -/
def execOutsw (osz : Width) (a : StrSrc) (s : State) : Host.Outcome State Fault Refusal := runInstr (outsForm osz a) s

end Sys2Proof.Machine
end

