-- ==== Sys2Proof/Machine/System.lean ====
section
/-! DEFINITION. Flag control, caches and fences, CPUID, segment inspection and far-pointer loads, descriptor-table,
control, debug and model-specific registers, and the fast system calls (44_system.md; 48_vol2_partial.md rules R785,
R786, R791 to R795, R801 to R804). -/

namespace Sys2Proof.Machine

/-! ### Checks -/

/-- #GP(0) unless CPL is 0. -/
def needCpl0 : M Unit := do
  let s ← readS id
  raiseIf (s.cpl != 0) gp0

/-- #GP(0) unless CPL <= IOPL (R384). -/
def needIopl : M Unit := do
  let s ← readS id
  raiseIf (decide (s.iopl < s.cpl)) gp0

/-- #UD in real-address and virtual-8086 mode. -/
def needSelectors : M Unit := do
  let s ← readS id
  raiseIf s.paragraphs udFault

/-! ### Flag control -/

/-- Sets one flag to a function of the state. -/
def flagForm (i : Nat) (f : State → Bool) : M Unit := upd fun s => s.setFlag i (f s)

/-- CLC (R382). -/
def execClc (s : State) : Host.Outcome State Fault Refusal := runSeq (flagForm fCF fun _ => false) s
/-- CLD (R383). -/
def execCld (s : State) : Host.Outcome State Fault Refusal := runSeq (flagForm fDF fun _ => false) s
/-- CMC (R386). -/
def execCmc (s : State) : Host.Outcome State Fault Refusal := runSeq (flagForm fCF fun t => !t.flag fCF) s
/-- STC (R801). -/
def execStc (s : State) : Host.Outcome State Fault Refusal := runSeq (flagForm fCF fun _ => true) s
/-- STD (R801). -/
def execStd (s : State) : Host.Outcome State Fault Refusal := runSeq (flagForm fDF fun _ => true) s

/-- CLI: IF is cleared if CPL <= IOPL (R384). -/
def cliForm : M Unit := do
  needIopl
  flagForm fIF fun _ => false

/-- CLI (R384). -/
def execCli (s : State) : Host.Outcome State Fault Refusal := runSeq cliForm s

/-- STI: IF is set under the rule of CLI, and maskable interrupts wait for the next instruction (R801, R762). -/
def stiForm : M Unit := do
  needIopl
  flagForm fIF fun _ => true
  upd fun s => { s with shadow := .sti }

/-- STI (R801). -/
def execSti (s : State) : Host.Outcome State Fault Refusal := runSeq stiForm s

/-- CLTS: CR0.TS is cleared (R385). -/
def cltsForm : M Unit := do
  needCpl0
  upd fun s => { s with cr0 := putBit s.cr0 3 false }

/-- CLTS (R385). -/
def execClts (s : State) : Host.Outcome State Fault Refusal := runSeq cltsForm s

/-- ARPL: the RPL of the destination is raised to that of the source (R381). A destination that is not raised is checked
for writing and stored back all the same (DESIGN CHOICE, log 83). -/
def arplForm (dst : RM) (src : Reg) : M Unit := do
  needSelectors
  let v ← readS fun s => s.readReg .b16 src
  updateRmb .b16 (asRmb dst) fun d => do
    let low := decide ((d.extractLsb' 0 2).toNat < (v.extractLsb' 0 2).toNat)
    flagForm fZF fun _ => low
    pure (if low then d.extractLsb' 2 14 ++ v.extractLsb' 0 2 else d)

/-- ARPL (R381). -/
def execArpl (dst : RM) (src : Reg) (s : State) : Host.Outcome State Fault Refusal := runSeq (arplForm dst src) s

/-! ### Caches, fences and halt -/

/-- CLFLUSH: the checks of a one-byte read (R401, decision D10). -/
def clflushForm (m : Mem) : M Unit := do
  let _ ← resolveLow m 1 false .any
  pure ()

/-- CLFLUSH (R401). -/
def execClflush (m : Mem) (s : State) : Host.Outcome State Fault Refusal := runSeq (clflushForm m) s

/-- INVD: the privilege check (R417, decision D10). -/
def execInvd (s : State) : Host.Outcome State Fault Refusal := runSeq needCpl0 s

/-- WBINVD: the privilege check (R804, decision D10). -/
def execWbinvd (s : State) : Host.Outcome State Fault Refusal := runSeq needCpl0 s

/-- INVLPG: the checks; the address is formed and not accessed (R418, decision D10). -/
def invlpgForm (src : RM) : M Unit := do
  let m ← memOnly src
  needCpl0
  let s ← readS id
  raiseIf (s.is64 && !canonical (s.linear m.seg (s.effAddr m))) (segEvent m.seg)

/-- INVLPG (R418). -/
def execInvlpg (m : RM) (s : State) : Host.Outcome State Fault Refusal := runSeq (invlpgForm m) s

/-- LFENCE: no effect on one processor that runs its instructions in order (R424, R161). -/
def execLfence (s : State) : Host.Outcome State Fault Refusal := runSeq (pure ()) s
/-- MFENCE (R804, R161). -/
def execMfence (s : State) : Host.Outcome State Fault Refusal := runSeq (pure ()) s
/-- SFENCE (R804, R161). -/
def execSfence (s : State) : Host.Outcome State Fault Refusal := runSeq (pure ()) s

/-- HLT: the processor halts at the next instruction (R415). -/
def hltForm : M Unit := do
  needCpl0
  upd fun s => { s with activity := .halted }

/-- HLT (R415). -/
def execHlt (s : State) : Host.Outcome State Fault Refusal := runSeq hltForm s

/-! ### CPUID (R403 to R413) -/

/-- The four registers CPUID answers with. -/
structure CpuidRegs where
  a : BitVec 32
  b : BitVec 32
  c : BitVec 32
  d : BitVec 32
  deriving DecidableEq, Repr

/-- Leaf 5: the monitor-line sizes (R411). -/
def cpuidLeaf5 : CpuidRegs := { a := Config.monitorLine, b := Config.monitorLine, c := 0, d := 0 }

/-- A leaf of the brand string: ASCII characters, of which the 48th is null (R412). -/
def cpuidBrandLeaf (k : Nat) : CpuidRegs :=
  let ascii (r : Nat) : BitVec 32 := Config.cpuidBrand k r &&& 0x7F7F7F7F
  { a := ascii 0, b := ascii 1, c := ascii 2, d := if k = 2 then ascii 3 &&& 0x00FFFFFF else ascii 3 }

/-- The data of a leaf, with the sub-leaf of leaf 4 in `sub`, whose reserved bits are 0 (decision D20); a leaf out of its range answers as leaf 5
(R403, decision D19). With BOOT_NT4 set the highest basic leaf is 3 (R67, R403). -/
def cpuidTable (bootNt4 : Bool) (leaf sub : BitVec 32) : CpuidRegs :=
  match leaf.toNat with
  | 0 => { a := if bootNt4 then 3 else Config.cpuidMaxBasic, b := 0x756E6547, c := 0x6C65746E, d := 0x49656E69 }
  | 1 =>
    { a := Config.cpuidSignature ++ Config.cpuidStepping
      b := Config.cpuidApicId ++ Config.cpuidLogicalCount ++ Config.clflushLine ++ Config.cpuidBrandIndex
      c := Config.cpuidEcxFixed ||| (Config.cpuidEcxOpen &&& Config.cpuidEcxOpenMask)
      d := Config.cpuidEdxFixed ||| (Config.cpuidEdxOpen &&& Config.cpuidEdxOpenMask) }
  | 2 => { a := Config.cpuidLeaf2.1, b := 0, c := 0, d := Config.cpuidLeaf2.2 }
  | 3 => { a := 0, b := 0, c := 0, d := 0 }
  | 4 =>
    if bootNt4 then cpuidLeaf5
    else { a := Config.cpuidLeaf4 sub 0 &&& 0xFFFFC3FF, b := Config.cpuidLeaf4 sub 1, c := Config.cpuidLeaf4 sub 2, d := 0 }
  | 0x80000000 => { a := Config.cpuidMaxExt, b := 0, c := 0, d := 0 }
  | 0x80000001 => { a := 0, b := 0, c := 0, d := Config.cpuidExtEdx }
  | 0x80000002 => cpuidBrandLeaf 0
  | 0x80000003 => cpuidBrandLeaf 1
  | 0x80000004 => cpuidBrandLeaf 2
  | 0x80000005 => { a := 0, b := 0, c := 0, d := 0 }
  | 0x80000006 => { a := 0, b := 0, c := Config.l2Info, d := 0 }
  | 0x80000007 => { a := 0, b := 0, c := 0, d := 0 }
  | 0x80000008 => { a := BitVec.ofNat 32 (Config.vaBits * 256 + Config.paBits), b := 0, c := 0, d := 0 }
  | _ => cpuidLeaf5

/-- The state with the answer of CPUID in EAX, EBX, ECX and EDX (R403). -/
def State.putCpuid (s : State) (r : CpuidRegs) : State :=
  (((s.writeReg .b32 rAX r.a).writeReg .b32 rBX r.b).writeReg .b32 rCX r.c).writeReg .b32 rDX r.d

/-- CPUID (R403). -/
def cpuidForm : M Unit :=
  upd fun s => s.putCpuid (cpuidTable s.bootNt4 (s.readReg .b32 rAX) (s.readReg .b32 rCX))

/-- CPUID (R403). -/
def execCpuid (s : State) : Host.Outcome State Fault Refusal := runSeq cpuidForm s

/-! ### Segment inspection (R420, R431, R802) -/

/-- The descriptor a selector names, or none where the selector is null or lies outside its table: no fault is raised
for a bad selector (R420). -/
def probeDesc (sel : BitVec 16) : M (Option (BitVec 64)) := do
  let s ← readS id
  if selNull sel || !s.descInTable sel 8 || (s.lma && !canonicalRange (s.descAddr sel) 8) then pure none
  else
    let v ← sysRead (s.descAddr sel) 8
    pure (some (BitVec.ofNat 64 v))

/-- Whether the privilege rule lets the program look at a segment: a conforming code segment always, another one if
neither CPL nor RPL exceeds its DPL (R420). -/
def visible (g : SegReg) (cpl rpl : Nat) : Bool :=
  (g.isCode && g.conforming) || (decide (cpl ≤ g.dpl.toNat) && decide (rpl ≤ g.dpl.toNat))

/-- The system-descriptor types LAR accepts (R420); the 16-bit TSS, its busy form and the legacy gates 4 and 5 only
while IA-32e mode is inactive. -/
def larTypes (lma : Bool) (t : BitVec 4) : Bool :=
  t == 2 || t == 9 || t == 0xB || t == 0xC || (!lma && (t == 1 || t == 3 || t == 4 || t == 5))

/-- The system-descriptor types LSL accepts, in every mode (R431). -/
def lslTypes (_ : Bool) (t : BitVec 4) : Bool := t == 2 || t == 9 || t == 0xB

/-- LAR's result for a descriptor: its access rights, the high doubleword masked by 00F0FF00H (R420). Bits 19:16, which
the comment of R420 calls undefined and its mask and example leave 0, are 0 (DESIGN CHOICE, log 130). -/
def larValue (d : BitVec 64) : BitVec 64 := (d >>> 32) &&& 0x00F0FF00

/-- LSL's result for a descriptor: its byte-granular limit (R431). -/
def lslValue (d : BitVec 64) : BitVec 64 := (descSeg d 0).limit.setWidth 64

/-- LAR and LSL: the selector's descriptor is looked up and checked; ZF says whether the destination was written
(R420, R431). -/
def inspectForm (types : Bool → BitVec 4 → Bool) (value : BitVec 64 → BitVec 64) (w : Width) (r : Reg) (src : RM) :
    M Unit := do
  needSelectors
  let sel ← readRm .b16 src
  match ← probeDesc sel with
  | none => flagForm fZF fun _ => false
  | some d =>
    let s ← readS id
    let g := descSeg d sel
    if (g.s || types s.lma g.typ) && visible g s.cpl (selRpl sel) then
      flagForm fZF fun _ => true
      upd fun t => t.writeReg w r ((value d).setWidth w.bits)
    else flagForm fZF fun _ => false

/-- LAR (R420). -/
def execLar (w : Width) (r : Reg) (src : RM) (s : State) : Host.Outcome State Fault Refusal :=
  runSeq (inspectForm larTypes larValue w r src) s

/-- LSL (R431). -/
def execLsl (w : Width) (r : Reg) (src : RM) (s : State) : Host.Outcome State Fault Refusal :=
  runSeq (inspectForm lslTypes lslValue w r src) s

/-- VERR and VERW: ZF says whether the segment is accessible as `ok` asks (R802). In real-address and virtual-8086 mode
they raise #UD (DESIGN CHOICE, log 98). -/
def verifyForm (ok : SegReg → Bool) (src : RM) : M Unit := do
  needSelectors
  let sel ← readRm .b16 src
  match ← probeDesc sel with
  | none => flagForm fZF fun _ => false
  | some d =>
    let s ← readS id
    let g := descSeg d sel
    flagForm fZF fun _ => ok g && visible g s.cpl (selRpl sel)

/-- VERR: a data segment or a readable code segment (R802). -/
def execVerr (src : RM) (s : State) : Host.Outcome State Fault Refusal :=
  runSeq (verifyForm (fun g => g.isData || g.readableCode) src) s

/-- VERW: a writable data segment (R802). -/
def execVerw (src : RM) (s : State) : Host.Outcome State Fault Refusal :=
  runSeq (verifyForm (fun g => g.writableData) src) s

/-! ### Far-pointer loads (R421) -/

/-- LDS, LES, LSS, LFS and LGS: the offset and then the selector that follows it are read, the segment register is
loaded, and the offset goes to the register (R421). -/
def farLoadForm (g : SReg) (w : Width) (r : Reg) (src : RM) : M Unit := do
  let m ← memOnly src
  let ea ← readS fun s => s.effAddr m
  let off ← readMem m.seg ea w.bytes
  let sel ← readMem m.seg (ea + BitVec.ofNat 64 w.bytes) 2
  loadSegment g (BitVec.ofNat 16 sel)
  shadowSs g
  upd fun s => s.writeReg w r (BitVec.ofNat w.bits off)

/-- A far-pointer load that is invalid in 64-bit mode (R207, R421). -/
def farLoadLegacy (g : SReg) (w : Width) (r : Reg) (src : RM) : M Unit := do
  invalid64
  farLoadForm g w r src

/-- LDS (R421). -/
def execLds (w : Width) (r : Reg) (src : RM) (s : State) : Host.Outcome State Fault Refusal :=
  runSeq (farLoadLegacy .ds w r src) s
/-- LES (R421). -/
def execLes (w : Width) (r : Reg) (src : RM) (s : State) : Host.Outcome State Fault Refusal :=
  runSeq (farLoadLegacy .es w r src) s
/-- LSS (R421). -/
def execLss (w : Width) (r : Reg) (src : RM) (s : State) : Host.Outcome State Fault Refusal :=
  runSeq (farLoadForm .ss w r src) s
/-- LFS (R421). -/
def execLfs (w : Width) (r : Reg) (src : RM) (s : State) : Host.Outcome State Fault Refusal :=
  runSeq (farLoadForm .fs w r src) s
/-- LGS (R421). -/
def execLgs (w : Width) (r : Reg) (src : RM) (s : State) : Host.Outcome State Fault Refusal :=
  runSeq (farLoadForm .gs w r src) s

/-! ### Descriptor-table registers (R425 to R427, R432, R802) -/

/-- Reads a pseudo-descriptor: a 16-bit limit, then a base of 8 bytes in 64-bit mode and of 4 elsewhere, of which a
16-bit operand size uses 24 bits (R425). -/
def tableOperand (osz : Width) (src : RM) : M TableReg := do
  let m ← memOnly src
  needCpl0
  let s ← readS id
  let ea := s.effAddr m
  let lim ← readMem m.seg ea 2
  if s.is64 then
    let base := BitVec.ofNat 64 (← readMem m.seg (ea + 2) 8)
    raiseIf (!canonical base) gp0
    pure { base := base, limit := BitVec.ofNat 16 lim }
  else
    let base := BitVec.ofNat 64 (← readMem m.seg (ea + 2) 4)
    pure { base := if osz = .b16 then base &&& 0xFFFFFF else base, limit := BitVec.ofNat 16 lim }

/-- LGDT (R425). -/
def lgdtForm (osz : Width) (src : RM) : M Unit := do
  let t ← tableOperand osz src
  upd fun s => { s with gdtr := t }

/-- LGDT (R425). -/
def execLgdt (osz : Width) (src : RM) (s : State) : Host.Outcome State Fault Refusal := runSeq (lgdtForm osz src) s

/-- LIDT (R426). -/
def lidtForm (osz : Width) (src : RM) : M Unit := do
  let t ← tableOperand osz src
  upd fun s => { s with idtr := t }

/-- LIDT (R426). -/
def execLidt (osz : Width) (src : RM) (s : State) : Host.Outcome State Fault Refusal := runSeq (lidtForm osz src) s

/-- SGDT and SIDT: the limit, then the base, of 8 bytes in 64-bit mode and of 4 elsewhere (R802). -/
def storeTable (m : Mem) (t : State → TableReg) : M Unit := do
  let s ← readS id
  let ea := s.effAddr m
  writeMem m.seg ea 2 (t s).limit.toNat
  writeMem m.seg (ea + 2) (if s.is64 then 8 else 4) (t s).base.toNat

/-- SGDT (R802). -/
def execSgdt (m : Mem) (s : State) : Host.Outcome State Fault Refusal := runSeq (storeTable m (·.gdtr)) s
/-- SIDT (R802). -/
def execSidt (m : Mem) (s : State) : Host.Outcome State Fault Refusal := runSeq (storeTable m (·.idtr)) s

/-- The two halves of a 16-byte system descriptor, in the order of the parameter LLDT_LTR_ACCESS_ORDER (R127, R427). -/
def readDesc16 (sel : BitVec 16) : M (BitVec 64 × BitVec 64) :=
  if Config.descLowFirst then do
    let lo ← readDescPart sel false 16 0
    let hi ← readDescPart sel false 16 8
    pure (lo, hi)
  else do
    let hi ← readDescPart sel false 16 8
    let lo ← readDescPart sel false 16 0
    pure (lo, hi)

/-- The descriptor LLDT and LTR read: 16 bytes in 64-bit mode, 8 elsewhere, whose upper half counts as 0 (R427, R432). -/
def readSystemDesc (sel : BitVec 16) : M (BitVec 64 × BitVec 64) := do
  let s ← readS id
  if s.is64 then readDesc16 sel
  else
    let lo ← readDescPart sel false 8 0
    pure (lo, 0)

/-- The system segment a selector of the GDT names: a descriptor of 16 bytes in 64-bit mode, of 8 elsewhere; its type
must satisfy `ok` (R427, R432). Answers the segment register and the first 8 bytes of the descriptor. -/
def systemDesc (ok : SegReg → Bool) (sel : BitVec 16) : M (SegReg × BitVec 64) := do
  raiseIf (sel.getLsbD 2) (gpSel sel)
  let (lo, hi) ← readSystemDesc sel
  let g := descSeg lo sel
  raiseIf (g.s || !ok g) (gpSel sel)
  raiseIf (hi.extractLsb' 40 5 != 0) (gpSel sel)
  raiseIf (!g.p) (npSel sel)
  let base : Word := hi.extractLsb' 0 32 ++ g.base.extractLsb' 0 32
  raiseIf (!canonical base) (gpSel sel)
  pure ({ g with base := base }, lo)

/-- LLDT: a null selector makes LDTR unusable (R427). -/
def lldtForm (src : RM) : M Unit := do
  needSelectors
  needCpl0
  let sel ← readRm .b16 src
  if selNull sel then upd fun s => { s with ldtr := s.ldtr.nulled sel }
  else
    let (g, _) ← systemDesc (fun g => g.typ == 2) sel
    upd fun s => { s with ldtr := g }

/-- LLDT (R427). -/
def execLldt (src : RM) (s : State) : Host.Outcome State Fault Refusal := runSeq (lldtForm src) s

/-- LTR: the descriptor of an available TSS is marked busy in memory, by a read-modify-write of its second doubleword; a
16-bit TSS only while IA-32e mode is inactive (R432). -/
def ltrForm (src : RM) : M Unit := do
  needSelectors
  needCpl0
  let sel ← readRm .b16 src
  raiseIf (selNull sel) gp0
  let s ← readS id
  let (g, _) ← systemDesc (fun g => g.typ == 9 || (!s.lma && g.typ == 1)) sel
  sysUpdate (s.descAddr sel + 4) 4 (· ||| 0x200)
  upd fun t => { t with tr := { g with typ := g.typ ||| 2 } }

/-- LTR (R432). -/
def execLtr (src : RM) (s : State) : Host.Outcome State Fault Refusal := runSeq (ltrForm src) s

/-- Stores a system value of 16 bits in memory, or of the operand size in a register (R802). -/
def storeSystem (osz : Width) (dst : RM) (v : State → Word) : M Unit := do
  let s ← readS id
  match dst with
  | .reg r => upd fun t => t.writeReg osz r ((v s).setWidth osz.bits)
  | .mem m => storeMem .b16 m ((v s).setWidth 16)

/-- SLDT (R802). -/
def sldtForm (osz : Width) (dst : RM) : M Unit := do
  needSelectors
  storeSystem osz dst fun s => s.ldtr.sel.setWidth 64

/-- SLDT (R802). -/
def execSldt (osz : Width) (dst : RM) (s : State) : Host.Outcome State Fault Refusal := runSeq (sldtForm osz dst) s

/-- STR (R802). -/
def strForm (osz : Width) (dst : RM) : M Unit := do
  needSelectors
  storeSystem osz dst fun s => s.tr.sel.setWidth 64

/-- STR (R802). -/
def execStr (osz : Width) (dst : RM) (s : State) : Host.Outcome State Fault Refusal := runSeq (strForm osz dst) s

/-- SMSW: CR0[15:0], or CR0 at the operand size for a register (R802). -/
def execSmsw (osz : Width) (dst : RM) (s : State) : Host.Outcome State Fault Refusal :=
  runSeq (storeSystem osz dst (·.cr0)) s

/-- CR0 after LMSW of `v`: bits 3:1 are replaced, PE can only be set (R428). -/
def lmswValue (cr0 : Word) (v : BitVec 16) : Word := (cr0 &&& ~~~(0xE : Word)) ||| (v.setWidth 64 &&& 0xF)

/-- LMSW (R428). -/
def lmswForm (src : RM) : M Unit := do
  needCpl0
  let v ← readRm .b16 src
  upd fun s => { s with cr0 := lmswValue s.cr0 v }

/-- LMSW (R428). -/
def execLmsw (src : RM) (s : State) : Host.Outcome State Fault Refusal := runSeq (lmswForm src) s

/-! ### Control registers (R785, R751, R752) -/

/-- #UD for a control register that does not exist: those of the parameter CR_IMPLEMENTED do, CR8 in 64-bit mode only
(R785); then #GP(0) unless CPL is 0. -/
def needCr (cr : Reg) : M Unit := do
  let s ← readS id
  raiseIf (!(Config.crImplemented.contains cr && (cr != 8 || s.is64))) udFault
  needCpl0

/-- The value of a control register; CR8 is APIC.TPR[7:4] (R785, R716), with the local APIC disabled too (DESIGN CHOICE,
log 118). -/
def State.readCr (s : State) (cr : Reg) : Word :=
  match cr.toNat with
  | 0 => s.cr0
  | 2 => s.cr2
  | 3 => s.cr3
  | 4 => s.cr4
  | _ => (s.tpr.extractLsb' 4 4).setWidth 64

/-- Writes a general register with a control or debug register: 64 bits in 64-bit mode, 32 elsewhere
(R785, R786). -/
def State.putSpecial (s : State) (r : Reg) (v : Word) : State :=
  if s.is64 then s.writeReg .b64 r v else s.writeReg .b32 r (v.setWidth 32)

/-- What a write to a control or debug register takes from a general register: 64 bits in 64-bit mode, else 32 bits
extended with zeros (R785, R786). -/
def State.getSpecial (s : State) (r : Reg) : Word := if s.is64 then s.get r else truncTo .b32 (s.get r)

/-- MOV from a control register (R785); the six status flags are open values (U22). -/
def movFromCrForm (cr r : Reg) : M Unit := do
  needCr cr
  upd fun s => s.putSpecial r (s.readCr cr)
  openFlags statusMask

/-- MOV from a control register (R785). -/
def execMovFromCr (cr r : Reg) (s : State) : Host.Outcome State Fault Refusal := runSeq (movFromCrForm cr r) s

/-- CR4.PAE, bit 5 (R57). -/
def State.pae (s : State) : Bool := s.cr4.getLsbD 5

/-- IA32_EFER.LME, bit 8 (R50). -/
def State.lme (s : State) : Bool := s.efer.getLsbD 8

/-- Whether MOV to CR0 rejects the value `v`: the reserved upper half, PG without PE, NW without CD, the consistency
checks of an activation of IA-32e mode, and the end of paging in 64-bit mode (R785, R752). -/
def State.cr0Rejects (s : State) (v : Word) : Bool :=
  let pg := v.getLsbD 31
  v.extractLsb' 32 32 != 0 || (pg && !v.getLsbD 0) || (v.getLsbD 29 && !v.getLsbD 30) ||
    (pg && !s.pg && s.lme && (!s.pae || s.cs.l || s.tr.typ == 1 || s.tr.typ == 3)) ||
    (!pg && s.pg && s.is64)

/-- The state after CR0 is written: ET reads 1, and LMA becomes LME and PG (R54, R751). The bases of GDTR, IDTR, LDTR and TR
keep all 64 bits when IA-32e mode is left and when it is activated again (R754; DESIGN CHOICE, log 129). -/
def State.putCr0 (s : State) (v : Word) : State :=
  { s with cr0 := v ||| 0x10, efer := putBit s.efer 10 (s.lme && v.getLsbD 31) }

/-- Whether MOV to CR4 rejects `v`: a bit without a name, or the end of PAE while IA-32e mode is active
(R57, R785, R752). -/
def State.cr4Rejects (s : State) (v : Word) : Bool :=
  v.extractLsb' 11 53 != 0 || (s.lma && s.pae && !v.getLsbD 5)

/-- A write to a control register, with its checks (R785); CR8 writes APIC.TPR with the local APIC disabled too (DESIGN
CHOICE, log 118). -/
def writeCr (cr : Reg) (v : Word) : M Unit := do
  let s ← readS id
  match cr.toNat with
  | 0 =>
    raiseIf (s.cr0Rejects v) gp0
    upd (·.putCr0 v)
  | 2 => upd fun t => { t with cr2 := v }
  | 3 =>
    raiseIf (s.lma && v.extractLsb' Config.paBits (52 - Config.paBits) != 0) gp0
    upd fun t => { t with cr3 := v }
  | 4 =>
    raiseIf (s.cr4Rejects v) gp0
    upd fun t => { t with cr4 := v }
  | _ =>
    raiseIf (v.extractLsb' 4 60 != 0) gp0
    upd fun t => { t with tpr := v.extractLsb' 0 4 ++ 0#4 }

/-- MOV to a control register (R785); the six status flags are open values (U22). -/
def movToCrForm (cr r : Reg) : M Unit := do
  needCr cr
  let v ← readS fun s => s.getSpecial r
  writeCr cr v
  openFlags statusMask

/-- MOV to a control register (R785). -/
def execMovToCr (cr r : Reg) (s : State) : Host.Outcome State Fault Refusal := runSeq (movToCrForm cr r) s

/-! ### Debug registers (R786) -/

/-- #UD for a debug register that does not exist: those of the parameter DR_IMPLEMENTED do, DR4 and DR5 not with
CR4.DE = 1 (R786); then #GP(0) unless CPL is 0. -/
def needDr (dr : Reg) : M Unit := do
  let s ← readS id
  raiseIf (!Config.drImplemented.contains dr || (s.cr4.getLsbD 3 && (dr == 4 || dr == 5))) udFault
  needCpl0

/-- The value of a debug register; DR4 and DR5 name DR6 and DR7 (R786). -/
def State.readDr (s : State) (dr : Reg) : Word :=
  match dr.toNat with
  | 0 => s.dr0
  | 1 => s.dr1
  | 2 => s.dr2
  | 3 => s.dr3
  | 4 => s.dr6
  | 6 => s.dr6
  | _ => s.dr7

/-- The state with a debug register written (R786). -/
def State.putDr (s : State) (dr : Reg) (v : Word) : State :=
  match dr.toNat with
  | 0 => { s with dr0 := v }
  | 1 => { s with dr1 := v }
  | 2 => { s with dr2 := v }
  | 3 => { s with dr3 := v }
  | 4 => { s with dr6 := v }
  | 6 => { s with dr6 := v }
  | _ => { s with dr7 := v }

/-- MOV from a debug register (R786); the six status flags are open values (U22). -/
def movFromDrForm (dr r : Reg) : M Unit := do
  needDr dr
  upd fun s => s.putSpecial r (s.readDr dr)
  openFlags statusMask

/-- MOV from a debug register (R786). -/
def execMovFromDr (dr r : Reg) (s : State) : Host.Outcome State Fault Refusal := runSeq (movFromDrForm dr r) s

/-- MOV to a debug register: the upper halves of DR6 and DR7 must be 0 (R786); the six status flags are open values
(U22). -/
def movToDrForm (dr r : Reg) : M Unit := do
  needDr dr
  let v ← readS fun s => s.getSpecial r
  raiseIf (decide (4 ≤ dr.toNat) && v.extractLsb' 32 32 != 0) gp0
  upd fun s => s.putDr dr v
  openFlags statusMask

/-- MOV to a debug register (R786). -/
def execMovToDr (dr r : Reg) (s : State) : Host.Outcome State Fault Refusal := runSeq (movToDrForm dr r) s

/-! ### Model-specific registers (R795) -/

/-- Reads an MSR by address, if it exists (R795). -/
def State.readMsr (s : State) (a : BitVec 32) : Option Word :=
  match a.toNat with
  | 0xC0000080 => some s.efer
  | 0xC0000081 => some s.star
  | 0xC0000082 => some s.lstar
  | 0xC0000083 => some s.cstar
  | 0xC0000084 => some s.fmask
  | 0xC0000100 => some s.fs.base
  | 0xC0000101 => some s.gs.base
  | 0xC0000102 => some s.kernelGsBase
  | _ => none

/-- The value a write of `v` leaves in IA32_EFER: LMA keeps its value (R51). -/
def State.eferAfter (s : State) (v : Word) : Word := putBit v 10 s.lma

/-- The state after an MSR is written, none where the write raises #GP(0): an MSR that does not exist, an address that
is not canonical, a reserved bit of IA32_EFER, or a change of LME under paging (R795, R752, decision D7). -/
def State.writeMsr (s : State) (a : BitVec 32) (v : Word) : Option State :=
  match a.toNat with
  | 0xC0000080 =>
    if v &&& 0xFFFFFFFFFFFFFAFE != 0 || (s.pg && v.getLsbD 8 != s.lme) then none
    else some { s with efer := s.eferAfter v }
  | 0xC0000081 => some { s with star := v }
  | 0xC0000082 => if canonical v then some { s with lstar := v } else none
  | 0xC0000083 => if canonical v then some { s with cstar := v } else none
  | 0xC0000084 => some { s with fmask := truncTo .b32 v }
  | 0xC0000100 => if canonical v then some { s with fs := { s.fs with base := v } } else none
  | 0xC0000101 => if canonical v then some { s with gs := { s.gs with base := v } } else none
  | 0xC0000102 => if canonical v then some { s with kernelGsBase := v } else none
  | _ => none

/-- The state with a 64-bit value in EDX:EAX, the upper halves of both registers cleared (R795, R803). -/
def State.putEdxEax (s : State) (v : Word) : State :=
  (s.writeReg .b32 rAX (v.extractLsb' 0 32)).writeReg .b32 rDX (v.extractLsb' 32 32)

/-- The 64-bit value in EDX:EAX (R795). -/
def State.edxEax (s : State) : Word := s.readReg .b32 rDX ++ s.readReg .b32 rAX

/-- RDMSR (R795). -/
def rdmsrForm : M Unit := do
  needCpl0
  let s ← readS id
  match s.readMsr (s.readReg .b32 rCX) with
  | none => raise gp0
  | some v => upd (·.putEdxEax v)

/-- RDMSR (R795). -/
def execRdmsr (s : State) : Host.Outcome State Fault Refusal := runSeq rdmsrForm s

/-- WRMSR (R795). -/
def wrmsrForm : M Unit := do
  needCpl0
  let s ← readS id
  match s.writeMsr (s.readReg .b32 rCX) s.edxEax with
  | none => raise gp0
  | some t => upd fun _ => t

/-- WRMSR (R795). -/
def execWrmsr (s : State) : Host.Outcome State Fault Refusal := runSeq wrmsrForm s

/-- RDTSC: #GP(0) with CR4.TSD = 1 above level 0 (R803). -/
def rdtscForm : M Unit := do
  let s ← readS id
  raiseIf (s.cr4.getLsbD 2 && s.cpl != 0) gp0
  upd fun t => t.putEdxEax t.tsc

/-- RDTSC (R803). -/
def execRdtsc (s : State) : Host.Outcome State Fault Refusal := runSeq rdtscForm s

/-! ### System calls (R791 to R794) -/

/-- #UD outside 64-bit mode. -/
def needLong64 : M Unit := do
  let b ← readS State.is64
  raiseIf (!b) udFault

/-- SWAPGS (R791). -/
def swapgsForm : M Unit := do
  needLong64
  needCpl0
  upd fun s => { s with gs := { s.gs with base := s.kernelGsBase }, kernelGsBase := s.gs.base }

/-- SWAPGS (R791). -/
def execSwapgs (s : State) : Host.Outcome State Fault Refusal := runSeq swapgsForm s

/-- A flat code segment as SYSCALL and SYSRET load it: base 0, limit FFFFFH in pages, execute/read and accessed
(R792, R793). -/
def flatCode (sel : BitVec 16) (dpl : BitVec 2) (long : Bool) : SegReg :=
  { sel := sel, base := 0, limit := 0xFFFFFFFF, typ := 0xB, s := true, dpl := dpl, p := true, avl := false, l := long,
    db := !long, g := true, unusable := false }

/-- A flat stack segment as SYSCALL and SYSRET load it: base 0, limit FFFFFH in pages, read/write and accessed
(R792, R793). -/
def flatStack (sel : BitVec 16) (dpl : BitVec 2) : SegReg :=
  { sel := sel, base := 0, limit := 0xFFFFFFFF, typ := 3, s := true, dpl := dpl, p := true, avl := false, l := false,
    db := true, g := true, unusable := false }

/-- Whether the mode has SYSCALL and SYSRET: 64-bit mode, and compatibility mode where the parameter SYSCALL_IN_COMPAT
says so (R66, R792). -/
def State.syscallMode (s : State) : Bool := s.is64 || (Config.syscallInCompat && s.mode == .compat)

/-- #UD unless SYSCALL and SYSRET are enabled: the mode has them and IA32_EFER.SCE = 1 (R792). -/
def needSyscall : M Unit := do
  let s ← readS id
  raiseIf (!(s.syscallMode && s.efer.getLsbD 0)) udFault

/-- The target of SYSCALL: LSTAR from 64-bit mode; from compatibility mode CSTAR, if the parameter CSTAR_AVAILABLE says
that it is usable (R66, R792). -/
def State.syscallTarget (s : State) : Option Word :=
  if s.is64 then some s.lstar else if Config.cstarAvailable then some s.cstar else none

/-- RFLAGS after SYSCALL: the bits of FMASK and RF are cleared, the reserved bit 1 stays 1 (R792, U3). -/
def State.syscallFlags (s : State) : BitVec 32 :=
  putBit (s.rflags &&& ~~~(s.fmask.extractLsb' 0 32)) fRF false ||| 2

/-- The state SYSCALL leads to, at its target `rip` (R792). -/
def State.afterSyscall (s : State) (rip : Word) : State :=
  let sel := s.star.extractLsb' 32 16
  let t := (s.put rCX s.nextPc).put 11 (s.rflags.setWidth 64)
  { t.setRip rip with
    rflags := s.syscallFlags, cs := flatCode (sel &&& 0xFFFC) 0 true, ss := flatStack (sel + 8) 0 }

/-- SYSCALL (R792). -/
def syscallForm : M Unit := do
  needSyscall
  match ← readS State.syscallTarget with
  | none => raise udFault
  | some rip => upd (·.afterSyscall rip)

/-- SYSCALL (R792). -/
def execSyscall (s : State) : Host.Outcome State Fault Refusal := runInstr syscallForm s

/-- RFLAGS after SYSRET: R11 without RF, VM and the reserved bits (R793). -/
def State.sysretFlags (s : State) : BitVec 32 := ((s.get 11).extractLsb' 0 32 &&& 0x003C7FD7) ||| 2

/-- The state SYSRET leads to: 64-bit mode with REX.W, else compatibility mode (R793). -/
def State.afterSysret (s : State) (rexw : Bool) : State :=
  let sel := s.star.extractLsb' 48 16
  let rip := if rexw then s.get rCX else truncTo .b32 (s.get rCX)
  { s.setRip rip with
    rflags := s.sysretFlags
    cs := flatCode ((if rexw then sel + 16 else sel) ||| 3) 3 rexw
    ss := flatStack ((sel + 8) ||| 3) 3 }

/-- SYSRET (R793). -/
def sysretForm (rexw : Bool) : M Unit := do
  needSyscall
  needCpl0
  let s ← readS id
  raiseIf (rexw && !canonical (s.get rCX)) gp0
  upd (·.afterSysret rexw)

/-- SYSRET (R793). -/
def execSysret (rexw : Bool) (s : State) : Host.Outcome State Fault Refusal := runInstr (sysretForm rexw) s

/-- SYSENTER: refused, the source gives neither its MSRs nor its operation (R794). -/
def execSysenter (s : State) : Host.Outcome State Fault Refusal := runInstr (refuse .sysenterUnspecified) s
/-- SYSEXIT: refused, the source gives neither its MSRs nor its operation (R794). -/
def execSysexit (s : State) : Host.Outcome State Fault Refusal := runInstr (refuse .sysexitUnspecified) s
/-- RDPMC: refused, no performance counter is described (R803). -/
def execRdpmc (s : State) : Host.Outcome State Fault Refusal := runInstr (refuse .performanceCounters) s
/-- MONITOR: refused, the monitoring hardware is not described (R804). -/
def execMonitor (s : State) : Host.Outcome State Fault Refusal := runInstr (refuse .monitorHardware) s
/-- MWAIT: refused, the monitoring hardware is not described (R804). -/
def execMwait (s : State) : Host.Outcome State Fault Refusal := runInstr (refuse .mwaitHardware) s

/-- RSM: #UD, as system management mode is never entered (R804, decision D14; D13 lists RSM among the refused: DEDUCED,
log 99). -/
def execRsm (s : State) : Host.Outcome State Fault Refusal := runInstr (raise udFault) s

end Sys2Proof.Machine
end

