-- ==== Sys2Proof/Machine/Dispatch.lean ====
section
/-! DEFINITION. The meaning of every instruction: one arm for each constructor of `Instr`. -/

namespace Sys2Proof.Machine

open Sys2Proof

/-- The meaning of an instruction in a state. -/
def exec (i : Instr) (s : State) : Host.Outcome State Fault Refusal :=
  match i with
  | .add a => Sys2Proof.Machine.execAdd a s
  | .adc a => Sys2Proof.Machine.execAdc a s
  | .and a => Sys2Proof.Machine.execAnd a s
  | .cmp a => Sys2Proof.Machine.execCmp a s
  | .or a => Sys2Proof.Machine.execOr a s
  | .sbb a => Sys2Proof.Machine.execSbb a s
  | .sub a => Sys2Proof.Machine.execSub a s
  | .xor a => Sys2Proof.Machine.execXor a s
  | .test a => Sys2Proof.Machine.execTest a s
  | .inc a => Sys2Proof.Machine.execInc a s
  | .dec a => Sys2Proof.Machine.execDec a s
  | .not w rm => Sys2Proof.Machine.execNot w rm s
  | .neg w rm => Sys2Proof.Machine.execNeg w rm s
  | .mul w rm => Sys2Proof.Machine.execMul w rm s
  | .div w rm => Sys2Proof.Machine.execDiv w rm s
  | .idiv w rm => Sys2Proof.Machine.execIdiv w rm s
  | .imul a => Sys2Proof.Machine.execImul a s
  | .aaa => Sys2Proof.Machine.execAaa s
  | .aas => Sys2Proof.Machine.execAas s
  | .daa => Sys2Proof.Machine.execDaa s
  | .das => Sys2Proof.Machine.execDas s
  | .aad base => Sys2Proof.Machine.execAad base s
  | .aam base => Sys2Proof.Machine.execAam base s
  | .cbw w => Sys2Proof.Machine.execCbw w s
  | .cdqe => Sys2Proof.Machine.execCdqe s
  | .cwd w => Sys2Proof.Machine.execCwd w s
  | .cqo => Sys2Proof.Machine.execCqo s
  | .bswap w r => Sys2Proof.Machine.execBswap w r s
  | .lahf => Sys2Proof.Machine.execLahf s
  | .sahf => Sys2Proof.Machine.execSahf s
  | .lea w r src => Sys2Proof.Machine.execLea w r src s
  | .cmovo w r src => Sys2Proof.Machine.execCmovo w r src s
  | .cmovno w r src => Sys2Proof.Machine.execCmovno w r src s
  | .cmovb w r src => Sys2Proof.Machine.execCmovb w r src s
  | .cmovae w r src => Sys2Proof.Machine.execCmovae w r src s
  | .cmove w r src => Sys2Proof.Machine.execCmove w r src s
  | .cmovne w r src => Sys2Proof.Machine.execCmovne w r src s
  | .cmovbe w r src => Sys2Proof.Machine.execCmovbe w r src s
  | .cmova w r src => Sys2Proof.Machine.execCmova w r src s
  | .cmovs w r src => Sys2Proof.Machine.execCmovs w r src s
  | .cmovns w r src => Sys2Proof.Machine.execCmovns w r src s
  | .cmovp w r src => Sys2Proof.Machine.execCmovp w r src s
  | .cmovnp w r src => Sys2Proof.Machine.execCmovnp w r src s
  | .cmovl w r src => Sys2Proof.Machine.execCmovl w r src s
  | .cmovge w r src => Sys2Proof.Machine.execCmovge w r src s
  | .cmovle w r src => Sys2Proof.Machine.execCmovle w r src s
  | .cmovg w r src => Sys2Proof.Machine.execCmovg w r src s
  | .cmpxchg w dst src => Sys2Proof.Machine.execCmpxchg w dst src s
  | .cmpxchg8b dst => Sys2Proof.Machine.execCmpxchg8b dst s
  | .cmpxchg16b dst => Sys2Proof.Machine.execCmpxchg16b dst s
  | .xchg a => Sys2Proof.Machine.execXchg a s
  | .xadd w dst src => Sys2Proof.Machine.execXadd w dst src s
  | .nop pause => Sys2Proof.Machine.execNop pause s
  | .bsf w r src => Sys2Proof.Machine.execBsf w r src s
  | .bsr w r src => Sys2Proof.Machine.execBsr w r src s
  | .bt w dst bit => Sys2Proof.Machine.execBt w dst bit s
  | .btc w dst bit => Sys2Proof.Machine.execBtc w dst bit s
  | .btr w dst bit => Sys2Proof.Machine.execBtr w dst bit s
  | .bts w dst bit => Sys2Proof.Machine.execBts w dst bit s
  | .jo osz rel => Sys2Proof.Machine.execJo osz rel s
  | .jno osz rel => Sys2Proof.Machine.execJno osz rel s
  | .jb osz rel => Sys2Proof.Machine.execJb osz rel s
  | .jae osz rel => Sys2Proof.Machine.execJae osz rel s
  | .je osz rel => Sys2Proof.Machine.execJe osz rel s
  | .jne osz rel => Sys2Proof.Machine.execJne osz rel s
  | .jbe osz rel => Sys2Proof.Machine.execJbe osz rel s
  | .ja osz rel => Sys2Proof.Machine.execJa osz rel s
  | .js osz rel => Sys2Proof.Machine.execJs osz rel s
  | .jns osz rel => Sys2Proof.Machine.execJns osz rel s
  | .jp osz rel => Sys2Proof.Machine.execJp osz rel s
  | .jnp osz rel => Sys2Proof.Machine.execJnp osz rel s
  | .jl osz rel => Sys2Proof.Machine.execJl osz rel s
  | .jge osz rel => Sys2Proof.Machine.execJge osz rel s
  | .jle osz rel => Sys2Proof.Machine.execJle osz rel s
  | .jg osz rel => Sys2Proof.Machine.execJg osz rel s
  | .jcxz osz asz rel => Sys2Proof.Machine.execJcxz osz asz rel s
  | .loop osz asz rel => Sys2Proof.Machine.execLoop osz asz rel s
  | .loope osz asz rel => Sys2Proof.Machine.execLoope osz asz rel s
  | .loopne osz asz rel => Sys2Proof.Machine.execLoopne osz asz rel s
  | .jmpRel osz rel => Sys2Proof.Machine.execJmpRel osz rel s
  | .jmpInd osz src => Sys2Proof.Machine.execJmpInd osz src s
  | .jmpFarPtr osz off sel => Sys2Proof.Machine.execJmpFarPtr osz off sel s
  | .jmpFarMem osz src => Sys2Proof.Machine.execJmpFarMem osz src s
  | .callRel osz rel => Sys2Proof.Machine.execCallRel osz rel s
  | .callInd osz src => Sys2Proof.Machine.execCallInd osz src s
  | .callFarPtr osz off sel => Sys2Proof.Machine.execCallFarPtr osz off sel s
  | .callFarMem osz src => Sys2Proof.Machine.execCallFarMem osz src s
  | .ret osz pop => Sys2Proof.Machine.execRet osz pop s
  | .retFar osz pop => Sys2Proof.Machine.execRetFar osz pop s
  | .enter osz size level => Sys2Proof.Machine.execEnter osz size level s
  | .leave osz => Sys2Proof.Machine.execLeave osz s
  | .bound w r src => Sys2Proof.Machine.execBound w r src s
  | .int vector => Sys2Proof.Machine.execInt vector s
  | .int3 => Sys2Proof.Machine.execInt3 s
  | .into => Sys2Proof.Machine.execInto s
  | .iret osz => Sys2Proof.Machine.execIret osz s
  | .iretq => Sys2Proof.Machine.execIretq s
  | .cmpsb a => Sys2Proof.Machine.execCmpsb a s
  | .cmpsw osz a => Sys2Proof.Machine.execCmpsw osz a s
  | .cmpsq a => Sys2Proof.Machine.execCmpsq a s
  | .lodsb a => Sys2Proof.Machine.execLodsb a s
  | .lodsw osz a => Sys2Proof.Machine.execLodsw osz a s
  | .lodsq a => Sys2Proof.Machine.execLodsq a s
  | .movsb a => Sys2Proof.Machine.execMovsb a s
  | .movsw osz a => Sys2Proof.Machine.execMovsw osz a s
  | .movsq a => Sys2Proof.Machine.execMovsq a s
  | .stosb a => Sys2Proof.Machine.execStosb a s
  | .stosw osz a => Sys2Proof.Machine.execStosw osz a s
  | .stosq a => Sys2Proof.Machine.execStosq a s
  | .scasb a => Sys2Proof.Machine.execScasb a s
  | .scasw osz a => Sys2Proof.Machine.execScasw osz a s
  | .scasq a => Sys2Proof.Machine.execScasq a s
  | .insb a => Sys2Proof.Machine.execInsb a s
  | .insw osz a => Sys2Proof.Machine.execInsw osz a s
  | .outsb a => Sys2Proof.Machine.execOutsb a s
  | .outsw osz a => Sys2Proof.Machine.execOutsw osz a s
  | .inp w port => Sys2Proof.Machine.execInp w port s
  | .outp w port => Sys2Proof.Machine.execOutp w port s
  | .arpl dst src => Sys2Proof.Machine.execArpl dst src s
  | .clc => Sys2Proof.Machine.execClc s
  | .cld => Sys2Proof.Machine.execCld s
  | .cli => Sys2Proof.Machine.execCli s
  | .clts => Sys2Proof.Machine.execClts s
  | .cmc => Sys2Proof.Machine.execCmc s
  | .stc => Sys2Proof.Machine.execStc s
  | .std => Sys2Proof.Machine.execStd s
  | .sti => Sys2Proof.Machine.execSti s
  | .clflush m => Sys2Proof.Machine.execClflush m s
  | .cpuid => Sys2Proof.Machine.execCpuid s
  | .hlt => Sys2Proof.Machine.execHlt s
  | .invd => Sys2Proof.Machine.execInvd s
  | .invlpg m => Sys2Proof.Machine.execInvlpg m s
  | .lfence => Sys2Proof.Machine.execLfence s
  | .mfence => Sys2Proof.Machine.execMfence s
  | .sfence => Sys2Proof.Machine.execSfence s
  | .wbinvd => Sys2Proof.Machine.execWbinvd s
  | .lar w r src => Sys2Proof.Machine.execLar w r src s
  | .lsl w r src => Sys2Proof.Machine.execLsl w r src s
  | .lds w r src => Sys2Proof.Machine.execLds w r src s
  | .les w r src => Sys2Proof.Machine.execLes w r src s
  | .lss w r src => Sys2Proof.Machine.execLss w r src s
  | .lfs w r src => Sys2Proof.Machine.execLfs w r src s
  | .lgs w r src => Sys2Proof.Machine.execLgs w r src s
  | .lgdt osz src => Sys2Proof.Machine.execLgdt osz src s
  | .lidt osz src => Sys2Proof.Machine.execLidt osz src s
  | .lldt src => Sys2Proof.Machine.execLldt src s
  | .ltr src => Sys2Proof.Machine.execLtr src s
  | .lmsw src => Sys2Proof.Machine.execLmsw src s
  | .sgdt m => Sys2Proof.Machine.execSgdt m s
  | .sidt m => Sys2Proof.Machine.execSidt m s
  | .sldt osz dst => Sys2Proof.Machine.execSldt osz dst s
  | .str osz dst => Sys2Proof.Machine.execStr osz dst s
  | .smsw osz dst => Sys2Proof.Machine.execSmsw osz dst s
  | .verr src => Sys2Proof.Machine.execVerr src s
  | .verw src => Sys2Proof.Machine.execVerw src s
  | .lock t => Sys2Proof.Machine.execLock t s
  | .fxsave rexw m => Sys2Proof.Machine.execFxsave rexw m s
  | .fxrstor rexw m => Sys2Proof.Machine.execFxrstor rexw m s
  | .emms => Sys2Proof.Machine.execEmms s
  | .f2xm1 => Sys2Proof.Machine.execF2xm1 s
  | .fabs => Sys2Proof.Machine.execFabs s
  | .fadd a => Sys2Proof.Machine.execFadd a s
  | .faddp k => Sys2Proof.Machine.execFaddp k s
  | .fiadd a => Sys2Proof.Machine.execFiadd a s
  | .fmul a => Sys2Proof.Machine.execFmul a s
  | .fmulp k => Sys2Proof.Machine.execFmulp k s
  | .fimul a => Sys2Proof.Machine.execFimul a s
  | .fsub a => Sys2Proof.Machine.execFsub a s
  | .fsubp k => Sys2Proof.Machine.execFsubp k s
  | .fisub a => Sys2Proof.Machine.execFisub a s
  | .fsubr a => Sys2Proof.Machine.execFsubr a s
  | .fsubrp k => Sys2Proof.Machine.execFsubrp k s
  | .fisubr a => Sys2Proof.Machine.execFisubr a s
  | .fdiv a => Sys2Proof.Machine.execFdiv a s
  | .fdivp k => Sys2Proof.Machine.execFdivp k s
  | .fidiv a => Sys2Proof.Machine.execFidiv a s
  | .fdivr a => Sys2Proof.Machine.execFdivr a s
  | .fdivrp k => Sys2Proof.Machine.execFdivrp k s
  | .fidivr a => Sys2Proof.Machine.execFidivr a s
  | .fbld m => Sys2Proof.Machine.execFbld m s
  | .fbstp m => Sys2Proof.Machine.execFbstp m s
  | .fchs => Sys2Proof.Machine.execFchs s
  | .fnclex => Sys2Proof.Machine.execFnclex s
  | .fcmovb k => Sys2Proof.Machine.execFcmovb k s
  | .fcmove k => Sys2Proof.Machine.execFcmove k s
  | .fcmovbe k => Sys2Proof.Machine.execFcmovbe k s
  | .fcmovu k => Sys2Proof.Machine.execFcmovu k s
  | .fcmovnb k => Sys2Proof.Machine.execFcmovnb k s
  | .fcmovne k => Sys2Proof.Machine.execFcmovne k s
  | .fcmovnbe k => Sys2Proof.Machine.execFcmovnbe k s
  | .fcmovnu k => Sys2Proof.Machine.execFcmovnu k s
  | .fcom a => Sys2Proof.Machine.execFcom a s
  | .fcomp a => Sys2Proof.Machine.execFcomp a s
  | .fcompp => Sys2Proof.Machine.execFcompp s
  | .fcomi k => Sys2Proof.Machine.execFcomi k s
  | .fcomip k => Sys2Proof.Machine.execFcomip k s
  | .fucomi k => Sys2Proof.Machine.execFucomi k s
  | .fucomip k => Sys2Proof.Machine.execFucomip k s
  | .fcos => Sys2Proof.Machine.execFcos s
  | .fdecstp => Sys2Proof.Machine.execFdecstp s
  | .ffree k => Sys2Proof.Machine.execFfree k s
  | .ficom a => Sys2Proof.Machine.execFicom a s
  | .ficomp a => Sys2Proof.Machine.execFicomp a s
  | .fild a => Sys2Proof.Machine.execFild a s
  | .fincstp => Sys2Proof.Machine.execFincstp s
  | .fninit => Sys2Proof.Machine.execFninit s
  | .fist a => Sys2Proof.Machine.execFist a s
  | .fistp a => Sys2Proof.Machine.execFistp a s
  | .fisttp a => Sys2Proof.Machine.execFisttp a s
  | .fld a => Sys2Proof.Machine.execFld a s
  | .fld1 => Sys2Proof.Machine.execFld1 s
  | .fldl2t => Sys2Proof.Machine.execFldl2t s
  | .fldl2e => Sys2Proof.Machine.execFldl2e s
  | .fldpi => Sys2Proof.Machine.execFldpi s
  | .fldlg2 => Sys2Proof.Machine.execFldlg2 s
  | .fldln2 => Sys2Proof.Machine.execFldln2 s
  | .fldz => Sys2Proof.Machine.execFldz s
  | .fldcw m => Sys2Proof.Machine.execFldcw m s
  | .fldenv osz m => Sys2Proof.Machine.execFldenv osz m s
  | .fnop => Sys2Proof.Machine.execFnop s
  | .fpatan => Sys2Proof.Machine.execFpatan s
  | .fprem => Sys2Proof.Machine.execFprem s
  | .fprem1 => Sys2Proof.Machine.execFprem1 s
  | .fptan => Sys2Proof.Machine.execFptan s
  | .frndint => Sys2Proof.Machine.execFrndint s
  | .frstor osz m => Sys2Proof.Machine.execFrstor osz m s
  | .fnsave osz m => Sys2Proof.Machine.execFnsave osz m s
  | .fscale => Sys2Proof.Machine.execFscale s
  | .fsin => Sys2Proof.Machine.execFsin s
  | .fsincos => Sys2Proof.Machine.execFsincos s
  | .fsqrt => Sys2Proof.Machine.execFsqrt s
  | .fst a => Sys2Proof.Machine.execFst a s
  | .fstp a => Sys2Proof.Machine.execFstp a s
  | .fnstcw m => Sys2Proof.Machine.execFnstcw m s
  | .fnstenv osz m => Sys2Proof.Machine.execFnstenv osz m s
  | .fnstsw a => Sys2Proof.Machine.execFnstsw a s
  | .ftst => Sys2Proof.Machine.execFtst s
  | .fucom k => Sys2Proof.Machine.execFucom k s
  | .fucomp k => Sys2Proof.Machine.execFucomp k s
  | .fucompp => Sys2Proof.Machine.execFucompp s
  | .wait => Sys2Proof.Machine.execWait s
  | .fxam => Sys2Proof.Machine.execFxam s
  | .fxch k => Sys2Proof.Machine.execFxch k s
  | .fxtract => Sys2Proof.Machine.execFxtract s
  | .fyl2x => Sys2Proof.Machine.execFyl2x s
  | .fyl2xp1 => Sys2Proof.Machine.execFyl2xp1 s
  | .addpd dst src => Sys2Proof.Machine.execAddpd dst src s
  | .addps dst src => Sys2Proof.Machine.execAddps dst src s
  | .addsd dst src => Sys2Proof.Machine.execAddsd dst src s
  | .addss dst src => Sys2Proof.Machine.execAddss dst src s
  | .addsubpd dst src => Sys2Proof.Machine.execAddsubpd dst src s
  | .addsubps dst src => Sys2Proof.Machine.execAddsubps dst src s
  | .haddpd dst src => Sys2Proof.Machine.execHaddpd dst src s
  | .haddps dst src => Sys2Proof.Machine.execHaddps dst src s
  | .hsubpd dst src => Sys2Proof.Machine.execHsubpd dst src s
  | .hsubps dst src => Sys2Proof.Machine.execHsubps dst src s
  | .divpd dst src => Sys2Proof.Machine.execDivpd dst src s
  | .divps dst src => Sys2Proof.Machine.execDivps dst src s
  | .divsd dst src => Sys2Proof.Machine.execDivsd dst src s
  | .divss dst src => Sys2Proof.Machine.execDivss dst src s
  | .andpd dst src => Sys2Proof.Machine.execAndpd dst src s
  | .andps dst src => Sys2Proof.Machine.execAndps dst src s
  | .andnpd dst src => Sys2Proof.Machine.execAndnpd dst src s
  | .andnps dst src => Sys2Proof.Machine.execAndnps dst src s
  | .cmppd dst src pred => Sys2Proof.Machine.execCmppd dst src pred s
  | .cmpps dst src pred => Sys2Proof.Machine.execCmpps dst src pred s
  | .cmpsd dst src pred => Sys2Proof.Machine.execCmpsd dst src pred s
  | .cmpss dst src pred => Sys2Proof.Machine.execCmpss dst src pred s
  | .comisd dst src => Sys2Proof.Machine.execComisd dst src s
  | .comiss dst src => Sys2Proof.Machine.execComiss dst src s
  | .cvtdq2pd dst src => Sys2Proof.Machine.execCvtdq2pd dst src s
  | .cvtdq2ps dst src => Sys2Proof.Machine.execCvtdq2ps dst src s
  | .cvtpd2dq dst src => Sys2Proof.Machine.execCvtpd2dq dst src s
  | .cvtpd2ps dst src => Sys2Proof.Machine.execCvtpd2ps dst src s
  | .cvtps2dq dst src => Sys2Proof.Machine.execCvtps2dq dst src s
  | .cvtps2pd dst src => Sys2Proof.Machine.execCvtps2pd dst src s
  | .cvttpd2dq dst src => Sys2Proof.Machine.execCvttpd2dq dst src s
  | .cvttps2dq dst src => Sys2Proof.Machine.execCvttps2dq dst src s
  | .cvtpd2pi dst src => Sys2Proof.Machine.execCvtpd2pi dst src s
  | .cvtps2pi dst src => Sys2Proof.Machine.execCvtps2pi dst src s
  | .cvttpd2pi dst src => Sys2Proof.Machine.execCvttpd2pi dst src s
  | .cvttps2pi dst src => Sys2Proof.Machine.execCvttps2pi dst src s
  | .cvtpi2pd dst src => Sys2Proof.Machine.execCvtpi2pd dst src s
  | .cvtpi2ps dst src => Sys2Proof.Machine.execCvtpi2ps dst src s
  | .cvtsd2si w dst src => Sys2Proof.Machine.execCvtsd2si w dst src s
  | .cvttsd2si w dst src => Sys2Proof.Machine.execCvttsd2si w dst src s
  | .cvtss2si w dst src => Sys2Proof.Machine.execCvtss2si w dst src s
  | .cvttss2si w dst src => Sys2Proof.Machine.execCvttss2si w dst src s
  | .cvtsd2ss dst src => Sys2Proof.Machine.execCvtsd2ss dst src s
  | .cvtss2sd dst src => Sys2Proof.Machine.execCvtss2sd dst src s
  | .cvtsi2sd w dst src => Sys2Proof.Machine.execCvtsi2sd w dst src s
  | .cvtsi2ss w dst src => Sys2Proof.Machine.execCvtsi2ss w dst src s
  | .lddqu dst src => Sys2Proof.Machine.execLddqu dst src s
  | .ldmxcsr m => Sys2Proof.Machine.execLdmxcsr m s
  | .mov a => Sys2Proof.Machine.execMov a s
  | .movMoffs store w seg asz off => Sys2Proof.Machine.execMovMoffs store w seg asz off s
  | .movFromCr cr r => Sys2Proof.Machine.execMovFromCr cr r s
  | .movToCr cr r => Sys2Proof.Machine.execMovToCr cr r s
  | .movFromDr dr r => Sys2Proof.Machine.execMovFromDr dr r s
  | .movToDr dr r => Sys2Proof.Machine.execMovToDr dr r s
  | .movFromSreg osz dst sr => Sys2Proof.Machine.execMovFromSreg osz dst sr s
  | .movToSreg sr src => Sys2Proof.Machine.execMovToSreg sr src s
  | .movsxd w r src => Sys2Proof.Machine.execMovsxd w r src s
  | .movzx w sw r src => Sys2Proof.Machine.execMovzx w sw r src s
  | .movsx w sw r src => Sys2Proof.Machine.execMovsx w sw r src s
  | .push a => Sys2Proof.Machine.execPush a s
  | .pop a => Sys2Proof.Machine.execPop a s
  | .pushf osz => Sys2Proof.Machine.execPushf osz s
  | .popf osz => Sys2Proof.Machine.execPopf osz s
  | .pusha osz => Sys2Proof.Machine.execPusha osz s
  | .popa osz => Sys2Proof.Machine.execPopa osz s
  | .swapgs => Sys2Proof.Machine.execSwapgs s
  | .syscall => Sys2Proof.Machine.execSyscall s
  | .sysret rexw => Sys2Proof.Machine.execSysret rexw s
  | .sysenter => Sys2Proof.Machine.execSysenter s
  | .sysexit => Sys2Proof.Machine.execSysexit s
  | .wrmsr => Sys2Proof.Machine.execWrmsr s
  | .rdmsr => Sys2Proof.Machine.execRdmsr s
  | .rol w rm cnt => Sys2Proof.Machine.execRol w rm cnt s
  | .ror w rm cnt => Sys2Proof.Machine.execRor w rm cnt s
  | .rcl w rm cnt => Sys2Proof.Machine.execRcl w rm cnt s
  | .rcr w rm cnt => Sys2Proof.Machine.execRcr w rm cnt s
  | .shl w rm cnt => Sys2Proof.Machine.execShl w rm cnt s
  | .shr w rm cnt => Sys2Proof.Machine.execShr w rm cnt s
  | .sar w rm cnt => Sys2Proof.Machine.execSar w rm cnt s
  | .shld w dst src cnt => Sys2Proof.Machine.execShld w dst src cnt s
  | .shrd w dst src cnt => Sys2Proof.Machine.execShrd w dst src cnt s
  | .ud2 => Sys2Proof.Machine.execUd2 s
  | .seto dst => Sys2Proof.Machine.execSeto dst s
  | .setno dst => Sys2Proof.Machine.execSetno dst s
  | .setb dst => Sys2Proof.Machine.execSetb dst s
  | .setae dst => Sys2Proof.Machine.execSetae dst s
  | .sete dst => Sys2Proof.Machine.execSete dst s
  | .setne dst => Sys2Proof.Machine.execSetne dst s
  | .setbe dst => Sys2Proof.Machine.execSetbe dst s
  | .seta dst => Sys2Proof.Machine.execSeta dst s
  | .sets dst => Sys2Proof.Machine.execSets dst s
  | .setns dst => Sys2Proof.Machine.execSetns dst s
  | .setp dst => Sys2Proof.Machine.execSetp dst s
  | .setnp dst => Sys2Proof.Machine.execSetnp dst s
  | .setl dst => Sys2Proof.Machine.execSetl dst s
  | .setge dst => Sys2Proof.Machine.execSetge dst s
  | .setle dst => Sys2Proof.Machine.execSetle dst s
  | .setg dst => Sys2Proof.Machine.execSetg dst s
  | .rdtsc => Sys2Proof.Machine.execRdtsc s
  | .rdpmc => Sys2Proof.Machine.execRdpmc s
  | .monitor => Sys2Proof.Machine.execMonitor s
  | .mwait => Sys2Proof.Machine.execMwait s
  | .rsm => Sys2Proof.Machine.execRsm s
  | .xlat asz seg => Sys2Proof.Machine.execXlat asz seg s

end Sys2Proof.Machine
end

