-- ==== Sys2Proof/WellFormed.lean ====
section
/-! DEFINITION. Which instructions have an encoding in a code size, in the form the encoder of Sys2Proof/Decode.lean
writes (30_encoding.md). Every field of an instruction is checked: register numbers, operand, address and stack sizes,
memory operands, byte registers beside a REX prefix, displacements and pointers. -/

namespace Sys2Proof

open Machine (CodeSize)

/-- A register number above 7 needs a REX bit, so 64-bit mode (R183). -/
def okReg (c : CodeSize) (r : Reg) : Bool := c == .c64 || !r.getLsbD 3

/-- The operand sizes of a code size (R178). -/
def okOsz (c : CodeSize) (w : Width) : Bool :=
  match w with
  | .b8 => false
  | .b64 => c == .c64
  | _ => true

/-- A byte, or an operand size (R179). -/
def okWidth (c : CodeSize) (w : Width) : Bool := w == .b8 || okOsz c w

/-- The operand sizes of the stack instructions (R198). -/
def okStack (c : CodeSize) (w : Width) : Bool :=
  match w with
  | .b8 => false
  | .b16 => true
  | .b32 => c != .c64
  | .b64 => c == .c64

/-- The operand sizes of the near branches (R199). -/
def okNear (c : CodeSize) (w : Width) : Bool :=
  match w with
  | .b8 => false
  | .b64 => c == .c64
  | _ => c != .c64

/-- The 16- and 32-bit operand sizes of an instruction without a 64-bit form. -/
def okHalf (w : Width) : Bool := w == .b16 || w == .b32

/-- The data sizes of the port instructions (R372). -/
def okPort (w : Width) : Bool := w != .b64

/-- The address sizes of a code size (R177). -/
def okAsz (c : CodeSize) (a : ASize) : Bool :=
  match a with
  | .a16 => c != .c64
  | .a32 => true
  | .a64 => c == .c64

/-- The eight base and index pairs of the 16-bit address forms by their r/m field, 6 being BP alone (R112, R190). -/
def form16Of (b : Reg) (i : Option Index) : Option (BitVec 3) :=
  match b.toNat, i with
  | 3, some { reg := 6, scale := 0 } => some 0
  | 3, some { reg := 7, scale := 0 } => some 1
  | 5, some { reg := 6, scale := 0 } => some 2
  | 5, some { reg := 7, scale := 0 } => some 3
  | 6, none => some 4
  | 7, none => some 5
  | 5, none => some 6
  | 3, none => some 7
  | _, _ => none

/-- Whether a displacement is the sign extension of its low `n` bits (R191). -/
def okDisp (n : Nat) (d : Word) : Bool := (d.setWidth n).signExtend 64 == d

/-- An index register has a number other than 4 (R187). -/
def okIndex (c : CodeSize) : Option Index → Bool
  | none => true
  | some i => okReg c i.reg && i.reg != 4

/-- A memory operand that has a ModR/M encoding (R186 to R191). -/
def okMem (c : CodeSize) (m : Mem) : Bool :=
  okAsz c m.asz &&
  (if m.asz = .a16 then
    okDisp 16 m.disp && (match m.base with
      | .none => m.index.isNone
      | .reg b => (form16Of b m.index).isSome
      | .rip => false)
  else
    okDisp 32 m.disp && okIndex c m.index && (match m.base with
      | .none => true
      | .reg b => okReg c b
      | .rip => c == .c64 && m.index.isNone))

/-- An operand of 16, 32 or 64 bits, or of XMM registers. -/
def okRm (c : CodeSize) : RM → Bool
  | .reg r => okReg c r
  | .mem m => okMem c m

/-- An operand of MMX registers. -/
def okMm (c : CodeSize) : MM → Bool
  | .reg _ => true
  | .mem m => okMem c m

/-- A general register operand: the byte registers 4 to 7 need a REX prefix, the high byte registers are byte operands
(R31, R184). -/
def okG (c : CodeSize) (w : Width) : GReg → Bool
  | .full r => okReg c r && (w != .b8 || c == .c64 || !r.getLsbD 2)
  | .high _ => w == .b8

/-- An r/m operand of any width. -/
def okRmb (c : CodeSize) (w : Width) : RMB → Bool
  | .reg g => okG c w g
  | .mem m => okMem c m

/-- Whether a register operand is AH, CH, DH or BH. -/
def isHigh : GReg → Bool
  | .high _ => true
  | .full _ => false

/-- Whether an r/m operand is AH, CH, DH or BH. -/
def isHighRm : RMB → Bool
  | .reg g => isHigh g
  | .mem _ => false

/-- Whether a register operand needs a REX prefix (R183, R184). -/
def rexG (w : Width) : GReg → Bool
  | .full r => r.getLsbD 3 || (w == .b8 && r.getLsbD 2)
  | .high _ => false

/-- Whether a memory operand needs a REX prefix (R183). -/
def rexMem (m : Mem) : Bool :=
  (match m.base with | .reg b => b.getLsbD 3 | _ => false) ||
  (match m.index with | some i => i.reg.getLsbD 3 | none => false)

/-- Whether an r/m operand needs a REX prefix (R183, R184). -/
def rexRmb (w : Width) : RMB → Bool
  | .reg g => rexG w g
  | .mem m => rexMem m

/-- AH, CH, DH and BH cannot stand beside a REX prefix (R184). -/
def okPair (c : CodeSize) (w : Width) (rm : RMB) (g : GReg) : Bool :=
  okWidth c w && okRmb c w rm && okG c w g && !((isHigh g || isHighRm rm) && (rexG w g || rexRmb w rm))

/-- The x87 memory operand carries the ModR/M byte of its encoding, reg field 0 (R457). -/
def formOf (m : Mem) : Byte :=
  if m.asz = .a16 then
    match m.base with
    | .reg b => 0x80#8 ||| ((form16Of b m.index).getD 0).setWidth 8
    | _ => 0x06
  else
    match m.base with
    | .none => 0x04
    | .reg _ => 0x84
    | .rip => 0x05

/-- An x87 memory operand. -/
def okF (c : CodeSize) (m : FMem) : Bool := okMem c m.mem && m.form == formOf m.mem

/-- The operand forms of the ALU instructions (R242). -/
def okAlu (c : CodeSize) : AluArgs → Bool
  | .rmR w rm r => okPair c w rm r
  | .rRm w r rm => okPair c w rm r
  | .accImm w _ => okWidth c w
  | .rmImm w rm _ => okWidth c w && okRmb c w rm
  | .rmImm8 w rm _ => okOsz c w && okRm c rm

/-- The operand forms of TEST (R798). -/
def okTest (c : CodeSize) : TestArgs → Bool
  | .rmR w rm r => okPair c w rm r
  | .accImm w _ => okWidth c w
  | .rmImm w rm _ => okWidth c w && okRmb c w rm

/-- The operand forms of INC and DEC; the short forms do not exist in 64-bit mode (R206). -/
def okInc (c : CodeSize) : IncArgs → Bool
  | .rm w rm => okWidth c w && okRmb c w rm
  | .short w _ => okHalf w && c != .c64

/-- A width with an r/m operand. -/
def okUnary (c : CodeSize) (w : Width) (rm : RMB) : Bool := okWidth c w && okRmb c w rm

/-- An operand size with a register and an r/m operand. -/
def okRegRm (c : CodeSize) (w : Width) (r : Reg) (rm : RM) : Bool := okOsz c w && okReg c r && okRm c rm

/-- A 16- or 32-bit operand size with a register and an r/m operand (BOUND, LDS, LES). -/
def okHalfRm (c : CodeSize) (w : Width) (r : Reg) (rm : RM) : Bool := okHalf w && okReg c r && okRm c rm

/-- The operand forms of IMUL (R257). -/
def okImul (c : CodeSize) : ImulArgs → Bool
  | .one w rm => okUnary c w rm
  | .two w r s => okRegRm c w r s
  | .three8 w r s _ => okRegRm c w r s
  | .three w r s _ => okRegRm c w r s

/-- The operand forms of XCHG; `90` without REX.B is NOP (R799). -/
def okXchg (c : CodeSize) : XchgArgs → Bool
  | .rm w rm r => okPair c w rm r
  | .acc w r => okOsz c w && okReg c r && r != 0

/-- The operand forms of the bit tests (R305). -/
def okBit (c : CodeSize) (w : Width) (d : RM) : BitSel → Bool
  | .reg r => okRegRm c w r d
  | .imm _ => okOsz c w && okRm c d

/-- The displacement of a near branch: 8 bits, or 16 or 32 by the operand size (R321). -/
def okRel (c : CodeSize) (osz : Width) : Rel → Bool
  | .r8 _ => okNear c osz
  | .r16 _ => okNear c osz && osz == .b16
  | .r32 _ => okNear c osz && osz != .b16

/-- A branch on a count (R337, R340). -/
def okLoop (c : CodeSize) (osz : Width) (a : ASize) : Bool := okNear c osz && okAsz c a

/-- A far pointer in the instruction (R194). -/
def okFar (osz : Width) (off : BitVec 32) : Bool := okHalf osz && (osz == .b32 || off.extractLsb' 16 16 == 0)

/-- A near call or jump through an operand (R323, R335). -/
def okNearRm (c : CodeSize) (osz : Width) (s : RM) : Bool := okNear c osz && okRm c s

/-- An operand size with an r/m operand. -/
def okOszRm (c : CodeSize) (osz : Width) (s : RM) : Bool := okOsz c osz && okRm c s

/-- The operand forms of MOV (R781). -/
def okMov (c : CodeSize) : MovArgs → Bool
  | .rmR w rm r => okPair c w rm r
  | .rRm w r rm => okPair c w rm r
  | .regImm w r _ => okWidth c w && okG c w r
  | .rmImm w rm _ => okUnary c w rm

/-- MOV with a memory offset of the address size (R782). -/
def okMoffs (c : CodeSize) (w : Width) (a : ASize) (off : Word) : Bool :=
  okWidth c w && okAsz c a && Machine.asizeTrunc a off == off

/-- MOVZX and MOVSX: a REX prefix excludes AH, CH, DH and BH (R784, R184). -/
def okMovx (c : CodeSize) (w sw : Width) (r : Reg) (s : RMB) : Bool :=
  okOsz c w && (sw == .b8 || sw == .b16) && okReg c r && okRmb c sw s &&
    !(isHighRm s && (w == .b64 || r.getLsbD 3))

/-- The operand forms of PUSH (R787, R788). -/
def okPush (c : CodeSize) : PushArgs → Bool
  | .reg w r => okStack c w && okReg c r
  | .rm w s => okStack c w && okRm c s
  | .imm8 w _ => okStack c w
  | .imm w _ => okStack c w
  | .sreg w _ => okStack c w

/-- The operand forms of POP; no row pops CS (R787, R788). -/
def okPop (c : CodeSize) : PopArgs → Bool
  | .reg w r => okStack c w && okReg c r
  | .rm w d => okStack c w && okRm c d
  | .sreg w sr => okStack c w && sr != .cs

/-- The operand forms of the x87 instructions. -/
def okFArith (c : CodeSize) : FArith → Bool
  | .m32 m => okF c m
  | .m64 m => okF c m
  | .st0 _ => true
  | .sti _ => true

/-- 16- and 32-bit integer operands of the x87 instructions. -/
def okFInt (c : CodeSize) : FInt → Bool
  | .m16 m => okF c m
  | .m32 m => okF c m

/-- 16-, 32- and 64-bit integer operands of the x87 instructions. -/
def okFIntL (c : CodeSize) : FIntL → Bool
  | .m16 m => okF c m
  | .m32 m => okF c m
  | .m64 m => okF c m

/-- The operand forms of FCOM, FCOMP and FST. -/
def okFCmp (c : CodeSize) : FCmp → Bool
  | .m32 m => okF c m
  | .m64 m => okF c m
  | .sti _ => true

/-- The operand forms of FLD and FSTP. -/
def okFLong (c : CodeSize) : FLong → Bool
  | .m32 m => okF c m
  | .m64 m => okF c m
  | .m80 m => okF c m
  | .sti _ => true

/-- The operand forms of FNSTSW. -/
def okFSw (c : CodeSize) : FSw → Bool
  | .mem m => okF c m
  | .ax => true

/-- The x87 environment instructions: an operand size of 16 or 32 bits selects the image. -/
def okFEnv (c : CodeSize) (w : Width) (m : FMem) : Bool := okHalf w && okF c m

/-- An SSE operand pair. -/
def okXmm (c : CodeSize) (d : Reg) (s : XM) : Bool := okReg c d && okRm c s

/-- An SSE conversion to or from a general register, of 32 or 64 bits (R636). -/
def okCvt (c : CodeSize) (w : Width) (d : Reg) (s : RM) : Bool :=
  (w == .b32 || (w == .b64 && c == .c64)) && okReg c d && okRm c s

/-- A string instruction with a source. -/
def okSrc (c : CodeSize) (a : StrSrc) : Bool := okAsz c a.asz

/-- A string instruction without a source. -/
def okDst (c : CodeSize) (a : StrDst) : Bool := okAsz c a.asz

/-- The instruction under a LOCK prefix. -/
def okLock (c : CodeSize) : LockOp → Bool
  | .add a => okAlu c a
  | .adc a => okAlu c a
  | .and a => okAlu c a
  | .or a => okAlu c a
  | .sbb a => okAlu c a
  | .sub a => okAlu c a
  | .xor a => okAlu c a
  | .inc a => okInc c a
  | .dec a => okInc c a
  | .not w rm => okUnary c w rm
  | .neg w rm => okUnary c w rm
  | .btc w d b => okBit c w d b
  | .btr w d b => okBit c w d b
  | .bts w d b => okBit c w d b
  | .cmpxchg w d s => okPair c w d s
  | .cmpxchg8b d => okRm c d
  | .cmpxchg16b d => c == .c64 && okRm c d
  | .xadd w d s => okPair c w d s
  | .xchg a => okXchg c a
  | .other => true

/-- Whether the instruction has an encoding in the code size. -/
def Instr.wf (c : CodeSize) : Instr → Bool
  | .add a => okAlu c a
  | .adc a => okAlu c a
  | .and a => okAlu c a
  | .cmp a => okAlu c a
  | .or a => okAlu c a
  | .sbb a => okAlu c a
  | .sub a => okAlu c a
  | .xor a => okAlu c a
  | .test a => okTest c a
  | .inc a => okInc c a
  | .dec a => okInc c a
  | .not w rm => okUnary c w rm
  | .neg w rm => okUnary c w rm
  | .mul w rm => okUnary c w rm
  | .div w rm => okUnary c w rm
  | .idiv w rm => okUnary c w rm
  | .imul a => okImul c a
  | .aaa => true
  | .aas => true
  | .daa => true
  | .das => true
  | .aad _ => true
  | .aam _ => true
  | .cbw w => okHalf w
  | .cdqe => c == .c64
  | .cwd w => okHalf w
  | .cqo => c == .c64
  | .bswap w r => okOsz c w && okReg c r
  | .lahf => true
  | .sahf => true
  | .lea w r src => okRegRm c w r src
  | .cmovo w r src => okRegRm c w r src
  | .cmovno w r src => okRegRm c w r src
  | .cmovb w r src => okRegRm c w r src
  | .cmovae w r src => okRegRm c w r src
  | .cmove w r src => okRegRm c w r src
  | .cmovne w r src => okRegRm c w r src
  | .cmovbe w r src => okRegRm c w r src
  | .cmova w r src => okRegRm c w r src
  | .cmovs w r src => okRegRm c w r src
  | .cmovns w r src => okRegRm c w r src
  | .cmovp w r src => okRegRm c w r src
  | .cmovnp w r src => okRegRm c w r src
  | .cmovl w r src => okRegRm c w r src
  | .cmovge w r src => okRegRm c w r src
  | .cmovle w r src => okRegRm c w r src
  | .cmovg w r src => okRegRm c w r src
  | .cmpxchg w dst src => okPair c w dst src
  | .cmpxchg8b dst => okRm c dst
  | .cmpxchg16b dst => c == .c64 && okRm c dst
  | .xchg a => okXchg c a
  | .xadd w dst src => okPair c w dst src
  | .nop _ => true
  | .bsf w r src => okRegRm c w r src
  | .bsr w r src => okRegRm c w r src
  | .bt w dst bit => okBit c w dst bit
  | .btc w dst bit => okBit c w dst bit
  | .btr w dst bit => okBit c w dst bit
  | .bts w dst bit => okBit c w dst bit
  | .jo osz rel => okRel c osz rel
  | .jno osz rel => okRel c osz rel
  | .jb osz rel => okRel c osz rel
  | .jae osz rel => okRel c osz rel
  | .je osz rel => okRel c osz rel
  | .jne osz rel => okRel c osz rel
  | .jbe osz rel => okRel c osz rel
  | .ja osz rel => okRel c osz rel
  | .js osz rel => okRel c osz rel
  | .jns osz rel => okRel c osz rel
  | .jp osz rel => okRel c osz rel
  | .jnp osz rel => okRel c osz rel
  | .jl osz rel => okRel c osz rel
  | .jge osz rel => okRel c osz rel
  | .jle osz rel => okRel c osz rel
  | .jg osz rel => okRel c osz rel
  | .jcxz osz asz _ => okLoop c osz asz
  | .loop osz asz _ => okLoop c osz asz
  | .loope osz asz _ => okLoop c osz asz
  | .loopne osz asz _ => okLoop c osz asz
  | .jmpRel osz rel => okRel c osz rel
  | .jmpInd osz src => okNearRm c osz src
  | .jmpFarPtr osz off _ => okFar osz off
  | .jmpFarMem osz src => okOszRm c osz src
  | .callRel osz rel => okRel c osz rel && (match rel with | .r8 _ => false | _ => true)
  | .callInd osz src => okNearRm c osz src
  | .callFarPtr osz off _ => okFar osz off
  | .callFarMem osz src => okOszRm c osz src
  | .ret osz _ => okNear c osz
  | .retFar osz _ => okOsz c osz
  | .enter osz _ _ => okStack c osz
  | .leave osz => okStack c osz
  | .bound w r src => okHalfRm c w r src
  | .int _ => true
  | .int3 => true
  | .into => true
  | .iret osz => okHalf osz
  | .iretq => c == .c64
  | .cmpsb a => okSrc c a
  | .cmpsw osz a => okHalf osz && okSrc c a
  | .cmpsq a => c == .c64 && okSrc c a
  | .lodsb a => okSrc c a
  | .lodsw osz a => okHalf osz && okSrc c a
  | .lodsq a => c == .c64 && okSrc c a
  | .movsb a => okSrc c a
  | .movsw osz a => okHalf osz && okSrc c a
  | .movsq a => c == .c64 && okSrc c a
  | .stosb a => okDst c a
  | .stosw osz a => okHalf osz && okDst c a
  | .stosq a => c == .c64 && okDst c a
  | .scasb a => okDst c a
  | .scasw osz a => okHalf osz && okDst c a
  | .scasq a => c == .c64 && okDst c a
  | .insb a => okDst c a
  | .insw osz a => okHalf osz && okDst c a
  | .outsb a => okSrc c a
  | .outsw osz a => okHalf osz && okSrc c a
  | .inp w _ => okPort w
  | .outp w _ => okPort w
  | .arpl dst src => c != .c64 && okRm c dst && okReg c src
  | .clc => true
  | .cld => true
  | .cli => true
  | .clts => true
  | .cmc => true
  | .stc => true
  | .std => true
  | .sti => true
  | .clflush m => okMem c m
  | .cpuid => true
  | .hlt => true
  | .invd => true
  | .invlpg m => okRm c m && (match m with | .reg r => r.extractLsb' 0 3 != 0 | .mem _ => true)
  | .lfence => true
  | .mfence => true
  | .sfence => true
  | .wbinvd => true
  | .lar w r src => okRegRm c w r src
  | .lsl w r src => okRegRm c w r src
  | .lds w r src => okHalfRm c w r src
  | .les w r src => okHalfRm c w r src
  | .lss w r src => okRegRm c w r src
  | .lfs w r src => okRegRm c w r src
  | .lgs w r src => okRegRm c w r src
  | .lgdt osz src => okHalf osz && okRm c src
  | .lidt osz src => okHalf osz && okRm c src
  | .lldt src => okRm c src
  | .ltr src => okRm c src
  | .lmsw src => okRm c src
  | .sgdt m => okMem c m
  | .sidt m => okMem c m
  | .sldt osz dst => okOszRm c osz dst
  | .str osz dst => okOszRm c osz dst
  | .smsw osz dst => okOszRm c osz dst
  | .verr src => okRm c src
  | .verw src => okRm c src
  | .lock t => okLock c t
  | .fxsave rexw m => okMem c m && (!rexw || c == .c64)
  | .fxrstor rexw m => okMem c m && (!rexw || c == .c64)
  | .emms => true
  | .f2xm1 => true
  | .fabs => true
  | .fadd a => okFArith c a
  | .faddp _ => true
  | .fiadd a => okFInt c a
  | .fmul a => okFArith c a
  | .fmulp _ => true
  | .fimul a => okFInt c a
  | .fsub a => okFArith c a
  | .fsubp _ => true
  | .fisub a => okFInt c a
  | .fsubr a => okFArith c a
  | .fsubrp _ => true
  | .fisubr a => okFInt c a
  | .fdiv a => okFArith c a
  | .fdivp _ => true
  | .fidiv a => okFInt c a
  | .fdivr a => okFArith c a
  | .fdivrp _ => true
  | .fidivr a => okFInt c a
  | .fbld m => okF c m
  | .fbstp m => okF c m
  | .fchs => true
  | .fnclex => true
  | .fcmovb _ => true
  | .fcmove _ => true
  | .fcmovbe _ => true
  | .fcmovu _ => true
  | .fcmovnb _ => true
  | .fcmovne _ => true
  | .fcmovnbe _ => true
  | .fcmovnu _ => true
  | .fcom a => okFCmp c a
  | .fcomp a => okFCmp c a
  | .fcompp => true
  | .fcomi _ => true
  | .fcomip _ => true
  | .fucomi _ => true
  | .fucomip _ => true
  | .fcos => true
  | .fdecstp => true
  | .ffree _ => true
  | .ficom a => okFInt c a
  | .ficomp a => okFInt c a
  | .fild a => okFIntL c a
  | .fincstp => true
  | .fninit => true
  | .fist a => okFInt c a
  | .fistp a => okFIntL c a
  | .fisttp a => okFIntL c a
  | .fld a => okFLong c a
  | .fld1 => true
  | .fldl2t => true
  | .fldl2e => true
  | .fldpi => true
  | .fldlg2 => true
  | .fldln2 => true
  | .fldz => true
  | .fldcw m => okF c m
  | .fldenv osz m => okFEnv c osz m
  | .fnop => true
  | .fpatan => true
  | .fprem => true
  | .fprem1 => true
  | .fptan => true
  | .frndint => true
  | .frstor osz m => okFEnv c osz m
  | .fnsave osz m => okFEnv c osz m
  | .fscale => true
  | .fsin => true
  | .fsincos => true
  | .fsqrt => true
  | .fst a => okFCmp c a
  | .fstp a => okFLong c a
  | .fnstcw m => okF c m
  | .fnstenv osz m => okFEnv c osz m
  | .fnstsw a => okFSw c a
  | .ftst => true
  | .fucom _ => true
  | .fucomp _ => true
  | .fucompp => true
  | .wait => true
  | .fxam => true
  | .fxch _ => true
  | .fxtract => true
  | .fyl2x => true
  | .fyl2xp1 => true
  | .addpd dst src => okXmm c dst src
  | .addps dst src => okXmm c dst src
  | .addsd dst src => okXmm c dst src
  | .addss dst src => okXmm c dst src
  | .addsubpd dst src => okXmm c dst src
  | .addsubps dst src => okXmm c dst src
  | .haddpd dst src => okXmm c dst src
  | .haddps dst src => okXmm c dst src
  | .hsubpd dst src => okXmm c dst src
  | .hsubps dst src => okXmm c dst src
  | .divpd dst src => okXmm c dst src
  | .divps dst src => okXmm c dst src
  | .divsd dst src => okXmm c dst src
  | .divss dst src => okXmm c dst src
  | .andpd dst src => okXmm c dst src
  | .andps dst src => okXmm c dst src
  | .andnpd dst src => okXmm c dst src
  | .andnps dst src => okXmm c dst src
  | .cmppd dst src _ => okXmm c dst src
  | .cmpps dst src _ => okXmm c dst src
  | .cmpsd dst src _ => okXmm c dst src
  | .cmpss dst src _ => okXmm c dst src
  | .comisd dst src => okXmm c dst src
  | .comiss dst src => okXmm c dst src
  | .cvtdq2pd dst src => okXmm c dst src
  | .cvtdq2ps dst src => okXmm c dst src
  | .cvtpd2dq dst src => okXmm c dst src
  | .cvtpd2ps dst src => okXmm c dst src
  | .cvtps2dq dst src => okXmm c dst src
  | .cvtps2pd dst src => okXmm c dst src
  | .cvttpd2dq dst src => okXmm c dst src
  | .cvttps2dq dst src => okXmm c dst src
  | .cvtpd2pi _ src => okRm c src
  | .cvtps2pi _ src => okRm c src
  | .cvttpd2pi _ src => okRm c src
  | .cvttps2pi _ src => okRm c src
  | .cvtpi2pd dst src => okReg c dst && okMm c src
  | .cvtpi2ps dst src => okReg c dst && okMm c src
  | .cvtsd2si w dst src => okCvt c w dst src
  | .cvttsd2si w dst src => okCvt c w dst src
  | .cvtss2si w dst src => okCvt c w dst src
  | .cvttss2si w dst src => okCvt c w dst src
  | .cvtsd2ss dst src => okXmm c dst src
  | .cvtss2sd dst src => okXmm c dst src
  | .cvtsi2sd w dst src => okCvt c w dst src
  | .cvtsi2ss w dst src => okCvt c w dst src
  | .lddqu dst src => okXmm c dst src
  | .ldmxcsr m => okMem c m
  | .mov a => okMov c a
  | .movMoffs _ w _ asz off => okMoffs c w asz off
  | .movFromCr cr r => okReg c cr && okReg c r
  | .movToCr cr r => okReg c cr && okReg c r
  | .movFromDr dr r => okReg c dr && okReg c r
  | .movToDr dr r => okReg c dr && okReg c r
  | .movFromSreg osz dst _ => okOszRm c osz dst
  | .movToSreg _ src => okRm c src
  | .movsxd w r src => c == .c64 && okRegRm c w r src
  | .movzx w sw r src => okMovx c w sw r src
  | .movsx w sw r src => okMovx c w sw r src
  | .push a => okPush c a
  | .pop a => okPop c a
  | .pushf osz => okStack c osz
  | .popf osz => okStack c osz
  | .pusha osz => okHalf osz
  | .popa osz => okHalf osz
  | .swapgs => true
  | .syscall => true
  | .sysret rexw => !rexw || c == .c64
  | .sysenter => true
  | .sysexit => true
  | .wrmsr => true
  | .rdmsr => true
  | .rol w rm _ => okUnary c w rm
  | .ror w rm _ => okUnary c w rm
  | .rcl w rm _ => okUnary c w rm
  | .rcr w rm _ => okUnary c w rm
  | .shl w rm _ => okUnary c w rm
  | .shr w rm _ => okUnary c w rm
  | .sar w rm _ => okUnary c w rm
  | .shld w dst src _ => okRegRm c w src dst
  | .shrd w dst src _ => okRegRm c w src dst
  | .ud2 => true
  | .seto dst => okRmb c .b8 dst
  | .setno dst => okRmb c .b8 dst
  | .setb dst => okRmb c .b8 dst
  | .setae dst => okRmb c .b8 dst
  | .sete dst => okRmb c .b8 dst
  | .setne dst => okRmb c .b8 dst
  | .setbe dst => okRmb c .b8 dst
  | .seta dst => okRmb c .b8 dst
  | .sets dst => okRmb c .b8 dst
  | .setns dst => okRmb c .b8 dst
  | .setp dst => okRmb c .b8 dst
  | .setnp dst => okRmb c .b8 dst
  | .setl dst => okRmb c .b8 dst
  | .setge dst => okRmb c .b8 dst
  | .setle dst => okRmb c .b8 dst
  | .setg dst => okRmb c .b8 dst
  | .rdtsc => true
  | .rdpmc => true
  | .monitor => true
  | .mwait => true
  | .rsm => true
  | .xlat asz _ => okAsz c asz

end Sys2Proof
end

