-- ==== Sys2Proof/Decode.lean ====
section
/-! DEFINITION. The decoder, total on any bytes (30_encoding.md), and after it the encoder. An instruction is read from
the bytes at the instruction pointer; the answer is the instruction and its length, or why there is none: the bytes
ran out, or no row of spec/opcode_table.json matches (decision D13). -/

namespace Sys2Proof

open Machine (CodeSize)

/- `Instr` has more constructors with fields than Lean's code generator can number (244), so the definitions that build
an instruction have no compiled code; the kernel evaluates them. -/
noncomputable section

/-- Why no instruction is read. -/
inductive DecodeError where
  /-- The bytes ran out. -/
  | short
  /-- No row of spec/opcode_table.json matches (R208, decision D13). -/
  | noSuchRow
  deriving DecidableEq, Repr

/-- The prefixes in force (R172, R180, R210): the operand-size, address-size and LOCK prefixes, the last repeat prefix,
the last segment override, and the REX bits W, R, X, B if a REX prefix stands immediately before the opcode. -/
structure Prefixes where
  p66 : Bool := false
  p67 : Bool := false
  lock : Bool := false
  rep : Rep := .none
  seg : Option SReg := none
  rex : Option (BitVec 4) := none
  deriving DecidableEq, Repr

/-- What the rest of the decoder looks at: the code size and the prefixes. -/
structure Ctx where
  size : CodeSize
  p : Prefixes
  deriving DecidableEq, Repr

/-- A reader of bytes. -/
abbrev Reader (α : Type) := StateT (List Byte) (Except DecodeError) α

/-- The next byte. -/
def nextByte : Reader Byte := fun l =>
  match l with
  | [] => .error .short
  | b :: t => .ok (b, t)

/-- No row matches. -/
def noRow {α : Type} : Reader α := fun _ => .error .noSuchRow

/-- The next `n` bytes as a little-endian number (R100). -/
def nextLE : Nat → Reader Nat
  | 0 => pure 0
  | n + 1 => do
    let b ← nextByte
    let r ← nextLE n
    pure (b.toNat + 256 * r)

/-- The next bytes as a field of `n` bits, `n` a multiple of 8. -/
def nextField (n : Nat) : Reader (BitVec n) := do
  let v ← nextLE (n / 8)
  pure (BitVec.ofNat n v)

/-! ### Sizes (R177, R178, R198, R199) -/

/-- A REX bit: 3 is W, 2 R, 1 X, 0 B (R182). -/
def Ctx.rexBit (x : Ctx) (i : Nat) : Bool :=
  match x.p.rex with
  | some r => r.getLsbD i
  | none => false

/-- REX.W. -/
def Ctx.w (x : Ctx) : Bool := x.rexBit 3

/-- The effective operand size (R178). -/
def Ctx.osz (x : Ctx) : Width :=
  match x.size with
  | .c64 => if x.w then .b64 else if x.p.p66 then .b16 else .b32
  | .c32 => if x.p.p66 then .b16 else .b32
  | .c16 => if x.p.p66 then .b32 else .b16

/-- The effective address size (R177). -/
def Ctx.asz (x : Ctx) : ASize :=
  match x.size with
  | .c64 => if x.p.p67 then .a32 else .a64
  | .c32 => if x.p.p67 then .a16 else .a32
  | .c16 => if x.p.p67 then .a32 else .a16

/-- The operand size of an instruction that uses the stack (R198). -/
def Ctx.stackOsz (x : Ctx) : Width :=
  match x.size with
  | .c64 => if x.p.p66 then .b16 else .b64
  | _ => x.osz

/-- The operand size of a near branch: 64 bits in 64-bit mode, whatever the prefixes (R199). -/
def Ctx.nearOsz (x : Ctx) : Width :=
  match x.size with
  | .c64 => .b64
  | _ => x.osz

/-- The data size of a port instruction, which REX.W does not promote (R372, R375). With both 66H and REX.W it is 32 bits:
66H is ignored beside REX.W (R178), and REX.W by the instruction (DESIGN CHOICE, log 84). -/
def Ctx.ioOsz (x : Ctx) : Width := if x.osz = .b16 then .b16 else .b32

/-- The size of the x87 environment and state images: 66H selects it and REX.W has no effect (R450, R456). -/
def Ctx.fpuOsz (x : Ctx) : Width :=
  match x.size with
  | .c16 => if x.p.p66 then .b32 else .b16
  | _ => if x.p.p66 then .b16 else .b32

/-- The width of a byte opcode or of its word twin (R179). -/
def Ctx.width (x : Ctx) (byte : Bool) : Width := if byte then .b8 else x.osz

/-! ### ModR/M and SIB (R185 to R190) -/

/-- A 4-bit register number: a REX bit and a 3-bit field (R183). -/
def regNum (ext : Bool) (f : BitVec 3) : Reg := BitVec.ofBool ext ++ f

/-- The register a byte or wider operand names (R31, R184). -/
def gregOf (x : Ctx) (w : Width) (r : Reg) : GReg :=
  if w = .b8 && x.p.rex.isNone && r.extractLsb' 2 2 == 1 then .high (r.extractLsb' 0 2) else .full r

/-- The ModR/M byte (R185). -/
structure ModRm where
  mod : BitVec 2
  reg : BitVec 3
  rm : BitVec 3
  deriving DecidableEq, Repr

/-- Splits a ModR/M byte (R185). -/
def splitModRm (b : Byte) : ModRm :=
  { mod := b.extractLsb' 6 2, reg := b.extractLsb' 3 3, rm := b.extractLsb' 0 3 }

/-- Reads the ModR/M byte. -/
def nextModRm : Reader ModRm := do
  let b ← nextByte
  pure (splitModRm b)

/-- `reg_num` (R183). -/
def regOf (x : Ctx) (m : ModRm) : Reg := regNum (x.rexBit 2) m.reg

/-- `rm_num` (R183). -/
def rmNumOf (x : Ctx) (m : ModRm) : Reg := regNum (x.rexBit 0) m.rm

/-- The default segment of an operand with base register `b`: SS for rSP and rBP (R118). -/
def defaultSeg : Base → SReg
  | .reg r => if r == 4 || r == 5 then .ss else .ds
  | _ => .ds

/-- The memory operand with its segment override applied (R118, R174). -/
def withSeg (x : Ctx) (base : Base) (index : Option Index) (disp : Word) : Mem :=
  { seg := x.p.seg.getD (defaultSeg base), base := base, index := index, disp := disp, asz := x.asz }

/-- The displacement that a `mod` of 1 or 2 brings, with `long` the bits of the long form (R186, R190, R191). -/
def nextDisp (mod : BitVec 2) (long : Nat) : Reader Word :=
  if mod == 1 then do
    let d ← nextField 8
    pure (d.signExtend 64)
  else if mod == 2 then do
    let d ← nextField long
    pure (d.signExtend 64)
  else pure 0

/-- Base and index of the 16-bit forms (R112, R190). -/
def form16 (rm : BitVec 3) : Base × Option Index :=
  match rm.toNat with
  | 0 => (.reg 3, some { reg := 6, scale := 0 })
  | 1 => (.reg 3, some { reg := 7, scale := 0 })
  | 2 => (.reg 5, some { reg := 6, scale := 0 })
  | 3 => (.reg 5, some { reg := 7, scale := 0 })
  | 4 => (.reg 6, none)
  | 5 => (.reg 7, none)
  | 6 => (.reg 5, none)
  | _ => (.reg 3, none)

/-- A memory operand of a 16-bit address (R112, R190). -/
def mem16 (x : Ctx) (m : ModRm) : Reader Mem :=
  if m.mod == 0 && m.rm == 6 then do
    let d ← nextField 16
    pure (withSeg x .none none (d.signExtend 64))
  else do
    let d ← nextDisp m.mod 16
    let (b, i) := form16 m.rm
    pure (withSeg x b i d)

/-- A memory operand with a SIB byte (R187, decision D12). -/
def memSib (x : Ctx) (m : ModRm) : Reader Mem := do
  let sib ← nextByte
  let i := regNum (x.rexBit 1) (sib.extractLsb' 3 3)
  let index : Option Index := if i == 4 then none else some { reg := i, scale := sib.extractLsb' 6 2 }
  let b := sib.extractLsb' 0 3
  if m.mod == 0 && b == 5 then do
    let d ← nextField 32
    pure (withSeg x .none index (d.signExtend 64))
  else do
    let d ← nextDisp m.mod 32
    pure (withSeg x (.reg (regNum (x.rexBit 0) b)) index d)

/-- The memory operand of a ModR/M byte whose `mod` is not 11 (R186 to R190). -/
def nextMem (x : Ctx) (m : ModRm) : Reader Mem :=
  if x.asz = .a16 then mem16 x m
  else if m.rm == 4 then memSib x m
  else if m.mod == 0 && m.rm == 5 then do
    let d ← nextField 32
    pure (withSeg x (if x.size = .c64 then .rip else .none) none (d.signExtend 64))
  else do
    let d ← nextDisp m.mod 32
    pure (withSeg x (.reg (rmNumOf x m)) none d)

/-- The r/m operand at a width (R185). -/
def nextRmb (x : Ctx) (w : Width) (m : ModRm) : Reader RMB :=
  if m.mod == 3 then pure (.reg (gregOf x w (rmNumOf x m)))
  else do
    let a ← nextMem x m
    pure (.mem a)

/-- The r/m operand of 16, 32 or 64 bits, or of XMM registers (R183, R185). -/
def nextRm (x : Ctx) (m : ModRm) : Reader RM :=
  if m.mod == 3 then pure (.reg (rmNumOf x m))
  else do
    let a ← nextMem x m
    pure (.mem a)

/-- The r/m operand of MMX registers, which REX.B does not extend (R183). -/
def nextMm (x : Ctx) (m : ModRm) : Reader MM :=
  if m.mod == 3 then pure (.reg m.rm)
  else do
    let a ← nextMem x m
    pure (.mem a)

/-- The memory operand of an x87 instruction, with the ModR/M byte less its reg field (R457). -/
def nextFMem (x : Ctx) (m : ModRm) : Reader FMem := do
  let a ← nextMem x m
  pure { mem := a, form := m.mod ++ (0#3) ++ m.rm }

/-- A memory operand where no row has a register form. -/
def nextMemOnly (x : Ctx) (m : ModRm) : Reader Mem := if m.mod == 3 then noRow else nextMem x m

/-- Whether the displacement of a near relative branch has 16 bits: with a 16-bit operand size outside 64-bit mode, and
with 66H in 64-bit mode where the parameter IMM66_NEAR_BRANCH does not ignore it (R199, R321). -/
def Ctx.rel16 (x : Ctx) : Bool := x.nearOsz == .b16 || (x.size == .c64 && x.p.p66 && !Config.imm66Ignored)

/-- The displacement of a near relative branch: 32 bits, or 16 (R199, R321). -/
def nextRel (x : Ctx) : Reader Rel :=
  if x.rel16 then do
    let d ← nextField 16
    pure (.r16 d)
  else do
    let d ← nextField 32
    pure (.r32 d)

/-- The displacement of a short branch. -/
def nextRel8 : Reader Rel := do
  let d ← nextByte
  pure (.r8 d)

/-! ### The one-byte opcodes -/

/-- The eight ALU instructions by their number in the opcode (R242). -/
def aluInstr (k : Nat) (a : AluArgs) : Instr :=
  match k with
  | 0 => .add a
  | 1 => .or a
  | 2 => .adc a
  | 3 => .sbb a
  | 4 => .and a
  | 5 => .sub a
  | 6 => .xor a
  | _ => .cmp a

/-- The opcodes `8k` to `8k+5` (R242). -/
def decAlu (x : Ctx) (op : Nat) : Reader Instr := do
  let k := op / 8
  let w := x.width (op % 2 == 0)
  match op % 8 with
  | 4 => pure (aluInstr k (.accImm w (← nextField w.immBits)))
  | 5 => pure (aluInstr k (.accImm w (← nextField w.immBits)))
  | f =>
    let m ← nextModRm
    let rm ← nextRmb x w m
    let r := gregOf x w (regOf x m)
    pure (aluInstr k (if f < 2 then .rmR w rm r else .rRm w r rm))

/-- The immediate group `80`, `81`, `83` (R242). -/
def decAluImm (x : Ctx) (op : Nat) : Reader Instr := do
  let m ← nextModRm
  let k := m.reg.toNat
  if op = 0x83 then
    let rm ← nextRm x m
    let i ← nextField 8
    pure (aluInstr k (.rmImm8 x.osz rm i))
  else
    let w := x.width (op == 0x80)
    let rm ← nextRmb x w m
    let i ← nextField w.immBits
    pure (aluInstr k (.rmImm w rm i))

/-- The shifts and rotates by the digit; 6 is an alias of 4 (R797). -/
def shiftInstr (k : Nat) (w : Width) (rm : RMB) (c : ShiftCount) : Instr :=
  match k with
  | 0 => .rol w rm c
  | 1 => .ror w rm c
  | 2 => .rcl w rm c
  | 3 => .rcr w rm c
  | 5 => .shr w rm c
  | 7 => .sar w rm c
  | _ => .shl w rm c

/-- The shift groups `C0`, `C1`, `D0` to `D3` (R797). -/
def decShift (x : Ctx) (op : Nat) : Reader Instr := do
  let w := x.width (op % 2 == 0)
  let m ← nextModRm
  let rm ← nextRmb x w m
  let c ← (if op < 0xC8 then do
      let i ← nextByte
      pure (ShiftCount.imm i)
    else pure (if op < 0xD2 then .one else .cl) : Reader ShiftCount)
  pure (shiftInstr m.reg.toNat w rm c)

/-- The unary group `F6`, `F7` (R255 to R257, R798). -/
def decUnary (x : Ctx) (op : Nat) : Reader Instr := do
  let w := x.width (op == 0xF6)
  let m ← nextModRm
  let rm ← nextRmb x w m
  match m.reg.toNat with
  | 0 => pure (.test (.rmImm w rm (← nextField w.immBits)))
  | 2 => pure (.not w rm)
  | 3 => pure (.neg w rm)
  | 4 => pure (.mul w rm)
  | 5 => pure (.imul (.one w rm))
  | 6 => pure (.div w rm)
  | 7 => pure (.idiv w rm)
  | _ => noRow

/-- The group `FE` (R250, R251). -/
def decFE (x : Ctx) : Reader Instr := do
  let m ← nextModRm
  match m.reg.toNat with
  | 0 => pure (.inc (.rm .b8 (← nextRmb x .b8 m)))
  | 1 => pure (.dec (.rm .b8 (← nextRmb x .b8 m)))
  | _ => noRow

/-- The group `FF` (R250, R251, R323, R324, R333, R335, R788). -/
def decFF (x : Ctx) : Reader Instr := do
  let m ← nextModRm
  match m.reg.toNat with
  | 0 => pure (.inc (.rm x.osz (← nextRmb x x.osz m)))
  | 1 => pure (.dec (.rm x.osz (← nextRmb x x.osz m)))
  | 2 => pure (.callInd x.nearOsz (← nextRm x m))
  | 3 => pure (.callFarMem x.osz (← nextRm x m))
  | 4 => pure (.jmpInd x.nearOsz (← nextRm x m))
  | 5 => pure (.jmpFarMem x.osz (← nextRm x m))
  | 6 => pure (.push (.rm x.stackOsz (← nextRm x m)))
  | _ => noRow

/-- The conditional jumps by condition (R330). -/
def jccInstr (t : Nat) (osz : Width) (r : Rel) : Instr :=
  match t with
  | 0 => .jo osz r
  | 1 => .jno osz r
  | 2 => .jb osz r
  | 3 => .jae osz r
  | 4 => .je osz r
  | 5 => .jne osz r
  | 6 => .jbe osz r
  | 7 => .ja osz r
  | 8 => .js osz r
  | 9 => .jns osz r
  | 10 => .jp osz r
  | 11 => .jnp osz r
  | 12 => .jl osz r
  | 13 => .jge osz r
  | 14 => .jle osz r
  | _ => .jg osz r

/-- The conditional moves by condition (R330). -/
def cmovInstr (t : Nat) (w : Width) (r : Reg) (src : RM) : Instr :=
  match t with
  | 0 => .cmovo w r src
  | 1 => .cmovno w r src
  | 2 => .cmovb w r src
  | 3 => .cmovae w r src
  | 4 => .cmove w r src
  | 5 => .cmovne w r src
  | 6 => .cmovbe w r src
  | 7 => .cmova w r src
  | 8 => .cmovs w r src
  | 9 => .cmovns w r src
  | 10 => .cmovp w r src
  | 11 => .cmovnp w r src
  | 12 => .cmovl w r src
  | 13 => .cmovge w r src
  | 14 => .cmovle w r src
  | _ => .cmovg w r src

/-- The conditional sets by condition (R330). -/
def setInstr (t : Nat) (dst : RMB) : Instr :=
  match t with
  | 0 => .seto dst
  | 1 => .setno dst
  | 2 => .setb dst
  | 3 => .setae dst
  | 4 => .sete dst
  | 5 => .setne dst
  | 6 => .setbe dst
  | 7 => .seta dst
  | 8 => .sets dst
  | 9 => .setns dst
  | 10 => .setp dst
  | 11 => .setnp dst
  | 12 => .setl dst
  | 13 => .setge dst
  | 14 => .setle dst
  | _ => .setg dst

/-- The form of a string instruction with a source at rSI. -/
def strSrc (x : Ctx) : StrSrc := { asz := x.asz, seg := x.p.seg.getD .ds, rep := x.p.rep }

/-- The form of a string instruction without one. -/
def strDst (x : Ctx) : StrDst := { asz := x.asz, rep := x.p.rep }

/-- A far pointer in the instruction: the offset, then the selector (R194). -/
def nextFar (w : Width) : Reader (BitVec 32 × BitVec 16) := do
  let o ← nextLE (if w = .b16 then 2 else 4)
  let s ← nextField 16
  pure (BitVec.ofNat 32 o, s)

/-- The operand size of an opcode that exists only outside 64-bit mode. -/
def Ctx.legacyOsz (x : Ctx) : Width := if x.osz = .b16 then .b16 else .b32

/-- MOV with a memory offset, `A0` to `A3` (R782, R194). -/
def decMoffs (x : Ctx) (op : Nat) : Reader Instr := do
  let o ← nextLE (match x.asz with | .a16 => 2 | .a32 => 4 | .a64 => 8)
  pure (.movMoffs (decide (0xA2 ≤ op)) (x.width (op % 2 == 0)) (x.p.seg.getD .ds) x.asz (BitVec.ofNat 64 o))

/-- The string instructions, `A4` to `A7` and `AA` to `AF` (R365, R366, R796). -/
def decString (x : Ctx) (op : Nat) : Instr :=
  let s := strSrc x
  let d := strDst x
  let q := x.osz == .b64
  match op with
  | 0xA4 => .movsb s
  | 0xA5 => if q then .movsq s else .movsw x.osz s
  | 0xA6 => .cmpsb s
  | 0xA7 => if q then .cmpsq s else .cmpsw x.osz s
  | 0xAA => .stosb d
  | 0xAB => if q then .stosq d else .stosw x.osz d
  | 0xAC => .lodsb s
  | 0xAD => if q then .lodsq s else .lodsw x.osz s
  | 0xAE => .scasb d
  | _ => if q then .scasq d else .scasw x.osz d

/-- A register number in the low bits of an opcode (R196). -/
def opReg (x : Ctx) (op : Nat) : Reg := regNum (x.rexBit 0) (BitVec.ofNat 3 op)

/-- The opcodes `40` to `7F` (R206, R331, R787, R788 and others). In 64-bit mode `40` to `4F` never reach here. -/
def dec4to7 (x : Ctx) (op : Nat) : Reader Instr := do
  if op < 0x48 then pure (.inc (.short x.legacyOsz (BitVec.ofNat 3 op)))
  else if op < 0x50 then pure (.dec (.short x.legacyOsz (BitVec.ofNat 3 op)))
  else if op < 0x58 then pure (.push (.reg x.stackOsz (opReg x op)))
  else if op < 0x60 then pure (.pop (.reg x.stackOsz (opReg x op)))
  else if 0x70 ≤ op then
    let r ← nextRel8
    pure (jccInstr (op % 16) x.nearOsz r)
  else match op with
  | 0x60 => pure (.pusha x.legacyOsz)
  | 0x61 => pure (.popa x.legacyOsz)
  | 0x62 =>
    let m ← nextModRm
    pure (.bound x.legacyOsz (regOf x m) (← nextRm x m))
  | 0x63 =>
    let m ← nextModRm
    let rm ← nextRm x m
    pure (if x.size = .c64 then .movsxd x.osz (regOf x m) rm else .arpl rm (regOf x m))
  | 0x68 => pure (.push (.imm x.stackOsz (← nextField x.stackOsz.immBits)))
  | 0x69 =>
    let m ← nextModRm
    let rm ← nextRm x m
    pure (.imul (.three x.osz (regOf x m) rm (← nextField x.osz.immBits)))
  | 0x6A => pure (.push (.imm8 x.stackOsz (← nextField 8)))
  | 0x6B =>
    let m ← nextModRm
    let rm ← nextRm x m
    pure (.imul (.three8 x.osz (regOf x m) rm (← nextField 8)))
  | 0x6C => pure (.insb (strDst x))
  | 0x6D => pure (.insw x.ioOsz (strDst x))
  | 0x6E => pure (.outsb (strSrc x))
  | 0x6F => pure (.outsw x.ioOsz (strSrc x))
  | _ => noRow

/-- The opcodes `80` to `8F`. -/
def dec8 (x : Ctx) (op : Nat) : Reader Instr := do
  match op with
  | 0x80 => decAluImm x op
  | 0x81 => decAluImm x op
  | 0x82 => noRow
  | 0x83 => decAluImm x op
  | 0x8C =>
    let m ← nextModRm
    pure (.movFromSreg x.osz (← nextRm x m) m.reg)
  | 0x8D =>
    let m ← nextModRm
    pure (.lea x.osz (regOf x m) (← nextRm x m))
  | 0x8E =>
    let m ← nextModRm
    pure (.movToSreg m.reg (← nextRm x m))
  | 0x8F =>
    let m ← nextModRm
    if m.reg == 0 then pure (.pop (.rm x.stackOsz (← nextRm x m))) else noRow
  | _ =>
    let w := x.width (op % 2 == 0)
    let m ← nextModRm
    let rm ← nextRmb x w m
    let r := gregOf x w (regOf x m)
    pure (if op < 0x86 then .test (.rmR w rm r)
      else if op < 0x88 then .xchg (.rm w rm r)
      else if op < 0x8A then .mov (.rmR w rm r)
      else .mov (.rRm w r rm))

/-- The opcodes `90` to `9F`. -/
def dec9 (x : Ctx) (op : Nat) : Reader Instr := do
  match op with
  | 0x90 => pure (if x.rexBit 0 then .xchg (.acc x.osz 8) else .nop (decide (x.p.rep = .rep)))
  | 0x98 => pure (if x.osz = .b64 then .cdqe else .cbw x.osz)
  | 0x99 => pure (if x.osz = .b64 then .cqo else .cwd x.osz)
  | 0x9A =>
    let (o, s) ← nextFar x.legacyOsz
    pure (.callFarPtr x.legacyOsz o s)
  | 0x9B => pure .wait
  | 0x9C => pure (.pushf x.stackOsz)
  | 0x9D => pure (.popf x.stackOsz)
  | 0x9E => pure .sahf
  | 0x9F => pure .lahf
  | _ => pure (.xchg (.acc x.osz (opReg x op)))

/-- The opcodes `C0` to `CF`. -/
def decC (x : Ctx) (op : Nat) : Reader Instr := do
  match op with
  | 0xC0 => decShift x op
  | 0xC1 => decShift x op
  | 0xC2 => pure (.ret x.nearOsz (some (← nextField 16)))
  | 0xC3 => pure (.ret x.nearOsz none)
  | 0xC4 =>
    let m ← nextModRm
    pure (.les x.legacyOsz (regOf x m) (← nextRm x m))
  | 0xC5 =>
    let m ← nextModRm
    pure (.lds x.legacyOsz (regOf x m) (← nextRm x m))
  | 0xC8 =>
    let s ← nextField 16
    pure (.enter x.stackOsz s (← nextField 8))
  | 0xC9 => pure (.leave x.stackOsz)
  | 0xCA => pure (.retFar x.osz (some (← nextField 16)))
  | 0xCB => pure (.retFar x.osz none)
  | 0xCC => pure .int3
  | 0xCD => pure (.int (← nextField 8))
  | 0xCE => pure .into
  | 0xCF => pure (if x.osz = .b64 then .iretq else .iret x.osz)
  | _ =>
    let w := x.width (op == 0xC6)
    let m ← nextModRm
    if m.reg == 0 then
      let rm ← nextRmb x w m
      pure (.mov (.rmImm w rm (← nextField w.immBits)))
    else noRow

/-- The x87 arithmetic instructions by digit (R463): FADD, FMUL, FSUB, FSUBR, FDIV, FDIVR. -/
def fpuArith (k : Nat) (a : FArith) : Option Instr :=
  match k with
  | 0 => some (.fadd a)
  | 1 => some (.fmul a)
  | 4 => some (.fsub a)
  | 5 => some (.fsubr a)
  | 6 => some (.fdiv a)
  | 7 => some (.fdivr a)
  | _ => none

/-- The x87 arithmetic instructions with an integer operand by digit (R463, R476). -/
def fpuIntArith (k : Nat) (a : FInt) : Instr :=
  match k with
  | 0 => .fiadd a
  | 1 => .fimul a
  | 2 => .ficom a
  | 3 => .ficomp a
  | 4 => .fisub a
  | 5 => .fisubr a
  | 6 => .fidiv a
  | _ => .fidivr a

/-- A decoder answer from an optional instruction. -/
def orNoRow : Option Instr → Reader Instr
  | some i => pure i
  | none => noRow

/-- The x87 memory forms (R195): escape byte and digit. -/
def fpuMem (x : Ctx) (op k : Nat) (m : FMem) : Option Instr :=
  let e := x.fpuOsz
  match op with
  | 0xD8 => if k == 2 then some (.fcom (.m32 m)) else if k == 3 then some (.fcomp (.m32 m)) else fpuArith k (.m32 m)
  | 0xDC => if k == 2 then some (.fcom (.m64 m)) else if k == 3 then some (.fcomp (.m64 m)) else fpuArith k (.m64 m)
  | 0xDA => some (fpuIntArith k (.m32 m))
  | 0xDE => some (fpuIntArith k (.m16 m))
  | 0xD9 =>
    match k with
    | 0 => some (.fld (.m32 m))
    | 2 => some (.fst (.m32 m))
    | 3 => some (.fstp (.m32 m))
    | 4 => some (.fldenv e m)
    | 5 => some (.fldcw m)
    | 6 => some (.fnstenv e m)
    | 7 => some (.fnstcw m)
    | _ => none
  | 0xDB =>
    match k with
    | 0 => some (.fild (.m32 m))
    | 1 => some (.fisttp (.m32 m))
    | 2 => some (.fist (.m32 m))
    | 3 => some (.fistp (.m32 m))
    | 5 => some (.fld (.m80 m))
    | 7 => some (.fstp (.m80 m))
    | _ => none
  | 0xDD =>
    match k with
    | 0 => some (.fld (.m64 m))
    | 1 => some (.fisttp (.m64 m))
    | 2 => some (.fst (.m64 m))
    | 3 => some (.fstp (.m64 m))
    | 4 => some (.frstor e m)
    | 6 => some (.fnsave e m)
    | 7 => some (.fnstsw (.mem m))
    | _ => none
  | _ =>
    match k with
    | 0 => some (.fild (.m16 m))
    | 1 => some (.fisttp (.m16 m))
    | 2 => some (.fist (.m16 m))
    | 3 => some (.fistp (.m16 m))
    | 4 => some (.fbld m)
    | 5 => some (.fild (.m64 m))
    | 6 => some (.fbstp m)
    | _ => some (.fistp (.m64 m))

/-- The x87 instructions `D9 D0` to `D9 FF` of a fixed second byte (R195). -/
def fpuD9 (b : Nat) : Option Instr :=
  match b with
  | 0xD0 => some .fnop
  | 0xE0 => some .fchs
  | 0xE1 => some .fabs
  | 0xE4 => some .ftst
  | 0xE5 => some .fxam
  | 0xE8 => some .fld1
  | 0xE9 => some .fldl2t
  | 0xEA => some .fldl2e
  | 0xEB => some .fldpi
  | 0xEC => some .fldlg2
  | 0xED => some .fldln2
  | 0xEE => some .fldz
  | 0xF0 => some .f2xm1
  | 0xF1 => some .fyl2x
  | 0xF2 => some .fptan
  | 0xF3 => some .fpatan
  | 0xF4 => some .fxtract
  | 0xF5 => some .fprem1
  | 0xF6 => some .fdecstp
  | 0xF7 => some .fincstp
  | 0xF8 => some .fprem
  | 0xF9 => some .fyl2xp1
  | 0xFA => some .fsqrt
  | 0xFB => some .fsincos
  | 0xFC => some .frndint
  | 0xFD => some .fscale
  | 0xFE => some .fsin
  | 0xFF => some .fcos
  | _ => none

/-- The x87 register forms (R195): escape byte, digit and stack index. -/
def fpuReg (op k : Nat) (i : Reg3) : Option Instr :=
  match op with
  | 0xD8 => if k == 2 then some (.fcom (.sti i)) else if k == 3 then some (.fcomp (.sti i)) else fpuArith k (.st0 i)
  | 0xD9 => if k == 0 then some (.fld (.sti i)) else if k == 1 then some (.fxch i) else fpuD9 (0xC0 + 8 * k + i.toNat)
  | 0xDA =>
    match k with
    | 0 => some (.fcmovb i)
    | 1 => some (.fcmove i)
    | 2 => some (.fcmovbe i)
    | 3 => some (.fcmovu i)
    | 5 => if i == 1 then some .fucompp else none
    | _ => none
  | 0xDB =>
    match k with
    | 0 => some (.fcmovnb i)
    | 1 => some (.fcmovne i)
    | 2 => some (.fcmovnbe i)
    | 3 => some (.fcmovnu i)
    | 4 => if i == 2 then some .fnclex else if i == 3 then some .fninit else none
    | 5 => some (.fucomi i)
    | 6 => some (.fcomi i)
    | _ => none
  | 0xDC =>
    match k with
    | 0 => some (.fadd (.sti i))
    | 1 => some (.fmul (.sti i))
    | 4 => some (.fsubr (.sti i))
    | 5 => some (.fsub (.sti i))
    | 6 => some (.fdivr (.sti i))
    | 7 => some (.fdiv (.sti i))
    | _ => none
  | 0xDD =>
    match k with
    | 0 => some (.ffree i)
    | 2 => some (.fst (.sti i))
    | 3 => some (.fstp (.sti i))
    | 4 => some (.fucom i)
    | 5 => some (.fucomp i)
    | _ => none
  | 0xDE =>
    match k with
    | 0 => some (.faddp i)
    | 1 => some (.fmulp i)
    | 3 => if i == 1 then some .fcompp else none
    | 4 => some (.fsubrp i)
    | 5 => some (.fsubp i)
    | 6 => some (.fdivrp i)
    | 7 => some (.fdivp i)
    | _ => none
  | _ =>
    match k with
    | 4 => if i == 0 then some (.fnstsw .ax) else none
    | 5 => some (.fucomip i)
    | 6 => some (.fcomip i)
    | _ => none

/-- The x87 escapes `D8` to `DF` (R195). -/
def decFpu (x : Ctx) (op : Nat) : Reader Instr := do
  let m ← nextModRm
  if m.mod == 3 then orNoRow (fpuReg op m.reg.toNat m.rm)
  else
    let a ← nextFMem x m
    orNoRow (fpuMem x op m.reg.toNat a)

/-- The opcodes `D0` to `DF`. -/
def decD (x : Ctx) (op : Nat) : Reader Instr := do
  match op with
  | 0xD4 => pure (.aam (← nextField 8))
  | 0xD5 => pure (.aad (← nextField 8))
  | 0xD6 => noRow
  | 0xD7 => pure (.xlat x.asz (x.p.seg.getD .ds))
  | _ => if op < 0xD4 then decShift x op else decFpu x op

/-- The opcodes `E0` to `EF`. -/
def decE (x : Ctx) (op : Nat) : Reader Instr := do
  match op with
  | 0xE0 => pure (.loopne x.nearOsz x.asz (← nextField 8))
  | 0xE1 => pure (.loope x.nearOsz x.asz (← nextField 8))
  | 0xE2 => pure (.loop x.nearOsz x.asz (← nextField 8))
  | 0xE3 => pure (.jcxz x.nearOsz x.asz (← nextField 8))
  | 0xE4 => pure (.inp .b8 (some (← nextField 8)))
  | 0xE5 => pure (.inp x.ioOsz (some (← nextField 8)))
  | 0xE6 => pure (.outp .b8 (some (← nextField 8)))
  | 0xE7 => pure (.outp x.ioOsz (some (← nextField 8)))
  | 0xE8 => pure (.callRel x.nearOsz (← nextRel x))
  | 0xE9 => pure (.jmpRel x.nearOsz (← nextRel x))
  | 0xEA =>
    let (o, s) ← nextFar x.legacyOsz
    pure (.jmpFarPtr x.legacyOsz o s)
  | 0xEB => pure (.jmpRel x.nearOsz (← nextRel8))
  | 0xEC => pure (.inp .b8 none)
  | 0xED => pure (.inp x.ioOsz none)
  | 0xEE => pure (.outp .b8 none)
  | _ => pure (.outp x.ioOsz none)

/-- The opcodes `F4` to `FF`; the prefixes among `F0` to `F3` never reach here, and `F1` has no row. -/
def decF (x : Ctx) (op : Nat) : Reader Instr := do
  match op with
  | 0xF4 => pure .hlt
  | 0xF5 => pure .cmc
  | 0xF6 => decUnary x op
  | 0xF7 => decUnary x op
  | 0xF8 => pure .clc
  | 0xF9 => pure .stc
  | 0xFA => pure .cli
  | 0xFB => pure .sti
  | 0xFC => pure .cld
  | 0xFD => pure .std
  | 0xFE => decFE x
  | 0xFF => decFF x
  | _ => noRow

/-! ### The two-byte opcodes `0F` -/

/-- The mandatory prefix in force (R176): F3H and F2H before 66H. -/
inductive Mandatory where
  | none | p66 | f3 | f2
  deriving DecidableEq, Repr

/-- The mandatory prefix in force (R176). -/
def Ctx.mandatory (x : Ctx) : Mandatory :=
  match x.p.rep with
  | .rep => .f3
  | .repne => .f2
  | .none => if x.p.p66 then .p66 else .none

/-- The SSE instructions `xmm, xmm/m` by opcode and mandatory prefix (R580 to R643). -/
def sseInstr (op : Nat) (p : Mandatory) (d : Reg) (s : XM) : Option Instr :=
  match op, p with
  | 0x2F, .p66 => some (.comisd d s)
  | 0x2F, .none => some (.comiss d s)
  | 0x54, .p66 => some (.andpd d s)
  | 0x54, .none => some (.andps d s)
  | 0x55, .p66 => some (.andnpd d s)
  | 0x55, .none => some (.andnps d s)
  | 0x58, .p66 => some (.addpd d s)
  | 0x58, .none => some (.addps d s)
  | 0x58, .f2 => some (.addsd d s)
  | 0x58, .f3 => some (.addss d s)
  | 0x5A, .p66 => some (.cvtpd2ps d s)
  | 0x5A, .none => some (.cvtps2pd d s)
  | 0x5A, .f2 => some (.cvtsd2ss d s)
  | 0x5A, .f3 => some (.cvtss2sd d s)
  | 0x5B, .p66 => some (.cvtps2dq d s)
  | 0x5B, .none => some (.cvtdq2ps d s)
  | 0x5B, .f3 => some (.cvttps2dq d s)
  | 0x5E, .p66 => some (.divpd d s)
  | 0x5E, .none => some (.divps d s)
  | 0x5E, .f2 => some (.divsd d s)
  | 0x5E, .f3 => some (.divss d s)
  | 0x7C, .p66 => some (.haddpd d s)
  | 0x7C, .f2 => some (.haddps d s)
  | 0x7D, .p66 => some (.hsubpd d s)
  | 0x7D, .f2 => some (.hsubps d s)
  | 0xD0, .p66 => some (.addsubpd d s)
  | 0xD0, .f2 => some (.addsubps d s)
  | 0xE6, .p66 => some (.cvttpd2dq d s)
  | 0xE6, .f2 => some (.cvtpd2dq d s)
  | 0xE6, .f3 => some (.cvtdq2pd d s)
  | 0xF0, .f2 => some (.lddqu d s)
  | _, _ => none

/-- The width of a general register operand of an SSE conversion: REX.W selects 64 bits (R636). -/
def Ctx.cvtWidth (x : Ctx) : Width := if x.w then .b64 else .b32

/-- The conversions `2A`, `2C`, `2D` between XMM, MMX and general registers (R630 to R643). -/
def decConvert (x : Ctx) (op : Nat) : Reader Instr := do
  let m ← nextModRm
  let r := regOf x m
  let w := x.cvtWidth
  match op, x.mandatory with
  | 0x2A, .none => pure (.cvtpi2ps r (← nextMm x m))
  | 0x2A, .p66 => pure (.cvtpi2pd r (← nextMm x m))
  | 0x2A, .f2 => pure (.cvtsi2sd w r (← nextRm x m))
  | 0x2A, .f3 => pure (.cvtsi2ss w r (← nextRm x m))
  | 0x2C, .none => pure (.cvttps2pi m.reg (← nextRm x m))
  | 0x2C, .p66 => pure (.cvttpd2pi m.reg (← nextRm x m))
  | 0x2C, .f2 => pure (.cvttsd2si w r (← nextRm x m))
  | 0x2C, .f3 => pure (.cvttss2si w r (← nextRm x m))
  | _, .none => pure (.cvtps2pi m.reg (← nextRm x m))
  | _, .p66 => pure (.cvtpd2pi m.reg (← nextRm x m))
  | _, .f2 => pure (.cvtsd2si w r (← nextRm x m))
  | _, .f3 => pure (.cvtss2si w r (← nextRm x m))

/-- The SSE compares `C2` (R601 to R604). -/
def decCmp (x : Ctx) : Reader Instr := do
  let m ← nextModRm
  let r := regOf x m
  let s ← nextRm x m
  let i ← nextField 8
  match x.mandatory with
  | .none => pure (.cmpps r s i)
  | .p66 => pure (.cmppd r s i)
  | .f2 => pure (.cmpsd r s i)
  | .f3 => pure (.cmpss r s i)

/-- The group `0F 00` (R427, R432, R802). -/
def dec0F00 (x : Ctx) : Reader Instr := do
  let m ← nextModRm
  match m.reg.toNat with
  | 0 => pure (.sldt x.osz (← nextRm x m))
  | 1 => pure (.str x.osz (← nextRm x m))
  | 2 => pure (.lldt (← nextRm x m))
  | 3 => pure (.ltr (← nextRm x m))
  | 4 => pure (.verr (← nextRm x m))
  | 5 => pure (.verw (← nextRm x m))
  | _ => noRow

/-- The group `0F 01` (R418, R425, R426, R428, R791, R802, R804). -/
def dec0F01 (x : Ctx) : Reader Instr := do
  let m ← nextModRm
  let isReg := m.mod == 3
  let e : Width := if x.osz = .b16 then .b16 else .b32
  match m.reg.toNat with
  | 0 => pure (.sgdt (← nextMemOnly x m))
  | 1 =>
    if isReg then
      if m.rm == 0 then pure .monitor else if m.rm == 1 then pure .mwait else noRow
    else pure (.sidt (← nextMemOnly x m))
  | 2 => pure (.lgdt e (← nextRm x m))
  | 3 => pure (.lidt e (← nextRm x m))
  | 4 => pure (.smsw x.osz (← nextRm x m))
  | 6 => pure (.lmsw (← nextRm x m))
  | 7 => if isReg && m.rm == 0 then pure .swapgs else pure (.invlpg (← nextRm x m))
  | _ => noRow

/-- The group `0F AE` (R401, R424, R440, R441, R651, R804). -/
def dec0FAE (x : Ctx) : Reader Instr := do
  let m ← nextModRm
  let isReg := m.mod == 3
  match m.reg.toNat with
  | 0 => pure (.fxsave x.w (← nextMemOnly x m))
  | 1 => pure (.fxrstor x.w (← nextMemOnly x m))
  | 2 => pure (.ldmxcsr (← nextMemOnly x m))
  | 5 => if isReg then pure .lfence else noRow
  | 6 => if isReg then pure .mfence else noRow
  | 7 => if isReg then pure .sfence else pure (.clflush (← nextMemOnly x m))
  | _ => noRow

/-- The bit-test instructions by their number 4 to 7 (R305 to R308). -/
def btInstr (k : Nat) (w : Width) (d : RM) (b : BitSel) : Instr :=
  match k with
  | 4 => .bt w d b
  | 5 => .bts w d b
  | 6 => .btr w d b
  | _ => .btc w d b

/-- The group `0F BA` (R305 to R308). -/
def dec0FBA (x : Ctx) : Reader Instr := do
  let m ← nextModRm
  if m.reg.toNat < 4 then noRow
  else
    let d ← nextRm x m
    let i ← nextField 8
    pure (btInstr m.reg.toNat x.osz d (.imm i))

/-- The two-byte opcodes with a register and an r/m operand of the operand size. -/
def dec0FRegRm (x : Ctx) (op : Nat) : Reader Instr := do
  let m ← nextModRm
  let r := regOf x m
  let s ← nextRm x m
  let w := x.osz
  match op with
  | 0x02 => pure (.lar w r s)
  | 0x03 => pure (.lsl w r s)
  | 0xA3 => pure (.bt w s (.reg r))
  | 0xA4 => pure (.shld w s r (some (← nextField 8)))
  | 0xA5 => pure (.shld w s r none)
  | 0xAB => pure (.bts w s (.reg r))
  | 0xAC => pure (.shrd w s r (some (← nextField 8)))
  | 0xAD => pure (.shrd w s r none)
  | 0xAF => pure (.imul (.two w r s))
  | 0xB2 => pure (.lss w r s)
  | 0xB3 => pure (.btr w s (.reg r))
  | 0xB4 => pure (.lfs w r s)
  | 0xB5 => pure (.lgs w r s)
  | 0xBB => pure (.btc w s (.reg r))
  | 0xBC => pure (.bsf w r s)
  | 0xBD => pure (.bsr w r s)
  | _ => noRow

/-- The two-byte opcodes without operands in the instruction, or with only an opcode register. -/
def dec0FPlain (x : Ctx) (op : Nat) : Reader Instr :=
  match op with
  | 0x05 => pure .syscall
  | 0x06 => pure .clts
  | 0x07 => pure (.sysret x.w)
  | 0x08 => pure .invd
  | 0x09 => pure .wbinvd
  | 0x0B => pure .ud2
  | 0x30 => pure .wrmsr
  | 0x31 => pure .rdtsc
  | 0x32 => pure .rdmsr
  | 0x33 => pure .rdpmc
  | 0x34 => pure .sysenter
  | 0x35 => pure .sysexit
  | 0x77 => pure .emms
  | 0xA0 => pure (.push (.sreg x.stackOsz .fs))
  | 0xA1 => pure (.pop (.sreg x.stackOsz .fs))
  | 0xA2 => pure .cpuid
  | 0xA8 => pure (.push (.sreg x.stackOsz .gs))
  | 0xA9 => pure (.pop (.sreg x.stackOsz .gs))
  | 0xAA => pure .rsm
  | _ => noRow

/-- MOV to and from control and debug registers, `0F 20` to `0F 23`; the mod field is ignored (R785, R786). -/
def decCrDr (x : Ctx) (op : Nat) : Reader Instr := do
  let m ← nextModRm
  let n := regOf x m
  let g := rmNumOf x m
  match op with
  | 0x20 => pure (.movFromCr n g)
  | 0x21 => pure (.movFromDr n g)
  | 0x22 => pure (.movToCr n g)
  | _ => pure (.movToDr n g)

/-- MOVZX and MOVSX (R784). -/
def decMovx (x : Ctx) (op : Nat) : Reader Instr := do
  let sw : Width := if op % 2 = 0 then .b8 else .b16
  let m ← nextModRm
  let rm ← nextRmb x sw m
  pure (if op < 0xB8 then .movzx x.osz sw (regOf x m) rm else .movsx x.osz sw (regOf x m) rm)

/-- CMPXCHG and XADD (R280, R799). -/
def decXchgAdd (x : Ctx) (op : Nat) : Reader Instr := do
  let w := x.width (op % 2 == 0)
  let m ← nextModRm
  let rm ← nextRmb x w m
  let r := gregOf x w (regOf x m)
  pure (if op < 0xC0 then .cmpxchg w rm r else .xadd w rm r)

/-- The group `0F C7` (R281, R282). -/
def dec0FC7 (x : Ctx) : Reader Instr := do
  let m ← nextModRm
  if m.reg == 1 then
    let rm ← nextRm x m
    pure (if x.w then .cmpxchg16b rm else .cmpxchg8b rm)
  else noRow

/-- The two-byte opcodes (R195). -/
def dec0F (x : Ctx) (op : Nat) : Reader Instr := do
  if 0x40 ≤ op && op < 0x50 then
    let m ← nextModRm
    pure (cmovInstr (op % 16) x.osz (regOf x m) (← nextRm x m))
  else if 0x80 ≤ op && op < 0x90 then
    pure (jccInstr (op % 16) x.nearOsz (← nextRel x))
  else if 0x90 ≤ op && op < 0xA0 then
    let m ← nextModRm
    pure (setInstr (op % 16) (← nextRmb x .b8 m))
  else if 0xC8 ≤ op && op < 0xD0 then pure (.bswap x.osz (opReg x op))
  else if op == 0x00 then dec0F00 x
  else if op == 0x01 then dec0F01 x
  else if 0x20 ≤ op && op < 0x24 then decCrDr x op
  else if op == 0x2A || op == 0x2C || op == 0x2D then decConvert x op
  else if op == 0xC2 then decCmp x
  else if op == 0xAE then dec0FAE x
  else if op == 0xBA then dec0FBA x
  else if op == 0xC7 then dec0FC7 x
  else if op == 0xB0 || op == 0xB1 || op == 0xC0 || op == 0xC1 then decXchgAdd x op
  else if op == 0xB6 || op == 0xB7 || op == 0xBE || op == 0xBF then decMovx x op
  else if op == 0x2F || (0x54 ≤ op && op < 0x60) || op == 0x7C || op == 0x7D || op == 0xD0 || op == 0xE6 || op == 0xF0
  then
    match sseInstr op x.mandatory 0 (.reg 0) with
    | none => noRow
    | some _ =>
      let m ← nextModRm
      let s ← nextRm x m
      orNoRow (sseInstr op x.mandatory (regOf x m) s)
  else if op == 0x02 || op == 0x03 || (0xA3 ≤ op && op < 0xA6) || op == 0xAB || op == 0xAC || op == 0xAD || op == 0xAF ||
    (0xB2 ≤ op && op < 0xB6) || (0xBB ≤ op && op < 0xBE) then dec0FRegRm x op
  else dec0FPlain x op

/-- PUSH and POP of a segment register, and the decimal adjustments, among the opcodes below `40`. -/
def decLow (x : Ctx) (op : Nat) : Reader Instr :=
  match op with
  | 0x06 => pure (.push (.sreg x.stackOsz .es))
  | 0x07 => pure (.pop (.sreg x.stackOsz .es))
  | 0x0E => pure (.push (.sreg x.stackOsz .cs))
  | 0x16 => pure (.push (.sreg x.stackOsz .ss))
  | 0x17 => pure (.pop (.sreg x.stackOsz .ss))
  | 0x1E => pure (.push (.sreg x.stackOsz .ds))
  | 0x1F => pure (.pop (.sreg x.stackOsz .ds))
  | 0x27 => pure .daa
  | 0x2F => pure .das
  | 0x37 => pure .aaa
  | 0x3F => pure .aas
  | _ => noRow

/-- Decodes from the opcode byte on (R210). -/
def decOpcode (x : Ctx) (b : Byte) : Reader Instr := do
  let op := b.toNat
  if op = 0x0F then
    let b2 ← nextByte
    dec0F x b2.toNat
  else
    match op / 16 with
    | 8 => dec8 x op
    | 9 => dec9 x op
    | 10 =>
      if op < 0xA4 then decMoffs x op
      else if op = 0xA8 || op = 0xA9 then
        let w := x.width (op == 0xA8)
        pure (.test (.accImm w (← nextField w.immBits)))
      else pure (decString x op)
    | 11 =>
      if op < 0xB8 then pure (.mov (.regImm .b8 (gregOf x .b8 (opReg x op)) (← nextField 8)))
      else pure (.mov (.regImm x.osz (.full (opReg x op)) (← nextField x.osz.bits)))
    | 12 => decC x op
    | 13 => decD x op
    | 14 => decE x op
    | 15 => decF x op
    | k =>
      if k < 4 then (if op % 8 < 6 then decAlu x op else decLow x op)
      else dec4to7 x op

/-- The instruction under a LOCK prefix (R430). -/
def lockOf : Instr → LockOp
  | .add a => .add a
  | .adc a => .adc a
  | .and a => .and a
  | .or a => .or a
  | .sbb a => .sbb a
  | .sub a => .sub a
  | .xor a => .xor a
  | .inc a => .inc a
  | .dec a => .dec a
  | .not w rm => .not w rm
  | .neg w rm => .neg w rm
  | .btc w d b => .btc w d b
  | .btr w d b => .btr w d b
  | .bts w d b => .bts w d b
  | .cmpxchg w d s => .cmpxchg w d s
  | .cmpxchg8b d => .cmpxchg8b d
  | .cmpxchg16b d => .cmpxchg16b d
  | .xadd w d s => .xadd w d s
  | .xchg a => .xchg a
  | _ => .other

/-- Records a legacy prefix byte, which cancels a REX prefix before it; the answer is none for any other byte (R172,
R181, R210). Of the prefixes F0H, F2H and F3H, which are one group, the last takes effect (R172, U8). -/
def addPrefix (p : Prefixes) (b : Byte) : Option Prefixes :=
  let q := { p with rex := none }
  match b.toNat with
  | 0x26 => some { q with seg := some .es }
  | 0x2E => some { q with seg := some .cs }
  | 0x36 => some { q with seg := some .ss }
  | 0x3E => some { q with seg := some .ds }
  | 0x64 => some { q with seg := some .fs }
  | 0x65 => some { q with seg := some .gs }
  | 0x66 => some { q with p66 := true }
  | 0x67 => some { q with p67 := true }
  | 0xF0 => some { q with lock := true, rep := .none }
  | 0xF2 => some { q with rep := .repne, lock := false }
  | 0xF3 => some { q with rep := .rep, lock := false }
  | _ => none

/-- Decodes the bytes after the prefixes `p` (R210). -/
def decodeFrom (c : CodeSize) (p : Prefixes) : List Byte → Except DecodeError (Instr × List Byte)
  | [] => .error .short
  | b :: t =>
    match addPrefix p b with
    | some q => decodeFrom c q t
    | none =>
      if c = .c64 && b.extractLsb' 4 4 == 4 then decodeFrom c { p with rex := some (b.extractLsb' 0 4) } t
      else
        match decOpcode { size := c, p := p } b t with
        | .ok (i, rest) => .ok (if p.lock then .lock (lockOf i) else i, rest)
        | .error e => .error e

/-- The instruction at the head of a list of bytes and its length (R210). -/
def decode (c : CodeSize) (bs : List Byte) : Except DecodeError (Instr × Nat) :=
  match decodeFrom c {} bs with
  | .ok (i, rest) => .ok (i, bs.length - rest.length)
  | .error e => .error e

/-- The bytes of a number, low-order byte first. -/
def leBytes : Nat → Nat → List Byte
  | 0, _ => []
  | n + 1, v => BitVec.ofNat 8 v :: leBytes n (v / 256)

/-- The bytes of an instruction word as the opcode table numbers its bits, followed by zeros up to the longest
instruction. -/
def tableBytes (nbits w : Nat) : List Byte := leBytes 15 (w % 2 ^ nbits)

/-- The instruction the decoder reads from the bits of a table row. The bytes are read as the code right after reset
reads them (real-address mode, 16-bit), and if they have no meaning there, as 64-bit code. -/
def decodeTableWord (nbits w : Nat) : Option Instr :=
  match decode .c16 (tableBytes nbits w) with
  | .ok (i, _) => some i
  | .error _ =>
    match decode .c64 (tableBytes nbits w) with
    | .ok (i, _) => some i
    | .error _ => none

/-! ### The encoder (30_encoding.md rules R170 to R200)

Every instruction has one encoding here: memory operands with a base register in the SIB form and a long displacement,
no redundant prefix. -/

/-- The prefixes an encoding needs. -/
structure Pre where
  p66 : Bool := false
  p67 : Bool := false
  rep : Rep := .none
  seg : Option SReg := none
  w : Bool := false
  r : Bool := false
  x : Bool := false
  b : Bool := false
  /-- A REX prefix is needed without any of its bits (R184). -/
  force : Bool := false
  deriving DecidableEq, Repr

/-- The byte of a segment override (R172). -/
def segByte : SReg → Byte
  | .es => 0x26
  | .cs => 0x2E
  | .ss => 0x36
  | .ds => 0x3E
  | .fs => 0x64
  | .gs => 0x65

/-- The bytes of the repeat or mandatory prefix (R175, R176). -/
def repBytes : Rep → List Byte
  | .none => []
  | .rep => [0xF3]
  | .repne => [0xF2]

/-- The REX prefix (R182). -/
def Pre.rexBytes (p : Pre) : List Byte :=
  if p.w || p.r || p.x || p.b || p.force then
    [4#4 ++ BitVec.ofBool p.w ++ BitVec.ofBool p.r ++ BitVec.ofBool p.x ++ BitVec.ofBool p.b]
  else []

/-- The prefix bytes, REX last (R170, R181). -/
def Pre.bytes (p : Pre) : List Byte :=
  (match p.seg with | some s => [segByte s] | none => []) ++ (if p.p66 then [0x66] else []) ++
    (if p.p67 then [0x67] else []) ++ repBytes p.rep ++ p.rexBytes

/-- The prefixes that select an operand size; none for a byte (R178). -/
def oszPre (c : CodeSize) (w : Width) : Pre :=
  match w with
  | .b8 => {}
  | .b16 => { p66 := c != .c16 }
  | .b32 => { p66 := c == .c16 }
  | .b64 => { w := true }

/-- The prefixes that select the operand size of a stack instruction (R198). -/
def stackPre (c : CodeSize) (w : Width) : Pre := if w = .b64 then {} else oszPre c w

/-- The prefixes that select the operand size of a near branch (R199). -/
def nearPre (c : CodeSize) (w : Width) : Pre := if w = .b64 then {} else oszPre c w

/-- Whether an address size needs the prefix 67H (R177). -/
def aszFlag (c : CodeSize) (a : ASize) : Bool :=
  match a with
  | .a16 => c == .c32
  | .a32 => c != .c32
  | .a64 => false

/-- The address-size prefix. -/
def aszBytes (c : CodeSize) (a : ASize) : List Byte := if aszFlag c a then [0x67] else []

/-- A segment override where it is needed. -/
def segPre (needed : Bool) (s : SReg) : List Byte := if needed then [segByte s] else []

/-- What a ModR/M operand contributes: prefixes, the `mod` and `rm` fields, and the bytes after them. -/
structure RmEnc where
  pre : Pre
  mod : BitVec 2
  rm : BitVec 3
  tail : List Byte
  deriving DecidableEq, Repr

/-- The low bytes of a displacement. -/
def dispBytes (n : Nat) (d : Word) : List Byte := leBytes n d.toNat

/-- The SIB byte (R187). -/
def sibByte (i : Option Index) (base : BitVec 3) : Byte :=
  match i with
  | none => 0#2 ++ 4#3 ++ base
  | some i => i.scale ++ i.reg.extractLsb' 0 3 ++ base

/-- The REX.X bit of an index (R183). -/
def indexExt : Option Index → Bool
  | none => false
  | some i => i.reg.getLsbD 3

/-- The encoding of a memory operand (R186 to R191). -/
def memEnc (c : CodeSize) (m : Mem) : RmEnc :=
  let pre : Pre := { seg := if m.seg = defaultSeg m.base then none else some m.seg, p67 := aszFlag c m.asz }
  if m.asz = .a16 then
    match m.base with
    | .reg b => { pre := pre, mod := 2, rm := (form16Of b m.index).getD 0, tail := dispBytes 2 m.disp }
    | _ => { pre := pre, mod := 0, rm := 6, tail := dispBytes 2 m.disp }
  else
    match m.base with
    | .rip => { pre := pre, mod := 0, rm := 5, tail := dispBytes 4 m.disp }
    | .none => { pre := { pre with x := indexExt m.index }, mod := 0, rm := 4,
                 tail := sibByte m.index 5 :: dispBytes 4 m.disp }
    | .reg b => { pre := { pre with x := indexExt m.index, b := b.getLsbD 3 }, mod := 2, rm := 4,
                  tail := sibByte m.index (b.extractLsb' 0 3) :: dispBytes 4 m.disp }

/-- The encoding of a register operand. -/
def regEnc (r : Reg) (force : Bool) : RmEnc :=
  { pre := { b := r.getLsbD 3, force := force }, mod := 3, rm := r.extractLsb' 0 3, tail := [] }

/-- The register number of an operand (R31). -/
def gCode : GReg → Reg
  | .full r => r
  | .high h => 1#2 ++ h

/-- Whether a byte operand needs a REX prefix to be named (R184). -/
def gForce (w : Width) : GReg → Bool
  | .full r => w == .b8 && r.getLsbD 2
  | .high _ => false

/-- The encoding of an r/m operand of 16, 32 or 64 bits. -/
def rmEnc (c : CodeSize) : RM → RmEnc
  | .reg r => regEnc r false
  | .mem m => memEnc c m

/-- The encoding of an r/m operand of any width. -/
def rmbEnc (c : CodeSize) (w : Width) : RMB → RmEnc
  | .reg g => regEnc (gCode g) (gForce w g)
  | .mem m => memEnc c m

/-- The encoding of an MMX operand. -/
def mmEnc (c : CodeSize) : MM → RmEnc
  | .reg r => regEnc (0#1 ++ r) false
  | .mem m => memEnc c m

/-- An instruction with a ModR/M byte: prefixes, opcode, the number in the reg field, the operand, immediates. -/
def assemble (p : Pre) (op : List Byte) (reg : Reg) (force : Bool) (e : RmEnc) (imm : List Byte) : List Byte :=
  ({ p with p67 := e.pre.p67, seg := e.pre.seg, r := reg.getLsbD 3, x := e.pre.x, b := e.pre.b,
            force := force || e.pre.force } : Pre).bytes ++ op ++
    [e.mod ++ reg.extractLsb' 0 3 ++ e.rm] ++ e.tail ++ imm

/-- An opcode with a digit or a 3-bit register number, and an r/m operand. -/
def encRm (c : CodeSize) (p : Pre) (op : List Byte) (digit : BitVec 3) (s : RM) (imm : List Byte) : List Byte :=
  assemble p op (0#1 ++ digit) false (rmEnc c s) imm

/-- An opcode with a register and an r/m operand. -/
def encRegRm (c : CodeSize) (p : Pre) (op : List Byte) (r : Reg) (s : RM) (imm : List Byte) : List Byte :=
  assemble p op r false (rmEnc c s) imm

/-- An opcode with an XMM register and an MMX operand. -/
def encMm (c : CodeSize) (p : Pre) (op : List Byte) (r : Reg) (s : MM) : List Byte :=
  assemble p op r false (mmEnc c s) []

/-- An opcode with a digit and an r/m operand of any width. -/
def encRmb (c : CodeSize) (w : Width) (op : List Byte) (digit : BitVec 3) (rm : RMB) (imm : List Byte) : List Byte :=
  assemble (oszPre c w) op (0#1 ++ digit) false (rmbEnc c w rm) imm

/-- The byte opcode or its word twin (R179). -/
def wOp (w : Width) (op : Byte) : Byte := if w = .b8 then op else op + 1

/-- An opcode pair with an r/m operand and a register. -/
def encPair (c : CodeSize) (w : Width) (esc : List Byte) (op : Byte) (rm : RMB) (g : GReg) : List Byte :=
  assemble (oszPre c w) (esc ++ [wOp w op]) (gCode g) (gForce w g) (rmbEnc c w rm) []

/-- The bytes of an immediate of an operand width (R192). -/
def immBytes (w : Width) (i : BitVec w.immBits) : List Byte := leBytes (w.immBits / 8) i.toNat

/-- An opcode without a ModR/M byte. -/
def encPlain (c : CodeSize) (w : Width) (op : List Byte) : List Byte := (oszPre c w).bytes ++ op

/-- An opcode with a register in its low bits (R196). -/
def encOpReg (_c : CodeSize) (p : Pre) (esc : List Byte) (op : Byte) (r : Reg) (imm : List Byte) : List Byte :=
  ({ p with b := r.getLsbD 3 } : Pre).bytes ++ esc ++ [op ||| (r.extractLsb' 0 3).setWidth 8] ++ imm

/-- The ALU instructions by number (R242). -/
def encAlu (c : CodeSize) (k : BitVec 3) : AluArgs → List Byte
  | .rmR w rm r => encPair c w [] (k.setWidth 8 <<< 3) rm r
  | .rRm w r rm => encPair c w [] ((k.setWidth 8 <<< 3) + 2) rm r
  | .accImm w i => encPlain c w [wOp w ((k.setWidth 8 <<< 3) + 4)] ++ immBytes w i
  | .rmImm w rm i => encRmb c w [wOp w 0x80] k rm (immBytes w i)
  | .rmImm8 w rm i => encRm c (oszPre c w) [0x83] k rm [i]

/-- TEST (R798). -/
def encTest (c : CodeSize) : TestArgs → List Byte
  | .rmR w rm r => encPair c w [] 0x84 rm r
  | .accImm w i => encPlain c w [wOp w 0xA8] ++ immBytes w i
  | .rmImm w rm i => encRmb c w [wOp w 0xF6] 0 rm (immBytes w i)

/-- INC and DEC by digit (R250, R251). -/
def encInc (c : CodeSize) (k : BitVec 3) : IncArgs → List Byte
  | .rm w rm => encRmb c w [wOp w 0xFE] k rm []
  | .short w r => encPlain c w [0x40 ||| (k.setWidth 8 <<< 3) ||| r.setWidth 8]

/-- The unary group by digit. -/
def encUnary (c : CodeSize) (w : Width) (k : BitVec 3) (rm : RMB) (imm : List Byte) : List Byte :=
  encRmb c w [wOp w 0xF6] k rm imm

/-- IMUL (R257). -/
def encImul (c : CodeSize) : ImulArgs → List Byte
  | .one w rm => encUnary c w 5 rm []
  | .two w r s => encRegRm c (oszPre c w) [0x0F, 0xAF] r s []
  | .three8 w r s i => encRegRm c (oszPre c w) [0x6B] r s [i]
  | .three w r s i => encRegRm c (oszPre c w) [0x69] r s (immBytes w i)

/-- XCHG (R799). -/
def encXchg (c : CodeSize) : XchgArgs → List Byte
  | .rm w rm r => encPair c w [] 0x86 rm r
  | .acc w r => encOpReg c (oszPre c w) [] 0x90 r []

/-- The bit tests by number (R305). -/
def encBit (c : CodeSize) (k : BitVec 3) (w : Width) (d : RM) : BitSel → List Byte
  | .reg r => encRegRm c (oszPre c w) [0x0F, 0x83 ||| (k.setWidth 8 <<< 3)] r d []
  | .imm i => encRm c (oszPre c w) [0x0F, 0xBA] k d [i]

/-- The bytes of a branch displacement (R321). -/
def relBytes : Rel → List Byte
  | .r8 d => [d]
  | .r16 d => leBytes 2 d.toNat
  | .r32 d => leBytes 4 d.toNat

/-- A near relative branch. -/
def encNear (c : CodeSize) (osz : Width) (op : Byte) (r : Rel) : List Byte :=
  (nearPre c osz).bytes ++ [op] ++ relBytes r

/-- A conditional branch (R331, R332). -/
def encJcc (c : CodeSize) (t : BitVec 4) (osz : Width) : Rel → List Byte
  | .r8 d => (nearPre c osz).bytes ++ [7#4 ++ t, d]
  | r => (nearPre c osz).bytes ++ [0x0F, 8#4 ++ t] ++ relBytes r

/-- LOOP, LOOPE, LOOPNE and JCXZ (R337 to R340). -/
def encLoop (c : CodeSize) (osz : Width) (a : ASize) (op rel : Byte) : List Byte :=
  aszBytes c a ++ (nearPre c osz).bytes ++ [op, rel]

/-- A far pointer in the instruction (R194). -/
def encFar (c : CodeSize) (osz : Width) (op : Byte) (off : BitVec 32) (sel : BitVec 16) : List Byte :=
  encPlain c osz [op] ++ leBytes (if osz = .b16 then 2 else 4) off.toNat ++ leBytes 2 sel.toNat

/-- A return: the even opcode pops the immediate. -/
def encRet (op : Byte) : Option (BitVec 16) → List Byte
  | some i => op :: leBytes 2 i.toNat
  | none => [op + 1]

/-- A string instruction with a source (R360). -/
def encSrc (c : CodeSize) (w : Width) (op : Byte) (a : StrSrc) : List Byte :=
  segPre (a.seg != .ds) a.seg ++ aszBytes c a.asz ++ repBytes a.rep ++ encPlain c w [op]

/-- A string instruction without a source. -/
def encDst (c : CodeSize) (w : Width) (op : Byte) (a : StrDst) : List Byte :=
  aszBytes c a.asz ++ repBytes a.rep ++ encPlain c w [op]

/-- IN and OUT (R372). -/
def encPort (c : CodeSize) (w : Width) (op : Byte) : Option Byte → List Byte
  | some p => encPlain c w [wOp w op, p]
  | none => encPlain c w [wOp w (op + 8)]

/-- An x87 memory operand by escape byte and digit. -/
def encF (c : CodeSize) (p : Pre) (op : Byte) (k : BitVec 3) (m : FMem) : List Byte := encRm c p [op] k (.mem m.mem) []

/-- The second byte of an x87 register form. -/
def fpuByte (k i : BitVec 3) : Byte := 3#2 ++ k ++ i

/-- The x87 arithmetic instructions by digit, `kr` the digit of the form with ST(i) as destination (R463). -/
def encFArith (c : CodeSize) (k kr : BitVec 3) : FArith → List Byte
  | .m32 m => encF c {} 0xD8 k m
  | .m64 m => encF c {} 0xDC k m
  | .st0 i => [0xD8, fpuByte k i]
  | .sti i => [0xDC, fpuByte kr i]

/-- The x87 arithmetic instructions with an integer operand by digit. -/
def encFInt (c : CodeSize) (k : BitVec 3) : FInt → List Byte
  | .m16 m => encF c {} 0xDE k m
  | .m32 m => encF c {} 0xDA k m

/-- FCOM and FCOMP by digit (R469). -/
def encFCom (c : CodeSize) (k : BitVec 3) : FCmp → List Byte
  | .m32 m => encF c {} 0xD8 k m
  | .m64 m => encF c {} 0xDC k m
  | .sti i => [0xD8, fpuByte k i]

/-- FILD and FISTP by their digits (R477, R479). -/
def encFIntL (c : CodeSize) (k k64 : BitVec 3) : FIntL → List Byte
  | .m16 m => encF c {} 0xDF k m
  | .m32 m => encF c {} 0xDB k m
  | .m64 m => encF c {} 0xDF k64 m

/-- FIST (R479). -/
def encFIst (c : CodeSize) : FInt → List Byte
  | .m16 m => encF c {} 0xDF 2 m
  | .m32 m => encF c {} 0xDB 2 m

/-- FISTTP (R480). -/
def encFIsttp (c : CodeSize) : FIntL → List Byte
  | .m16 m => encF c {} 0xDF 1 m
  | .m32 m => encF c {} 0xDB 1 m
  | .m64 m => encF c {} 0xDD 1 m

/-- FLD (R481). -/
def encFLd (c : CodeSize) : FLong → List Byte
  | .m32 m => encF c {} 0xD9 0 m
  | .m64 m => encF c {} 0xDD 0 m
  | .m80 m => encF c {} 0xDB 5 m
  | .sti i => [0xD9, fpuByte 0 i]

/-- FST (R499). -/
def encFSt (c : CodeSize) : FCmp → List Byte
  | .m32 m => encF c {} 0xD9 2 m
  | .m64 m => encF c {} 0xDD 2 m
  | .sti i => [0xDD, fpuByte 2 i]

/-- FSTP (R499). -/
def encFStp (c : CodeSize) : FLong → List Byte
  | .m32 m => encF c {} 0xD9 3 m
  | .m64 m => encF c {} 0xDD 3 m
  | .m80 m => encF c {} 0xDB 7 m
  | .sti i => [0xDD, fpuByte 3 i]

/-- MOV (R781). -/
def encMov (c : CodeSize) : MovArgs → List Byte
  | .rmR w rm r => encPair c w [] 0x88 rm r
  | .rRm w r rm => encPair c w [] 0x8A rm r
  | .regImm w g i =>
    encOpReg c { oszPre c w with force := gForce w g } [] (if w = .b8 then 0xB0 else 0xB8) (gCode g)
      (leBytes w.bytes i.toNat)
  | .rmImm w rm i => encRmb c w [wOp w 0xC6] 0 rm (immBytes w i)

/-- MOV with a memory offset (R782). -/
def encMoffs (c : CodeSize) (store : Bool) (w : Width) (seg : SReg) (a : ASize) (off : Word) : List Byte :=
  segPre (seg != .ds) seg ++ aszBytes c a ++ encPlain c w [wOp w (if store then 0xA2 else 0xA0)] ++
    leBytes (match a with | .a16 => 2 | .a32 => 4 | .a64 => 8) off.toNat

/-- MOVZX and MOVSX (R784). -/
def encMovx (c : CodeSize) (w sw : Width) (op : Byte) (r : Reg) (s : RMB) : List Byte :=
  assemble (oszPre c w) [0x0F, wOp sw op] r false (rmbEnc c sw s) []

/-- The opcode bytes of PUSH of a segment register (R787). -/
def pushSregOp : SReg → List Byte
  | .es => [0x06]
  | .cs => [0x0E]
  | .ss => [0x16]
  | .ds => [0x1E]
  | .fs => [0x0F, 0xA0]
  | .gs => [0x0F, 0xA8]

/-- The opcode bytes of POP of a segment register; no row pops CS (R787). -/
def popSregOp : SReg → List Byte
  | .es => [0x07]
  | .cs => []
  | .ss => [0x17]
  | .ds => [0x1F]
  | .fs => [0x0F, 0xA1]
  | .gs => [0x0F, 0xA9]

/-- PUSH (R787, R788). -/
def encPush (c : CodeSize) : PushArgs → List Byte
  | .reg w r => encOpReg c (stackPre c w) [] 0x50 r []
  | .rm w s => encRm c (stackPre c w) [0xFF] 6 s []
  | .imm8 w i => (stackPre c w).bytes ++ [0x6A, i]
  | .imm w i => (stackPre c w).bytes ++ [0x68] ++ immBytes w i
  | .sreg w sr => (stackPre c w).bytes ++ pushSregOp sr

/-- POP (R787, R788). -/
def encPop (c : CodeSize) : PopArgs → List Byte
  | .reg w r => encOpReg c (stackPre c w) [] 0x58 r []
  | .rm w d => encRm c (stackPre c w) [0x8F] 0 d []
  | .sreg w sr => (stackPre c w).bytes ++ popSregOp sr

/-- The shifts and rotates by digit (R797). -/
def encShift (c : CodeSize) (w : Width) (k : BitVec 3) (rm : RMB) : ShiftCount → List Byte
  | .one => encRmb c w [wOp w 0xD0] k rm []
  | .cl => encRmb c w [wOp w 0xD2] k rm []
  | .imm i => encRmb c w [wOp w 0xC0] k rm [i]

/-- SHLD and SHRD (R797). -/
def encDouble (c : CodeSize) (w : Width) (op : Byte) (d : RM) (s : Reg) : Option Byte → List Byte
  | some i => encRegRm c (oszPre c w) [0x0F, op] s d [i]
  | none => encRegRm c (oszPre c w) [0x0F, op + 1] s d []

/-- The instruction under a LOCK prefix; for any other instruction NOP stands (R430). -/
def encLock (c : CodeSize) : LockOp → List Byte
  | .add a => encAlu c 0 a
  | .adc a => encAlu c 2 a
  | .and a => encAlu c 4 a
  | .or a => encAlu c 1 a
  | .sbb a => encAlu c 3 a
  | .sub a => encAlu c 5 a
  | .xor a => encAlu c 6 a
  | .inc a => encInc c 0 a
  | .dec a => encInc c 1 a
  | .not w rm => encUnary c w 2 rm []
  | .neg w rm => encUnary c w 3 rm []
  | .btc w d b => encBit c 7 w d b
  | .btr w d b => encBit c 6 w d b
  | .bts w d b => encBit c 5 w d b
  | .cmpxchg w d s => encPair c w [0x0F] 0xB0 d s
  | .cmpxchg8b d => encRm c {} [0x0F, 0xC7] 1 d []
  | .cmpxchg16b d => encRm c { w := true } [0x0F, 0xC7] 1 d []
  | .xadd w d s => encPair c w [0x0F] 0xC0 d s
  | .xchg a => encXchg c a
  | .other => [0x90]

/-- The bytes of a well-formed instruction. -/
def encode (c : CodeSize) (i : Instr) : List Byte :=
  match i with
  | .add a => encAlu c 0 a
  | .adc a => encAlu c 2 a
  | .and a => encAlu c 4 a
  | .cmp a => encAlu c 7 a
  | .or a => encAlu c 1 a
  | .sbb a => encAlu c 3 a
  | .sub a => encAlu c 5 a
  | .xor a => encAlu c 6 a
  | .test a => encTest c a
  | .inc a => encInc c 0 a
  | .dec a => encInc c 1 a
  | .not w rm => encUnary c w 2 rm []
  | .neg w rm => encUnary c w 3 rm []
  | .mul w rm => encUnary c w 4 rm []
  | .div w rm => encUnary c w 6 rm []
  | .idiv w rm => encUnary c w 7 rm []
  | .imul a => encImul c a
  | .aaa => [0x37]
  | .aas => [0x3F]
  | .daa => [0x27]
  | .das => [0x2F]
  | .aad base => [0xD5, base]
  | .aam base => [0xD4, base]
  | .cbw w => encPlain c w [0x98]
  | .cdqe => encPlain c .b64 [0x98]
  | .cwd w => encPlain c w [0x99]
  | .cqo => encPlain c .b64 [0x99]
  | .bswap w r => encOpReg c (oszPre c w) [0x0F] 0xC8 r []
  | .lahf => [0x9F]
  | .sahf => [0x9E]
  | .lea w r src => encRegRm c (oszPre c w) [0x8D] r src []
  | .cmovo w r src => encRegRm c (oszPre c w) [0x0F, 0x40] r src []
  | .cmovno w r src => encRegRm c (oszPre c w) [0x0F, 0x41] r src []
  | .cmovb w r src => encRegRm c (oszPre c w) [0x0F, 0x42] r src []
  | .cmovae w r src => encRegRm c (oszPre c w) [0x0F, 0x43] r src []
  | .cmove w r src => encRegRm c (oszPre c w) [0x0F, 0x44] r src []
  | .cmovne w r src => encRegRm c (oszPre c w) [0x0F, 0x45] r src []
  | .cmovbe w r src => encRegRm c (oszPre c w) [0x0F, 0x46] r src []
  | .cmova w r src => encRegRm c (oszPre c w) [0x0F, 0x47] r src []
  | .cmovs w r src => encRegRm c (oszPre c w) [0x0F, 0x48] r src []
  | .cmovns w r src => encRegRm c (oszPre c w) [0x0F, 0x49] r src []
  | .cmovp w r src => encRegRm c (oszPre c w) [0x0F, 0x4A] r src []
  | .cmovnp w r src => encRegRm c (oszPre c w) [0x0F, 0x4B] r src []
  | .cmovl w r src => encRegRm c (oszPre c w) [0x0F, 0x4C] r src []
  | .cmovge w r src => encRegRm c (oszPre c w) [0x0F, 0x4D] r src []
  | .cmovle w r src => encRegRm c (oszPre c w) [0x0F, 0x4E] r src []
  | .cmovg w r src => encRegRm c (oszPre c w) [0x0F, 0x4F] r src []
  | .cmpxchg w dst src => encPair c w [0x0F] 0xB0 dst src
  | .cmpxchg8b dst => encRm c {} [0x0F, 0xC7] 1 dst []
  | .cmpxchg16b dst => encRm c { w := true } [0x0F, 0xC7] 1 dst []
  | .xchg a => encXchg c a
  | .xadd w dst src => encPair c w [0x0F] 0xC0 dst src
  | .nop pause => if pause then [0xF3, 0x90] else [0x90]
  | .bsf w r src => encRegRm c (oszPre c w) [0x0F, 0xBC] r src []
  | .bsr w r src => encRegRm c (oszPre c w) [0x0F, 0xBD] r src []
  | .bt w dst bit => encBit c 4 w dst bit
  | .btc w dst bit => encBit c 7 w dst bit
  | .btr w dst bit => encBit c 6 w dst bit
  | .bts w dst bit => encBit c 5 w dst bit
  | .jo osz rel => encJcc c 0 osz rel
  | .jno osz rel => encJcc c 1 osz rel
  | .jb osz rel => encJcc c 2 osz rel
  | .jae osz rel => encJcc c 3 osz rel
  | .je osz rel => encJcc c 4 osz rel
  | .jne osz rel => encJcc c 5 osz rel
  | .jbe osz rel => encJcc c 6 osz rel
  | .ja osz rel => encJcc c 7 osz rel
  | .js osz rel => encJcc c 8 osz rel
  | .jns osz rel => encJcc c 9 osz rel
  | .jp osz rel => encJcc c 10 osz rel
  | .jnp osz rel => encJcc c 11 osz rel
  | .jl osz rel => encJcc c 12 osz rel
  | .jge osz rel => encJcc c 13 osz rel
  | .jle osz rel => encJcc c 14 osz rel
  | .jg osz rel => encJcc c 15 osz rel
  | .jcxz osz asz rel => encLoop c osz asz 0xE3 rel
  | .loop osz asz rel => encLoop c osz asz 0xE2 rel
  | .loope osz asz rel => encLoop c osz asz 0xE1 rel
  | .loopne osz asz rel => encLoop c osz asz 0xE0 rel
  | .jmpRel osz rel => encNear c osz (match rel with | .r8 _ => 0xEB | _ => 0xE9) rel
  | .jmpInd osz src => encRm c (nearPre c osz) [0xFF] 4 src []
  | .jmpFarPtr osz off sel => encFar c osz 0xEA off sel
  | .jmpFarMem osz src => encRm c (oszPre c osz) [0xFF] 5 src []
  | .callRel osz rel => encNear c osz 0xE8 rel
  | .callInd osz src => encRm c (nearPre c osz) [0xFF] 2 src []
  | .callFarPtr osz off sel => encFar c osz 0x9A off sel
  | .callFarMem osz src => encRm c (oszPre c osz) [0xFF] 3 src []
  | .ret osz pop => (nearPre c osz).bytes ++ encRet 0xC2 pop
  | .retFar osz pop => (oszPre c osz).bytes ++ encRet 0xCA pop
  | .enter osz size level => (stackPre c osz).bytes ++ [0xC8] ++ leBytes 2 size.toNat ++ [level]
  | .leave osz => (stackPre c osz).bytes ++ [0xC9]
  | .bound w r src => encRegRm c (oszPre c w) [0x62] r src []
  | .int vector => [0xCD, vector]
  | .int3 => [0xCC]
  | .into => [0xCE]
  | .iret osz => encPlain c osz [0xCF]
  | .iretq => encPlain c .b64 [0xCF]
  | .cmpsb a => encSrc c .b8 0xA6 a
  | .cmpsw osz a => encSrc c osz 0xA7 a
  | .cmpsq a => encSrc c .b64 0xA7 a
  | .lodsb a => encSrc c .b8 0xAC a
  | .lodsw osz a => encSrc c osz 0xAD a
  | .lodsq a => encSrc c .b64 0xAD a
  | .movsb a => encSrc c .b8 0xA4 a
  | .movsw osz a => encSrc c osz 0xA5 a
  | .movsq a => encSrc c .b64 0xA5 a
  | .stosb a => encDst c .b8 0xAA a
  | .stosw osz a => encDst c osz 0xAB a
  | .stosq a => encDst c .b64 0xAB a
  | .scasb a => encDst c .b8 0xAE a
  | .scasw osz a => encDst c osz 0xAF a
  | .scasq a => encDst c .b64 0xAF a
  | .insb a => encDst c .b8 0x6C a
  | .insw osz a => encDst c osz 0x6D a
  | .outsb a => encSrc c .b8 0x6E a
  | .outsw osz a => encSrc c osz 0x6F a
  | .inp w port => encPort c w 0xE4 port
  | .outp w port => encPort c w 0xE6 port
  | .arpl dst src => encRegRm c {} [0x63] src dst []
  | .clc => [0xF8]
  | .cld => [0xFC]
  | .cli => [0xFA]
  | .clts => [0x0F, 0x06]
  | .cmc => [0xF5]
  | .stc => [0xF9]
  | .std => [0xFD]
  | .sti => [0xFB]
  | .clflush m => encRm c {} [0x0F, 0xAE] 7 (.mem m) []
  | .cpuid => [0x0F, 0xA2]
  | .hlt => [0xF4]
  | .invd => [0x0F, 0x08]
  | .invlpg m => encRm c {} [0x0F, 0x01] 7 m []
  | .lfence => [0x0F, 0xAE, 0xE8]
  | .mfence => [0x0F, 0xAE, 0xF0]
  | .sfence => [0x0F, 0xAE, 0xF8]
  | .wbinvd => [0x0F, 0x09]
  | .lar w r src => encRegRm c (oszPre c w) [0x0F, 0x02] r src []
  | .lsl w r src => encRegRm c (oszPre c w) [0x0F, 0x03] r src []
  | .lds w r src => encRegRm c (oszPre c w) [0xC5] r src []
  | .les w r src => encRegRm c (oszPre c w) [0xC4] r src []
  | .lss w r src => encRegRm c (oszPre c w) [0x0F, 0xB2] r src []
  | .lfs w r src => encRegRm c (oszPre c w) [0x0F, 0xB4] r src []
  | .lgs w r src => encRegRm c (oszPre c w) [0x0F, 0xB5] r src []
  | .lgdt osz src => encRm c (oszPre c osz) [0x0F, 0x01] 2 src []
  | .lidt osz src => encRm c (oszPre c osz) [0x0F, 0x01] 3 src []
  | .lldt src => encRm c {} [0x0F, 0x00] 2 src []
  | .ltr src => encRm c {} [0x0F, 0x00] 3 src []
  | .lmsw src => encRm c {} [0x0F, 0x01] 6 src []
  | .sgdt m => encRm c {} [0x0F, 0x01] 0 (.mem m) []
  | .sidt m => encRm c {} [0x0F, 0x01] 1 (.mem m) []
  | .sldt osz dst => encRm c (oszPre c osz) [0x0F, 0x00] 0 dst []
  | .str osz dst => encRm c (oszPre c osz) [0x0F, 0x00] 1 dst []
  | .smsw osz dst => encRm c (oszPre c osz) [0x0F, 0x01] 4 dst []
  | .verr src => encRm c {} [0x0F, 0x00] 4 src []
  | .verw src => encRm c {} [0x0F, 0x00] 5 src []
  | .lock t => 0xF0 :: encLock c t
  | .fxsave rexw m => encRm c { w := rexw } [0x0F, 0xAE] 0 (.mem m) []
  | .fxrstor rexw m => encRm c { w := rexw } [0x0F, 0xAE] 1 (.mem m) []
  | .emms => [0x0F, 0x77]
  | .f2xm1 => [0xD9, 0xF0]
  | .fabs => [0xD9, 0xE1]
  | .fadd a => encFArith c 0 0 a
  | .faddp i => [0xDE, fpuByte 0 i]
  | .fiadd a => encFInt c 0 a
  | .fmul a => encFArith c 1 1 a
  | .fmulp i => [0xDE, fpuByte 1 i]
  | .fimul a => encFInt c 1 a
  | .fsub a => encFArith c 4 5 a
  | .fsubp i => [0xDE, fpuByte 5 i]
  | .fisub a => encFInt c 4 a
  | .fsubr a => encFArith c 5 4 a
  | .fsubrp i => [0xDE, fpuByte 4 i]
  | .fisubr a => encFInt c 5 a
  | .fdiv a => encFArith c 6 7 a
  | .fdivp i => [0xDE, fpuByte 7 i]
  | .fidiv a => encFInt c 6 a
  | .fdivr a => encFArith c 7 6 a
  | .fdivrp i => [0xDE, fpuByte 6 i]
  | .fidivr a => encFInt c 7 a
  | .fbld m => encF c {} 0xDF 4 m
  | .fbstp m => encF c {} 0xDF 6 m
  | .fchs => [0xD9, 0xE0]
  | .fnclex => [0xDB, 0xE2]
  | .fcmovb i => [0xDA, fpuByte 0 i]
  | .fcmove i => [0xDA, fpuByte 1 i]
  | .fcmovbe i => [0xDA, fpuByte 2 i]
  | .fcmovu i => [0xDA, fpuByte 3 i]
  | .fcmovnb i => [0xDB, fpuByte 0 i]
  | .fcmovne i => [0xDB, fpuByte 1 i]
  | .fcmovnbe i => [0xDB, fpuByte 2 i]
  | .fcmovnu i => [0xDB, fpuByte 3 i]
  | .fcom a => encFCom c 2 a
  | .fcomp a => encFCom c 3 a
  | .fcompp => [0xDE, 0xD9]
  | .fcomi i => [0xDB, fpuByte 6 i]
  | .fcomip i => [0xDF, fpuByte 6 i]
  | .fucomi i => [0xDB, fpuByte 5 i]
  | .fucomip i => [0xDF, fpuByte 5 i]
  | .fcos => [0xD9, 0xFF]
  | .fdecstp => [0xD9, 0xF6]
  | .ffree i => [0xDD, fpuByte 0 i]
  | .ficom a => encFInt c 2 a
  | .ficomp a => encFInt c 3 a
  | .fild a => encFIntL c 0 5 a
  | .fincstp => [0xD9, 0xF7]
  | .fninit => [0xDB, 0xE3]
  | .fist a => encFIst c a
  | .fistp a => encFIntL c 3 7 a
  | .fisttp a => encFIsttp c a
  | .fld a => encFLd c a
  | .fld1 => [0xD9, 0xE8]
  | .fldl2t => [0xD9, 0xE9]
  | .fldl2e => [0xD9, 0xEA]
  | .fldpi => [0xD9, 0xEB]
  | .fldlg2 => [0xD9, 0xEC]
  | .fldln2 => [0xD9, 0xED]
  | .fldz => [0xD9, 0xEE]
  | .fldcw m => encF c {} 0xD9 5 m
  | .fldenv osz m => encF c (oszPre c osz) 0xD9 4 m
  | .fnop => [0xD9, 0xD0]
  | .fpatan => [0xD9, 0xF3]
  | .fprem => [0xD9, 0xF8]
  | .fprem1 => [0xD9, 0xF5]
  | .fptan => [0xD9, 0xF2]
  | .frndint => [0xD9, 0xFC]
  | .frstor osz m => encF c (oszPre c osz) 0xDD 4 m
  | .fnsave osz m => encF c (oszPre c osz) 0xDD 6 m
  | .fscale => [0xD9, 0xFD]
  | .fsin => [0xD9, 0xFE]
  | .fsincos => [0xD9, 0xFB]
  | .fsqrt => [0xD9, 0xFA]
  | .fst a => encFSt c a
  | .fstp a => encFStp c a
  | .fnstcw m => encF c {} 0xD9 7 m
  | .fnstenv osz m => encF c (oszPre c osz) 0xD9 6 m
  | .fnstsw a => match a with | .mem m => encF c {} 0xDD 7 m | .ax => [0xDF, 0xE0]
  | .ftst => [0xD9, 0xE4]
  | .fucom i => [0xDD, fpuByte 4 i]
  | .fucomp i => [0xDD, fpuByte 5 i]
  | .fucompp => [0xDA, 0xE9]
  | .wait => [0x9B]
  | .fxam => [0xD9, 0xE5]
  | .fxch i => [0xD9, fpuByte 1 i]
  | .fxtract => [0xD9, 0xF4]
  | .fyl2x => [0xD9, 0xF1]
  | .fyl2xp1 => [0xD9, 0xF9]
  | .addpd dst src => encRegRm c { p66 := true } [0x0F, 0x58] dst src []
  | .addps dst src => encRegRm c {} [0x0F, 0x58] dst src []
  | .addsd dst src => encRegRm c { rep := .repne } [0x0F, 0x58] dst src []
  | .addss dst src => encRegRm c { rep := .rep } [0x0F, 0x58] dst src []
  | .addsubpd dst src => encRegRm c { p66 := true } [0x0F, 0xD0] dst src []
  | .addsubps dst src => encRegRm c { rep := .repne } [0x0F, 0xD0] dst src []
  | .haddpd dst src => encRegRm c { p66 := true } [0x0F, 0x7C] dst src []
  | .haddps dst src => encRegRm c { rep := .repne } [0x0F, 0x7C] dst src []
  | .hsubpd dst src => encRegRm c { p66 := true } [0x0F, 0x7D] dst src []
  | .hsubps dst src => encRegRm c { rep := .repne } [0x0F, 0x7D] dst src []
  | .divpd dst src => encRegRm c { p66 := true } [0x0F, 0x5E] dst src []
  | .divps dst src => encRegRm c {} [0x0F, 0x5E] dst src []
  | .divsd dst src => encRegRm c { rep := .repne } [0x0F, 0x5E] dst src []
  | .divss dst src => encRegRm c { rep := .rep } [0x0F, 0x5E] dst src []
  | .andpd dst src => encRegRm c { p66 := true } [0x0F, 0x54] dst src []
  | .andps dst src => encRegRm c {} [0x0F, 0x54] dst src []
  | .andnpd dst src => encRegRm c { p66 := true } [0x0F, 0x55] dst src []
  | .andnps dst src => encRegRm c {} [0x0F, 0x55] dst src []
  | .cmppd dst src pred => encRegRm c { p66 := true } [0x0F, 0xC2] dst src [pred]
  | .cmpps dst src pred => encRegRm c {} [0x0F, 0xC2] dst src [pred]
  | .cmpsd dst src pred => encRegRm c { rep := .repne } [0x0F, 0xC2] dst src [pred]
  | .cmpss dst src pred => encRegRm c { rep := .rep } [0x0F, 0xC2] dst src [pred]
  | .comisd dst src => encRegRm c { p66 := true } [0x0F, 0x2F] dst src []
  | .comiss dst src => encRegRm c {} [0x0F, 0x2F] dst src []
  | .cvtdq2pd dst src => encRegRm c { rep := .rep } [0x0F, 0xE6] dst src []
  | .cvtdq2ps dst src => encRegRm c {} [0x0F, 0x5B] dst src []
  | .cvtpd2dq dst src => encRegRm c { rep := .repne } [0x0F, 0xE6] dst src []
  | .cvtpd2ps dst src => encRegRm c { p66 := true } [0x0F, 0x5A] dst src []
  | .cvtps2dq dst src => encRegRm c { p66 := true } [0x0F, 0x5B] dst src []
  | .cvtps2pd dst src => encRegRm c {} [0x0F, 0x5A] dst src []
  | .cvttpd2dq dst src => encRegRm c { p66 := true } [0x0F, 0xE6] dst src []
  | .cvttps2dq dst src => encRegRm c { rep := .rep } [0x0F, 0x5B] dst src []
  | .cvtpd2pi dst src => encRm c { p66 := true } [0x0F, 0x2D] dst src []
  | .cvtps2pi dst src => encRm c {} [0x0F, 0x2D] dst src []
  | .cvttpd2pi dst src => encRm c { p66 := true } [0x0F, 0x2C] dst src []
  | .cvttps2pi dst src => encRm c {} [0x0F, 0x2C] dst src []
  | .cvtpi2pd dst src => encMm c { p66 := true } [0x0F, 0x2A] dst src
  | .cvtpi2ps dst src => encMm c {} [0x0F, 0x2A] dst src
  | .cvtsd2si w dst src => encRegRm c { rep := .repne, w := w == .b64 } [0x0F, 0x2D] dst src []
  | .cvttsd2si w dst src => encRegRm c { rep := .repne, w := w == .b64 } [0x0F, 0x2C] dst src []
  | .cvtss2si w dst src => encRegRm c { rep := .rep, w := w == .b64 } [0x0F, 0x2D] dst src []
  | .cvttss2si w dst src => encRegRm c { rep := .rep, w := w == .b64 } [0x0F, 0x2C] dst src []
  | .cvtsd2ss dst src => encRegRm c { rep := .repne } [0x0F, 0x5A] dst src []
  | .cvtss2sd dst src => encRegRm c { rep := .rep } [0x0F, 0x5A] dst src []
  | .cvtsi2sd w dst src => encRegRm c { rep := .repne, w := w == .b64 } [0x0F, 0x2A] dst src []
  | .cvtsi2ss w dst src => encRegRm c { rep := .rep, w := w == .b64 } [0x0F, 0x2A] dst src []
  | .lddqu dst src => encRegRm c { rep := .repne } [0x0F, 0xF0] dst src []
  | .ldmxcsr m => encRm c {} [0x0F, 0xAE] 2 (.mem m) []
  | .mov a => encMov c a
  | .movMoffs store w seg asz off => encMoffs c store w seg asz off
  | .movFromCr cr r => encRegRm c {} [0x0F, 0x20] cr (.reg r) []
  | .movToCr cr r => encRegRm c {} [0x0F, 0x22] cr (.reg r) []
  | .movFromDr dr r => encRegRm c {} [0x0F, 0x21] dr (.reg r) []
  | .movToDr dr r => encRegRm c {} [0x0F, 0x23] dr (.reg r) []
  | .movFromSreg osz dst sr => encRm c (oszPre c osz) [0x8C] sr dst []
  | .movToSreg sr src => encRm c {} [0x8E] sr src []
  | .movsxd w r src => encRegRm c (oszPre c w) [0x63] r src []
  | .movzx w sw r src => encMovx c w sw 0xB6 r src
  | .movsx w sw r src => encMovx c w sw 0xBE r src
  | .push a => encPush c a
  | .pop a => encPop c a
  | .pushf osz => (stackPre c osz).bytes ++ [0x9C]
  | .popf osz => (stackPre c osz).bytes ++ [0x9D]
  | .pusha osz => encPlain c osz [0x60]
  | .popa osz => encPlain c osz [0x61]
  | .swapgs => [0x0F, 0x01, 0xF8]
  | .syscall => [0x0F, 0x05]
  | .sysret rexw => encPlain c (if rexw then .b64 else .b8) [0x0F, 0x07]
  | .sysenter => [0x0F, 0x34]
  | .sysexit => [0x0F, 0x35]
  | .wrmsr => [0x0F, 0x30]
  | .rdmsr => [0x0F, 0x32]
  | .rol w rm cnt => encShift c w 0 rm cnt
  | .ror w rm cnt => encShift c w 1 rm cnt
  | .rcl w rm cnt => encShift c w 2 rm cnt
  | .rcr w rm cnt => encShift c w 3 rm cnt
  | .shl w rm cnt => encShift c w 4 rm cnt
  | .shr w rm cnt => encShift c w 5 rm cnt
  | .sar w rm cnt => encShift c w 7 rm cnt
  | .shld w dst src cnt => encDouble c w 0xA4 dst src cnt
  | .shrd w dst src cnt => encDouble c w 0xAC dst src cnt
  | .ud2 => [0x0F, 0x0B]
  | .seto dst => encRmb c .b8 [0x0F, 0x90] 0 dst []
  | .setno dst => encRmb c .b8 [0x0F, 0x91] 0 dst []
  | .setb dst => encRmb c .b8 [0x0F, 0x92] 0 dst []
  | .setae dst => encRmb c .b8 [0x0F, 0x93] 0 dst []
  | .sete dst => encRmb c .b8 [0x0F, 0x94] 0 dst []
  | .setne dst => encRmb c .b8 [0x0F, 0x95] 0 dst []
  | .setbe dst => encRmb c .b8 [0x0F, 0x96] 0 dst []
  | .seta dst => encRmb c .b8 [0x0F, 0x97] 0 dst []
  | .sets dst => encRmb c .b8 [0x0F, 0x98] 0 dst []
  | .setns dst => encRmb c .b8 [0x0F, 0x99] 0 dst []
  | .setp dst => encRmb c .b8 [0x0F, 0x9A] 0 dst []
  | .setnp dst => encRmb c .b8 [0x0F, 0x9B] 0 dst []
  | .setl dst => encRmb c .b8 [0x0F, 0x9C] 0 dst []
  | .setge dst => encRmb c .b8 [0x0F, 0x9D] 0 dst []
  | .setle dst => encRmb c .b8 [0x0F, 0x9E] 0 dst []
  | .setg dst => encRmb c .b8 [0x0F, 0x9F] 0 dst []
  | .rdtsc => [0x0F, 0x31]
  | .rdpmc => [0x0F, 0x33]
  | .monitor => [0x0F, 0x01, 0xC8]
  | .mwait => [0x0F, 0x01, 0xC9]
  | .rsm => [0x0F, 0xAA]
  | .xlat asz seg => segPre (seg != .ds) seg ++ aszBytes c asz ++ [0xD7]

end

end Sys2Proof
end

