-- ==== Sys2Proof/Machine/Fetch.lean ====
section
/-! DEFINITION. Fetching an instruction, the events of an instruction boundary, and what every step does before the
instruction runs (30_encoding.md rules R170, R171, R210; 60_exceptions.md rules R681, R712, R715; 70_reset_and_hazards.md
rules R762, R771). -/

namespace Sys2Proof.Machine

noncomputable section

/-- How many bytes the code segment holds from RIP on: up to the first whose address is not canonical in 64-bit mode,
where addresses wrap around from 2^64 to 0, up to the CS limit elsewhere (R42, R119, decision D6). -/
def State.codeLeft (s : State) : Nat :=
  let low := 2 ^ (Config.vaBits - 1)
  if s.is64 then
    if !canonical s.rip then 0
    else if s.rip.msb then 2 ^ 64 - s.rip.toNat + low
    else low - s.rip.toNat
  else s.cs.limit.toNat + 1 - s.rip.toNat

/-- How many of the next 15 bytes the code segment holds (R171). -/
def State.codeRoom (s : State) : Nat := min 15 s.codeLeft

/-- The `n` bytes of memory from physical address `a`. -/
def bytesAt (m : List Host.Cell) (a : Nat) : Nat → List Byte
  | 0 => []
  | n + 1 => memGet m a :: bytesAt m (a + 1) n

/-- `n` code bytes at linear address `la`, all in one page. -/
def fetchBytes (la : Word) (n : Nat) : M (List Byte) := do
  let s ← readS id
  let a ← translate la (s.purpose false)
  readS fun t => bytesAt t.mem a n

/-- Fetches on after the bytes `bs`, which do not end the instruction, while the code segment holds `left` more: a byte
at a time up to the end of the instruction, which is then too long and raises #GP(0), as does the end of the segment. A
fault of a fetch comes first (R171, R210, R681). -/
def fetchOverlong : Nat → List Byte → M (Instr × Nat)
  | 0, _ => raise gp0
  | left + 1, bs => do
    let s ← readS id
    let b ← fetchBytes (laStep s.is64 (s.linear .cs s.rip) bs.length) 1
    match decode s.codeSize (bs ++ b) with
    | .error .short => fetchOverlong left (bs ++ b)
    | _ => raise gp0

/-- FETCHING AN INSTRUCTION: the instruction at CS:RIP and its length. The second page is translated only when the bytes
of the first do not end the instruction. An instruction that reaches beyond its code segment or beyond 15 bytes raises
#GP(0), the latter after all its bytes are fetched (R171, R210); an opcode without a row is refused (decision D13). -/
def fetch : M (Instr × Nat) := do
  let s ← readS id
  let la := s.linear .cs s.rip
  raiseIf (s.codeRoom == 0) gp0
  let n := min s.codeRoom (4096 - (la.extractLsb' 0 12).toNat)
  let b ← fetchBytes la n
  match decode s.codeSize b with
  | .ok r => pure r
  | .error .noSuchRow => refuse .noSuchRow
  | .error .short =>
    if n == s.codeRoom then fetchOverlong (s.codeLeft - n) b
    else
      let c ← fetchBytes (laStep s.is64 la n) (s.codeRoom - n)
      match decode s.codeSize (b ++ c) with
      | .ok r => pure r
      | .error .noSuchRow => refuse .noSuchRow
      | .error .short => fetchOverlong (s.codeLeft - s.codeRoom) (b ++ c)

/-- The time-stamp counter after one step: it advances by at least 1 (R771, TSC_RATE). -/
def State.tick (s : State) : State := { s with tsc := s.tsc + 1 + (Config.tscExtra s.tsc).setWidth 64 }

/-- The address of the next instruction, of 32 bits outside 64-bit mode (R41). -/
def State.following (s : State) (len : Nat) : Word :=
  let t := s.rip + BitVec.ofNat 64 len
  if s.is64 then t else t &&& 0xFFFFFFFF

/-- The state in which a fetched instruction of `len` bytes runs: the following address is known, the shadow of the
instruction before it ends unless this one turns out to be unfinished (`repeated`), and with TF = 1 a single-step trap is
armed (R41, R663, R762). -/
def State.begin (s : State) (len : Nat) : State :=
  { s with
    nextPc := s.following len, shadow := .none, heldShadow := s.shadow, pendingDb := s.pendingDb || s.flag fTF }

/-- Whether a maskable interrupt of vector `v` is accepted: IF = 1, no shadow, and a priority class above that of the
task priority register (R712, R715, R762), with the local APIC disabled too (DESIGN CHOICE, log 118). -/
def State.accepts (s : State) (v : Byte) : Bool :=
  s.flag fIF && s.shadow == .none && decide ((s.tpr.extractLsb' 4 4).toNat < (v.extractLsb' 4 4).toNat)

/-- The event that is taken at this instruction boundary, if any, and the state without it: a single-step trap, then an
NMI, then a maskable interrupt (R681, R712). The trap of an HLT that ran with TF = 1 ends the halted state (DESIGN CHOICE,
log 93). An event is no longer pending once its delivery begins, whether or not the delivery succeeds (DESIGN CHOICE,
log 100). -/
def State.boundary (s : State) : Option (Event × State) :=
  if s.pendingDb && s.shadow != .movss then some (dbTrap, { s with pendingDb := false })
  else if s.pendingNmi && !s.nmiBlocked && s.shadow != .movss then some (nmiEvent, { s with pendingNmi := false })
  else match s.pendingInt with
    | none => none
    | some v =>
      if s.accepts v then
        some ({ vector := v, kind := .external, code := none, cr2 := none }, { s with pendingInt := none })
      else none

/-- Where the bytes of the next instruction lie, as many as the longest instruction has. -/
def State.fetchSpan (s : State) : Option Span :=
  match spanOf s.is64 (s.linear .cs s.rip) 15 (s.purpose false) s with
  | .ok (sp, _) => some sp
  | .error _ => none

end

end Sys2Proof.Machine
end

