-- ==== Sys2Proof/Machine/Step.lean ====
section
/-! DEFINITION. One step of the machine: an event at the instruction boundary, or one instruction
(70_reset_and_hazards.md rule R770, decision D31). -/

namespace Sys2Proof.Machine

noncomputable section

/-- Runs the next instruction. -/
def runNext (s : State) : Host.Outcome State Fault Refusal :=
  match fetch s with
  | .ok ((i, len), t) => exec i (t.begin len)
  | .error (.raised e) => deliver e s
  | .error (.raisedAfter e t) => deliver e t
  | .error (.refused r) => .refused r

/-- One step. -/
def step (s : State) : Host.Outcome State Fault Refusal :=
  if s.activity = .shutdown then .fault .shutdown
  else
    match s.tick.boundary with
    | some (e, t) => deliver e t
    | none => if s.activity = .halted then .fault .halted else runNext s.tick

/-- The state with the bytes of a table word, and zeros after it, where the next instruction is fetched. -/
def State.withFetchWord (s : State) (nbits w : Nat) : State :=
  match s.fetchSpan with
  | some sp => s.storeAt sp 15 (w % 2 ^ nbits)
  | none => s

end

end Sys2Proof.Machine
end

