-- ==== Sys2Proof/Safety.lean ====
section
/-! DEFINITION. What counts as a well-behaved state and a well-behaved outcome, in the terms the claims use. -/

namespace Sys2Proof.Machine

/-- The reserved EFLAGS bits have their fixed values: bit 1 is 1, bits 3, 5, 15 and 31:22 are 0 (R45, U3). -/
def State.flagsOk (s : State) : Bool := s.rflags &&& 0xFFC0802A == 2

/-- The memory is in canonical form. -/
def State.memOk (s : State) : Bool := Memory.wf s.mem

/-- What every state that the machine can reach keeps to: the reserved flags (R45), CR0 with ET set, its upper half 0,
paging only with protection and NW only with CD (R54, R785), the defined bits of CR4, IA32_EFER and MXCSR (R57, R51,
R74), LMA equal to LME and PG with PAE set under it (R751), FMASK of 32 bits (R66), and the canonical base
addresses of FS, GS and the three MSRs beside them (R64 to R66). -/
structure State.Legal (s : State) : Prop where
  flags : s.flagsOk = true
  cr0Fixed : s.cr0 &&& 0xFFFFFFFF00000010 = 0x10
  paging : s.pg = true → s.pe = true
  caching : s.cr0.getLsbD 29 = true → s.cr0.getLsbD 30 = true
  cr4Defined : s.cr4.extractLsb' 11 53 = 0
  eferDefined : s.efer &&& 0xFFFFFFFFFFFFFAFE = 0
  active : s.lma = (s.lme && s.pg)
  activePae : s.lma = true → s.pae = true
  mxcsrDefined : s.mxcsr &&& ~~~Config.mxcsrMask = 0
  fmaskLow : s.fmask.extractLsb' 32 32 = 0
  lstar : canonical s.lstar = true
  cstar : canonical s.cstar = true
  kernelGs : canonical s.kernelGsBase = true
  fsBase : canonical s.fs.base = true
  gsBase : canonical s.gs.base = true

/-- A property of the state that an outcome has if it is a next state. -/
def Holds (p : State → Prop) : Host.Outcome State Fault Refusal → Prop
  | .next t => p t
  | .fault _ => True
  | .refused _ => True

/-- The outcome is a next state. -/
def Completes (o : Host.Outcome State Fault Refusal) : Prop := ∃ t, o = .next t

/-! ### Vocabulary of the statements -/

/-- The state at the end of an instruction that is no control transfer: at the following instruction (R41), with the
EFLAGS given. -/
def State.endWith (t : State) (f : BitVec 32) : State := { t with rflags := f, rip := t.nextPc }

/-- The state after `n` open values have been drawn. -/
def State.drawn (t : State) (n : Nat) : State := { t with freeCount := t.freeCount + n }

/-- Two values of EFLAGS agree in every bit that `mask` does not name (R241: flags that are not listed are
unchanged). -/
def SameOutside (mask old f : BitVec 32) : Prop := f &&& ~~~mask = old &&& ~~~mask

/-- No byte of memory outside the first `n` bytes of a span differs between two states. -/
def OnlySpan (sp : Span) (n : Nat) (u v : State) : Prop := ∀ a, (∀ k, k < n → a ≠ sp.addr k) → v.byteAt a = u.byteAt a

/-! ### Paging -/

/-- An entry that a paging walk reads: its place, its value, its checked reserved bits, whether it carries U/S, R/W and
A, and whether it is the last one (R136 to R144). -/
structure PageEntry where
  addr : Nat
  value : Word
  checked : Word
  guards : Bool
  leaf : Bool
  deriving DecidableEq, Repr

/-- The `n` bytes of memory at `a` as a number. -/
def State.entryAt (s : State) (a n : Nat) : Word := BitVec.ofNat 64 (readPhysLE s.mem a n)

/-- The table or page that an entry names by its bits 39:12. -/
def entryTable (e : Word) : Nat := e.toNat % 2 ^ 40 / 4096 * 4096

/-- The entries of a walk from the page directory at `dir`, and the physical address: a 2-MByte page, or a page table
and a 4-KByte page; `high` are the reserved high bits (R137 to R141, R144). -/
def State.directoryPath (s : State) (la : Word) (dir : Nat) (high : Word) : List PageEntry × Nat :=
  let d := dir + 8 * (la.toNat / 2 ^ 21 % 512)
  let e := s.entryAt d 8
  let t := entryTable e + 8 * (la.toNat / 2 ^ 12 % 512)
  let f := s.entryAt t 8
  if e.getLsbD 7 then
    ([⟨d, e, high ||| 0x1FE000, true, true⟩], e.toNat % 2 ^ 40 / 2 ^ 21 * 2 ^ 21 + la.toNat % 2 ^ 21)
  else ([⟨d, e, high, true, false⟩, ⟨t, f, high, true, true⟩], entryTable f + la.toNat % 4096)

/-- The entries of the walk of a linear address, first to last, and the physical address they lead to: four levels in
IA-32e mode, three with PAE, whose first carries no protection, and two without (R135, R141, R144, R147). -/
def State.pagePath (s : State) (la : Word) : List PageEntry × Nat :=
  if s.lma then
    let a := entryTable s.cr3 + 8 * (la.toNat / 2 ^ 39 % 512)
    let e := s.entryAt a 8
    let b := entryTable e + 8 * (la.toNat / 2 ^ 30 % 512)
    let f := s.entryAt b 8
    let high := 0x800FFF0000000000
    let q := s.directoryPath la (entryTable f) high
    (⟨a, e, high, true, false⟩ :: ⟨b, f, high, true, false⟩ :: q.1, q.2)
  else if s.pae then
    let a := s.cr3.toNat % 2 ^ 32 / 32 * 32 + 8 * (la.toNat / 2 ^ 30 % 4)
    let e := s.entryAt a 8
    let q := s.directoryPath la (entryTable e) 0xFFFFFF0000000000
    (⟨a, e, 0xFFFFFF00000001E6, false, false⟩ :: q.1, q.2)
  else
    let a := s.cr3.toNat % 2 ^ 32 / 4096 * 4096 + 4 * (la.toNat / 2 ^ 22 % 1024)
    let e := s.entryAt a 4
    let b := e.toNat / 4096 * 4096 + 4 * (la.toNat / 2 ^ 12 % 1024)
    let f := s.entryAt b 4
    if s.cr4.getLsbD 4 && e.getLsbD 7 then
      ([⟨a, e, 0x200000, true, true⟩], e.toNat / 2 ^ 13 % 256 * 2 ^ 32 + e.toNat / 2 ^ 22 * 2 ^ 22 + la.toNat % 2 ^ 22)
    else ([⟨a, e, 0, true, false⟩, ⟨b, f, 0, true, true⟩], f.toNat / 4096 * 4096 + la.toNat % 4096)

/-- The flags a walk sets in an entry: A, and D in the last one on a write (R146). -/
def PageEntry.marks (p : PageEntry) (write : Bool) : Byte :=
  if p.guards = false then 0 else if p.leaf && write then 0x60 else 0x20

/-- The error code of a page fault: P, W/R, U/S and RSVD (R145). -/
def faultCode (present write user reserved : Bool) : BitVec 32 :=
  BitVec.ofNat 32 (present.toNat + 2 * write.toNat + 4 * user.toNat + 8 * reserved.toNat)

/-- SF, ZF and PF of a result (R241). -/
structure ResultFlags {n : Nat} (r : BitVec n) (f : BitVec 32) : Prop where
  sf : f.getLsbD 7 = r.getLsbD (n - 1)
  zf : f.getLsbD 6 = decide (r.toNat = 0)
  pf : f.getLsbD 2 = decide ((List.range 8).countP (fun i => r.getLsbD i) % 2 = 0)

/-- OF, AF, SF, ZF and PF of a sum with carry in (R241). -/
structure SumRest {n : Nat} (x y : BitVec n) (c : Bool) (f : BitVec 32) : Prop where
  of : f.getLsbD 11 = decide (x.msb = y.msb ∧ (x + y + BitVec.ofNat n c.toNat).msb ≠ x.msb)
  af : f.getLsbD 4 = decide (15 < x.toNat % 16 + y.toNat % 16 + c.toNat)
  result : ResultFlags (x + y + BitVec.ofNat n c.toNat) f

/-- The six flags of a sum with carry in (R241). -/
structure SumFlags {n : Nat} (x y : BitVec n) (c : Bool) (f : BitVec 32) : Prop extends SumRest x y c f where
  cf : f.getLsbD 0 = decide (2 ^ n ≤ x.toNat + y.toNat + c.toNat)

/-- OF, AF, SF, ZF and PF of a difference with borrow in (R241). -/
structure DifferenceRest {n : Nat} (x y : BitVec n) (c : Bool) (f : BitVec 32) : Prop where
  of : f.getLsbD 11 = decide (x.msb ≠ y.msb ∧ (x - y - BitVec.ofNat n c.toNat).msb ≠ x.msb)
  af : f.getLsbD 4 = decide (x.toNat % 16 < y.toNat % 16 + c.toNat)
  result : ResultFlags (x - y - BitVec.ofNat n c.toNat) f

/-- The six flags of a difference with borrow in (R241). -/
structure DifferenceFlags {n : Nat} (x y : BitVec n) (c : Bool) (f : BitVec 32) : Prop
    extends DifferenceRest x y c f where
  cf : f.getLsbD 0 = decide (x.toNat < y.toNat + c.toNat)

/-- The flags of a logical operation; AF is open (R241). -/
structure LogicFlags {n : Nat} (r : BitVec n) (f : BitVec 32) : Prop where
  cf : f.getLsbD 0 = false
  of : f.getLsbD 11 = false
  result : ResultFlags r f

/-- The operand forms of the ALU instructions: an instruction with these arguments has the destination `dst` and in the
state `s` the second operand `y`; `t` is `s` after a memory source has been read, which can only have set accessed
flags in page tables (R240, R242). -/
inductive AluForm (s : State) : (w : Width) → (dst : RMB) → AluArgs → (y : BitVec w.bits) → (t : State) → Prop where
  | rmR (w : Width) (rm : RMB) (r : GReg) : AluForm s w rm (.rmR w rm r) (s.readGReg w r) s
  | rRm (w : Width) (r : GReg) (rm : RMB) (y : BitVec w.bits) (t : State) (h : readRmb w rm s = .ok (y, t)) :
      AluForm s w (.reg r) (.rRm w r rm) y t
  | accImm (w : Width) (imm : BitVec w.immBits) :
      AluForm s w (.reg (.full rAX)) (.accImm w imm) (imm.signExtend w.bits) s
  | rmImm (w : Width) (rm : RMB) (imm : BitVec w.immBits) : AluForm s w rm (.rmImm w rm imm) (imm.signExtend w.bits) s
  | rmImm8 (w : Width) (rm : RM) (imm : Byte) : AluForm s w (asRmb rm) (.rmImm8 w rm imm) (imm.signExtend w.bits) s

/-- The sixteen conditions by number (the table of R330). -/
def conditions (s : State) : List Bool :=
  let o := s.flag fOF
  let c := s.flag fCF
  let z := s.flag fZF
  let n := s.flag fSF
  let p := s.flag fPF
  [o, !o, c, !c, z, !z, c || z, !c && !z, n, !n, p, !p, n != o, n == o, z || n != o, !z && n == o]

/-- The destination operand of an instruction that reads and rewrites it, or only writes it: in the state `s` it holds
`x`, and `put r` is the state after it has received `r`. A memory operand is checked for writing before anything is
stored, and the checks can only have set flags in page tables (R130, R240). -/
inductive Destination (s : State) (w : Width) : RMB → BitVec w.bits → (BitVec w.bits → State) → Prop where
  | reg (g : GReg) : Destination s w (.reg g) (s.readGReg w g) (s.writeGReg w g)
  | mem (m : Mem) (sp : Span) (u : State) (h : resolveMem m w.bytes true (.natural w.bytes) s = .ok (sp, u)) :
      Destination s w (.mem m) (BitVec.ofNat w.bits (spanGet u.mem sp 0 w.bytes))
        (fun r => u.storeAt sp w.bytes r.toNat)

/-- Of memory, `v` differs from the state before at most in the bytes of the operand written. -/
def OnlyOperand (s : State) (w : Width) (rm : RMB) (v : State) : Prop :=
  match rm with
  | .reg _ => v.mem = s.mem
  | .mem m => ∀ sp u, resolveMem m w.bytes true (.natural w.bytes) s = .ok (sp, u) → OnlySpan sp w.bytes u v

/-- A code segment register loaded in real-address or virtual-8086 mode: the base is the selector times 16 (R421). -/
def SegReg.atParagraph (g : SegReg) (sel : BitVec 16) : SegReg :=
  { g with sel := sel, base := BitVec.ofNat 64 (sel.toNat * 16), unusable := false }

/-- Where a push of `n` bytes goes (R198). -/
def State.pushAddr (s : State) (n : Nat) : Word := asizeTrunc s.stackSize (s.get rSP - BitVec.ofNat 64 n)

/-- Pushing the low `n` bytes of `v` succeeds in `s` and leads to `t` (R198). -/
def Pushed (n v : Nat) (s t : State) : Prop :=
  ∃ sp u, resolve .ss (s.pushAddr n) n true (.natural n) s = .ok (sp, u) ∧
    t = (u.storeAt sp n v).setSp (s.pushAddr n)

/-- Pushing a list of values, the first one highest. -/
def PushedAll (n : Nat) : List Nat → State → State → Prop
  | [], s, t => t = s
  | v :: rest, s, t => ∃ u, Pushed n v s u ∧ PushedAll n rest u t

/-- Popping `n` bytes succeeds in `s`, gives `v` and leads to `t` (R198). -/
def Popped (n v : Nat) (s t : State) : Prop :=
  ∃ sp u, resolve .ss s.sp n false (.natural n) s = .ok (sp, u) ∧ v = spanGet u.mem sp 0 n ∧
    t = u.setSp (s.sp + BitVec.ofNat 64 n)

/-- Popping a list of values, the first one lowest. -/
def PoppedAll (n : Nat) : List Nat → State → State → Prop
  | [], s, t => t = s
  | v :: rest, s, t => ∃ u, Popped n v s u ∧ PoppedAll n rest u t

/-- The copies of outer frame pointers that ENTER pushes succeed in `s` and lead to `t` (R342). -/
def FrameCopies (n : Nat) : Nat → State → State → Prop
  | 0, s, t => t = s
  | k + 1, s, t =>
    let a := s.setBp (s.bp - BitVec.ofNat 64 n)
    ∃ v b c, readMem .ss a.bp n a = .ok (v, b) ∧ Pushed n v b c ∧ FrameCopies n k c t

/-- Whether a near transfer to an address is allowed: canonical in 64-bit mode, inside the CS limit elsewhere
(R320). -/
def State.codeAt (s : State) (a : Word) : Bool :=
  if s.is64 then canonical a else decide (a.toNat ≤ s.cs.limit.toNat)

/-- The state after one iteration of a string instruction has led to `t`: without a repeat prefix the instruction ends;
with one the count register has gone down by 1, and the instruction ends at a count of 0 or where `stops` holds, and
stays in place otherwise, the interrupt shadow with it (R361, R762). -/
def Iterated (p : Rep) (asz : ASize) (stops : Bool) (t : State) : State :=
  let w := asizeWidth asz
  let u := t.writeReg w rCX (t.readReg w rCX - 1)
  if p = .none then t.endWith t.rflags
  else if t.readReg w rCX = 1 ∨ stops = true then u.endWith u.rflags else { u with shadow := u.heldShadow }

/-- The state with a string pointer moved by `n` bytes, downward where DF is 1 (R362). -/
def State.moved (s : State) (asz : ASize) (r : Reg) (n : Nat) : State :=
  let w := asizeWidth asz
  s.writeReg w r (if s.flag fDF then s.readReg w r - BitVec.ofNat _ n else s.readReg w r + BitVec.ofNat _ n)

/-- The operand forms of the far jump `jmp` and the far call `call` that name the target `sel:off`; `t` is the state
after the operand has been read (R324, R333). -/
inductive FarForm (s : State) : (osz : Width) → (jmp call : Instr) → (sel : BitVec 16) → (off : Word) → State → Prop where
  | ptr (osz : Width) (off : BitVec 32) (sel : BitVec 16) (h : s.is64 = false) :
      FarForm s osz (.jmpFarPtr osz off sel) (.callFarPtr osz off sel) sel (off.setWidth 64) s
  | mem (osz : Width) (m : Mem) (off sel : Nat) (t u : State) (h : readMem m.seg (s.effAddr m) osz.bytes s = .ok (off, t))
      (h2 : readMem m.seg (s.effAddr m + BitVec.ofNat 64 osz.bytes) 2 t = .ok (sel, u)) :
      FarForm s osz (.jmpFarMem osz (.mem m)) (.callFarMem osz (.mem m)) (BitVec.ofNat 16 sel) (BitVec.ofNat 64 off) u

/-- A descriptor of a present code segment (R125): S, type bit 3 and P. -/
def codeDescriptor (raw : BitVec 64) : Bool := raw.getLsbD 44 && raw.getLsbD 43 && raw.getLsbD 47

/-- The DPL of a descriptor or gate (R125, R128). -/
def descLevel (raw : BitVec 64) : Nat := (raw.extractLsb' 45 2).toNat

/-- Whether a far transfer may go to offset `off` of the code segment with the descriptor `raw`: in IA-32e mode a 64-bit
segment needs D = 0 and a canonical offset, any other segment an offset inside its limit (R326, R348). -/
def targetOk (lma : Bool) (raw : BitVec 64) (off : Word) : Bool :=
  if lma && raw.getLsbD 53 then !raw.getLsbD 54 && canonical off
  else decide (off.toNat ≤ (descSeg raw 0).limit.toNat)

/-- A selector with another RPL (R63). -/
def withLevel (sel : BitVec 16) (cpl : Nat) : BitVec 16 := sel.extractLsb' 2 14 ++ BitVec.ofNat 2 cpl

/-- Storing a list of 8-byte items downward from `p` by linear address, with supervisor or user privilege, succeeds in
`s` and leads to `t` (R694). -/
def Stacked (user : Bool) : Word → List Word → State → State → Prop
  | _, [], s, t => t = s
  | p, v :: rest, s, t =>
    ∃ sp u, canonicalRange (p - 8) 8 = true ∧
      spanOf true (p - 8) 8 { write := true, user := user } s = .ok (sp, u) ∧
      Stacked user (p - 8) rest (u.storeAt sp 8 v.toNat) t

/-- What makes the delivery of an event in IA-32e mode succeed (R690, R691): the 16-byte gate `hi:lo` of the vector is
in the IDT, an interrupt or trap gate, present and open to a software interrupt; its selector names a present 64-bit
code segment `d` of no lesser privilege; the stack is the one R693 selects; and `newCpl`, `sp` and `off` are the new
privilege level, stack pointer and target. `u` is the state before the frame is stored. -/
structure Gate64 (ev : Event) (s : State) (lo hi raw : BitVec 64) (newCpl : Nat) (sp off : Word) (u : State) : Prop where
  lma : s.lma = true
  inTable : ev.vector.toNat * 16 + 15 ≤ s.idtr.limit.toNat
  canonicalGate : canonicalRange (s.idtr.base + BitVec.ofNat 64 (ev.vector.toNat * 16)) 16 = true
  reads : ∃ n m k a b c, sysRead (s.idtr.base + BitVec.ofNat 64 (ev.vector.toNat * 16)) 8 s = .ok (n, a) ∧
    sysRead (s.idtr.base + BitVec.ofNat 64 (ev.vector.toNat * 16) + 8) 8 a = .ok (m, b) ∧
    readDesc (lo.extractLsb' 16 16) (decide (ev.kind ≠ .software)) b = .ok (k, c) ∧
    lo = BitVec.ofNat 64 n ∧ hi = BitVec.ofNat 64 m ∧ raw = k ∧
    (if lo.extractLsb' 32 3 = 0 ∧ newCpl = s.cpl then u = c ∧ sp = (if s.is64 then s.get rSP else truncTo .b32 (s.get rSP))
     else tssStack (if lo.extractLsb' 32 3 = 0 then 4 + newCpl * 8 else 0x24 + ((lo.extractLsb' 32 3).toNat - 1) * 8)
       (decide (ev.kind ≠ .software)) c = .ok (sp, u))
  gate : lo.extractLsb' 40 5 = 0xE ∨ lo.extractLsb' 40 5 = 0xF
  presentGate : lo.getLsbD 47 = true
  open_ : ev.kind = .software → s.cpl ≤ (lo.extractLsb' 45 2).toNat
  notNull : selNull (lo.extractLsb' 16 16) = false
  code : raw.getLsbD 44 = true ∧ raw.getLsbD 43 = true
  long : raw.getLsbD 53 = true ∧ raw.getLsbD 54 = false
  level : (raw.extractLsb' 45 2).toNat ≤ s.cpl
  present : raw.getLsbD 47 = true
  newLevel : newCpl = if raw.getLsbD 42 then s.cpl else (raw.extractLsb' 45 2).toNat
  target : off = hi.extractLsb' 0 32 ++ lo.extractLsb' 48 16 ++ lo.extractLsb' 0 16 ∧ canonical off = true

/-- The five quadwords of an interrupt stack frame, and the error code under them where the event has one; RF is set in
the flags a fault saves (R690, R694). -/
def frameItems (ev : Event) (s : State) (saved : Word) : List Word :=
  [s.ss.sel.setWidth 64, if s.is64 then s.get rSP else truncTo .b32 (s.get rSP),
    (if ev.kind = .fault then s.rflags ||| 0x10000 else s.rflags).setWidth 64, s.cs.sel.setWidth 64, saved] ++
    (match ev.code with | some c => [c.setWidth 64] | none => [])

/-- The delivery of an event in IA-32e mode with the saved instruction pointer `saved` succeeds in `s` and leads to `t`:
the frame is stored, CS, SS, RSP, RIP and RFLAGS are those of the handler, and the processor is active with nothing
pending of the instruction before (R690, R693, R694). -/
def EnteredLong (ev : Event) (saved : Word) (s t : State) : Prop :=
  ∃ lo hi raw newCpl sp off u v, Gate64 ev s lo hi raw newCpl sp off u ∧
    Stacked (decide (newCpl = 3)) (sp &&& ~~~15) (frameItems ev s saved) u v ∧
    let x := if newCpl = s.cpl then v else { v with ss := { v.ss with
      sel := BitVec.ofNat 16 newCpl, unusable := true, dpl := BitVec.ofNat 2 newCpl } }
    let y := x.loadCs { descSeg raw 0 with sel := lo.extractLsb' 18 14 ++ BitVec.ofNat 2 newCpl }
    let cleared : BitVec 32 := if lo.extractLsb' 40 5 = 0xE then 0x34300 else 0x34100
    t = { y.put rSP ((sp &&& ~~~15) - BitVec.ofNat 64 (8 * (frameItems ev s saved).length)) with
      rip := off, rflags := s.rflags &&& ~~~cleared, activity := .active, pendingDb := false, shadow := .none,
      nmiBlocked := s.nmiBlocked || decide (ev.kind = .nmi) }

/-- What makes the delivery of an event in protected mode outside IA-32e mode find its target: the 8-byte gate of the
vector is in the IDT, an interrupt or trap gate of 16 or 32 bits, present and open to a software interrupt; its selector
names a present code segment of no lesser privilege that holds the offset. `u` is the state after the descriptor has
been read (the outline of R735, log 11). -/
structure GateProt (ev : Event) (s : State) (gate raw : BitVec 64) (newCpl : Nat) (off : Word) (u : State) : Prop where
  mode : s.mode = .prot
  inTable : ev.vector.toNat * 8 + 7 ≤ s.idtr.limit.toNat
  reads : ∃ n a, sysRead (s.idtr.base + BitVec.ofNat 64 (ev.vector.toNat * 8)) 8 s = .ok (n, a) ∧
    gate = BitVec.ofNat 64 n ∧
    readDesc (gate.extractLsb' 16 16) (decide (ev.kind ≠ .software)) a = .ok (raw, u)
  gateType : (gate.extractLsb' 40 5).toNat ∈ [6, 7, 0xE, 0xF]
  presentGate : gate.getLsbD 47 = true
  open_ : ev.kind = .software → s.cpl ≤ descLevel gate
  notNull : selNull (gate.extractLsb' 16 16) = false
  code : codeDescriptor raw = true
  level : descLevel raw ≤ s.cpl
  newLevel : newCpl = if raw.getLsbD 42 then s.cpl else descLevel raw
  target : off = ((if gate.getLsbD 43 then gate.extractLsb' 48 16 else 0#16) ++ gate.extractLsb' 0 16).setWidth 64
  inLimit : off.toNat ≤ (descSeg raw 0).limit.toNat

/-- The stack of the inner level `newCpl` is loaded from the TSS of 16 or 32 bits: a writable data segment of that level,
present, and the stack pointer beside it (the outline of R735, log 11). -/
def LegacyStack (newCpl : Nat) (ext : Bool) (s t : State) : Prop :=
  let n := if s.tr.typ.getLsbD 3 then 4 else 2
  let off := if s.tr.typ.getLsbD 3 then 4 + newCpl * 8 else 2 + newCpl * 4
  off + n + 1 ≤ s.tr.limit.toNat ∧ ∃ sp sel raw a b c,
    sysRead (s.tr.base + BitVec.ofNat 64 off) n s = .ok (sp, a) ∧
    sysRead (s.tr.base + BitVec.ofNat 64 (off + n)) 2 a = .ok (sel, b) ∧
    selNull (BitVec.ofNat 16 sel) = false ∧ s.descInTable (BitVec.ofNat 16 sel) 8 = true ∧
    readDesc (BitVec.ofNat 16 sel) ext b = .ok (raw, c) ∧
    sel % 4 = newCpl ∧ descLevel raw = newCpl ∧ raw.getLsbD 44 = true ∧ raw.getLsbD 43 = false ∧ raw.getLsbD 41 = true ∧
    raw.getLsbD 47 = true ∧
    t = ({ c with ss := descSeg raw (BitVec.ofNat 16 sel) } : State).setSp (BitVec.ofNat 64 sp)

/-- The state after a far return or an interrupt return has been checked: the code segment `cs` and the stack segment
the instruction has loaded, at `rip`. -/
def State.atCode (s : State) (cs : SegReg) (rip : Word) : State := (s.loadCs cs).setRip rip

/-! ### The x87 FPU -/

/-- An x87 instruction proceeds: CR0.EM and CR0.TS are 0 and no unmasked exception is pending (R451). -/
def State.fpuFree (s : State) : Prop :=
  s.cr0.getLsbD 2 = false ∧ s.cr0.getLsbD 3 = false ∧ s.fpu.fsw.getLsbD 7 = false

/-- The exceptions `x` have been reported: their flags are set, SF too if it was a stack fault, ES and B say whether an
unmasked exception is pending, and C1 is `c1` (R452 to R454). -/
structure Signals (f : Fpu) (x : BitVec 6) (stack c1 : Bool) (g : Fpu) : Prop where
  exceptions : g.fsw.extractLsb' 0 6 = f.fsw.extractLsb' 0 6 ||| x
  sf : g.fsw.getLsbD 6 = (f.fsw.getLsbD 6 || stack)
  es : g.fsw.getLsbD 7 = decide ((f.fsw.extractLsb' 0 6 ||| x) &&& ~~~f.fcw.extractLsb' 0 6 ≠ 0)
  busy : g.fsw.getLsbD 15 = g.fsw.getLsbD 7
  c1 : g.fsw.getLsbD 9 = c1
  control : g.fcw = f.fcw

/-- The data registers, their tags and TOP are as they were, but for `pops` values popped (R456). -/
structure Moved (f : Fpu) (pops : Nat) (g : Fpu) : Prop where
  regs : g.r = f.r
  top : g.top = f.top + BitVec.ofNat 3 pops
  tags : ∀ k, g.tag k = if ∃ j < pops, k = f.top + BitVec.ofNat 3 j then 3 else f.tag k

/-- ST(i) has received `v`, and then `pops` values have been popped (R456). -/
structure Written (f : Fpu) (i : Reg3) (pops : Nat) (v : BitVec 80) (g : Fpu) : Prop where
  regs : g.r = f.r.set (f.top + i).toNat v (f.top + i).isLt
  top : g.top = f.top + BitVec.ofNat 3 pops
  tags : ∀ k, g.tag k =
    if ∃ j < pops, k = f.top + BitVec.ofNat 3 j then 3 else if k = f.top + i then tagOf v else f.tag k

/-- ST(i) has received `v` with the tag `t`, and then `pops` values have been popped (R468, R499). -/
structure Copied (f : Fpu) (i : Reg3) (pops : Nat) (v : BitVec 80) (t : BitVec 2) (g : Fpu) : Prop where
  regs : g.r = f.r.set (f.top + i).toNat v (f.top + i).isLt
  top : g.top = f.top + BitVec.ofNat 3 pops
  tags : ∀ k, g.tag k =
    if ∃ j < pops, k = f.top + BitVec.ofNat 3 j then 3 else if k = f.top + i then t else f.tag k

/-- `v` has been pushed (R456). -/
structure Loaded (f : Fpu) (v : BitVec 80) (g : Fpu) : Prop where
  regs : g.r = f.r.set (f.top - 1).toNat v (f.top - 1).isLt
  top : g.top = f.top - 1
  tags : ∀ k, g.tag k = if k = f.top - 1 then tagOf v else f.tag k

/-- A numeric result has been delivered to ST(i), or an unmasked invalid, zero-divide or denormal exception has left
everything but the flags (R453, R454). -/
def Delivered (f : Fpu) (i : Reg3) (pops : Nat) (o : FpOut) (g : Fpu) : Prop :=
  if o.flags &&& 7 &&& ~~~f.fcw.extractLsb' 0 6 = 0 then
    Signals f o.flags false (o.up && o.flags.getLsbD 5) g ∧ Written f i pops (pack80 o.val) g
  else Signals f (o.flags &&& 7) false false g ∧ Moved f 0 g

/-- A stack underflow with the destination ST(i): the indefinite where the invalid exception is masked (R453). -/
def Underflowed (f : Fpu) (i : Reg3) (pops : Nat) (g : Fpu) : Prop :=
  Signals f 1 true false g ∧ (if f.fcw.getLsbD 0 then Written f i pops indef80 g else Moved f 0 g)

/-- A value `v` with the exceptions `x` has been pushed; a full stack overflows, and an unmasked exception leaves
everything but the flags (R453, R456). -/
def PushedValue (f : Fpu) (v : BitVec 80) (x : BitVec 6) (g : Fpu) : Prop :=
  if f.tag (f.top - 1) ≠ 3 then
    Signals f 1 true true g ∧ (if f.fcw.getLsbD 0 then Loaded f indef80 g else Moved f 0 g)
  else Signals f x false false g ∧ (if x &&& ~~~f.fcw.extractLsb' 0 6 = 0 then Loaded f v g else Moved f 0 g)

/-- A function of the stack has been computed whose operands raise the exceptions `x`, of invalid, denormal and
zero-divide: a value `v` that `p` allows goes to ST(i), with the exceptions `y` that `p` allows beside `v` and that agree
with `x` in these three; or an unmasked one of `x` leaves everything but the flags (R453 to R455). -/
def Computed (f : Fpu) (i : Reg3) (pops : Nat) (x : BitVec 6) (p : BitVec 80 → BitVec 6 → Prop) (g : Fpu) : Prop :=
  if x &&& ~~~f.fcw.extractLsb' 0 6 = 0 then
    ∃ v y c1, p v y ∧ y &&& 7 = x ∧ Signals f y false c1 g ∧ Written f i pops v g
  else Signals f x false false g ∧ Moved f 0 g

/-- The same for a function with two results: the first replaces ST(0), the second is pushed; with an empty ST(0) or a
full stack the indefinite is both (R453, R491, R497, R510). -/
def ComputedPair (f : Fpu) (x : BitVec 6) (p : BitVec 80 → BitVec 80 → BitVec 6 → Prop) (g : Fpu) : Prop :=
  if f.emptyAt 0 = true ∨ f.emptyAt 7 = false then
    Signals f 1 true (!f.emptyAt 0) g ∧
      (if f.fcw.getLsbD 0 then ∃ h, Written f 0 0 indef80 h ∧ Loaded h indef80 g else Moved f 0 g)
  else if x &&& ~~~f.fcw.extractLsb' 0 6 = 0 then
    ∃ v w y c1 h, p v w y ∧ y &&& 7 = x ∧ Signals f y false c1 g ∧ Written f 0 0 v h ∧ Loaded h w g
  else Signals f x false false g ∧ Moved f 0 g

/-- A finite value whose magnitude is at least 2^63, out of the range of the trigonometric functions (R471). -/
def FVal.beyondTrig : FVal → Bool
  | .fin _ a e _ => decide (2 ^ 63 * 2 ^ (-e).toNat ≤ a * 2 ^ e.toNat)
  | _ => false

/-- The exceptions that one operand raises in a function that is defined for every finite value: an unsupported format
and a signalling NaN are invalid, with `infinite` an infinity too, and a denormal is reported (R453). -/
def FVal.operandFlags (infinite : Bool) : FVal → BitVec 6
  | .unsupported => 1
  | .nan z g => if (FVal.nan z g).signals then 1 else 0
  | .inf _ => if infinite then 1 else 0
  | .zero _ => 0
  | .fin _ _ _ d => if d then 2 else 0

/-- What such a function may answer: the indefinite for an unsupported format, and for an infinity with `infinite`; the
NaN made quiet for a NaN; else what `p` allows, with no exception beside those of the operand where `exact` holds
(R453). -/
def FVal.Answer (infinite : Bool) (p : BitVec 80 → Prop) (exact : Prop) (v : FVal) (r : BitVec 80) (y : BitVec 6) :
    Prop :=
  match v with
  | .unsupported => r = indef80 ∧ y = 1
  | .nan z g => r = pack80 (FVal.nan z g).quiet ∧ y &&& ~~~7 = 0
  | .inf _ => if infinite then r = indef80 ∧ y = 1 else p r
  | _ => p r ∧ (exact → y &&& ~~~7 = 0)

/-- C3, C2 and C0 (R469). -/
def Fpu.codes (f : Fpu) : Bool × Bool × Bool := (f.fsw.getLsbD 14, f.fsw.getLsbD 10, f.fsw.getLsbD 8)

/-- C3, C2 and C0 of a comparison (the table of R469). -/
def Cmp.codes : Cmp → Bool × Bool × Bool
  | .gt => (false, false, false)
  | .lt => (false, false, true)
  | .eq => (true, false, false)
  | .un => (true, true, true)

/-- ST(0) has been compared with `b`; an unmasked exception leaves the codes and the stack (R453, R469). -/
def Compared (f : Fpu) (empty quietToo : Bool) (pops : Nat) (b : FVal) (g : Fpu) : Prop :=
  let x := if empty then 1 else compareFlags quietToo true (f.val 0) b
  Signals f x empty false g ∧
    (if x &&& ~~~f.fcw.extractLsb' 0 6 = 0 then
      Moved f pops g ∧ g.codes = (if empty then Cmp.un else compareVal (f.val 0) b).codes
    else Moved f 0 g ∧ g.codes = f.codes)

/-- The state at the end of a non-control x87 instruction: the FPU is `g`, but for the opcode, instruction and operand
pointers it records (R457); `n` open values have been drawn. -/
def State.fpuEnd (t : State) (op : BitVec 11) (m : Option Mem) (g : Fpu) (n : Nat) : State :=
  let h := { g with fop := op, fip := t.rip, fcs := t.cs.sel, fdp := t.fpu.fdp, fds := t.fpu.fds }
  { t with
    fpu := match m with
      | none => h
      | some m => { h with fdp := t.effAddr m, fds := (t.seg m.seg).sel }
    freeCount := t.freeCount + n, rip := t.nextPc }

/-- An x87 instruction leads from `s`, where `t` is the state after its memory operand has been read, to an FPU that
`p` describes. -/
def FpuEnds (i : Instr) (s t : State) (op : BitVec 11) (m : Option Mem) (n : Nat) (p : Fpu → Prop) : Prop :=
  ∃ g, p g ∧ exec i s = .next (t.fpuEnd op m g n)

/-- The opcode register after a memory form: the escape opcode's low bits and the ModR/M byte (R457). -/
def memOpcode (esc digit : BitVec 3) (m : FMem) : BitVec 11 := esc ++ (m.form ||| (digit.setWidth 8 <<< 3))

/-- The memory operand of an x87 instruction has been read as `v` (R130, R451). -/
def FpuReads (m : FMem) (n al : Nat) (s : State) (v : Nat) (t : State) : Prop :=
  ∃ sp, resolveMem m.mem n false (.natural al) s = .ok (sp, t) ∧ v = spanGet t.mem sp 0 n

/-! ### SSE -/

/-- SSE instructions are enabled: CR0.EM and CR0.TS are 0 and CR4.OSFXSR is 1 (R572). -/
def State.sseOn (s : State) : Prop := s.cr0.getLsbD 2 = false ∧ s.cr0.getLsbD 3 = false ∧ s.cr4.getLsbD 9 = true

/-- An SSE instruction whose operand has been read in `t` has the exceptions `x`, with an unmasked invalid, zero-divide or
denormal exception only those three: if one of them is unmasked, the flags of the unmasked ones are set in MXCSR, nothing
else is written and #XM, without CR4.OSXMMEXCPT #UD, is delivered; else the flags of all are set and `write` makes the
result (R572, R573). -/
def SimdEnds (i : Instr) (s t : State) (x : BitVec 6) (write : State → State) : Prop :=
  let masks := s.mxcsr.extractLsb' 7 6
  let y := if x &&& 7 &&& ~~~masks = 0 then x else x &&& 7
  let flagged := fun (z : BitVec 6) => { t with mxcsr := t.mxcsr ||| z.setWidth 32 }
  exec i s = if y &&& ~~~masks = 0 then .next ((write (flagged y)).endWith s.rflags)
    else deliver (if s.cr4.getLsbD 10 then xmFault else udFault) (flagged (y &&& ~~~masks))

end Sys2Proof.Machine

namespace Sys2Proof

/-- Decoding the encoding of the instruction, where it is well formed, gives it back with its length, whatever bytes
follow (R170). -/
def Instr.RoundTrip (i : Instr) : Prop :=
  ∀ (c : Machine.CodeSize) (rest : List Byte), i.wf c = true →
    decode c (encode c i ++ rest) = .ok (i, (encode c i).length)

end Sys2Proof
end

