-- ==== Sys2Proof/Certificates/Slice0/Obligations.lean ====
section
/-! DEFINITION. The statements for the provers. -/

open Sys2Proof Sys2Proof.Machine

/-! ### Integer arithmetic -/

/-- ADD, ADC, SUB, SBB, AND, OR and XOR with a register destination, in every operand form: the result, the flags, and
nothing else but RIP (R240, R241, R245 to R247, R798). -/
def Obligations.AluRegister : Prop :=
  ∀ (s t : State) (w : Width) (g : GReg) (args : AluArgs) (y : BitVec w.bits), AluForm s w (.reg g) args y t →
    let x := s.readGReg w g
    let c := s.flag fCF
    let carry := BitVec.ofNat w.bits c.toNat
    (∃ f, exec (.add args) s = .next ((t.writeGReg w g (x + y)).endWith f) ∧
      SameOutside 0x8D5 s.rflags f ∧ SumFlags x y false f) ∧
    (∃ f, exec (.adc args) s = .next ((t.writeGReg w g (x + y + carry)).endWith f) ∧
      SameOutside 0x8D5 s.rflags f ∧ SumFlags x y c f) ∧
    (∃ f, exec (.sub args) s = .next ((t.writeGReg w g (x - y)).endWith f) ∧
      SameOutside 0x8D5 s.rflags f ∧ DifferenceFlags x y false f) ∧
    (∃ f, exec (.sbb args) s = .next ((t.writeGReg w g (x - y - carry)).endWith f) ∧
      SameOutside 0x8D5 s.rflags f ∧ DifferenceFlags x y c f) ∧
    (∃ f, exec (.and args) s = .next (((t.writeGReg w g (x &&& y)).drawn 1).endWith f) ∧
      SameOutside 0x8D5 s.rflags f ∧ LogicFlags (x &&& y) f) ∧
    (∃ f, exec (.or args) s = .next (((t.writeGReg w g (x ||| y)).drawn 1).endWith f) ∧
      SameOutside 0x8D5 s.rflags f ∧ LogicFlags (x ||| y) f) ∧
    (∃ f, exec (.xor args) s = .next (((t.writeGReg w g (x ^^^ y)).drawn 1).endWith f) ∧
      SameOutside 0x8D5 s.rflags f ∧ LogicFlags (x ^^^ y) f)

/-- The same instructions with a memory destination, alone and under LOCK: the span the operand resolves to receives the
result, no other byte of memory changes, and of the rest only EFLAGS and RIP do (R240, R430). -/
def Obligations.AluMemory : Prop :=
  ∀ (s u : State) (w : Width) (m : Mem) (args : AluArgs) (y : BitVec w.bits) (sp : Span),
    AluForm s w (.mem m) args y s → resolveMem m w.bytes true (.natural w.bytes) s = .ok (sp, u) →
    let x := BitVec.ofNat w.bits (spanGet u.mem sp 0 w.bytes)
    let c := s.flag fCF
    let carry := BitVec.ofNat w.bits c.toNat
    let stored := fun (r : BitVec w.bits) (f : BitVec 32) => (u.storeAt sp w.bytes r.toNat).endWith f
    (s.memOk = true → ∀ r f, OnlySpan sp w.bytes u (stored r f)) ∧
    (∀ p ∈ [(Instr.add args, x + y, false), (.lock (.add args), x + y, false),
        (.adc args, x + y + carry, c), (.lock (.adc args), x + y + carry, c)],
      ∃ f, exec p.1 s = .next (stored p.2.1 f) ∧ SameOutside 0x8D5 s.rflags f ∧ SumFlags x y p.2.2 f) ∧
    (∀ p ∈ [(Instr.sub args, x - y, false), (.lock (.sub args), x - y, false),
        (.sbb args, x - y - carry, c), (.lock (.sbb args), x - y - carry, c)],
      ∃ f, exec p.1 s = .next (stored p.2.1 f) ∧ SameOutside 0x8D5 s.rflags f ∧ DifferenceFlags x y p.2.2 f) ∧
    (∀ p ∈ [(Instr.and args, x &&& y), (.lock (.and args), x &&& y), (.or args, x ||| y), (.lock (.or args), x ||| y),
        (.xor args, x ^^^ y), (.lock (.xor args), x ^^^ y)],
      ∃ f, exec p.1 s = .next ((stored p.2 f).drawn 1) ∧ SameOutside 0x8D5 s.rflags f ∧ LogicFlags p.2 f)

/-- CMP and TEST in every operand form: only the flags and RIP change (R248, R798). -/
def Obligations.CompareTest : Prop :=
  (∀ (s t u : State) (w : Width) (dst : RMB) (args : AluArgs) (x y : BitVec w.bits), AluForm s w dst args y t →
    readRmb w dst t = .ok (x, u) →
    ∃ f, exec (.cmp args) s = .next (u.endWith f) ∧ SameOutside 0x8D5 s.rflags f ∧ DifferenceFlags x y false f) ∧
  (∀ (s u : State) (w : Width) (rm : RMB) (x : BitVec w.bits), readRmb w rm s = .ok (x, u) →
    (∀ r, ∃ f, exec (.test (.rmR w rm r)) s = .next ((u.drawn 1).endWith f) ∧
      SameOutside 0x8D5 s.rflags f ∧ LogicFlags (x &&& s.readGReg w r) f) ∧
    (∀ imm, ∃ f, exec (.test (.rmImm w rm imm)) s = .next ((u.drawn 1).endWith f) ∧
      SameOutside 0x8D5 s.rflags f ∧ LogicFlags (x &&& imm.signExtend w.bits) f)) ∧
  (∀ (s : State) (w : Width) (imm : BitVec w.immBits),
    ∃ f, exec (.test (.accImm w imm)) s = .next ((s.drawn 1).endWith f) ∧
      SameOutside 0x8D5 s.rflags f ∧ LogicFlags (s.readReg w rAX &&& imm.signExtend w.bits) f)

/-- INC, DEC, NEG and NOT, in a register and in memory, in memory also under LOCK; INC and DEC leave CF (R250, R251,
R798). -/
def Obligations.UnaryArithmetic : Prop :=
  (∀ (s : State) (w : Width) (g : GReg),
    let x := s.readGReg w g
    (∃ f, exec (.inc (.rm w (.reg g))) s = .next ((s.writeGReg w g (x + 1)).endWith f) ∧
      SameOutside 0x8D4 s.rflags f ∧ SumRest x 1 false f) ∧
    (∃ f, exec (.dec (.rm w (.reg g))) s = .next ((s.writeGReg w g (x - 1)).endWith f) ∧
      SameOutside 0x8D4 s.rflags f ∧ DifferenceRest x 1 false f) ∧
    (∃ f, exec (.neg w (.reg g)) s = .next ((s.writeGReg w g (-x)).endWith f) ∧
      SameOutside 0x8D5 s.rflags f ∧ DifferenceFlags 0 x false f) ∧
    exec (.not w (.reg g)) s = .next ((s.writeGReg w g (~~~x)).endWith s.rflags)) ∧
  (∀ (s : State) (w : Width) (r : Reg3),
    let x := s.readReg w (r.setWidth 4)
    (∃ f, exec (.inc (.short w r)) s = .next ((s.writeReg w (r.setWidth 4) (x + 1)).endWith f) ∧
      SameOutside 0x8D4 s.rflags f ∧ SumRest x 1 false f) ∧
    (∃ f, exec (.dec (.short w r)) s = .next ((s.writeReg w (r.setWidth 4) (x - 1)).endWith f) ∧
      SameOutside 0x8D4 s.rflags f ∧ DifferenceRest x 1 false f)) ∧
  (∀ (s u : State) (w : Width) (m : Mem) (sp : Span),
    resolveMem m w.bytes true (.natural w.bytes) s = .ok (sp, u) →
    let x := BitVec.ofNat w.bits (spanGet u.mem sp 0 w.bytes)
    let stored := fun (r : BitVec w.bits) (f : BitVec 32) => (u.storeAt sp w.bytes r.toNat).endWith f
    (s.memOk = true → ∀ r f, OnlySpan sp w.bytes u (stored r f)) ∧
    (∀ i ∈ [Instr.inc (.rm w (.mem m)), .lock (.inc (.rm w (.mem m)))],
      ∃ f, exec i s = .next (stored (x + 1) f) ∧ SameOutside 0x8D4 s.rflags f ∧ SumRest x 1 false f) ∧
    (∀ i ∈ [Instr.dec (.rm w (.mem m)), .lock (.dec (.rm w (.mem m)))],
      ∃ f, exec i s = .next (stored (x - 1) f) ∧ SameOutside 0x8D4 s.rflags f ∧ DifferenceRest x 1 false f) ∧
    (∀ i ∈ [Instr.neg w (.mem m), .lock (.neg w (.mem m))],
      ∃ f, exec i s = .next (stored (-x) f) ∧ SameOutside 0x8D5 s.rflags f ∧ DifferenceFlags 0 x false f) ∧
    (∀ i ∈ [Instr.not w (.mem m), .lock (.not w (.mem m))], exec i s = .next (stored (~~~x) s.rflags)))

/-- MUL and IMUL: the exact product of twice the width in the accumulator pair, or its low half in a register; CF and OF
say whether the upper half matters. DIV and IDIV: quotient and remainder where the quotient fits, else #DE from the
unchanged state. The other status flags are open (R255 to R257, R798). -/
def Obligations.MultiplyDivide : Prop :=
  (∀ (s t : State) (w : Width) (b : BitVec w.bits),
    let pair := fun (u : State) (n : Nat) =>
      if w = .b8 then u.writeReg .b16 rAX (BitVec.ofNat 16 n)
      else (u.writeReg w rAX (BitVec.ofNat w.bits n)).writeReg w rDX (BitVec.ofNat w.bits (n / 2 ^ w.bits))
    let flags := fun (c : Bool) (f : BitVec 32) => SameOutside 0x8D5 s.rflags f ∧ f.getLsbD 0 = c ∧ f.getLsbD 11 = c
    let fits := fun (p : Int) => -2 ^ (w.bits - 1) ≤ p ∧ p < 2 ^ (w.bits - 1)
    let low := fun (i : Instr) (r : Reg) (p : Int) =>
      ∃ f, exec i s = .next (((t.writeReg w r (BitVec.ofInt w.bits p)).drawn 1).endWith f) ∧
        flags (decide (¬ fits p)) f
    (∀ rm : RMB, readRmb w rm s = .ok (b, t) →
      (let p := (s.readReg w rAX).toNat * b.toNat
        ∃ f, exec (.mul w rm) s = .next (((pair t p).drawn 1).endWith f) ∧ flags (decide (2 ^ w.bits ≤ p)) f) ∧
      (let p := (s.readReg w rAX).toInt * b.toInt
        ∃ f, exec (.imul (.one w rm)) s =
          .next (((pair t (p % 2 ^ (2 * w.bits)).toNat).drawn 1).endWith f) ∧ flags (decide (¬ fits p)) f)) ∧
    (∀ (r : Reg) (src : RM), readRm w src s = .ok (b, t) →
      low (.imul (.two w r src)) r ((s.readReg w r).toInt * b.toInt) ∧
      (∀ imm : Byte, low (.imul (.three8 w r src imm)) r (b.toInt * imm.toInt)) ∧
      (∀ imm : BitVec w.immBits, low (.imul (.three w r src imm)) r (b.toInt * imm.toInt)))) ∧
  (∀ (s t : State) (w : Width) (rm : RMB) (d : BitVec w.bits), readRmb w rm s = .ok (d, t) →
    let hi := if w = .b8 then (s.get rAX).toNat / 256 % 256 else (s.readReg w rDX).toNat
    let n := hi * 2 ^ w.bits + (s.readReg w rAX).toNat
    let z : Int := if n < 2 ^ (2 * w.bits - 1) then n else (n : Int) - 2 ^ (2 * w.bits)
    let pair := fun (q r : BitVec w.bits) =>
      if w = .b8 then t.writeReg .b16 rAX (BitVec.ofNat 16 (r.toNat * 256 + q.toNat))
      else (t.writeReg w rAX q).writeReg w rDX r
    (if d.toNat = 0 ∨ 2 ^ w.bits ≤ n / d.toNat then exec (.div w rm) s = deliver deFault s
      else ∃ f, exec (.div w rm) s =
          .next (((pair (BitVec.ofNat _ (n / d.toNat)) (BitVec.ofNat _ (n % d.toNat))).drawn 1).endWith f) ∧
        SameOutside 0x8D5 s.rflags f) ∧
    (if d.toNat = 0 ∨ z.tdiv d.toInt < -2 ^ (w.bits - 1) ∨ 2 ^ (w.bits - 1) ≤ z.tdiv d.toInt then
        exec (.idiv w rm) s = deliver deFault s
      else ∃ f, exec (.idiv w rm) s =
          .next (((pair (BitVec.ofInt _ (z.tdiv d.toInt)) (BitVec.ofInt _ (z.tmod d.toInt))).drawn 1).endWith f) ∧
        SameOutside 0x8D5 s.rflags f))

/-- The decimal adjustments AAA, AAS, AAD, AAM, DAA and DAS: their encodings, the result and the flags, those the
rules call undefined left open, the divide error of AAM with base 0, and #UD in 64-bit mode (R260 to R265). That an
adjustment of AL at FAH or above carries nothing more into AH is DEDUCED (log entry 69). -/
def Obligations.DecimalAdjust : Prop :=
  (∀ (c : CodeSize) (base : Byte) (rest : List Byte),
    decode c (0x37 :: rest) = .ok (.aaa, 1) ∧ decode c (0x3F :: rest) = .ok (.aas, 1) ∧
    decode c (0x27 :: rest) = .ok (.daa, 1) ∧ decode c (0x2F :: rest) = .ok (.das, 1) ∧
    decode c (0xD5 :: base :: rest) = .ok (.aad base, 2) ∧ decode c (0xD4 :: base :: rest) = .ok (.aam base, 2)) ∧
  (∀ s : State, s.is64 = true → ∀ base : Byte,
    ∀ i ∈ [Instr.aaa, .aas, .daa, .das, .aad base, .aam base], exec i s = deliver udFault s) ∧
  (∀ s : State, s.is64 = false →
    let al := s.readReg .b8 rAX
    let ah := s.readGReg .b8 (.high 0)
    let low := decide (9 < al.toNat % 16) || s.flag fAF
    let high := decide (0x99 < al.toNat) || s.flag fCF
    let ends := fun (i : Instr) (ax : BitVec 16) (p : BitVec 32 → Prop) =>
      ∃ f, exec i s = .next (((s.writeReg .b16 rAX ax).drawn 1).endWith f) ∧ SameOutside 0x8D5 s.rflags f ∧ p f
    let byteEnds := fun (i : Instr) (r : BitVec 8) (cf af : Bool) =>
      ∃ f, exec i s = .next (((s.writeReg .b8 rAX r).drawn 1).endWith f) ∧ SameOutside 0x8D5 s.rflags f ∧
        f.getLsbD 0 = cf ∧ f.getLsbD 4 = af ∧ ResultFlags r f
    ends .aaa (if low then (ah + 1) ++ ((al + 6) &&& 0xF) else ah ++ (al &&& 0xF))
      (fun f => f.getLsbD 0 = low ∧ f.getLsbD 4 = low) ∧
    ends .aas (if low then (ah - 1) ++ ((al - 6) &&& 0xF) else ah ++ (al &&& 0xF))
      (fun f => f.getLsbD 0 = low ∧ f.getLsbD 4 = low) ∧
    (∀ base : Byte, ends (.aad base) (0#8 ++ (al + ah * base)) (ResultFlags (al + ah * base))) ∧
    (∀ base : Byte, base ≠ 0 →
      ends (.aam base) (BitVec.ofNat 8 (al.toNat / base.toNat) ++ BitVec.ofNat 8 (al.toNat % base.toNat))
        (ResultFlags (BitVec.ofNat 8 (al.toNat % base.toNat)))) ∧
    exec (.aam 0) s = deliver deFault s ∧
    byteEnds .daa (al + (if low then 6 else 0) + (if high then 0x60 else 0)) high low ∧
    byteEnds .das (al - (if low then 6 else 0) - (if high then 0x60 else 0))
      (high || (low && (s.flag fCF || decide (al.toNat < 6)))) low)

/-- The instructions that 64-bit mode does not have raise #UD there, and so does a LOCK prefix on a register destination or
on an instruction that is not in its list, with nothing changed (R207, R260 to R265, R285, R333, R347, R350, R421, R430,
R789, R801). -/
def Obligations.UndefinedInstructions : Prop :=
  (∀ s : State, s.is64 = true → ∀ (osz : Width) (r : Reg) (src : RM) (b : Byte) (off : BitVec 32) (sel : BitVec 16),
    ∀ i ∈ [Instr.aaa, .aas, .daa, .das, .aad b, .aam b, .lahf, .sahf, .into, .bound osz r src, .pusha osz, .popa osz,
        .lds osz r src, .les osz r src, .jmpFarPtr osz off sel, .callFarPtr osz off sel, .push (.sreg osz .es),
        .push (.sreg osz .cs), .push (.sreg osz .ss), .push (.sreg osz .ds), .pop (.sreg osz .es),
        .pop (.sreg osz .ss), .pop (.sreg osz .ds)],
      exec i s = deliver udFault s) ∧
  (∀ (s : State) (w : Width) (g q : GReg) (r p : Reg) (b : BitSel) (a : AluArgs), aluToMemory a = false →
    ∀ k ∈ [LockOp.add a, .adc a, .and a, .or a, .sbb a, .sub a, .xor a, .inc (.rm w (.reg g)), .dec (.rm w (.reg g)),
        .not w (.reg g), .neg w (.reg g), .btc w (.reg r) b, .btr w (.reg r) b, .bts w (.reg r) b,
        .cmpxchg w (.reg g) q, .cmpxchg8b (.reg r), .cmpxchg16b (.reg r), .xadd w (.reg g) q,
        .xchg (.rm w (.reg g) q), .xchg (.acc w p), .other],
      exec (.lock k) s = deliver udFault s)

/-- Sign extension, byte swap, LAHF, SAHF, STC, STD, LEA and NOP: the result, and no flag but SAHF's, CF of STC and DF
of STD (R268, R269, R272, R285, R288, R799, R801). -/
def Obligations.ConvertAndMove : Prop :=
  ∀ s : State,
    let ends := fun (i : Instr) (t : State) => exec i s = .next (t.endWith s.rflags)
    ends (.cbw .b16) (s.writeReg .b16 rAX ((s.readReg .b8 rAX).signExtend 16)) ∧
    ends (.cbw .b32) (s.writeReg .b32 rAX ((s.readReg .b16 rAX).signExtend 32)) ∧
    ends .cdqe (s.writeReg .b64 rAX ((s.readReg .b32 rAX).signExtend 64)) ∧
    (∀ p ∈ [(Instr.cwd .b16, Width.b16), (.cwd .b32, .b32), (.cqo, .b64)],
      ends p.1 (s.writeReg p.2 rDX (if (s.readReg p.2 rAX).toInt < 0 then BitVec.allOnes _ else 0))) ∧
    (∀ r, ∃ v : BitVec 32, ends (.bswap .b32 r) (s.writeReg .b32 r v) ∧
      ∀ k < 4, v.extractLsb' (8 * k) 8 = (s.readReg .b32 r).extractLsb' (24 - 8 * k) 8) ∧
    (∀ r, ∃ v : BitVec 64, ends (.bswap .b64 r) (s.writeReg .b64 r v) ∧
      ∀ k < 8, v.extractLsb' (8 * k) 8 = (s.readReg .b64 r).extractLsb' (56 - 8 * k) 8) ∧
    (∀ r, ∃ v : BitVec 16, ends (.bswap .b16 r) ((s.writeReg .b16 r v).drawn 1)) ∧
    (s.is64 = false → ∃ v : BitVec 8, ends .lahf (s.writeGReg .b8 (.high 0) v) ∧ v.getLsbD 1 = true ∧
      v.getLsbD 3 = false ∧ v.getLsbD 5 = false ∧ ∀ k ∈ [0, 2, 4, 6, 7], v.getLsbD k = s.flag k) ∧
    (s.is64 = false → ∃ f, exec .sahf s = .next (s.endWith f) ∧ SameOutside 0xD5 s.rflags f ∧
      ∀ k ∈ [0, 2, 4, 6, 7], f.getLsbD k = (s.readGReg .b8 (.high 0)).getLsbD k) ∧
    exec .stc s = .next (s.endWith (s.rflags ||| 1)) ∧ exec .std s = .next (s.endWith (s.rflags ||| 0x400)) ∧
    (∀ w r m, ends (.lea w r (.mem m)) (s.writeReg w r ((s.effAddr m).setWidth w.bits))) ∧
    (∀ w r q, exec (.lea w r (.reg q)) s = deliver udFault s) ∧
    (∀ pause, ends (.nop pause) s)

/-- CMOVcc: the source is read whatever the condition, and a 32-bit form clears the upper half of the destination even
where the condition is false. SETcc: the byte receives 1 or 0 by its condition. No flag changes (R275, R330, R801). -/
def Obligations.ConditionalMoves : Prop :=
  (∀ (s t : State) (w : Width) (r : Reg) (src : RM) (v : BitVec w.bits), readRm w src s = .ok (v, t) →
    ∀ p ∈ [Instr.cmovo w r src, .cmovno w r src, .cmovb w r src, .cmovae w r src, .cmove w r src, .cmovne w r src,
        .cmovbe w r src, .cmova w r src, .cmovs w r src, .cmovns w r src, .cmovp w r src, .cmovnp w r src,
        .cmovl w r src, .cmovge w r src, .cmovle w r src, .cmovg w r src].zip (conditions s),
      exec p.1 s = .next (State.endWith
        (if p.2 then t.writeReg w r v else if w = .b32 then t.writeReg w r (s.readReg w r) else t) s.rflags)) ∧
  (∀ (s : State) (d : RMB) (x : BitVec 8) (put : BitVec 8 → State), Destination s .b8 d x put →
    (s.memOk = true → ∀ r, OnlyOperand s .b8 d (put r)) ∧
    ∀ p ∈ [Instr.seto d, .setno d, .setb d, .setae d, .sete d, .setne d, .setbe d, .seta d, .sets d, .setns d,
        .setp d, .setnp d, .setl d, .setge d, .setle d, .setg d].zip (conditions s),
      exec p.1 s = .next ((put (if p.2 then 1 else 0)).endWith s.rflags))

/-- CMPXCHG, XADD and XCHG in registers and in memory, CMPXCHG8B and CMPXCHG16B, in memory also under LOCK; of the flags
the last two change ZF alone (R280 to R282, R430, R799). -/
def Obligations.Exchange : Prop :=
  ((∀ (s : State) (w : Width) (g r : GReg),
    let x := s.readGReg w g
    let y := s.readGReg w r
    let acc := s.readReg w rAX
    (∃ f, exec (.cmpxchg w (.reg g) r) s =
        .next (State.endWith (if acc = x then s.writeGReg w g y else s.writeReg w rAX x) f) ∧
      SameOutside 0x8D5 s.rflags f ∧ DifferenceFlags acc x false f) ∧
    (∃ f, exec (.xadd w (.reg g) r) s = .next (((s.writeGReg w r x).writeGReg w g (x + y)).endWith f) ∧
      SameOutside 0x8D5 s.rflags f ∧ SumFlags x y false f) ∧
    exec (.xchg (.rm w (.reg g) r)) s = .next (((s.writeGReg w r x).writeGReg w g y).endWith s.rflags)) ∧
  (∀ (s : State) (w : Width) (r : Reg), exec (.xchg (.acc w r)) s =
    .next (((s.writeReg w rAX (s.readReg w r)).writeReg w r (s.readReg w rAX)).endWith s.rflags)) ∧
  (∀ (s u : State) (w : Width) (m : Mem) (r : GReg) (sp : Span),
    resolveMem m w.bytes true (.natural w.bytes) s = .ok (sp, u) →
    let x := BitVec.ofNat w.bits (spanGet u.mem sp 0 w.bytes)
    let y := s.readGReg w r
    let acc := s.readReg w rAX
    let stored := fun (t : State) (v : BitVec w.bits) (f : BitVec 32) => (t.storeAt sp w.bytes v.toNat).endWith f
    (s.memOk = true → ∀ v, OnlySpan sp w.bytes u (u.storeAt sp w.bytes v)) ∧
    (∀ i ∈ [Instr.cmpxchg w (.mem m) r, .lock (.cmpxchg w (.mem m) r)],
      ∃ f, exec i s = .next (if acc = x then stored u y f else stored (u.writeReg w rAX x) x f) ∧
        SameOutside 0x8D5 s.rflags f ∧ DifferenceFlags acc x false f) ∧
    (∀ i ∈ [Instr.xadd w (.mem m) r, .lock (.xadd w (.mem m) r)],
      ∃ f, exec i s = .next (stored (u.writeGReg w r x) (x + y) f) ∧
        SameOutside 0x8D5 s.rflags f ∧ SumFlags x y false f) ∧
    (∀ i ∈ [Instr.xchg (.rm w (.mem m) r), .lock (.xchg (.rm w (.mem m) r))],
      exec i s = .next (stored (u.writeGReg w r x) y s.rflags)))) ∧
  ((∀ (s u : State) (m : Mem) (sp : Span),
    ∀ p ∈ [(Instr.cmpxchg8b (.mem m), Width.b32, Align.natural 8), (.lock (.cmpxchg8b (.mem m)), .b32, .natural 8),
        (.cmpxchg16b (.mem m), .b64, .para), (.lock (.cmpxchg16b (.mem m)), .b64, .para)],
      let w := p.2.1
      let n := 2 * w.bytes
      resolveMem m n true p.2.2 s = .ok (sp, u) →
      let pair := fun (lo hi : Reg) => (s.readReg w hi).toNat * 2 ^ w.bits + (s.readReg w lo).toNat
      let d := spanGet u.mem sp 0 n
      (s.memOk = true → ∀ v, OnlySpan sp n u (u.storeAt sp n v)) ∧
      ∃ f, SameOutside 0x40 s.rflags f ∧ f.getLsbD 6 = decide (d = pair rAX rDX) ∧
        exec p.1 s = .next (State.endWith
          (if d = pair rAX rDX then u.storeAt sp n (pair rBX rCX)
          else ((u.storeAt sp n d).writeReg w rAX (BitVec.ofNat _ d)).writeReg w rDX
            (BitVec.ofNat _ (d / 2 ^ w.bits))) f)) ∧
  (∀ (s : State) (r : Reg), exec (.cmpxchg8b (.reg r)) s = deliver udFault s ∧
    exec (.cmpxchg16b (.reg r)) s = deliver udFault s))

/-! ### Bits -/

/-- BSF and BSR: the number of the lowest and of the highest set bit with ZF = 0; for a source of 0 an open value with
ZF = 1. BT, BTC, BTR and BTS: the selected bit goes to CF and is replaced; a register operand takes the offset modulo
its width, a memory operand is the bit string around its address: the operand accessed lies at the effective address, for a register
offset moved by the operand's bytes times the floor of the signed offset over the width, modulo the address size. The other
status flags are open (R300 to R302, R305 to R308, R430). -/
def Obligations.BitScanTest : Prop :=
  (∀ (s t : State) (w : Width) (r : Reg) (src : RM) (v : BitVec w.bits), readRm w src s = .ok (v, t) →
    ∀ p ∈ [(Instr.bsf w r src, fun i j : Nat => j < i), (.bsr w r src, fun i j => i < j)],
      (v = 0 → ∃ x f, exec p.1 s = .next (((t.writeReg w r x).drawn 2).endWith f) ∧ SameOutside 0x8D5 s.rflags f ∧
        f.getLsbD 6 = true) ∧
      (∀ i, v.getLsbD i = true → (∀ j, p.2 i j → v.getLsbD j = false) →
        ∃ f, exec p.1 s = .next (((t.writeReg w r (BitVec.ofNat _ i)).drawn 1).endWith f) ∧
          SameOutside 0x8D5 s.rflags f ∧ f.getLsbD 6 = false)) ∧
  (∀ (s : State) (w : Width) (b : BitSel),
    let n := match b with
      | .reg q => (s.readReg w q).toNat % w.bits
      | .imm i => i.toNat % w.bits
    let one := BitVec.twoPow w.bits n
    let ends := fun (i : Instr) (x : BitVec w.bits) (t : State) =>
      ∃ f, exec i s = .next ((t.drawn 1).endWith f) ∧ SameOutside 0x8D5 s.rflags f ∧ f.getLsbD 0 = x.getLsbD n
    (∀ r, let x := s.readReg w r
      ends (.bt w (.reg r) b) x s ∧ ends (.btc w (.reg r) b) x (s.writeReg w r (x ^^^ one)) ∧
      ends (.btr w (.reg r) b) x (s.writeReg w r (x &&& ~~~one)) ∧
      ends (.bts w (.reg r) b) x (s.writeReg w r (x ||| one))) ∧
    (∀ m v t, readMem m.seg (s.bitAddr w m b) w.bytes s = .ok (v, t) →
      ends (.bt w (.mem m) b) (BitVec.ofNat _ v) t) ∧
    (∀ m sp u, resolve m.seg (s.bitAddr w m b) w.bytes true (.natural w.bytes) s = .ok (sp, u) →
      let x := BitVec.ofNat w.bits (spanGet u.mem sp 0 w.bytes)
      let stored := fun (y : BitVec w.bits) => u.storeAt sp w.bytes y.toNat
      (s.memOk = true → ∀ y, OnlySpan sp w.bytes u (stored y)) ∧
      (∀ i ∈ [Instr.btc w (.mem m) b, .lock (.btc w (.mem m) b)], ends i x (stored (x ^^^ one))) ∧
      (∀ i ∈ [Instr.btr w (.mem m) b, .lock (.btr w (.mem m) b)], ends i x (stored (x &&& ~~~one))) ∧
      (∀ i ∈ [Instr.bts w (.mem m) b, .lock (.bts w (.mem m) b)], ends i x (stored (x ||| one))))) ∧
  (∀ (s : State) (w : Width) (m : Mem),
    let size : Int := match m.asz with | .a16 => 2 ^ 16 | .a32 => 2 ^ 32 | .a64 => 2 ^ 64
    (∀ i, s.bitAddr w m (.imm i) = s.effAddr m) ∧
    ∀ q, ((s.bitAddr w m (.reg q)).toNat : Int) =
      ((s.effAddr m).toNat + w.bytes * ((s.readReg w q).toInt / w.bits)) % size)

/-- SHL, SHR, SAR, SHLD and SHRD in registers and in memory: the result and the flags; a masked count of 0 changes no
flag; AF, OF for a count above 1 and CF for one above the width are open, but for SAR's CF; the result of SHLD and SHRD
for a masked count above the width is open (R797; the open values for counts above the width are the model's choice: log
entry 36). -/
def Obligations.Shift : Prop :=
  (∀ (s : State) (w : Width) (rm : RMB) (x : BitVec w.bits) (put : BitVec w.bits → State) (cnt : ShiftCount),
    Destination s w rm x put →
    let c := (match cnt with | .one => 1 | .cl => (s.readReg .b8 rCX).toNat | .imm i => i.toNat) %
      (if w = .b64 then 64 else 32)
    let ends := fun (i : Instr) (r : BitVec w.bits) (cf : Option Bool) (of : Bool) =>
      ∃ f k, exec i s = .next (((put r).drawn k).endWith f) ∧ SameOutside 0x8D5 s.rflags f ∧ ResultFlags r f ∧
        (∀ b, cf = some b → f.getLsbD 0 = b) ∧ (c = 1 → f.getLsbD 11 = of)
    (s.memOk = true → ∀ r, OnlyOperand s w rm (put r)) ∧
    (c = 0 → ∀ i ∈ [Instr.shl w rm cnt, .shr w rm cnt, .sar w rm cnt], exec i s = .next ((put x).endWith s.rflags)) ∧
    (0 < c →
      ends (.shl w rm cnt) (x <<< c) (if c ≤ w.bits then some (x.getLsbD (w.bits - c)) else none)
        ((x <<< c).msb != x.msb) ∧
      ends (.shr w rm cnt) (BitVec.ofNat _ (x.toNat / 2 ^ c)) (if c ≤ w.bits then some (x.getLsbD (c - 1)) else none)
        x.msb ∧
      ends (.sar w rm cnt) (BitVec.ofInt _ (x.toInt / 2 ^ c))
        (some (if c ≤ w.bits then x.getLsbD (c - 1) else x.msb)) false)) ∧
  (∀ (s : State) (w : Width) (dst : RM) (x : BitVec w.bits) (put : BitVec w.bits → State) (q : Reg) (cnt : Option Byte),
    Destination s w (asRmb dst) x put →
    let y := s.readReg w q
    let c := (match cnt with | none => (s.readReg .b8 rCX).toNat | some i => i.toNat) % (if w = .b64 then 64 else 32)
    let ends := fun (i : Instr) (r : BitVec w.bits) (f : BitVec 32) =>
      (∃ k, exec i s = .next (((put r).drawn k).endWith f)) ∧ SameOutside 0x8D5 s.rflags f ∧ ResultFlags r f ∧
        (c = 1 → f.getLsbD 11 = (r.msb != x.msb))
    (s.memOk = true → ∀ r, OnlyOperand s w (asRmb dst) (put r)) ∧
    (∀ i ∈ [Instr.shld w dst q cnt, .shrd w dst q cnt],
      (c = 0 → exec i s = .next ((put x).endWith s.rflags)) ∧ (w.bits < c → ∃ r f, ends i r f)) ∧
    (0 < c → c ≤ w.bits →
      (∃ r f, ends (.shld w dst q cnt) r f ∧ f.getLsbD 0 = x.getLsbD (w.bits - c) ∧
        ∀ i < w.bits, r.getLsbD i = if c ≤ i then x.getLsbD (i - c) else y.getLsbD (w.bits - c + i)) ∧
      (∃ r f, ends (.shrd w dst q cnt) r f ∧ f.getLsbD 0 = x.getLsbD (c - 1) ∧
        ∀ i < w.bits, r.getLsbD i = if i + c < w.bits then x.getLsbD (i + c) else y.getLsbD (i + c - w.bits))))

/-- ROL, ROR, RCL and RCR in registers and in memory: every bit moves by the masked count, through CF for RCL and RCR;
of the flags only CF, OF and AF change, AF being open and OF open for a count above 1 (R797). -/
def Obligations.Rotate : Prop :=
  ∀ (s : State) (w : Width) (rm : RMB) (x : BitVec w.bits) (put : BitVec w.bits → State) (cnt : ShiftCount),
    Destination s w rm x put →
    let n := w.bits
    let c := (match cnt with | .one => 1 | .cl => (s.readReg .b8 rCX).toNat | .imm i => i.toNat) %
      (if w = .b64 then 64 else 32)
    let ends := fun (i : Instr) (r : BitVec w.bits) (cf of : Bool) =>
      ∃ f k, exec i s = .next (((put r).drawn k).endWith f) ∧ SameOutside 0x811 s.rflags f ∧
        f.getLsbD 0 = cf ∧ (c = 1 → f.getLsbD 11 = of)
    let wide := fun i => if i = n then s.flag fCF else x.getLsbD i
    (s.memOk = true → ∀ r, OnlyOperand s w rm (put r)) ∧
    (c = 0 → ∀ i ∈ [Instr.rol w rm cnt, .ror w rm cnt, .rcl w rm cnt, .rcr w rm cnt],
      exec i s = .next ((put x).endWith s.rflags)) ∧
    (0 < c →
      (∃ r : BitVec w.bits, (∀ i < n, r.getLsbD ((i + c) % n) = x.getLsbD i) ∧
        ends (.rol w rm cnt) r (r.getLsbD 0) (r.msb != r.getLsbD 0)) ∧
      (∃ r : BitVec w.bits, (∀ i < n, r.getLsbD i = x.getLsbD ((i + c) % n)) ∧
        ends (.ror w rm cnt) r r.msb (r.msb != r.getLsbD (n - 2))) ∧
      (∃ (r : BitVec w.bits) (k : Bool),
        (∀ i ≤ n, (let j := (i + c) % (n + 1); if j = n then k else r.getLsbD j) = wide i) ∧
        ends (.rcl w rm cnt) r k (r.msb != k)) ∧
      (∃ (r : BitVec w.bits) (k : Bool),
        (∀ i ≤ n, (if i = n then k else r.getLsbD i) = wide ((i + c) % (n + 1))) ∧
        ends (.rcr w rm cnt) r k (r.msb != r.getLsbD (n - 2))))

/-! ### Control transfers -/

/-- Jcc, JCXZ, LOOPcc and JMP near relative: where the branch is taken, RIP is the next address plus the displacement,
truncated to the operand size, if it is canonical (64-bit mode) or inside the CS limit (elsewhere), and but for JMP in
real-address and virtual-8086 mode not above FFFFH, else #GP(0) with nothing changed; where it is not taken, the next
instruction; LOOPcc decrement the count register; no flag changes (R320, R321, R330 to R332, R334, R336 to R340). -/
def Obligations.RelativeBranches : Prop :=
  ∀ (s : State) (osz : Width) (rel : Rel) (asz : ASize) (d : Byte),
    let branch := fun (i : Instr) (low taken : Bool) (u : State) (rel : Rel) =>
      let disp : Word := match rel with
        | .r8 d => d.signExtend 64
        | .r16 d => d.signExtend 64
        | .r32 d => d.signExtend 64
      let target : Word := ((s.nextPc + disp).setWidth osz.bits).setWidth 64
      let ok := s.codeAt target && !(low && s.paragraphs && decide (0xFFFF < target.toNat))
      exec i s = if taken then (if ok then .next { u with rip := target } else deliver gp0 s)
        else .next (u.endWith s.rflags)
    let w := asizeWidth asz
    let count := s.readReg w rCX
    let u := s.writeReg w rCX (count - 1)
    (∀ p ∈ [Instr.jo osz rel, .jno osz rel, .jb osz rel, .jae osz rel, .je osz rel, .jne osz rel, .jbe osz rel,
        .ja osz rel, .js osz rel, .jns osz rel, .jp osz rel, .jnp osz rel, .jl osz rel, .jge osz rel, .jle osz rel,
        .jg osz rel].zip (conditions s), branch p.1 true p.2 s rel) ∧
    branch (.jmpRel osz rel) false true s rel ∧
    branch (.jcxz osz asz d) true (decide (count = 0)) s (.r8 d) ∧
    branch (.loop osz asz d) true (decide (count ≠ 1)) u (.r8 d) ∧
    branch (.loope osz asz d) true (decide (count ≠ 1) && s.flag fZF) u (.r8 d) ∧
    branch (.loopne osz asz d) true (decide (count ≠ 1) && !s.flag fZF) u (.r8 d)

/-- JMP near indirect, CALL near and RET near: the target and, for CALL, the pushed return address, for RET the popped
target and the bytes released; a target that is not allowed raises #GP(0) with nothing changed (R320, R322, R323, R335,
R790). -/
def Obligations.NearTransfers : Prop :=
  (∀ (s u : State) (osz : Width) (src : RM) (v : BitVec osz.bits), readRm osz src s = .ok (v, u) →
    let target := v.setWidth 64
    exec (.jmpInd osz src) s = (if s.codeAt target then .next { u with rip := target } else deliver gp0 s) ∧
    (s.codeAt target = false → exec (.callInd osz src) s = deliver gp0 s) ∧
    (s.codeAt target = true → ∀ t, Pushed osz.bytes s.nextPc.toNat { u with rip := target } t →
      exec (.callInd osz src) s = .next t ∧ t.rip = target)) ∧
  (∀ (s : State) (osz : Width) (rel : Rel),
    let target := truncTo osz (s.nextPc + relDisp rel)
    (s.codeAt target = false → exec (.callRel osz rel) s = deliver gp0 s) ∧
    (s.codeAt target = true → ∀ t, Pushed osz.bytes s.nextPc.toNat { s with rip := target } t →
      exec (.callRel osz rel) s = .next t ∧ t.rip = target)) ∧
  (∀ (s t : State) (osz : Width) (v : Nat), Popped osz.bytes v s t →
    let target := BitVec.ofNat 64 v
    (s.codeAt target = false → ∀ k, exec (.ret osz k) s = deliver gp0 s) ∧
    (s.codeAt target = true →
      exec (.ret osz none) s = .next { t with rip := target } ∧
      ∀ k, exec (.ret osz (some k)) s = .next ({ t with rip := target }.setSp (t.sp + k.setWidth 64))))

/-- JMP and CALL far that stay at the same privilege level: in real-address and virtual-8086 mode the base of CS is
the selector times 16; in protected, compatibility and 64-bit mode CS is loaded from a code segment descriptor that
meets the checks; CALL pushes CS and the next address first. A register operand raises #UD (R324, R326, R333). A load of
CS that enters 64-bit mode leaves bits 63:32 of the eight legacy registers at open values (R35, R756). That the limit and
the attributes of CS stay in real-address and virtual-8086 mode is the model's choice (log entry 72), as are the steps
in protected mode outside IA-32e mode, which R326 leaves out (log entry 113), and that the open values are drawn by the
load of CS (log entry 20). -/
def Obligations.FarTransfers : Prop :=
  (∀ (s t : State) (osz : Width) (jmp call : Instr) (sel : BitVec 16) (off : Word),
    FarForm s osz jmp call sel off t →
    let pushes := [s.cs.sel.toNat, (truncTo osz s.nextPc).toNat]
    (s.paragraphs = true → off.toNat ≤ s.cs.limit.toNat →
      exec jmp s = .next { t with cs := s.cs.atParagraph sel, rip := off } ∧
      ∀ u, PushedAll osz.bytes pushes t u → exec call s = .next { u with cs := s.cs.atParagraph sel, rip := off }) ∧
    (s.paragraphs = false → sel.extractLsb' 2 14 ≠ 0 → ∀ (raw : BitVec 64) (u : State), readDesc sel false t = .ok (raw, u) →
      codeDescriptor raw = true → targetOk s.lma raw off = true →
      (if raw.getLsbD 42 then descLevel raw ≤ s.cpl else descLevel raw = s.cpl ∧ (sel.extractLsb' 0 2).toNat ≤ s.cpl) →
      let c := { descSeg raw sel with sel := withLevel sel s.cpl }
      exec jmp s = .next (u.atCode c off) ∧
      ∀ v, PushedAll osz.bytes pushes u v → exec call s = .next (v.atCode c off)) ∧
    (s.paragraphs = false → sel.extractLsb' 2 14 = 0 → exec jmp s = deliver gp0 s ∧ exec call s = deliver gp0 s)) ∧
  (∀ (s : State) (c : SegReg),
    let t := s.loadCs c
    if s.is64 = false ∧ ({ s with cs := c } : State).is64 = true then
      t = { s with cs := c, gpr := t.gpr, freeCount := s.freeCount + 8 } ∧
      ∀ r : Reg, (t.get r).extractLsb' 0 32 = (s.get r).extractLsb' 0 32 ∧
        (t.get r).extractLsb' 32 32 = if r.toNat < 8 then (Config.freeValue (s.freeCount + r.toNat)).extractLsb' 0 32
          else (s.get r).extractLsb' 32 32
    else t = { s with cs := c }) ∧
  (∀ (s : State) (osz : Width) (r : Reg), exec (.jmpFarMem osz (.reg r)) s = deliver udFault s ∧
    exec (.callFarMem osz (.reg r)) s = deliver udFault s)

/-- JMP and CALL far through a 64-bit call gate: without a change of level the code segment and the offset come from the
gate, and CALL pushes CS and RIP as quadwords; CALL to an inner level takes the new stack pointer from the TSS, pushes
SS, RSP, CS and RIP there, and leaves SS null. The stack pointer in the TSS must lie inside its limit and at a canonical
address, else #TS (R128, R693, R725). -/
def Obligations.CallGate : Prop :=
  (∀ (s t a b c : State) (osz : Width) (jmp call : Instr) (sel : BitVec 16) (off : Word) (gate hi raw : BitVec 64),
    FarForm s osz jmp call sel off t → s.lma = true → sel.extractLsb' 2 14 ≠ 0 →
    readDesc sel false t = .ok (gate, a) → gate.extractLsb' 40 5 = 0xC → readDescHigh sel a = .ok (hi, b) →
    s.cpl ≤ descLevel gate → (sel.extractLsb' 0 2).toNat ≤ descLevel gate → hi.extractLsb' 40 5 = 0 →
    gate.getLsbD 47 = true → gate.extractLsb' 18 14 ≠ 0 → readDesc (gate.extractLsb' 16 16) false b = .ok (raw, c) →
    codeDescriptor raw = true → raw.getLsbD 53 = true → raw.getLsbD 54 = false → descLevel raw ≤ s.cpl →
    let target : Word := hi.extractLsb' 0 32 ++ gate.extractLsb' 48 16 ++ gate.extractLsb' 0 16
    let oldSp := if s.is64 then s.get rSP else truncTo .b32 (s.get rSP)
    let code := fun n => { descSeg raw 0 with sel := withLevel (gate.extractLsb' 16 16) n }
    canonical target = true →
    (raw.getLsbD 42 = true ∨ descLevel raw = s.cpl →
      exec jmp s = .next (c.atCode (code s.cpl) target) ∧
      ∀ u, PushedAll 8 [s.cs.sel.toNat, s.nextPc.toNat] c u → exec call s = .next (u.atCode (code s.cpl) target)) ∧
    (raw.getLsbD 42 = false → descLevel raw < s.cpl → ∀ sp u v, tssStack (4 + descLevel raw * 8) false c = .ok (sp, u) →
      Stacked false sp [s.ss.sel.setWidth 64, oldSp, s.cs.sel.setWidth 64, s.nextPc] u v →
      let x := { v with ss := { v.ss with
        sel := BitVec.ofNat 16 (descLevel raw), unusable := true, dpl := raw.extractLsb' 45 2 } }
      exec call s = .next ((x.atCode (code (descLevel raw)) target).put rSP (sp - 32)))) ∧
  (∀ (s : State) (off : Nat) (ext : Bool),
    let a := s.tr.base + BitVec.ofNat 64 off
    if off + 7 ≤ s.tr.limit.toNat ∧ canonicalRange a 8 = true then
      ∀ v t, sysRead a 8 s = .ok (v, t) → tssStack off ext s = .ok (BitVec.ofNat 64 v, t)
    else tssStack off ext s = .error (.raised (tsSel s.tr.sel ext)))

/-- RET far: RIP and CS come from the stack, and the stack pointer is moved past them and the released bytes; a return
to an outer level also takes the stack pointer and SS from there, SS null only into 64-bit mode below level 3, and drops
the data segments that level may not use (R790). How a return sets the stack pointer and which data segments it makes
null is said at the end (R348, R790). What real-address and virtual-8086 mode do is the model's choice (log entry 117), as
is that the limit and the attributes of CS stay there (log entry 72), that the segment registers made null hold 0000H (log
entry 112), and that the stack just loaded decides how wide the stack pointer is written
(log entry 103). -/
def Obligations.FarReturn : Prop :=
  (∀ (s t u : State) (osz : Width) (k : Option (BitVec 16)) (ip cs : Nat),
    let slot := fun n => asizeTrunc s.stackSize (s.get rSP + BitVec.ofNat 64 (n * osz.bytes))
    let imm : Word := match k with | none => 0 | some i => i.setWidth 64
    let sel := BitVec.ofNat 16 cs
    let rip := BitVec.ofNat 64 ip
    readMem .ss (slot 0) osz.bytes s = .ok (ip, t) → readMem .ss (slot 1) osz.bytes t = .ok (cs, u) →
    (s.paragraphs = true → ip ≤ s.cs.limit.toNat →
      exec (.retFar osz k) s = .next { u.setSp (slot 2 + imm) with cs := s.cs.atParagraph sel, rip := rip }) ∧
    (s.paragraphs = false → sel.extractLsb' 2 14 ≠ 0 → ∀ (raw : BitVec 64) (v : State), readDesc sel false u = .ok (raw, v) →
      codeDescriptor raw = true → targetOk s.lma raw rip = true →
      (if raw.getLsbD 42 then descLevel raw ≤ cs % 4 else descLevel raw = cs % 4) →
      (cs % 4 = s.cpl →
        exec (.retFar osz k) s = .next ((v.setSp (slot 2 + imm)).atCode (descSeg raw sel) rip)) ∧
      (s.cpl < cs % 4 → ∀ sp ss a b c,
        readMem .ss (asizeTrunc s.stackSize (slot 2 + imm)) osz.bytes v = .ok (sp, a) →
        readMem .ss (asizeTrunc s.stackSize (slot 3 + imm)) osz.bytes a = .ok (ss, b) →
        let newSs := BitVec.ofNat 16 ss
        let outer := fun (c : State) => Host.Outcome.next (({ (c.loadCs (descSeg raw sel)).setReturnSp
          (BitVec.ofNat 64 sp + imm) with rip := rip }).dropDataSegs (cs % 4))
        (newSs.extractLsb' 2 14 ≠ 0 → loadStackAt newSs (cs % 4) b = .ok ((), c) → exec (.retFar osz k) s = outer c) ∧
        (newSs.extractLsb' 2 14 = 0 → exec (.retFar osz k) s =
          if s.lma = true ∧ raw.getLsbD 53 = true ∧ cs % 4 ≠ 3 then
            outer { b with ss := { b.ss with
              sel := withLevel newSs (cs % 4), unusable := true, dpl := BitVec.ofNat 2 (cs % 4) } }
          else deliver gp0 s)))) ∧
  (∀ (s : State) (v : Word), s.setReturnSp v = s.put rSP
    (if s.is64 then v else if s.ss.db then v.setWidth 32 |>.setWidth 64
      else (s.get rSP).extractLsb' 16 48 ++ v.extractLsb' 0 16)) ∧
  (∀ (s : State) (n : Nat),
    let after := fun (g : SegReg) =>
      if g.unusable = false ∧ ((g.s = true ∧ g.typ.getLsbD 3 = false) ∨ g.typ.getLsbD 2 = false) ∧ g.dpl.toNat < n
      then { g with sel := 0, unusable := true } else g
    s.dropDataSegs n = { s with ds := after s.ds, es := after s.es, fs := after s.fs, gs := after s.gs })

/-- ENTER, LEAVE and BOUND: no flag changes; in real-address mode LEAVE with a frame pointer above FFFFH raises #GP
(R342, R343, R350). That virtual-8086 mode does as real-address mode is the model's choice (log entry 82), as is that
ENTER of 32 bits on a 16-bit stack pushes the whole of EBP (log entry 81); that ENTER in 64-bit mode checks its pushes
and not the final stack pointer is DEDUCED (log entry 70). -/
def Obligations.Frames : Prop :=
  (∀ (s t : State) (osz : Width) (size : BitVec 16) (level : Byte),
    let allocate := fun (t u : State) =>
      let v := t.writeReg osz rBP (u.sp.setWidth osz.bits)
      v.setSp (v.sp - size.setWidth 64)
    let ends := fun (v : State) => (s.is64 || v.ss.inLimit v.sp 1) = true →
      exec (.enter osz size level) s = .next (v.endWith s.rflags)
    Pushed osz.bytes (s.readReg osz rBP).toNat s t →
    (level.toNat % 32 = 0 → ends (allocate t t)) ∧
    (0 < level.toNat % 32 → ∀ u v, FrameCopies osz.bytes (level.toNat % 32 - 1) t u →
      Pushed osz.bytes t.sp.toNat u v → ends (allocate v t))) ∧
  (∀ (s : State) (osz : Width),
    let far := s.paragraphs = true ∧ 0xFFFF < s.bp.toNat
    (far → exec (.leave osz) s = deliver gp0 s) ∧
    (¬far → ∀ t v, Popped osz.bytes v (s.setSp s.bp) t →
      exec (.leave osz) s = .next ((t.writeReg osz rBP (BitVec.ofNat osz.bits v)).endWith s.rflags))) ∧
  (∀ (s t u : State) (w : Width) (r : Reg) (m : Mem) (lo hi : Nat), s.is64 = false →
    readMem m.seg (s.effAddr m) w.bytes s = .ok (lo, t) →
    readMem m.seg (s.effAddr m + BitVec.ofNat 64 w.bytes) w.bytes t = .ok (hi, u) →
    exec (.bound w r (.mem m)) s =
      if (BitVec.ofNat w.bits lo).toInt ≤ (s.readReg w r).toInt ∧ (s.readReg w r).toInt ≤ (BitVec.ofNat w.bits hi).toInt
      then .next (u.endWith s.rflags) else deliver brFault s) ∧
  (∀ (s : State) (w : Width) (r q : Reg), exec (.bound w r (.reg q)) s = deliver udFault s)

/-- TAKING AN EXCEPTION OR INTERRUPT IN IA-32e MODE: the vectors, the classes and the error codes of the events that the
statements name; a page fault's address goes to CR2, the frame is stored below the
16-byte aligned stack pointer, CS is the gate's code segment with the new privilege level as its RPL, SS becomes null
on a change of level, RIP is the gate's offset, TF, NT, RF and VM are cleared and IF through an interrupt gate; INT n,
INT 3, INTO, UD2 and RSM are such events. An exception that the delivery raises is delivered in its place, or becomes
a double fault with error code 0 where R698 says so; a contributory exception or a page fault that the delivery of a
double fault raises is shutdown, and any other is delivered in its place (R145,
R345 to R347, R660 to R662, R690, R693, R694, R698, R800, R804). That a delivery ends a pending single-step trap and the interrupt
shadow is the model's choice (log entries 28 and 29), as is where the open saved RIP of a double fault comes from (log
entry 30); that RSM is #UD and not refused is log entry 99, and that what the delivery of an exception raises
has EXT = 1, as R662's table has it and R690's operation does not, is log entry 90. -/
def Obligations.EntryLong : Prop :=
  (let event := fun (v : Byte) (k : Kind) (c : Option (BitVec 32)) => ({ vector := v, kind := k, code := c, cr2 := none } : Event);
    (∀ p ∈ [(deFault, 0), (brFault, 5), (udFault, 6), (nmFault, 7), (mfFault, 16), (xmFault, 19)], p.1 = event p.2 .fault none) ∧
    gp0 = event 13 .fault (some 0) ∧ ss0 = event 12 .fault (some 0) ∧ dbTrap = event 1 .trap none ∧
    nmiEvent = event 2 .nmi none ∧ dfAbort = event 8 .abort (some 0) ∧ (∀ v, softInt v = event v .software none) ∧
    (∀ v c, Event.coded v c = event v .fault (some c)) ∧
    ∀ (sel : BitVec 16) (ext : Bool), ∀ p ∈ [(tsSel sel ext, 10), (npSel sel ext, 11), (ssSel sel ext, 12), (gpSel sel ext, 13)],
      p.1 = event p.2 .fault (some (BitVec.ofNat 32 (sel.toNat / 4 * 4 + if ext then 1 else 0)))) ∧
  (∀ (ev : Event) (s t : State), ev.kind ≠ .abort →
    EnteredLong ev (if ev.kind = .software then s.nextPc else s.rip) { s with cr2 := ev.cr2.getD s.cr2 } t →
    deliver ev s = .next t ∧
    (∀ n, ev = softInt n → exec (.int n) s = .next t) ∧
    (ev = softInt 3 → exec .int3 s = .next t) ∧
    (ev = softInt 4 → s.is64 = false → s.flag fOF = true → exec .into s = .next t) ∧
    (ev = udFault → exec .ud2 s = .next t ∧ exec .rsm s = .next t)) ∧
  (∀ (ev e : Event) (s : State), ev.kind ≠ .abort →
    let s1 := { s with cr2 := ev.cr2.getD s.cr2 }
    let s2 := { s1 with cr2 := e.cr2.getD s1.cr2 }
    deliverOnce ev (decide (ev.kind ≠ .software)) (if ev.kind = .software then s.nextPc else s.rip) s1 = .error (.raised e) →
    let contributes := fun (v : Byte) => v.toNat = 0 ∨ 10 ≤ v.toNat ∧ v.toNat ≤ 13
    let double := ev.kind = .fault ∧ (contributes ev.vector ∧ contributes e.vector ∨
      ev.vector.toNat = 14 ∧ (contributes e.vector ∨ e.vector.toNat = 14))
    let s3 := { s2 with freeCount := s.freeCount + 1 }
    let saved := Config.freeValue s.freeCount
    (double →
      (∀ t, EnteredLong dfAbort saved s3 t → deliver ev s = .next t) ∧
      ∀ f, deliverOnce dfAbort true saved s3 = .error (.raised f) →
        (contributes f.vector ∨ f.vector.toNat = 14 → deliver ev s = .next { s3 with activity := .shutdown }) ∧
        (¬ (contributes f.vector ∨ f.vector.toNat = 14) → f.kind = .fault → ∀ t,
          deliverOnce f true s.rip { s3 with cr2 := f.cr2.getD s3.cr2 } = .ok ((), t) → deliver ev s = .next t)) ∧
    (¬double → e.kind = .fault → ∀ t, EnteredLong e s.rip s2 t → deliver ev s = .next t))

/-- Taking an exception or interrupt outside IA-32e mode. In real-address mode FLAGS, CS and the instruction pointer
go to the stack as 16-bit items without an error code, CS:IP come from the 4-byte vector, IF and TF are cleared. In
protected mode the gate has 8 bytes, the items have 2 or 4 bytes by the gate's size, and SS:ESP are pushed only to an
inner level, whose stack is in the TSS. In every mode INT n, INT 3, INTO with OF set, UD2 and RSM are what is
delivered, and INTO with OF clear does nothing (R345 to R347, R800, R804). R735 only outlines the delivery in these
two modes: what this statement says of them is the model's choice (log entry 11), the pushes with the checks of every
push among it (log entries 127 and 128), as are the kept limit of CS (log
entry 72) and the end of a pending single-step trap and of the shadow (log entries 28 and 29); that RSM is #UD and not
refused is log entry 99. -/
def Obligations.EntryReal : Prop :=
  (∀ (ev : Event) (s t u : State) (vector : Nat), s.mode = .real → ev.kind ≠ .abort →
    ev.vector.toNat * 4 + 3 ≤ s.idtr.limit.toNat →
    sysRead (s.idtr.base + BitVec.ofNat 64 (ev.vector.toNat * 4)) 4 { s with cr2 := ev.cr2.getD s.cr2 } = .ok (vector, t) →
    let saved := if ev.kind = .software then s.nextPc else s.rip
    PushedAll 2 [s.rflags.toNat % 65536, s.cs.sel.toNat, saved.toNat % 65536] t u →
    deliver ev s = .next { u with
      cs := s.cs.atParagraph (BitVec.ofNat 16 (vector / 65536))
      rip := BitVec.ofNat 64 (vector % 65536)
      rflags := s.rflags &&& 0xFFFFFCFF
      activity := .active, pendingDb := false, shadow := .none
      nmiBlocked := s.nmiBlocked || decide (ev.kind = .nmi) }) ∧
  (∀ (ev : Event) (s u : State) (gate raw : BitVec 64) (newCpl : Nat) (off : Word), ev.kind ≠ .abort →
    GateProt ev { s with cr2 := ev.cr2.getD s.cr2 } gate raw newCpl off u →
    let n := if gate.getLsbD 43 then 4 else 2
    let flags := if ev.kind = .fault then s.rflags ||| 0x10000 else s.rflags
    let items := [flags.toNat, s.cs.sel.toNat, if ev.kind = .software then s.nextPc.toNat else s.rip.toNat] ++
      (match ev.code with | some c => [c.toNat] | none => [])
    let c := { descSeg raw 0 with sel := withLevel (gate.extractLsb' 16 16) newCpl }
    let cleared : BitVec 32 := if gate.getLsbD 40 then 0x34100 else 0x34300
    let entered := fun (v : State) => { v with
      rip := off, rflags := s.rflags &&& ~~~cleared, activity := .active, pendingDb := false, shadow := .none,
      nmiBlocked := s.nmiBlocked || decide (ev.kind = .nmi) }
    (newCpl = s.cpl → ∀ v, PushedAll n items { u with cs := c } v → deliver ev s = .next (entered v)) ∧
    (newCpl < s.cpl → ∀ w v, LegacyStack newCpl (decide (ev.kind ≠ .software)) u w →
      PushedAll n ([s.ss.sel.toNat, (s.get rSP).toNat] ++ items) { w with cs := c } v →
      deliver ev s = .next (entered v))) ∧
  (∀ s : State,
    (∀ n, exec (.int n) s = deliver (softInt n) s) ∧ exec .int3 s = deliver (softInt 3) s ∧
    exec .ud2 s = deliver udFault s ∧ exec .rsm s = deliver udFault s ∧
    (s.is64 = false → exec .into s = if s.flag fOF then deliver (softInt 4) s else .next (s.endWith s.rflags)))

/-- RETURNING FROM AN EXCEPTION OR INTERRUPT: IRET, IRETD and IRETQ pop RIP, CS and RFLAGS, and in 64-bit mode or to
an outer level RSP and SS, load CS and SS after the checks, write the flags that the operand size and the old
privilege level allow, drop the data segments an outer level may not use, and unblock NMIs; SS is null only into
64-bit mode at a level below 3, else a present writable data segment of the new level (R348, R712). R348 gives the
steps for IA-32e mode: that protected mode outside it takes the same ones (log entry 86), what real-address and
virtual-8086 mode do (log entry 102), that the limit and the attributes of CS stay there (log entry 72), that a data
segment register made null holds 0000H (log entry 112), and that the stack just loaded decides how wide the stack
pointer is written (log entry 103), is the model's choice. In virtual-8086
mode IRET needs IOPL 3 (log entry 71). The return to virtual-8086 mode and, outside IA-32e mode, the return to a
nested task are refused (log entry 12). -/
def Obligations.InterruptReturn : Prop :=
  ((∀ (s t u : State) (osz : Width) (i : Instr) (ip cs fl : Nat) (raw : BitVec 64),
    i = .iret osz ∨ (i = .iretq ∧ osz = .b64) → PoppedAll osz.bytes [ip, cs, fl] s t →
    let rip := BitVec.ofNat 64 ip
    let sel := BitVec.ofNat 16 cs
    let rpl := cs % 4
    let mask : BitVec 32 := 0x4DD5 ||| (if osz = .b16 then 0 else 0x250000) |||
      (if s.cpl ≤ s.iopl then 0x200 else 0) ||| (if s.cpl = 0 then 0x3000 else 0)
    let flags := (s.rflags &&& ~~~mask) ||| (BitVec.ofNat 32 fl &&& mask)
    (s.mode = .real ∨ (s.mode = .v86 ∧ s.iopl = 3) → ip ≤ s.cs.limit.toNat →
      exec i s = .next { t with cs := s.cs.atParagraph sel, rip := rip, rflags := flags, nmiBlocked := false }) ∧
    (s.paragraphs = false → s.flag fNT = false → (s.lma = true ∨ fl.testBit 17 = false ∨ s.cpl ≠ 0 ∨ osz ≠ .b32) →
      sel.extractLsb' 2 14 ≠ 0 → readDesc sel false t = .ok (raw, u) →
      codeDescriptor raw = true → targetOk s.lma raw rip = true → s.cpl ≤ rpl →
      (if raw.getLsbD 42 then descLevel raw ≤ rpl else descLevel raw = rpl) →
      let d := descSeg raw sel
      (s.is64 = false → rpl = s.cpl →
        exec i s = .next { u.loadCs d with rip := rip, rflags := flags, nmiBlocked := false }) ∧
      (s.is64 = true ∨ s.cpl < rpl → ∀ sp ss v w, PoppedAll osz.bytes [sp, ss] u v →
        iretStack d (BitVec.ofNat 16 ss) sel v = .ok ((), w) →
        let x := { (w.loadCs d).setReturnSp (BitVec.ofNat 64 sp) with rip := rip, rflags := flags, nmiBlocked := false }
        exec i s = .next (if s.cpl < rpl then x.dropDataSegs rpl else x)))) ∧
  (∀ s : State, (s.lma = true ∧ s.flag fNT = true) ∨ (s.mode = .v86 ∧ s.iopl ≠ 3) →
    (∀ osz, exec (.iret osz) s = deliver gp0 s) ∧ exec .iretq s = deliver gp0 s) ∧
  (∀ s : State, s.paragraphs = false → s.lma = false →
    (s.flag fNT = true →
      (∀ osz, exec (.iret osz) s = .refused .legacyGate) ∧ exec .iretq s = .refused .legacyGate) ∧
    (s.flag fNT = false → s.cpl = 0 → ∀ ip cs fl t, PoppedAll 4 [ip, cs, fl] s t → fl.testBit 17 = true →
      exec (.iret .b32) s = .refused .virtual8086))) ∧
  (∀ (s : State) (d : SegReg) (ss cs : BitVec 16),
    let rpl := (cs.extractLsb' 0 2).toNat
    let same := ss.extractLsb' 0 2 = cs.extractLsb' 0 2
    (ss.extractLsb' 2 14 = 0 →
      iretStack d ss cs s = if s.lma = true ∧ d.l = true ∧ rpl ≠ 3 ∧ same
        then .ok ((), { s with ss := { s.ss with sel := ss, unusable := true, dpl := cs.extractLsb' 0 2 } })
        else .error (.raised gp0)) ∧
    (ss.extractLsb' 2 14 ≠ 0 → ∀ raw t, readDesc ss false s = .ok (raw, t) →
      let data := raw.getLsbD 44 = true ∧ raw.getLsbD 43 = false ∧ raw.getLsbD 41 = true
      iretStack d ss cs s = if same ∧ data ∧ descLevel raw = rpl
        then (if raw.getLsbD 47 then .ok ((), { t with ss := descSeg raw ss }) else .error (.raised (npSel ss)))
        else .error (.raised (gpSel ss))))

/-! ### Strings and ports -/

/-- MOVS, STOS and LODS: one iteration, alone and under a repeat prefix; no flag changes; an iteration that is not the
last keeps the interrupt shadow (R360 to R362, R366, R762, R796). That they repeat under the prefix F2H as under F3H
is the model's choice (log entry 22). -/
def Obligations.StringMove : Prop :=
  ∀ (s : State) (osz : Width) (a : StrSrc) (b : StrDst),
    let rsi := asizeTrunc a.asz (s.get rSI)
    (∀ p ∈ [(Instr.movsb a, Width.b8), (.movsw osz a, osz), (.movsq a, .b64)], ∀ (x : Nat) (t u : State) (sp : Span),
      let n := p.2.bytes
      (a.rep = .none ∨ s.readReg (asizeWidth a.asz) rCX ≠ 0) → readMem a.seg rsi n s = .ok (x, t) →
      resolve .es (asizeTrunc a.asz (s.get rDI)) n true (.natural n) t = .ok (sp, u) →
      (s.memOk = true → OnlySpan sp n u (u.storeAt sp n x)) ∧
      exec p.1 s = .next (Iterated a.rep a.asz false (((u.storeAt sp n x).moved a.asz rSI n).moved a.asz rDI n))) ∧
    (∀ p ∈ [(Instr.lodsb a, Width.b8), (.lodsw osz a, osz), (.lodsq a, .b64)], ∀ (x : Nat) (t : State),
      let n := p.2.bytes
      (a.rep = .none ∨ s.readReg (asizeWidth a.asz) rCX ≠ 0) → readMem a.seg rsi n s = .ok (x, t) →
      exec p.1 s = .next (Iterated a.rep a.asz false ((t.writeReg p.2 rAX (BitVec.ofNat _ x)).moved a.asz rSI n))) ∧
    (∀ p ∈ [(Instr.stosb b, Width.b8), (.stosw osz b, osz), (.stosq b, .b64)], ∀ (u : State) (sp : Span),
      let n := p.2.bytes
      (b.rep = .none ∨ s.readReg (asizeWidth b.asz) rCX ≠ 0) →
      resolve .es (asizeTrunc b.asz (s.get rDI)) n true (.natural n) s = .ok (sp, u) →
      let v := u.storeAt sp n (s.readReg p.2 rAX).toNat
      (s.memOk = true → OnlySpan sp n u v) ∧
      exec p.1 s = .next (Iterated b.rep b.asz false (v.moved b.asz rDI n)))

/-- CMPS and SCAS: the flags of the comparison, and with a repeat prefix the end where ZF contradicts the prefix; and
every string instruction under a repeat prefix with a count of 0 does nothing but end (R360 to R362, R365, R762, R796;
that F2H repeats an instruction other than CMPS and SCAS is the model's choice: log entry 22). -/
def Obligations.StringCompareAndCount : Prop :=
  (∀ (s : State) (osz : Width) (a : StrSrc) (b : StrDst),
    let stops := fun (p : Rep) (f : BitVec 32) => if p = .rep then !f.getLsbD 6 else f.getLsbD 6
    (∀ p ∈ [(Instr.cmpsb a, Width.b8), (.cmpsw osz a, osz), (.cmpsq a, .b64)], ∀ (x y : Nat) (t u : State),
      let n := p.2.bytes
      (a.rep = .none ∨ s.readReg (asizeWidth a.asz) rCX ≠ 0) →
      readMem a.seg (asizeTrunc a.asz (s.get rSI)) n s = .ok (x, t) →
      readMem .es (asizeTrunc a.asz (s.get rDI)) n t = .ok (y, u) →
      ∃ f, SameOutside 0x8D5 s.rflags f ∧
        DifferenceFlags (BitVec.ofNat p.2.bits x) (BitVec.ofNat p.2.bits y) false f ∧
        exec p.1 s =
          .next (Iterated a.rep a.asz (stops a.rep f) (({ u with rflags := f }.moved a.asz rSI n).moved a.asz rDI n))) ∧
    (∀ p ∈ [(Instr.scasb b, Width.b8), (.scasw osz b, osz), (.scasq b, .b64)], ∀ (y : Nat) (u : State),
      let n := p.2.bytes
      (b.rep = .none ∨ s.readReg (asizeWidth b.asz) rCX ≠ 0) →
      readMem .es (asizeTrunc b.asz (s.get rDI)) n s = .ok (y, u) →
      ∃ f, SameOutside 0x8D5 s.rflags f ∧ DifferenceFlags (s.readReg p.2 rAX) (BitVec.ofNat p.2.bits y) false f ∧
        exec p.1 s = .next (Iterated b.rep b.asz (stops b.rep f) ({ u with rflags := f }.moved b.asz rDI n)))) ∧
  (∀ (s : State) (osz : Width) (a : StrSrc) (b : StrDst),
    (a.rep ≠ .none → s.readReg (asizeWidth a.asz) rCX = 0 →
      ∀ i ∈ [Instr.movsb a, .movsw osz a, .movsq a, .lodsb a, .lodsw osz a, .lodsq a, .cmpsb a, .cmpsw osz a, .cmpsq a,
        .outsb a, .outsw osz a], exec i s = .next (s.endWith s.rflags)) ∧
    (b.rep ≠ .none → s.readReg (asizeWidth b.asz) rCX = 0 →
      ∀ i ∈ [Instr.stosb b, .stosw osz b, .stosq b, .scasb b, .scasw osz b, .scasq b, .insb b, .insw osz b],
        exec i s = .next (s.endWith s.rflags)))

/-- IN, OUT, INS and OUTS where the port is permitted: a read is an input of the platform, a write goes to its log; INS
checks its destination before it reads the port. The permission check asks nothing in real-address mode and at CPL at
most IOPL; else the bits of the ports in the TSS's bit map must be inside the TSS, in IA-32e mode at canonical addresses,
and 0, or #GP(0) is raised (R121, R372, R373, R375, R796). That a read asks an oracle of the platform and a write is kept
in a log is the model's choice (log entry 7), as is that INS and OUTS repeat under F2H (log entry 22). -/
def Obligations.PortIo : Prop :=
  (∀ (s t : State) (w : Width) (a : StrSrc) (b : StrDst) (imm : Option Byte),
    let dx := s.readReg .b16 rDX
    let port := match imm with | none => dx | some p => p.setWidth 16
    let n := w.bytes
    let logged := fun (p : BitVec 16) (v : BitVec 32) (u : State) =>
      { u with ioLog := { port := p, bytes := n, value := v } :: u.ioLog }
    (ioPermission port n s = .ok ((), t) →
      exec (.outp w imm) s = .next ((logged port ((s.readReg w rAX).setWidth 32) t).endWith s.rflags) ∧
      ∃ v : BitVec 32, exec (.inp w imm) s =
        .next (((t.writeReg w rAX (v.setWidth w.bits)).drawn 1).endWith s.rflags)) ∧
    (ioPermission dx n s = .ok ((), t) →
      (∀ i, i = .outsw w a ∨ (i = .outsb a ∧ w = .b8) → (a.rep = .none ∨ s.readReg (asizeWidth a.asz) rCX ≠ 0) →
        ∀ x u, readMem a.seg (asizeTrunc a.asz (s.get rSI)) n t = .ok (x, u) →
        exec i s = .next (Iterated a.rep a.asz false ((logged dx (BitVec.ofNat 32 x) u).moved a.asz rSI n))) ∧
      (∀ i, i = .insw w b ∨ (i = .insb b ∧ w = .b8) → (b.rep = .none ∨ s.readReg (asizeWidth b.asz) rCX ≠ 0) →
        ∀ sp u, resolve .es (asizeTrunc b.asz (s.get rDI)) n true (.natural n) t = .ok (sp, u) →
        ∃ v : BitVec 32, (s.memOk = true → OnlySpan sp n u (u.storeAt sp n v.toNat)) ∧
          exec i s = .next (Iterated b.rep b.asz false (((u.storeAt sp n v.toNat).drawn 1).moved b.asz rDI n))))) ∧
  (∀ (s : State) (port : BitVec 16) (n : Nat),
    (s.mode = .real ∨ (s.mode ≠ .v86 ∧ s.cpl ≤ s.iopl) → ioPermission port n s = .ok ((), s)) ∧
    (s.mode ≠ .real → (s.mode = .v86 ∨ s.iopl < s.cpl) →
      let refused := ioPermission port n s = .error (.raised gp0)
      let reachable := fun (a : Word) => s.lma = true → canonicalRange a 2 = true
      (¬reachable (s.tr.base + 0x66) → refused) ∧
      (reachable (s.tr.base + 0x66) → ∀ base t, sysRead (s.tr.base + 0x66) 2 s = .ok (base, t) →
        let map := s.tr.base + BitVec.ofNat 64 (base + port.toNat / 8)
        (s.tr.limit.toNat < base + port.toNat / 8 + 1 ∨ ¬reachable map → refused) ∧
        (base + port.toNat / 8 + 1 ≤ s.tr.limit.toNat → reachable map → ∀ bits u, sysRead map 2 t = .ok (bits, u) →
          ioPermission port n s =
            if ∀ k < n, bits.testBit (port.toNat % 8 + k) = false then .ok ((), u) else .error (.raised gp0)))))

/-! ### Moves and the stack -/

/-- The general registers, and MOV, MOVSXD, MOVZX, MOVSX and XLAT in every form. A read of a width gives the low bits, a
high byte is bits 15:8 of the registers 0 to 3; a 64-bit write replaces the register, a 32-bit write clears bits 63:32, a
16-bit or byte write keeps the rest, and no other register and nothing else changes (R31, R33, R34). An r/m source is the
register, with nothing changed, or what the memory at the effective address reads as, whose read may stop (R240). The
destination of a move receives the operand, and no flag changes (R781 to R784, R804). -/
def Obligations.Moves : Prop :=
  (∀ (s : State) (r : Reg) (h : BitVec 2),
    let old := fun (q : Reg) => (s.get q).toNat
    let high : Reg := BitVec.ofNat 4 h.toNat
    let wrote := fun (t : State) (q : Reg) (n : Nat) =>
      (t.get q).toNat = n ∧ (∀ p, p ≠ q → t.get p = s.get p) ∧ t = { s with gpr := t.gpr }
    s.get r = s.gpr[r.toNat]'r.isLt ∧
    (∀ w : Width, s.readReg w r = BitVec.ofNat _ (old r) ∧ s.readGReg w (.full r) = s.readReg w r ∧
      ∀ v, s.writeGReg w (.full r) v = s.writeReg w r v) ∧
    s.readGReg .b8 (.high h) = BitVec.ofNat 8 (old high / 256) ∧
    (∀ v, wrote (s.writeReg .b64 r v) r v.toNat) ∧
    (∀ v, wrote (s.writeReg .b32 r v) r v.toNat) ∧
    (∀ v, wrote (s.writeReg .b16 r v) r (old r / 2 ^ 16 * 2 ^ 16 + v.toNat)) ∧
    (∀ v, wrote (s.writeReg .b8 r v) r (old r / 256 * 256 + v.toNat)) ∧
    (∀ v, wrote (s.writeGReg .b8 (.high h) v) high (old high / 2 ^ 16 * 2 ^ 16 + v.toNat * 256 + old high % 256))) ∧
  (∀ (s : State) (w : Width),
    (∀ g, readRmb w (.reg g) s = .ok (s.readGReg w g, s)) ∧ (∀ r, readRm w (.reg r) s = .ok (s.readReg w r, s)) ∧
    ∀ m : Mem,
      (∀ e, readMem m.seg (s.effAddr m) w.bytes s = .error e →
        readRmb w (.mem m) s = .error e ∧ readRm w (.mem m) s = .error e) ∧
      ∀ v t, readMem m.seg (s.effAddr m) w.bytes s = .ok (v, t) →
        readRmb w (.mem m) s = .ok (BitVec.ofNat w.bits v, t) ∧ readRm w (.mem m) s = .ok (BitVec.ofNat w.bits v, t)) ∧
  (∀ (s : State) (w : Width) (rm : RMB) (x : BitVec w.bits) (put : BitVec w.bits → State), Destination s w rm x put →
    (s.memOk = true → ∀ v, OnlyOperand s w rm (put v)) ∧
    (∀ r, exec (.mov (.rmR w rm r)) s = .next ((put (s.readGReg w r)).endWith s.rflags)) ∧
    (∀ imm, exec (.mov (.rmImm w rm imm)) s = .next ((put (imm.signExtend w.bits)).endWith s.rflags))) ∧
  (∀ (s t : State) (w : Width) (rm : RMB) (v : BitVec w.bits), readRmb w rm s = .ok (v, t) →
    (∀ r, exec (.mov (.rRm w r rm)) s = .next ((t.writeGReg w r v).endWith s.rflags)) ∧
    (∀ (d : Width) (r : Reg),
      exec (.movzx d w r rm) s = .next ((t.writeReg d r (BitVec.ofNat _ v.toNat)).endWith s.rflags) ∧
      exec (.movsx d w r rm) s = .next ((t.writeReg d r (BitVec.ofInt _ v.toInt)).endWith s.rflags))) ∧
  (∀ (s t : State) (d : Width) (r : Reg) (rm : RM) (v : BitVec 32), readRm .b32 rm s = .ok (v, t) →
    exec (.movsxd d r rm) s = .next ((t.writeReg d r (BitVec.ofInt _ v.toInt)).endWith s.rflags)) ∧
  (∀ (s : State) (w : Width) (r : GReg) (imm : BitVec w.bits),
    exec (.mov (.regImm w r imm)) s = .next ((s.writeGReg w r imm).endWith s.rflags)) ∧
  (∀ (s u : State) (w : Width) (seg : SReg) (asz : ASize) (off : Word),
    let ea := asizeTrunc asz off
    (∀ v, readMem seg ea w.bytes s = .ok (v, u) →
      exec (.movMoffs false w seg asz off) s = .next ((u.writeReg w rAX (BitVec.ofNat _ v)).endWith s.rflags)) ∧
    (∀ sp, resolve seg ea w.bytes true (.natural w.bytes) s = .ok (sp, u) →
      let t := u.storeAt sp w.bytes (s.readReg w rAX).toNat
      (s.memOk = true → OnlySpan sp w.bytes u t) ∧
      exec (.movMoffs true w seg asz off) s = .next (t.endWith s.rflags))) ∧
  (∀ (s t : State) (seg : SReg) (asz : ASize) (v : Nat),
    readMem seg (asizeTrunc asz (s.get rBX + BitVec.ofNat 64 (s.readReg .b8 rAX).toNat)) 1 s = .ok (v, t) →
    exec (.xlat asz seg) s = .next ((t.writeReg .b8 rAX (BitVec.ofNat 8 v)).endWith s.rflags))

/-- MOV from and to segment registers, LDS, LES, LSS, LFS and LGS: the selector, zero-extended in a register and 16
bits in memory, the offset of a far pointer; a load of SS holds interrupts off for an instruction; no segment register
has the number 6 or 7, and CS cannot be loaded (R421, R762, R787). That MOV from such a number raises #UD as MOV to it
does is the model's choice (log entry 97). -/
def Obligations.SegmentMoves : Prop :=
  (∀ s : State,
    (∀ p ∈ [((0 : Reg3), SReg.es), (1, .cs), (2, .ss), (3, .ds), (4, .fs), (5, .gs)],
      (∀ osz r, exec (.movFromSreg osz (.reg r) p.1) s =
        .next ((s.writeReg osz r ((s.seg p.2).sel.setWidth osz.bits)).endWith s.rflags)) ∧
      (∀ osz m x put, Destination s .b16 (.mem m) x put →
        (s.memOk = true → ∀ v, OnlyOperand s .b16 (.mem m) (put v)) ∧
        exec (.movFromSreg osz (.mem m) p.1) s = .next ((put (s.seg p.2).sel).endWith s.rflags)) ∧
      (p.2 ≠ .cs → ∀ src v t u, readRm .b16 src s = .ok (v, t) → loadSegment p.2 v t = .ok ((), u) →
        exec (.movToSreg p.1 src) s =
          .next ((if p.2 = .ss then { u with shadow := .movss } else u).endWith s.rflags))) ∧
    (∀ osz dst, ∀ i ∈ [Instr.movFromSreg osz dst 6, .movFromSreg osz dst 7, .movToSreg 6 dst, .movToSreg 7 dst,
      .movToSreg 1 dst], exec i s = deliver udFault s)) ∧
  ((∀ (s t u v : State) (w : Width) (r : Reg) (m : Mem) (off sel : Nat),
    readMem m.seg (s.effAddr m) w.bytes s = .ok (off, t) →
    readMem m.seg (s.effAddr m + BitVec.ofNat 64 w.bytes) 2 t = .ok (sel, u) →
    ∀ p ∈ [(Instr.lds w r (.mem m), SReg.ds), (.les w r (.mem m), .es), (.lss w r (.mem m), .ss),
        (.lfs w r (.mem m), .fs), (.lgs w r (.mem m), .gs)],
      (s.is64 = true → p.2 ≠ .ds ∧ p.2 ≠ .es) → loadSegment p.2 (BitVec.ofNat 16 sel) u = .ok ((), v) →
      exec p.1 s = .next (((if p.2 = .ss then { v with shadow := .movss } else v).writeReg w r
        (BitVec.ofNat _ off)).endWith s.rflags)) ∧
  (∀ (s : State) (w : Width) (r q : Reg), ∀ i ∈ [Instr.lds w r (.reg q), .les w r (.reg q), .lss w r (.reg q),
    .lfs w r (.reg q), .lgs w r (.reg q)], exec i s = deliver udFault s))

/-- Reading a descriptor and loading a segment register. The descriptor of a selector lies at 8 times its bits 15:3 in the
GDT, or in the LDT where bit 2 is 1; #GP(selector) is raised beyond the limit of the table, for an unusable LDTR, and in
IA-32e mode where a byte of it is not canonical; else the 8 bytes are read with supervisor privilege, and they give base,
limit in bytes or in units of 4096 as G says, type, S, DPL, P, AVL, L and D/B (R125, R380). Outside protected mode the
base of a loaded register is the selector times 16; a null selector makes a data
segment register unusable; else the descriptor is checked, and loaded with its accessed bit set, which is written to
the table where it was 0; SS takes a writable data segment of the current level only (R125, R380, R421; that the base
stays on a null load is the model's choice: log entry 16, as is that a load of SS writes no accessed bit: log entry
15, that the accessed bit is set by a write of byte 5 of the descriptor: log entry 114, and that limit and attributes stay
outside protected mode, in virtual-8086 mode too: log entry 123). -/
def Obligations.SegmentLoad : Prop :=
  ∀ (s : State) (r : SReg) (sel : BitVec 16),
    (let table := if sel.getLsbD 2 then (s.ldtr.base, s.ldtr.limit.toNat) else (s.gdtr.base, s.gdtr.limit.toNat)
     let offset := sel.toNat / 8 * 8
     let addr := table.1 + BitVec.ofNat 64 offset
     s.descAddr sel = addr ∧
     (∀ n, 0 < n → (s.descInTable sel n = true ↔
       offset + n - 1 ≤ table.2 ∧ ¬ (sel.getLsbD 2 = true ∧ s.ldtr.unusable = true))) ∧
     (∀ ext, readDesc sel ext = readDescPart sel ext 8 0) ∧ readDescHigh sel = readDescPart sel false 16 8 ∧
     ∀ (ext : Bool) (n k : Nat), 0 < n → n ≤ 4096 →
       let outside := table.2 < offset + n - 1 ∨ (sel.getLsbD 2 = true ∧ s.ldtr.unusable = true) ∨
         (s.lma = true ∧ ∃ j < n, canonical (addr + BitVec.ofNat 64 j) = false)
       (outside → readDescPart sel ext n k s =
         .error (.raised (.coded 13 (BitVec.ofNat 32 (sel.toNat / 4 * 4 + ext.toNat))))) ∧
       (¬ outside → (∀ e, sysRead (addr + BitVec.ofNat 64 k) 8 s = .error e → readDescPart sel ext n k s = .error e) ∧
         ∀ v t, sysRead (addr + BitVec.ofNat 64 k) 8 s = .ok (v, t) →
           readDescPart sel ext n k s = .ok (BitVec.ofNat 64 v, t))) ∧
    (∀ (la : Word) (n : Nat),
      let a := if s.lma then la else BitVec.ofNat 64 (la.toNat % 2 ^ 32)
      (∀ e, spanOf s.lma a n ⟨false, false⟩ s = .error e → sysRead la n s = .error e) ∧
      ∀ sp t, spanOf s.lma a n ⟨false, false⟩ s = .ok (sp, t) → sysRead la n s = .ok (spanGet t.mem sp 0 n, t)) ∧
    (∀ raw : BitVec 64,
      let limit := (raw.extractLsb' 48 4).toNat * 2 ^ 16 + (raw.extractLsb' 0 16).toNat
      descSeg raw sel =
        { sel := sel, base := BitVec.ofNat 64 ((raw.extractLsb' 56 8).toNat * 2 ^ 24 + (raw.extractLsb' 16 24).toNat),
          limit := BitVec.ofNat 32 (if raw.getLsbD 55 then limit * 4096 + 4095 else limit),
          typ := raw.extractLsb' 40 4, s := raw.getLsbD 44, dpl := raw.extractLsb' 45 2, p := raw.getLsbD 47,
          avl := raw.getLsbD 52, l := raw.getLsbD 53, db := raw.getLsbD 54, g := raw.getLsbD 55, unusable := false }) ∧
    (s.paragraphs = true → loadSegment r sel s = .ok ((), s.setSeg r ((s.seg r).atParagraph sel))) ∧
    (s.paragraphs = false → r ≠ .ss →
      (sel.extractLsb' 2 14 = 0 → loadSegment r sel s = .ok ((), s.setSeg r { s.seg r with sel := sel, unusable := true })) ∧
      (sel.extractLsb' 2 14 ≠ 0 → ∀ raw t, readDesc sel false s = .ok (raw, t) →
        let data := raw.getLsbD 44 && !raw.getLsbD 43
        let conforming := raw.getLsbD 44 && raw.getLsbD 43 && raw.getLsbD 42
        let readable := data || (raw.getLsbD 44 && raw.getLsbD 41)
        let level := conforming || decide (s.cpl ≤ descLevel raw) || decide ((sel.extractLsb' 0 2).toNat ≤ descLevel raw)
        (¬ (readable = true ∧ level = true) → loadSegment r sel s = .error (.raised (gpSel sel))) ∧
        (readable = true → level = true → raw.getLsbD 47 = false → loadSegment r sel s = .error (.raised (npSel sel))) ∧
        (readable = true → level = true → raw.getLsbD 47 = true →
          (raw.getLsbD 40 = true → loadSegment r sel s = .ok ((), t.setSeg r (descSeg raw sel))) ∧
          (raw.getLsbD 40 = false →
            ∀ u, sysWrite (s.descAddr sel + 5) 1 ((raw.extractLsb' 40 8).toNat + 1) false t = .ok ((), u) →
            loadSegment r sel s = .ok ((), u.setSeg r { descSeg raw sel with typ := (raw.extractLsb' 40 4) ||| 1 }))))) ∧
    (s.paragraphs = false →
      (sel.extractLsb' 2 14 = 0 → loadSegment .ss sel s =
        if s.is64 = true ∧ s.cpl ≠ 3 ∧ (sel.extractLsb' 0 2).toNat = s.cpl
        then .ok ((), { s with ss := { s.ss with sel := sel, unusable := true, dpl := BitVec.ofNat 2 s.cpl } })
        else .error (.raised gp0)) ∧
      (sel.extractLsb' 2 14 ≠ 0 → ∀ raw t, readDesc sel false s = .ok (raw, t) →
        loadSegment .ss sel s =
          if (sel.extractLsb' 0 2).toNat = s.cpl ∧ descLevel raw = s.cpl ∧ raw.getLsbD 44 = true ∧
            raw.getLsbD 43 = false ∧ raw.getLsbD 41 = true
          then (if raw.getLsbD 47 then .ok ((), { t with ss := descSeg raw sel }) else .error (.raised (ssSel sel)))
          else .error (.raised (gpSel sel))))

/-- The stack and frame pointers, which 64-bit mode reads and writes with 64 bits, other code with 32 or 16 by the B bit of
SS; PUSH and POP in every form, PUSHF, POPF, PUSHA and POPA: PUSH of the stack pointer pushes its old value, POP addresses
a memory destination with the new one, and POP of SS holds interrupts off; the pushed flags have VM and RF clear; POPF
writes the flags that the operand size and the privilege level allow and clears RF; POPA skips the slot of the stack
pointer (R198, R762, R787 to R789; the order of PUSHA's registers is the model's choice: log entry 34, as is that POP SS
moves the stack pointer at the size of the old stack: log entry 116). -/
def Obligations.PushPop : Prop :=
  (∀ (s : State) (v : Word),
    let set := fun (r : Reg) => if s.is64 then s.writeReg .b64 r v
      else if s.ss.db then s.writeReg .b32 r (v.setWidth 32) else s.writeReg .b16 r (v.setWidth 16)
    s.stackSize = (if s.is64 then .a64 else if s.ss.db then .a32 else .a16) ∧
    s.sp = asizeTrunc s.stackSize (s.get rSP) ∧ s.bp = asizeTrunc s.stackSize (s.get rBP) ∧
    s.setSp v = set rSP ∧ s.setBp v = set rBP) ∧
  ((∀ (s : State) (w : Width),
    (∀ r t, Pushed w.bytes (s.readReg w r).toNat s t → exec (.push (.reg w r)) s = .next (t.endWith s.rflags)) ∧
    (∀ imm t, Pushed w.bytes (imm.signExtend w.bits).toNat s t →
      exec (.push (.imm8 w imm)) s = .next (t.endWith s.rflags)) ∧
    (∀ imm t, Pushed w.bytes (imm.signExtend w.bits).toNat s t →
      exec (.push (.imm w imm)) s = .next (t.endWith s.rflags)) ∧
    (∀ src v t u, readRm w src s = .ok (v, t) → Pushed w.bytes v.toNat t u →
      exec (.push (.rm w src)) s = .next (u.endWith s.rflags)) ∧
    (∀ g t, (s.is64 = true → g = .fs ∨ g = .gs) → Pushed w.bytes (s.seg g).sel.toNat s t →
      exec (.push (.sreg w g)) s = .next (t.endWith s.rflags)) ∧
    (s.memOk = true → ∀ n v t, Pushed n v s t → ∃ sp u,
      resolve .ss (s.pushAddr n) n true (.natural n) s = .ok (sp, u) ∧ OnlySpan sp n u t)) ∧
  (∀ (s t : State) (w : Width) (v : Nat), Popped w.bytes v s t →
    (∀ r, exec (.pop (.reg w r)) s = .next ((t.writeReg w r (BitVec.ofNat _ v)).endWith s.rflags)) ∧
    (∀ dst x put, Destination t w (asRmb dst) x put →
      exec (.pop (.rm w dst)) s = .next ((put (BitVec.ofNat _ v)).endWith s.rflags)) ∧
    (∀ g u, g ≠ .cs → (s.is64 = true → g = .fs ∨ g = .gs) → loadSegment g (BitVec.ofNat 16 v) t = .ok ((), u) →
      exec (.pop (.sreg w g)) s = .next ((if g = .ss then { u with shadow := .movss } else u).endWith s.rflags)))) ∧
  (∀ (s t : State) (w : Width),
    (Pushed w.bytes (s.rflags &&& 0xFCFFFF).toNat s t → exec (.pushf w) s = .next (t.endWith s.rflags)) ∧
    (∀ v, Popped w.bytes v s t →
      let mask : BitVec 32 := 0x4DD5 ||| (if w = .b16 then 0 else 0x240000) |||
        (if s.cpl ≤ s.iopl then 0x200 else 0) ||| (if s.cpl = 0 then 0x3000 else 0)
      exec (.popf w) s = .next (t.endWith (((s.rflags &&& ~~~mask) ||| (BitVec.ofNat 32 v &&& mask)) &&& 0xFFFEFFFF))) ∧
    (s.is64 = false → PushedAll w.bytes ([rAX, rCX, rDX, rBX, rSP, rBP, rSI, rDI].map (fun r => (s.readReg w r).toNat)) s t →
      exec (.pusha w) s = .next (t.endWith s.rflags)) ∧
    (s.is64 = false → ∀ di si bp skip bx dx cx ax, ∀ u0 u1 u2 u3 u4 u5 u6,
      Popped w.bytes di s u0 → Popped w.bytes si (u0.writeReg w rDI (BitVec.ofNat _ di)) u1 →
      Popped w.bytes bp (u1.writeReg w rSI (BitVec.ofNat _ si)) u2 →
      Popped w.bytes skip (u2.writeReg w rBP (BitVec.ofNat _ bp)) u3 → Popped w.bytes bx u3 u4 →
      Popped w.bytes dx (u4.writeReg w rBX (BitVec.ofNat _ bx)) u5 →
      Popped w.bytes cx (u5.writeReg w rDX (BitVec.ofNat _ dx)) u6 →
      Popped w.bytes ax (u6.writeReg w rCX (BitVec.ofNat _ cx)) t →
      exec (.popa w) s = .next ((t.writeReg w rAX (BitVec.ofNat _ ax)).endWith s.rflags)))

/-! ### System instructions -/

/-- CLC, CLD and CMC in every mode: the encodings F8, FC and F5; CF cleared, DF cleared, CF complemented; no other
flag changes, nothing else but the instruction pointer, and no exception is raised (R382, R383, R386). -/
def Obligations.FlagControl : Prop :=
  ∀ s : State,
    let ends := fun (i : Instr) (f : BitVec 32) => exec i s = .next (s.endWith f)
    (∀ c rest, decode c (0xF8 :: rest) = .ok (.clc, 1) ∧ decode c (0xFC :: rest) = .ok (.cld, 1) ∧
      decode c (0xF5 :: rest) = .ok (.cmc, 1)) ∧
    ends .clc (s.rflags &&& ~~~1) ∧ ends .cld (s.rflags &&& ~~~0x400) ∧ ends .cmc (s.rflags ^^^ 1)

/-- The instructions reserved to privilege level 0: where they complete, and the #GP(0) of the other levels; INVLPG
raises #UD for a register, and #SS(0) or #GP(0) for an address that is not canonical; CLI and STI, which need CPL at most
IOPL, with maskable interrupts held off after STI; the fences, CLFLUSH, RDTSC and CPUID; and the five instructions the
source gives no operation are refused by name (R161, R384, R385, R401, R403, R415, R417, R418, R424, R428, R762, R794,
R801, R803, R804). That the shadow also follows an STI that finds IF set is the model's choice (log entry 37), as is
the name of each refusal (log entry 35); that CLI and STI need IOPL 3 in virtual-8086 mode is log entry 71. Of CPUID it
says every leaf: the vendor string and the limit, 3 with BOOT_NT4 (R67, R408); family, model and type, the CLFLUSH line and
the feature bits that are no parameter of the implementation (R404 to R406, R413, decision D20); the descriptors, the
reserved leaves and bits, the monitor line, the brand string as ASCII with a null at its end, the cache word and the
address sizes (R407, R409 to R412); and that a leaf out of range, and with BOOT_NT4 leaf 4 too, answers as leaf 5
(R403, decision D19). The signature 0 of leaf 80000001H, the descriptors of leaf 2 and the line sizes are the defaults of
parameters that the model takes (log entry 9). -/
def Obligations.SystemSimple : Prop :=
  (∀ s : State,
    let ends := fun (i : Instr) (t : State) => exec i s = .next (t.endWith s.rflags)
    (s.cpl = 0 → ends .clts { s with cr0 := s.cr0 &&& ~~~8 } ∧ ends .invd s ∧ ends .wbinvd s ∧
      ends .hlt { s with activity := .halted } ∧
      (∀ m, (s.is64 = true → canonical (s.linear m.seg (s.effAddr m)) = true) → ends (.invlpg (.mem m)) s) ∧
      (∀ m, s.is64 = true → canonical (s.linear m.seg (s.effAddr m)) = false →
        exec (.invlpg (.mem m)) s = deliver (if m.seg = .ss then ss0 else gp0) s) ∧
      (∀ src v t, readRm .b16 src s = .ok (v, t) →
        exec (.lmsw src) s = .next (State.endWith { t with
          cr0 := (s.cr0 &&& ~~~0xE) ||| (v.setWidth 64 &&& 0xF) } s.rflags))) ∧
    (s.cpl ≠ 0 → (∀ i ∈ [Instr.clts, .invd, .wbinvd, .hlt, .rdmsr, .wrmsr], exec i s = deliver gp0 s) ∧
      (∀ m, exec (.invlpg (.mem m)) s = deliver gp0 s) ∧ (∀ src, exec (.lmsw src) s = deliver gp0 s)) ∧
    (∀ r, exec (.invlpg (.reg r)) s = deliver udFault s) ∧
    (s.cpl ≤ s.iopl → exec .cli s = .next (s.endWith (s.rflags &&& ~~~0x200)) ∧
      exec .sti s = .next { s.endWith (s.rflags ||| 0x200) with shadow := .sti }) ∧
    (s.iopl < s.cpl → exec .cli s = deliver gp0 s ∧ exec .sti s = deliver gp0 s) ∧
    ends .lfence s ∧ ends .mfence s ∧ ends .sfence s ∧
    (∀ m, let high := s.paragraphs = true ∧ 0xFFFF < (s.effAddr m).toNat
      (high → exec (.clflush m) s = deliver gp0 s) ∧
      (¬high → ∀ sp t, resolveMem m 1 false .any s = .ok (sp, t) → ends (.clflush m) t)) ∧
    (s.cpl = 0 ∨ s.cr4.getLsbD 2 = false → ends .rdtsc
      ((s.writeReg .b32 rAX (s.tsc.extractLsb' 0 32)).writeReg .b32 rDX (s.tsc.extractLsb' 32 32))) ∧
    (s.cpl ≠ 0 → s.cr4.getLsbD 2 = true → exec .rdtsc s = deliver gp0 s) ∧
    (∃ a b c d : BitVec 32, ends .cpuid
        ((((s.writeReg .b32 rAX a).writeReg .b32 rBX b).writeReg .b32 rCX c).writeReg .b32 rDX d) ∧
      let leaf := (s.readReg .b32 rAX).toNat
      let gives := fun (x y z w : BitVec 32) => a = x ∧ b = y ∧ c = z ∧ d = w
      (leaf = 0 → gives (if s.bootNt4 then 3 else 5) 0x756E6547 0x6C65746E 0x49656E69) ∧
      (leaf = 1 → a.toNat / 16 = 0xF3 ∧ b.toNat / 256 % 256 = 8 ∧ c &&& ~~~0x590 = 0x2009 ∧
        d &&& ~~~0xB8605086 = 0x078BAB79) ∧
      (leaf = 2 → gives 0x665B5001 0 0 0x007A7040) ∧
      (leaf = 4 → s.bootNt4 = false → a &&& 0x3C00 = 0 ∧ d = 0) ∧
      (leaf = 0x80000000 → gives 0x80000008 0 0 0) ∧
      (leaf = 0x80000001 → gives 0 0 0 0x20000800) ∧
      (leaf ∈ [0x80000002, 0x80000003, 0x80000004] → (∀ x ∈ [a, b, c, d], x &&& 0x80808080 = 0) ∧
        (leaf = 0x80000004 → d.toNat < 2 ^ 24)) ∧
      (leaf ∈ [3, 0x80000005, 0x80000007] → gives 0 0 0 0) ∧
      (leaf = 0x80000006 → gives 0 0 0x04008040 0) ∧
      (leaf = 0x80000008 → gives 0x3028 0 0 0) ∧
      (leaf = 5 ∨ leaf = 4 ∧ s.bootNt4 = true ∨ 5 < leaf ∧ (leaf < 0x80000000 ∨ 0x80000008 < leaf) → gives 64 64 0 0))) ∧
  (∀ s : State, exec .sysenter s = .refused .sysenterUnspecified ∧ exec .sysexit s = .refused .sysexitUnspecified ∧
    exec .rdpmc s = .refused .performanceCounters ∧ exec .monitor s = .refused .monitorHardware ∧
    exec .mwait s = .refused .mwaitHardware)

/-- LAR, LSL, VERR and VERW: ZF says whether the selector names a descriptor of an accepted type that the privilege
rule shows; LAR and LSL then write the access rights or the byte-granular limit; no selector faults. ARPL raises an
RPL. None of the five exists in real-address and virtual-8086 mode (R381, R420, R431, R802). The system types that LAR
accepts beside those of R420 outside IA-32e mode are the model's choice (log entry 41), as are bits 19:16 = 0 of what LAR
writes (log entry 130), ZF = 0 for a descriptor at an address that is not canonical (log entry 40), the store of an RPL that is not raised (log entry 83) and that VERR
and VERW raise #UD as the others do (log entry 98). -/
def Obligations.SegmentInspection : Prop :=
  (∀ (s t : State) (src : RM) (sel : BitVec 16), s.paragraphs = false → readRm .b16 src s = .ok (sel, t) →
    let missing := sel.extractLsb' 2 14 = 0 ∨ s.descInTable sel 8 = false ∨
      (s.lma = true ∧ canonicalRange (s.descAddr sel) 8 = false)
    (missing → ∀ w r, ∀ i ∈ [Instr.lar w r src, .lsl w r src, .verr src, .verw src],
      exec i s = .next (t.endWith (s.rflags &&& ~~~0x40))) ∧
    (¬ missing → ∀ v u, sysRead (s.descAddr sel) 8 t = .ok (v, u) →
      let raw := BitVec.ofNat 64 v
      let app := raw.getLsbD 44
      let code := app && raw.getLsbD 43
      let shown := (code && raw.getLsbD 42) ||
        (decide (s.cpl ≤ descLevel raw) && decide ((sel.extractLsb' 0 2).toNat ≤ descLevel raw))
      let typ := (raw.extractLsb' 40 4).toNat
      let limit := (descSeg raw 0).limit
      let outcome := fun (i : Instr) (ok : Bool) (x : State) =>
        exec i s = .next (if ok then x.endWith (s.rflags ||| 0x40) else u.endWith (s.rflags &&& ~~~0x40))
      (∀ w r,
        outcome (.lar w r src)
          (shown && (app || decide (typ ∈ (if s.lma then [2, 9, 11, 12] else [1, 2, 3, 4, 5, 9, 11, 12]))))
          (u.writeReg w r (BitVec.ofNat _ ((v / 2 ^ 32 % 2 ^ 32) &&& 0x00F0FF00))) ∧
        outcome (.lsl w r src) (shown && (app || decide (typ ∈ [2, 9, 11])))
          (u.writeReg w r (limit.setWidth w.bits))) ∧
      outcome (.verr src) (shown && app && (!code || raw.getLsbD 41)) u ∧
      outcome (.verw src) (shown && app && !code && raw.getLsbD 41) u)) ∧
  (∀ (s : State) (dst : RM) (q : Reg) (x : BitVec 16) (put : BitVec 16 → State), s.paragraphs = false →
    Destination s .b16 (asRmb dst) x put →
    let y := s.readReg .b16 q
    (s.memOk = true → ∀ v, OnlyOperand s .b16 (asRmb dst) (put v)) ∧
    exec (.arpl dst q) s = .next (if x.toNat % 4 < y.toNat % 4
      then (put (x.extractLsb' 2 14 ++ y.extractLsb' 0 2)).endWith (s.rflags ||| 0x40)
      else (put x).endWith (s.rflags &&& ~~~0x40))) ∧
  (∀ (s : State) (w : Width) (r : Reg) (src : RM), s.paragraphs = true →
    ∀ i ∈ [Instr.lar w r src, .lsl w r src, .verr src, .verw src, .arpl src r, .lldt src, .ltr src, .sldt w src,
      .str w src], exec i s = deliver udFault s)

/-- LGDT, LIDT, SGDT, SIDT, SLDT, STR, SMSW, LLDT and LTR: the base of a table has 8 bytes in 64-bit mode and 4 elsewhere,
of which a 16-bit operand size loads 24 bits; a base that is not canonical raises #GP(0); a register operand of LGDT and
LIDT raises #UD. LLDT and LTR load a system descriptor of the GDT, of 16 bytes in 64-bit mode, and LTR marks the TSS busy
in the register and, by a read-modify-write of the second doubleword, in memory; a descriptor beyond the GDT, one of another type, or with a second type field or a base
that is not canonical raises #GP(selector), one that is not present #NP(selector). The four that load need level 0 (R127,
R380, R425 to R427, R432, R802). That SGDT and SIDT make two separately aligned accesses is the model's choice (log entry 38),
as is that LTR takes a 16-bit TSS outside IA-32e mode (log entry 42). -/
def Obligations.TableRegisters : Prop :=
  ((∀ (s t u : State) (w : Width) (m : Mem) (lim base : Nat), s.cpl = 0 →
    let n := if s.is64 then 8 else 4
    readMem m.seg (s.effAddr m) 2 s = .ok (lim, t) →
    readMem m.seg (s.effAddr m + 2) n t = .ok (base, u) →
    let b := BitVec.ofNat 64 (if s.is64 = false ∧ w = .b16 then base % 2 ^ 24 else base)
    (canonical b = true →
      exec (.lgdt w (.mem m)) s =
        .next (State.endWith { u with gdtr := { base := b, limit := BitVec.ofNat 16 lim } } s.rflags) ∧
      exec (.lidt w (.mem m)) s =
        .next (State.endWith { u with idtr := { base := b, limit := BitVec.ofNat 16 lim } } s.rflags)) ∧
    (canonical b = false → exec (.lgdt w (.mem m)) s = deliver gp0 s ∧ exec (.lidt w (.mem m)) s = deliver gp0 s)) ∧
  (∀ (s : State) (w : Width) (r : Reg) (m : Mem) (src : RM),
    exec (.lgdt w (.reg r)) s = deliver udFault s ∧ exec (.lidt w (.reg r)) s = deliver udFault s ∧
    (s.cpl ≠ 0 → exec (.lgdt w (.mem m)) s = deliver gp0 s ∧ exec (.lidt w (.mem m)) s = deliver gp0 s) ∧
    (s.cpl ≠ 0 → s.paragraphs = false → exec (.lldt src) s = deliver gp0 s ∧ exec (.ltr src) s = deliver gp0 s)) ∧
  (∀ (s t u : State) (m : Mem) (a b : Span),
    let n := if s.is64 then 8 else 4
    resolve m.seg (s.effAddr m) 2 true (.natural 2) s = .ok (a, t) →
    ∀ p ∈ [(Instr.sgdt m, s.gdtr), (.sidt m, s.idtr)],
      resolve m.seg (s.effAddr m + 2) n true (.natural n) (t.storeAt a 2 p.2.limit.toNat) = .ok (b, u) →
      exec p.1 s = .next ((u.storeAt b n p.2.base.toNat).endWith s.rflags)) ∧
  (∀ s : State, ∀ p ∈ [((fun w d => Instr.sldt w d), s.ldtr.sel.setWidth 64, false),
      ((fun w d => Instr.str w d), s.tr.sel.setWidth 64, false), ((fun w d => Instr.smsw w d), s.cr0, true)],
    (p.2.2 = true ∨ s.paragraphs = false) → ∀ w : Width,
    (∀ r, exec (p.1 w (.reg r)) s = .next ((s.writeReg w r (p.2.1.setWidth w.bits)).endWith s.rflags)) ∧
    (∀ m x put, Destination s .b16 (.mem m) x put →
      (s.memOk = true → ∀ v, OnlyOperand s .b16 (.mem m) (put v)) ∧
      exec (p.1 w (.mem m)) s = .next ((put (p.2.1.setWidth 16)).endWith s.rflags)))) ∧
  (∀ (s t : State) (src : RM) (sel : BitVec 16), s.paragraphs = false → s.cpl = 0 → readRm .b16 src s = .ok (sel, t) →
    (sel.extractLsb' 2 14 = 0 →
      exec (.lldt src) s =
        .next (State.endWith { t with ldtr := { t.ldtr with sel := sel, unusable := true } } s.rflags) ∧
      exec (.ltr src) s = deliver gp0 s) ∧
    (sel.extractLsb' 2 14 ≠ 0 → sel.getLsbD 2 = true →
      exec (.lldt src) s = deliver (gpSel sel) s ∧ exec (.ltr src) s = deliver (gpSel sel) s) ∧
    (sel.extractLsb' 2 14 ≠ 0 → sel.getLsbD 2 = false →
      (s.descInTable sel (if s.is64 then 16 else 8) = false →
        exec (.lldt src) s = deliver (gpSel sel) s ∧ exec (.ltr src) s = deliver (gpSel sel) s) ∧
      ∀ lo hi u v,
      readDescPart sel false (if s.is64 then 16 else 8) 0 t = .ok (lo, u) →
      (if s.is64 then readDescPart sel false 16 8 u = .ok (hi, v) else hi = 0 ∧ v = u) →
      let typ := lo.extractLsb' 40 4
      let g := { descSeg lo sel with base := hi.extractLsb' 0 32 ++ lo.extractLsb' 56 8 ++ lo.extractLsb' 16 24 }
      (∀ p ∈ [(Instr.lldt src, [2]), (.ltr src, if s.lma then [9] else [1, 9])],
        let fits := lo.getLsbD 44 = false ∧ typ ∈ p.2 ∧ hi.extractLsb' 40 5 = 0
        (¬ fits → exec p.1 s = deliver (gpSel sel) s) ∧
        (fits → lo.getLsbD 47 = false → exec p.1 s = deliver (npSel sel) s) ∧
        (fits → lo.getLsbD 47 = true → canonical g.base = false → exec p.1 s = deliver (gpSel sel) s)) ∧
      (lo.getLsbD 44 = false → lo.getLsbD 47 = true → hi.extractLsb' 40 5 = 0 → canonical g.base = true →
      (typ = 2 → exec (.lldt src) s = .next (State.endWith { v with ldtr := g } s.rflags)) ∧
      (typ = 9 ∨ (s.lma = false ∧ typ = 1) →
        ∀ sp x, spanOf s.lma (if s.lma then s.descAddr sel + 4 else (s.descAddr sel + 4) &&& 0xFFFFFFFF) 4 ⟨true, false⟩ v =
          .ok (sp, x) →
        exec (.ltr src) s = .next (State.endWith { x.storeAt sp 4 (spanGet x.mem sp 0 4 ||| 0x200) with tr := { g with typ := typ ||| 2 } } s.rflags)))))

/-- The operating mode, which LMA, CS.L, CR0.PE and EFLAGS.VM select; the privilege level, the code size, IOPL and the flags
(R45, R52, R177, R720). MOV to and from the control and debug registers: which exist, who may use them, what they hold, and which values
raise #GP(0); CR0.ET stays set and LMA follows LME and PG; DR4 and DR5 name DR6 and DR7 unless CR4.DE forbids them
(R54, R56 to R58, R751, R785, R786). That MOV to CR3 stores bits 63:52 as given is DEDUCED (log entry 45); that CR8 shows
the task priority with the local APIC disabled too is the model's choice (log entry 118), and that the level of protected
mode just entered is that of the CS selector is log entry 111; that a write of CR0 leaves all 64 bits of the bases of the
descriptor tables is the model's choice (log entry 129). -/
def Obligations.ControlRegisters : Prop :=
  (∀ s : State,
    s.lma = s.efer.getLsbD 10 ∧ s.pg = s.cr0.getLsbD 31 ∧ (∀ i, s.flag i = s.rflags.getLsbD i) ∧
    s.iopl = s.rflags.toNat / 2 ^ 12 % 4 ∧
    s.mode = (if s.efer.getLsbD 10 then (if s.cs.l then .long64 else .compat) else if s.cr0.getLsbD 0 = false then .real
      else if s.rflags.getLsbD 17 then .v86 else .prot) ∧
    (s.is64 = true ↔ s.mode = .long64) ∧ (s.paragraphs = true ↔ s.mode = .real ∨ s.mode = .v86) ∧
    s.cpl = (if s.mode = .real then 0 else if s.mode = .v86 then 3 else s.cs.sel.toNat % 4) ∧
    s.codeSize = (if s.mode = .long64 then .c64 else if s.paragraphs = false ∧ s.cs.db = true then .c32 else .c16)) ∧
  (∀ (s : State) (r : Reg),
    let v := if s.is64 then s.get r else ((s.get r).setWidth 32).setWidth 64
    let put := fun (x : Word) => if s.is64 then s.writeReg .b64 r x else s.writeReg .b32 r (x.setWidth 32)
    let ends := fun (i : Instr) (t : State) =>
      ∃ f, SameOutside 0x8D5 s.rflags f ∧ exec i s = .next ((t.drawn 1).endWith f)
    (∀ cr : Reg, cr ∉ [0, 2, 3, 4, 8] → exec (.movFromCr cr r) s = deliver udFault s ∧
      exec (.movToCr cr r) s = deliver udFault s) ∧
    (s.cpl ≠ 0 → ∀ cr ∈ [(0 : Reg), 2, 3, 4], exec (.movFromCr cr r) s = deliver gp0 s ∧
      exec (.movToCr cr r) s = deliver gp0 s) ∧
    (s.cpl = 0 →
      (∀ p ∈ [((0 : Reg), s.cr0), (2, s.cr2), (3, s.cr3), (4, s.cr4)], ends (.movFromCr p.1 r) (put p.2)) ∧
      ends (.movToCr 2 r) { s with cr2 := v } ∧
      (s.lma = false ∨ v.extractLsb' 40 12 = 0 → ends (.movToCr 3 r) { s with cr3 := v }) ∧
      (s.lma = true → v.extractLsb' 40 12 ≠ 0 → exec (.movToCr 3 r) s = deliver gp0 s) ∧
      (v.extractLsb' 11 53 = 0 → (s.lma = true → s.cr4.getLsbD 5 = true → v.getLsbD 5 = true) →
        ends (.movToCr 4 r) { s with cr4 := v }) ∧
      (v.extractLsb' 11 53 ≠ 0 ∨ (s.lma = true ∧ s.cr4.getLsbD 5 = true ∧ v.getLsbD 5 = false) →
        exec (.movToCr 4 r) s = deliver gp0 s) ∧
      (let bad := v.extractLsb' 32 32 ≠ 0 ∨ (v.getLsbD 31 = true ∧ v.getLsbD 0 = false) ∨
          (v.getLsbD 29 = true ∧ v.getLsbD 30 = false) ∨
          (v.getLsbD 31 = true ∧ s.cr0.getLsbD 31 = false ∧ s.efer.getLsbD 8 = true ∧
            (s.cr4.getLsbD 5 = false ∨ s.cs.l = true ∨ s.tr.typ = 1 ∨ s.tr.typ = 3)) ∨
          (v.getLsbD 31 = false ∧ s.cr0.getLsbD 31 = true ∧ s.is64 = true);
        (bad → exec (.movToCr 0 r) s = deliver gp0 s) ∧
        (¬ bad → ends (.movToCr 0 r) { s with
          cr0 := v ||| 0x10
          efer := if s.efer.getLsbD 8 && v.getLsbD 31 then s.efer ||| 0x400 else s.efer &&& ~~~0x400 }))) ∧
    (s.is64 = true → s.cpl = 0 → ends (.movFromCr 8 r) (put (BitVec.ofNat 64 (s.tpr.toNat / 16))) ∧
      (v.toNat < 16 → ends (.movToCr 8 r) { s with tpr := BitVec.ofNat 8 (v.toNat * 16) }) ∧
      (16 ≤ v.toNat → exec (.movToCr 8 r) s = deliver gp0 s)) ∧
    (s.is64 = true → s.cpl ≠ 0 → exec (.movFromCr 8 r) s = deliver gp0 s ∧ exec (.movToCr 8 r) s = deliver gp0 s) ∧
    (s.is64 = false → exec (.movFromCr 8 r) s = deliver udFault s ∧ exec (.movToCr 8 r) s = deliver udFault s)) ∧
  (∀ (s : State) (r : Reg),
    let v := if s.is64 then s.get r else ((s.get r).setWidth 32).setWidth 64
    let put := fun (x : Word) => if s.is64 then s.writeReg .b64 r x else s.writeReg .b32 r (x.setWidth 32)
    let ends := fun (i : Instr) (t : State) =>
      ∃ f, SameOutside 0x8D5 s.rflags f ∧ exec i s = .next ((t.drawn 1).endWith f)
    (∀ dr : Reg, 8 ≤ dr.toNat ∨ (s.cr4.getLsbD 3 = true ∧ (dr = 4 ∨ dr = 5)) →
      exec (.movFromDr dr r) s = deliver udFault s ∧ exec (.movToDr dr r) s = deliver udFault s) ∧
    (s.cpl ≠ 0 → ∀ dr ∈ [(0 : Reg), 1, 2, 3, 4, 5, 6, 7], (dr = 4 ∨ dr = 5 → s.cr4.getLsbD 3 = false) →
      exec (.movFromDr dr r) s = deliver gp0 s ∧ exec (.movToDr dr r) s = deliver gp0 s) ∧
    (s.cpl = 0 → ∀ p ∈ [((0 : Reg), s.dr0, { s with dr0 := v }), (1, s.dr1, { s with dr1 := v }),
        (2, s.dr2, { s with dr2 := v }), (3, s.dr3, { s with dr3 := v }), (4, s.dr6, { s with dr6 := v }),
        (5, s.dr7, { s with dr7 := v }), (6, s.dr6, { s with dr6 := v }), (7, s.dr7, { s with dr7 := v })],
      (p.1 = 4 ∨ p.1 = 5 → s.cr4.getLsbD 3 = false) →
      ends (.movFromDr p.1 r) (put p.2.1) ∧
      (p.1.toNat < 4 ∨ v.toNat < 2 ^ 32 → ends (.movToDr p.1 r) p.2.2) ∧
      (4 ≤ p.1.toNat → 2 ^ 32 ≤ v.toNat → exec (.movToDr p.1 r) s = deliver gp0 s)))

/-- RDMSR and WRMSR at privilege level 0: the eight registers by address; any other address, a base that is not
canonical, a reserved bit of IA32_EFER and a change of LME under paging raise #GP(0); LMA cannot be written
(R51, R64 to R66, R752, R795). -/
def Obligations.ModelSpecificRegisters : Prop :=
  ∀ s : State, s.cpl = 0 →
    let a := (s.readReg .b32 rCX).toNat
    let v := s.readReg .b32 rDX ++ s.readReg .b32 rAX
    let base := fun (t : State) => exec .wrmsr s = if canonical v then .next (t.endWith s.rflags) else deliver gp0 s
    let reads := fun (x : Word) => exec .rdmsr s =
      .next (((s.writeReg .b32 rAX (x.extractLsb' 0 32)).writeReg .b32 rDX (x.extractLsb' 32 32)).endWith s.rflags)
    (a = 0xC0000080 → reads s.efer ∧
      (v &&& ~~~0x501 ≠ 0 ∨ (s.pg = true ∧ v.getLsbD 8 ≠ s.efer.getLsbD 8) → exec .wrmsr s = deliver gp0 s) ∧
      (v &&& ~~~0x501 = 0 → (s.pg = true → v.getLsbD 8 = s.efer.getLsbD 8) → exec .wrmsr s =
        .next (State.endWith { s with efer := (v &&& 0x101) ||| (s.efer &&& 0x400) } s.rflags))) ∧
    (a = 0xC0000081 → reads s.star ∧ exec .wrmsr s = .next (State.endWith { s with star := v } s.rflags)) ∧
    (a = 0xC0000082 → reads s.lstar ∧ base { s with lstar := v }) ∧
    (a = 0xC0000083 → reads s.cstar ∧ base { s with cstar := v }) ∧
    (a = 0xC0000084 → reads s.fmask ∧
      exec .wrmsr s = .next (State.endWith { s with fmask := BitVec.ofNat 64 (v.toNat % 2 ^ 32) } s.rflags)) ∧
    (a = 0xC0000100 → reads s.fs.base ∧ base { s with fs := { s.fs with base := v } }) ∧
    (a = 0xC0000101 → reads s.gs.base ∧ base { s with gs := { s.gs with base := v } }) ∧
    (a = 0xC0000102 → reads s.kernelGsBase ∧ base { s with kernelGsBase := v }) ∧
    (¬ (0xC0000080 ≤ a ∧ a ≤ 0xC0000084) → ¬ (0xC0000100 ≤ a ∧ a ≤ 0xC0000102) →
      exec .rdmsr s = deliver gp0 s ∧ exec .wrmsr s = deliver gp0 s)

/-- SWAPGS, SYSCALL and SYSRET: the exchange of the GS bases; the saved RIP and RFLAGS, the flat segments of STAR, the
masked flags, and the return to 64-bit or compatibility mode; #UD where they are not enabled, #GP(0) outside level 0
(R791 to R793). The AVL bits of the loaded segments and the fixed bit 1 of the flags are the model's choice (log entry
43). -/
def Obligations.SystemCalls : Prop :=
  ∀ s : State,
    let enabled := s.is64 = true ∧ s.efer.getLsbD 0 = true
    let seg := fun (sel : BitVec 16) (typ : BitVec 4) (dpl : BitVec 2) (l db : Bool) =>
      ({ sel := sel, base := 0, limit := 0xFFFFFFFF, typ := typ, s := true, dpl := dpl, p := true, avl := false, l := l,
         db := db, g := true, unusable := false } : SegReg)
    (s.is64 = false → exec .swapgs s = deliver udFault s) ∧
    (s.is64 = true → s.cpl ≠ 0 → exec .swapgs s = deliver gp0 s) ∧
    (s.is64 = true → s.cpl = 0 → exec .swapgs s =
      .next (State.endWith { s with gs := { s.gs with base := s.kernelGsBase }, kernelGsBase := s.gs.base } s.rflags)) ∧
    (¬ enabled → exec .syscall s = deliver udFault s ∧ ∀ w, exec (.sysret w) s = deliver udFault s) ∧
    (enabled → exec .syscall s = .next { (s.put rCX s.nextPc).put 11 (s.rflags.setWidth 64) with
      rip := s.lstar
      rflags := (s.rflags &&& ~~~(s.fmask.setWidth 32) &&& ~~~0x10000) ||| 2
      cs := seg (s.star.extractLsb' 34 14 ++ 0#2) 0xB 0 true false
      ss := seg (s.star.extractLsb' 32 16 + 8) 3 0 false true }) ∧
    (enabled → s.cpl ≠ 0 → ∀ w, exec (.sysret w) s = deliver gp0 s) ∧
    (enabled → s.cpl = 0 →
      let base := s.star.extractLsb' 48 16
      let flags := ((s.get 11).setWidth 32 &&& 0x3C7FD7) ||| 2
      let stack := seg ((base + 8) ||| 3) 3 3 false true
      exec (.sysret true) s = (if canonical (s.get rCX)
        then .next { s with rip := s.get rCX, rflags := flags, ss := stack, cs := seg ((base + 16) ||| 3) 0xB 3 true false }
        else deliver gp0 s) ∧
      exec (.sysret false) s = .next { s with
        rip := ((s.get rCX).setWidth 32).setWidth 64, rflags := flags, ss := stack,
        cs := seg (base ||| 3) 0xB 3 false true })

/-! ### The x87 FPU -/

/-- The x87 arithmetic instructions in every form: the rounded result goes to the destination, with its exceptions; an
empty register is a stack underflow; the pointers of R457 are recorded (R453 to R457, R463, R473, R474, R485, R492,
R495, R498, R503, R504). That an infinity divided by a zero sets no ZE is DEDUCED (log entry 94); that FSCALE rounds to
64 bits whatever FCW.PC (log entry 105) and how it packs a result that its biased exponent does not hold (log entry 104)
is the model's choice. The operands are the physical registers counted from TOP, unpacked; the rounding is that of FCW.RC
and FCW.PC with the masks of FCW, a store's that of its format (R70, R71, R455); the operations are those of FloatRounding.
FRNDINT rounds to an integral value of the same sign, and FSCALE multiplies by the power of two of ST(1) chopped, where a
power beyond 65536 counts as 65536, which overflows or underflows every value; its results for an infinite ST(1) are
PRESUMED (log entry 54). What the reserved encoding 01 of PC selects is left open among the three (log entry 46). -/
def Obligations.X87Arithmetic : Prop :=
  (∀ f : Fpu,
    let rc := f.fcw.extractLsb' 10 2
    let pc := f.fcw.extractLsb' 8 2
    let env := fun (p bias : Nat) => (⟨rc, p, bias, f.fcw.extractLsb' 0 6, false, true⟩ : Env)
    f.top = f.fsw.extractLsb' 11 3 ∧
    (∀ i : Reg3, f.tag i = BitVec.ofNat 2 (f.ftw.toNat / 4 ^ i.toNat) ∧ f.st i = f.r[(f.top + i).toNat]'(f.top + i).isLt ∧
      f.val i = unpack80 (f.st i) ∧ f.emptyAt i = decide (f.tag (f.top + i) = 3)) ∧
    f.rc = rc ∧ (∀ p, f.envAt p = env p 16383) ∧ f.env32 = env 24 127 ∧ f.env64 = env 53 1023 ∧
    ∃ p ∈ [24, 53, 64], f.env = env p 16383 ∧ (pc = 0 → p = 24) ∧ (pc = 2 → p = 53) ∧ (pc = 3 → p = 64)) ∧
  (∀ (n : Env) (rc : BitVec 2) (s t : Bool) (m k : Nat) (e x : Int) (d d' : Bool),
    let a := FVal.fin s m e d
    let power := min (roundInteger 3 t k x).1 65536
    integralCore rc (.zero s) = .exact (.zero s) ∧ integralCore rc (.inf s) = .exact (.inf s) ∧
    (0 ≤ e → integralCore rc a = .exact (.fin s m e false)) ∧
    (e < 0 → integralCore rc a = (let r := roundInteger rc s m e
      ⟨if r.1 = 0 then .zero s else .fin s r.1 0 false, if r.2.1 then 32 else 0, r.2.2⟩)) ∧
    scaleCore n a (.fin t k x d') = finish n s m (if t then e - power else e + power) ∧
    scaleCore n a (.zero t) = finish n s m e ∧
    (∀ b ∈ [FVal.zero t, .fin t k x d'], scaleCore n (.zero s) b = .exact (.zero s) ∧
      scaleCore n (.inf s) b = .exact (.inf s)) ∧
    scaleCore n a (.inf t) = .exact (if t then .zero s else .inf s) ∧
    scaleCore n (.zero s) (.inf t) = (if t then .exact (.zero s) else ⟨.indef, 1, false⟩) ∧
    scaleCore n (.inf s) (.inf t) = (if t then ⟨.indef, 1, false⟩ else .exact (.inf s))) ∧
  ∀ s : State, s.fpuFree →
    let f := s.fpu
    let ends := fun (i : Instr) (t : State) (op : BitVec 11) (m : Option Mem) (dst : Reg3) (pops : Nat) (empty : Bool)
        (o : FpOut) =>
      FpuEnds i s t op m 1 (fun g => if empty then Underflowed f dst pops g else Delivered f dst pops o g)
    (∀ k : Reg3,
      let empty := f.emptyAt 0 || f.emptyAt k
      let at_ := fun n : Nat => BitVec.ofNat 11 (n + k.toNat)
      (∀ p ∈ [(Instr.fadd (.st0 k), fAdd, 0x0C0), (.fmul (.st0 k), fMul, 0x0C8), (.fsub (.st0 k), fSub, 0x0E0),
          (.fsubr (.st0 k), fSubr, 0x0E8), (.fdiv (.st0 k), fDiv, 0x0F0), (.fdivr (.st0 k), fDivr, 0x0F8)],
        ends p.1 s (at_ p.2.2) none 0 0 empty (p.2.1 f.env (f.val 0) (f.val k))) ∧
      (∀ p ∈ [(Instr.fadd (.sti k), fAdd, 0x4C0), (.fmul (.sti k), fMul, 0x4C8), (.fsub (.sti k), fSub, 0x4E8),
          (.fsubr (.sti k), fSubr, 0x4E0), (.fdiv (.sti k), fDiv, 0x4F8), (.fdivr (.sti k), fDivr, 0x4F0)],
        ends p.1 s (at_ p.2.2) none k 0 empty (p.2.1 f.env (f.val k) (f.val 0))) ∧
      (∀ p ∈ [(Instr.faddp k, fAdd, 0x6C0), (.fmulp k, fMul, 0x6C8), (.fsubp k, fSub, 0x6E8),
          (.fsubrp k, fSubr, 0x6E0), (.fdivp k, fDiv, 0x6F8), (.fdivrp k, fDivr, 0x6F0)],
        ends p.1 s (at_ p.2.2) none k 1 empty (p.2.1 f.env (f.val k) (f.val 0)))) ∧
    (∀ (m : FMem) (t : State) (v : Nat),
      let mem := fun (i : Instr) (esc digit : BitVec 3) (op : FOp) (b : FVal) =>
        ends i t (memOpcode esc digit m) (some m.mem) 0 0 (f.emptyAt 0) (op f.env (f.val 0) b)
      (FpuReads m 4 4 s v t → ∀ p ∈ [((fun a => Instr.fadd a), (fun a => Instr.fiadd a), fAdd, (0 : BitVec 3)),
          ((fun a => .fmul a), (fun a => .fimul a), fMul, 1), ((fun a => .fsub a), (fun a => .fisub a), fSub, 4),
          ((fun a => .fsubr a), (fun a => .fisubr a), fSubr, 5), ((fun a => .fdiv a), (fun a => .fidiv a), fDiv, 6),
          ((fun a => .fdivr a), (fun a => .fidivr a), fDivr, 7)],
        mem (p.1 (.m32 m)) 0 p.2.2.2 p.2.2.1 (unpack32 (BitVec.ofNat 32 v)) ∧
        mem (p.2.1 (.m32 m)) 2 p.2.2.2 p.2.2.1 (intVal (BitVec.ofNat 32 v).toInt)) ∧
      (FpuReads m 8 8 s v t → ∀ p ∈ [(Instr.fadd (.m64 m), fAdd, (0 : BitVec 3)), (.fmul (.m64 m), fMul, 1),
          (.fsub (.m64 m), fSub, 4), (.fsubr (.m64 m), fSubr, 5), (.fdiv (.m64 m), fDiv, 6),
          (.fdivr (.m64 m), fDivr, 7)],
        mem p.1 4 p.2.2 p.2.1 (unpack64 (BitVec.ofNat 64 v))) ∧
      (FpuReads m 2 2 s v t → ∀ p ∈ [(Instr.fiadd (.m16 m), fAdd, (0 : BitVec 3)), (.fimul (.m16 m), fMul, 1),
          (.fisub (.m16 m), fSub, 4), (.fisubr (.m16 m), fSubr, 5), (.fidiv (.m16 m), fDiv, 6),
          (.fidivr (.m16 m), fDivr, 7)],
        mem p.1 6 p.2.2 p.2.1 (intVal (BitVec.ofNat 16 v).toInt))) ∧
    ends .fsqrt s 0x1FA none 0 0 (f.emptyAt 0) (unary true (sqrtCore f.env) (f.val 0)) ∧
    ends .frndint s 0x1FC none 0 0 (f.emptyAt 0) (unary true (integralCore f.rc) (f.val 0)) ∧
    ends .fscale s 0x1FD none 0 0 (f.emptyAt 0 || f.emptyAt 1) (binary (f.envAt 64) (scaleCore (f.envAt 64)) (f.val 0) (f.val 1))

/-- FABS, FCHS, FCMOVcc, FXCH, FDECSTP, FINCSTP, FFREE, FNOP and FXAM: what they do to the stack and to the condition
codes (R453, R454, R462, R466, R468, R472, R475, R478, R486, R508, R509). That FXCH takes the indefinite for an empty
register on a masked stack fault is PRESUMED (log entry 56). -/
def Obligations.X87Stack : Prop :=
  ∀ s : State, s.fpuFree →
    let f := s.fpu
    let ends := fun (i : Instr) (op : BitVec 11) (n : Nat) (p : Fpu → Prop) => FpuEnds i s s op none n p
    let quiet := fun (g : Fpu) => g.fcw = f.fcw ∧ g.fsw &&& 0x80FF = f.fsw &&& 0x80FF
    let put := fun (v : BitVec 80) (g : Fpu) =>
      if f.emptyAt 0 then Underflowed f 0 0 g else quiet g ∧ g.fsw.getLsbD 9 = false ∧ Written f 0 0 v g
    ends .fabs 0x1E1 1 (put (0#1 ++ (f.st 0).extractLsb' 0 79)) ∧
    ends .fchs 0x1E0 1 (put (~~~(f.st 0).extractLsb' 79 1 ++ (f.st 0).extractLsb' 0 79)) ∧
    ends .fdecstp 0x1F6 1 (fun g => quiet g ∧ g.fsw.getLsbD 9 = false ∧ g.r = f.r ∧ g.ftw = f.ftw ∧ g.top = f.top - 1) ∧
    ends .fincstp 0x1F7 1 (fun g => quiet g ∧ g.fsw.getLsbD 9 = false ∧ g.r = f.r ∧ g.ftw = f.ftw ∧ g.top = f.top + 1) ∧
    ends .fnop 0x1D0 1 (fun g => quiet g ∧ Moved f 0 g) ∧
    ends .fxam 0x1E5 0 (fun g => quiet g ∧ Moved f 0 g ∧ g.fsw.getLsbD 9 = (f.st 0).msb ∧ g.codes =
      (if f.emptyAt 0 then (true, false, true) else match f.val 0 with
        | .unsupported => (false, false, false) | .nan _ _ => (false, false, true) | .inf _ => (false, true, true)
        | .zero _ => (true, false, false) | .fin _ _ _ d => (d, true, false))) ∧
    ∀ k : Reg3,
      let empty := f.emptyAt 0 || f.emptyAt k
      ends (.ffree k) (BitVec.ofNat 11 (0x5C0 + k.toNat)) 1 (fun g => quiet g ∧ g.r = f.r ∧ g.top = f.top ∧
        ∀ j, g.tag j = if j = f.top + k then 3 else f.tag j) ∧
      ends (.fxch k) (BitVec.ofNat 11 (0x1C8 + k.toNat)) 1 (fun g =>
        let val := fun i => if f.emptyAt i then indef80 else f.st i
        let tag := fun (i : Reg3) => if f.emptyAt i then 2 else f.tag (f.top + i)
        let swapped := g.top = f.top ∧
          g.r = (f.r.set f.top.toNat (val k) f.top.isLt).set (f.top + k).toNat (val 0) (f.top + k).isLt ∧
          ∀ j, g.tag j = if j = f.top + k then tag 0 else if j = f.top then tag k else f.tag j
        if empty then Signals f 1 true false g ∧ (if f.fcw.getLsbD 0 then swapped else Moved f 0 g)
        else quiet g ∧ g.fsw.getLsbD 9 = false ∧ swapped) ∧
      ∀ p ∈ [(Instr.fcmovb k, s.flag fCF, 0x2C0), (.fcmove k, s.flag fZF, 0x2C8),
          (.fcmovbe k, s.flag fCF || s.flag fZF, 0x2D0), (.fcmovu k, s.flag fPF, 0x2D8), (.fcmovnb k, !s.flag fCF, 0x3C0),
          (.fcmovne k, !s.flag fZF, 0x3C8), (.fcmovnbe k, !(s.flag fCF || s.flag fZF), 0x3D0),
          (.fcmovnu k, !s.flag fPF, 0x3D8)],
        ends p.1 (BitVec.ofNat 11 (p.2.2 + k.toNat)) 1 (fun g => if empty then Underflowed f 0 0 g
          else quiet g ∧ g.fsw.getLsbD 9 = false ∧ (if p.2.1 then Copied f 0 0 (f.st k) (f.tag (f.top + k)) g else Moved f 0 g))

/-- The x87 comparisons: the condition codes, or for FCOMI, FCOMIP, FUCOMI and FUCOMIP the EFLAGS, which leave C0, C2 and
C3 as they are; the ordered ones
signal a quiet NaN; an unmasked exception leaves everything but the exception flags (R453, R469, R470, R476, R505,
R506). That FCOMI, FCOMIP, FUCOMI and FUCOMIP do not set DE is DEDUCED (log entry 57); that a masked stack underflow
compares as unordered is the model's choice (log entry 115), as is that an unmasked one keeps the codes and EFLAGS
(log entry 131) and that an unmasked denormal operand keeps the codes and pops nothing (log entry 119). The order of two values is that of the numbers they stand for, with infinities at the ends
and signed zeros equal, and unordered beside a NaN or an unsupported format; invalid are an unsupported format, a
signalling NaN and for an ordered comparison any NaN, and otherwise a denormal operand is reported beside a value that is no
NaN (R469, R470, R505, R506; R600 and R605 for the SSE comparisons). -/
def Obligations.X87Compare : Prop :=
  (∀ a b : FVal,
    let number : FVal → ℚ := fun v => match v with
      | .fin s m e _ => (if s then -1 else 1) * m * (2 : ℚ) ^ e
      | _ => 0
    compareVal a b = match a, b with
      | .nan _ _, _ => .un
      | _, .nan _ _ => .un
      | .unsupported, _ => .un
      | _, .unsupported => .un
      | .inf s, .inf t => if s = t then .eq else if s then .lt else .gt
      | .inf s, _ => if s then .lt else .gt
      | _, .inf t => if t then .gt else .lt
      | v, w => if number v < number w then .lt else if number v = number w then .eq else .gt) ∧
  (∀ (a b : FVal) (ordered denormals : Bool),
    let nan := fun (v : FVal) => ∃ s g, v = .nan s g
    let signalling := fun (v : FVal) => ∃ s g, v = .nan s g ∧ g.getLsbD 62 = false
    let denormal := fun (v : FVal) => ∃ s m e, v = .fin s m e true
    let x := compareFlags ordered denormals a b
    let invalid := a = .unsupported ∨ b = .unsupported ∨ signalling a ∨ signalling b ∨ ordered = true ∧ (nan a ∨ nan b)
    let reported := denormals = true ∧ ¬ (nan a ∨ nan b) ∧ (denormal a ∨ denormal b)
    (invalid → x = 1) ∧ (¬ invalid → reported → x = 2) ∧ (¬ invalid → ¬ reported → x = 0)) ∧
  ∀ s : State, s.fpuFree →
    let f := s.fpu
    let ends := fun (i : Instr) (op : BitVec 11) (empty ordered : Bool) (pops : Nat) (b : FVal) =>
      FpuEnds i s s op none 0 (Compared f empty ordered pops b)
    (∀ k : Reg3,
      let empty := f.emptyAt 0 || f.emptyAt k
      (∀ p ∈ [(Instr.fcom (.sti k), 0x0D0, true, 0), (.fcomp (.sti k), 0x0D8, true, 1), (.fucom k, 0x5E0, false, 0),
          (.fucomp k, 0x5E8, false, 1)],
        ends p.1 (BitVec.ofNat 11 (p.2.1 + k.toNat)) empty p.2.2.1 p.2.2.2 (f.val k)) ∧
      (∀ p ∈ [(Instr.fcomi k, 0x3F0, true, 0), (.fcomip k, 0x7F0, true, 1), (.fucomi k, 0x3E8, false, 0),
          (.fucomip k, 0x7E8, false, 1)],
        let x := if empty then 1 else compareFlags p.2.2.1 false (f.val 0) (f.val k)
        let c := if empty then Cmp.un else compareVal (f.val 0) (f.val k)
        ∃ g r, Signals f x empty false g ∧ g.codes = f.codes ∧
          exec p.1 s = .next { s.fpuEnd (BitVec.ofNat 11 (p.2.1 + k.toNat)) none g 0 with rflags := r } ∧
          (if x &&& ~~~f.fcw.extractLsb' 0 6 = 0 then Moved f p.2.2.2 g ∧ SameOutside 0x8D5 s.rflags r ∧
              r &&& 0x8D5 = (if c = .gt then 0 else if c = .lt then 1 else if c = .eq then 0x40 else 0x45)
            else Moved f 0 g ∧ r = s.rflags))) ∧
    ends .fcompp 0x6D9 (f.emptyAt 0 || f.emptyAt 1) true 2 (f.val 1) ∧
    ends .fucompp 0x2E9 (f.emptyAt 0 || f.emptyAt 1) false 2 (f.val 1) ∧
    ends .ftst 0x1E4 (f.emptyAt 0) true 0 (.zero false) ∧
    (∀ (m : FMem) (t : State) (v : Nat),
      let mem := fun (i : Instr) (esc digit : BitVec 3) (pops : Nat) (b : FVal) =>
        FpuEnds i s t (memOpcode esc digit m) (some m.mem) 0 (Compared f (f.emptyAt 0) true pops b)
      (FpuReads m 4 4 s v t →
        mem (.fcom (.m32 m)) 0 2 0 (unpack32 (BitVec.ofNat 32 v)) ∧ mem (.fcomp (.m32 m)) 0 3 1 (unpack32 (BitVec.ofNat 32 v)) ∧
        mem (.ficom (.m32 m)) 2 2 0 (intVal (BitVec.ofNat 32 v).toInt) ∧
        mem (.ficomp (.m32 m)) 2 3 1 (intVal (BitVec.ofNat 32 v).toInt)) ∧
      (FpuReads m 8 8 s v t → mem (.fcom (.m64 m)) 4 2 0 (unpack64 (BitVec.ofNat 64 v)) ∧
        mem (.fcomp (.m64 m)) 4 3 1 (unpack64 (BitVec.ofNat 64 v))) ∧
      (FpuReads m 2 2 s v t → mem (.ficom (.m16 m)) 6 2 0 (intVal (BitVec.ofNat 16 v).toInt) ∧
        mem (.ficomp (.m16 m)) 6 3 1 (intVal (BitVec.ofNat 16 v).toInt)))

/-- The x87 loads: FLD, FILD, FBLD and the seven constants push their value, a signalling NaN of single and double
precision made quiet, a constant rounded as RC says; a full stack overflows (R453, R456, R464, R477, R481, R482). That FLD
of an empty register onto a full stack answers the overflow is the model's choice (log entry 58), as is the alignment of
an 80-bit operand to 8 bytes (log entry 62). An integer is its exact value, 0 as +0.0 (R477). -/
def Obligations.X87Load : Prop :=
  (∀ z : Int, intVal z = if z = 0 then .zero false else .fin (decide (z < 0)) z.natAbs 0 false) ∧
  ∀ s : State, s.fpuFree →
    let f := s.fpu
    (∀ p ∈ [(Instr.fld1, 0x1E8, 0x3FFF8000000000000000, 0x3FFF8000000000000000, 0x3FFF8000000000000000),
        (.fldl2t, 0x1E9, 0x4000D49A784BCD1B8AFE, 0x4000D49A784BCD1B8AFF, 0x4000D49A784BCD1B8AFE),
        (.fldl2e, 0x1EA, 0x3FFFB8AA3B295C17F0BC, 0x3FFFB8AA3B295C17F0BC, 0x3FFFB8AA3B295C17F0BB),
        (.fldpi, 0x1EB, 0x4000C90FDAA22168C235, 0x4000C90FDAA22168C235, 0x4000C90FDAA22168C234),
        (.fldlg2, 0x1EC, 0x3FFD9A209A84FBCFF799, 0x3FFD9A209A84FBCFF799, 0x3FFD9A209A84FBCFF798),
        (.fldln2, 0x1ED, 0x3FFEB17217F7D1CF79AC, 0x3FFEB17217F7D1CF79AC, 0x3FFEB17217F7D1CF79AB),
        (.fldz, 0x1EE, 0, 0, (0 : BitVec 80))],
      let rc := f.fcw.extractLsb' 10 2
      FpuEnds p.1 s s p.2.1 none 1
        (PushedValue f (if rc = 0 then p.2.2.1 else if rc = 2 then p.2.2.2.1 else p.2.2.2.2) 0)) ∧
    (∀ k : Reg3, FpuEnds (.fld (.sti k)) s s (BitVec.ofNat 11 (0x1C0 + k.toNat)) none 1 (fun g =>
      if f.emptyAt k = true ∧ f.tag (f.top - 1) = 3 then
        Signals f 1 true false g ∧ (if f.fcw.getLsbD 0 then Loaded f indef80 g else Moved f 0 g)
      else PushedValue f (f.st k) 0 g)) ∧
    (∀ (m : FMem) (t : State) (v n : Nat),
      let mem := fun (i : Instr) (esc digit : BitVec 3) (x : BitVec 80) (y : BitVec 6) =>
        FpuEnds i s t (memOpcode esc digit m) (some m.mem) 1 (PushedValue f x y)
      let real := fun (i : Instr) (esc digit : BitVec 3) (x : FVal) =>
        mem i esc digit (pack80 x.quiet) (if x.signals then 1 else if x.isDen then 2 else 0)
      let int := fun (n : Nat) => pack80 (intVal (BitVec.ofNat n v).toInt)
      (FpuReads m 4 4 s v t → real (.fld (.m32 m)) 1 0 (unpack32 (BitVec.ofNat 32 v)) ∧ mem (.fild (.m32 m)) 3 0 (int 32) 0) ∧
      (FpuReads m 8 8 s v t → real (.fld (.m64 m)) 5 0 (unpack64 (BitVec.ofNat 64 v)) ∧ mem (.fild (.m64 m)) 7 5 (int 64) 0) ∧
      (FpuReads m 2 2 s v t → mem (.fild (.m16 m)) 7 0 (int 16) 0) ∧
      (FpuReads m 10 8 s v t → mem (.fld (.m80 m)) 3 5 (BitVec.ofNat 80 v) 0 ∧
        (∃ x, FpuEnds (.fbld m) s t (memOpcode 7 4 m) (some m.mem) 3 (PushedValue f x 0)) ∧
        (n < 10 ^ 18 → v % 2 ^ 72 = bcdBytes 9 n →
          FpuEnds (.fbld m) s t (memOpcode 7 4 m) (some m.mem) 3
            (PushedValue f (pack80 (if n = 0 then .zero (v.testBit 79) else .fin (v.testBit 79) n 0 false)) 0))))

/-- The x87 stores: FST, FSTP, FIST, FISTP, FISTTP and FBSTP store the value of ST(0) rounded to the format, or the
indefinite, or nothing where an unmasked exception forbids it, and pop only with the store; FST and FSTP to a register
copy the tag too (R453, R454, R465, R479, R480, R499). That an unmasked overflow or underflow of a store does not
report an inexact result is the model's choice (log entry 51), as are the alignment of an 80-bit operand to 8 bytes
(log entry 62), that FISTTP does not pop on an unmasked exception (log entry 95), the fraction bits that a NaN keeps in a
narrower format (log entry 121) and that the destination has been
checked for writing, and its page marked dirty, even where nothing is stored (log entry 91). A conversion to an integer
rounds in the direction given and is invalid, with the most negative integer, for a value out of range, an infinity, a NaN
and an unsupported format; a conversion between formats rounds a finite value, makes a NaN quiet and is invalid for a
signalling one (R455, R479, R480, R499; R620 for the SSE conversions). -/
def Obligations.X87Store : Prop :=
  (∀ (rc : BitVec 2) (s : Bool) (m : Nat) (e : Int),
    (0 ≤ e → roundInteger rc s m e = (m * 2 ^ e.toNat, false, false)) ∧
    (e < 0 → roundInteger rc s m e = roundBits rc s m (-e).toNat)) ∧
  (∀ (w : Nat) (rc : BitVec 2) (s : Bool) (m : Nat) (e : Int) (d : Bool), 0 < w →
    let r := roundInteger rc s m e
    let z : Int := if s then -r.1 else r.1
    let invalid := (BitVec.ofNat w (2 ^ (w - 1)), (1 : BitVec 6), false)
    toSigned w rc (.fin s m e d) = (if -2 ^ (w - 1) ≤ z ∧ z < 2 ^ (w - 1)
      then (BitVec.ofInt w z, if r.2.1 then 32 else 0, r.2.2) else invalid) ∧
    toSigned w rc (.zero s) = (0, 0, false) ∧
    toSigned w rc (.inf s) = invalid ∧ (∀ g, toSigned w rc (.nan s g) = invalid) ∧ toSigned w rc .unsupported = invalid) ∧
  (∀ (n : Env) (den s : Bool) (m : Nat) (e : Int) (d : Bool) (g : BitVec 63),
    let o := finish n s m e
    convert n den (.fin s m e d) = { o with flags := o.flags ||| if den && d then 2 else 0 } ∧
    convert n den (.zero s) = .exact (.zero s) ∧ convert n den (.inf s) = .exact (.inf s) ∧
    convert n den (.nan s g) = ⟨.nan s (g ||| 0x4000000000000000), if g.getLsbD 62 then 0 else 1, false⟩ ∧
    convert n den .unsupported = ⟨.indef, 1, false⟩) ∧
  ∀ s : State, s.fpuFree →
    let f := s.fpu
    let masks := f.fcw.extractLsb' 0 6
    (∀ k : Reg3, ∀ p ∈ [(Instr.fst (.sti k), 0x5D0, 0), (.fstp (.sti k), 0x5D8, 1)],
      FpuEnds p.1 s s (BitVec.ofNat 11 (p.2.1 + k.toNat)) none 1 (fun g => if f.emptyAt 0 then Underflowed f k p.2.2 g
        else g.fcw = f.fcw ∧ g.fsw &&& 0x82FF = f.fsw &&& 0x80FF ∧ Copied f k p.2.2 (f.st 0) (f.tag f.top) g)) ∧
    (∀ (m : FMem) (sp : Span) (t : State) (esc digit : BitVec 3),
      let op := memOpcode esc digit m
      let stores := fun (i : Instr) (n pops : Nat) (v : Nat) (x : BitVec 6) (stack c1 : Bool) =>
        ∃ d, FpuEnds i s (t.storeAt sp n v) op (some m.mem) d (fun g => Signals f x stack c1 g ∧ Moved f pops g)
      let nothing := fun (i : Instr) (x : BitVec 6) (stack : Bool) =>
        FpuEnds i s t op (some m.mem) 1 (fun g => Signals f x stack false g ∧ Moved f 0 g)
      let outcome := fun (i : Instr) (n pops : Nat) (bad v : Nat) (x : BitVec 6) (up : Bool) =>
        if f.emptyAt 0 then (if masks.getLsbD 0 then stores i n pops bad 1 true false else nothing i 1 true)
        else if x &&& 7 &&& ~~~masks ≠ 0 then nothing i (x &&& 7) false
        else if x &&& 24 &&& ~~~masks ≠ 0 then nothing i (x &&& 24) false
        else stores i n pops v x false (up && x.getLsbD 5)
      let single := convert f.env32 false (f.val 0)
      let double := convert f.env64 false (f.val 0)
      let int := fun (n : Nat) (rc : BitVec 2) => toSigned (8 * n) rc (f.val 0)
      (s.memOk = true → ∀ n v, OnlySpan sp n t (t.storeAt sp n v)) ∧
      (resolveMem m.mem 4 true (.natural 4) s = .ok (sp, t) →
        (esc = 1 → digit = 2 → outcome (.fst (.m32 m)) 4 0 0xFFC00000 (pack32 single.val).toNat single.flags single.up) ∧
        (esc = 1 → digit = 3 → outcome (.fstp (.m32 m)) 4 1 0xFFC00000 (pack32 single.val).toNat single.flags single.up)) ∧
      (resolveMem m.mem 8 true (.natural 8) s = .ok (sp, t) → esc = 5 →
        (digit = 2 → outcome (.fst (.m64 m)) 8 0 0xFFF8000000000000 (pack64 double.val).toNat double.flags double.up) ∧
        (digit = 3 → outcome (.fstp (.m64 m)) 8 1 0xFFF8000000000000 (pack64 double.val).toNat double.flags double.up)) ∧
      (resolveMem m.mem 10 true (.natural 8) s = .ok (sp, t) →
        (esc = 3 → digit = 7 → outcome (.fstp (.m80 m)) 10 1 0xFFFFC000000000000000 (f.st 0).toNat 0 false) ∧
        (esc = 7 → digit = 6 → ∃ v x up,
          (if f.emptyAt 0 then (if masks.getLsbD 0 then stores (.fbstp m) 10 1 v 1 true false else nothing (.fbstp m) 1 true)
            else if x &&& ~~~masks &&& 1 ≠ 0 then nothing (.fbstp m) 1 false else stores (.fbstp m) 10 1 v x false up) ∧
          (let sign := fun (neg : Bool) => if neg then 2 ^ 79 else 0
           let indefinite := v / 256 ^ 7 = 0xFFFFC0
           if f.emptyAt 0 then indefinite
           else match f.val 0 with
             | .zero neg => v = sign neg ∧ x = 0
             | .fin neg a e _ =>
               let r := roundInteger (f.fcw.extractLsb' 10 2) neg a e
               if r.1 < 10 ^ 18 then v = bcdBytes 9 r.1 + sign neg ∧ x = (if r.2.1 then 32 else 0) ∧ up = r.2.2
               else x = 1 ∧ up = false ∧ indefinite
             | _ => x = 1 ∧ up = false ∧ indefinite))) ∧
      (∀ p ∈ [(Instr.fist (.m16 m), 7, 2, 2, 0, false), (.fist (.m32 m), 3, 2, 4, 0, false),
          (.fistp (.m16 m), 7, 3, 2, 1, false), (.fistp (.m32 m), 3, 3, 4, 1, false), (.fistp (.m64 m), 7, 7, 8, 1, false),
          (.fisttp (.m16 m), 7, 1, 2, 1, true), (.fisttp (.m32 m), 3, 1, 4, 1, true), (.fisttp (.m64 m), 5, 1, 8, 1, true)],
        esc = p.2.1 → digit = p.2.2.1 →
        let n := p.2.2.2.1
        let o := int n (if p.2.2.2.2.2 then 3 else f.fcw.extractLsb' 10 2)
        resolveMem m.mem n true (.natural n) s = .ok (sp, t) →
        outcome p.1 n p.2.2.2.2.1 (2 ^ (8 * n - 1)) o.1.toNat o.2.1 (!p.2.2.2.2.2 && o.2.2)))

/-- FPREM, FPREM1, FXTRACT and the transcendental instructions: what they write, push and pop, the exceptions, and C2.
A remainder with an exponent difference below 64 is exact and leaves the low bits of its quotient in C0, C3 and C1, a
larger one is a partial reduction with C2 = 1; a remainder below the normal range with the underflow unmasked is delivered
with its exponent biased by 24576 and reported; a trigonometric operand out of range sets C2 and stays; the
approximated values are parameters of the implementation, but for the special cases the rules list and the quadrant of
an arctangent (R453, R455, R461, R471, R488 to R491, R496, R497, R510 to R512). That they are such parameters is the
model's choice (log entry 27), and that an infinite operand is invalid with C2 = 0 is DEDUCED (log entry 87); that
FYL2X and FXTRACT report #Z without looking for #D (log entry 50) and that FXTRACT, FPTAN and FSINCOS leave the
indefinite in both results on a masked stack fault (log entry 56) is PRESUMED. The model's choice is that FYL2X of an
exact power of two is exact (log entry 59), sets no ZE for a zero with a zero or infinite factor (log entry 107) and is
invalid for 1.0 with an infinite factor (log entry 108), that it delivers a quiet NaN in ST(1) without IE where ST(0) is
a negative finite value (log entry 120), that FPREM and FPREM1 do so beside an infinite dividend or a zero modulus (log
entry 124), what both results of FXTRACT, FPTAN and FSINCOS are for an operand that is a NaN or invalid (log entry 125), and that FXTRACT, FPTAN and FSINCOS find an underflow before an
overflow (log entry 106). The exact logarithm that FYL2X multiplies by is an integer, and counts as a denormal operand
where ST(0) is one (R511). -/
def Obligations.X87Functions : Prop :=
  (∀ (k : Int) (d : Bool), logVal k d = if k = 0 then .zero false else .fin (decide (k < 0)) k.natAbs 0 d) ∧
  ∀ s : State, s.fpuFree →
    let f := s.fpu
    let a := f.val 0
    let b := f.val 1
    let ends := fun (i : Instr) (op : BitVec 11) (p : Fpu → Prop) => ∃ n, FpuEnds i s s op none n p
    let empty2 := f.emptyAt 0 || f.emptyAt 1
    let strange := a.isNan = true ∨ b.isNan = true ∨ a = .unsupported ∨ b = .unsupported
    let nanOf := fun (x y : FVal) => binary f.env (fun _ _ => .invalid) x y
    let quotient := fun (q : Nat) (g : Fpu) => g.fsw.getLsbD 10 = false ∧ g.fsw.getLsbD 8 = q.testBit 2 ∧
      g.fsw.getLsbD 14 = q.testBit 1 ∧ g.fsw.getLsbD 9 = q.testBit 0
    let written := fun (z : Bool) (m : Nat) (e : Int) (d : Bool) (g : Fpu) =>
      let tiny := f.fcw.getLsbD 4 = false ∧ 0 < m ∧ e + m.log2 < -16382
      Signals f ((if d then 2 else 0) ||| (if tiny then 16 else 0)) false (g.fsw.getLsbD 9) g ∧
      Written f 0 0 (pack80 (if m = 0 then .zero z else .fin z m (if tiny then e + 24576 else e) false)) g
    let c2 := fun (g : Fpu) => g.fsw.getLsbD 10
    let same := fun (g : Fpu) => g.fsw &&& 0x80FF = f.fsw &&& 0x80FF ∧ g.fcw = f.fcw ∧ Moved f 0 g
    (∀ p ∈ [(Instr.fprem, 0x1F8, false), (.fprem1, 0x1F5, true)], ends p.1 p.2.1 (fun g =>
      if empty2 then Underflowed f 0 0 g
      else if strange then Delivered f 0 0 (nanOf a b) g
      else match a, b with
        | .inf _, _ => Delivered f 0 0 .invalid g
        | _, .zero _ => Delivered f 0 0 .invalid g
        | .fin z m e d, .fin _ k h d' =>
          let diff := (e + m.log2 : Int) - (h + k.log2)
          if (d || d') = true ∧ f.fcw.getLsbD 1 = false then Signals f 2 false false g ∧ Moved f 0 g
          else if diff < 64 then
            let l := min e h
            let x := m * 2 ^ (e - l).toNat
            let y := k * 2 ^ (h - l).toNat
            let q := x / y
            let r := x % y
            if p.2.2 = true ∧ (y < 2 * r ∨ (2 * r = y ∧ q % 2 = 1))
            then quotient (q + 1) g ∧ written (!z) (y - r) l (d || d') g
            else quotient q g ∧ written z r l (d || d') g
          else c2 g = true ∧ ∃ n : Nat, 32 ≤ n ∧ n < 64 ∧
            let l := min e (h + (diff - n))
            written z (m * 2 ^ (e - l).toNat % (k * 2 ^ (h + (diff - n) - l).toNat)) l (d || d') g
        | v, w =>
          let d := v.isDen || w.isDen
          if d = true ∧ f.fcw.getLsbD 1 = false then Signals f 2 false false g ∧ Moved f 0 g
          else quotient 0 g ∧ written v.sign v.parts.1 v.parts.2 d g)) ∧
    ends .fxtract 0x1F4 (ComputedPair f (match a with | .zero _ => 4 | v => v.operandFlags false) (fun v w y =>
      y &&& ~~~7 = 0 ∧ (match a with
        | .unsupported => v = indef80 ∧ w = indef80
        | .nan z g => v = pack80 (FVal.nan z g).quiet ∧ w = v
        | .zero z => v = pack80 (.inf true) ∧ w = pack80 (.zero z)
        | .inf z => v = pack80 (.inf false) ∧ w = pack80 (.inf z)
        | .fin z m e _ => v = pack80 (intVal (e + m.log2)) ∧ w = pack80 (.fin z m (-(m.log2 : Int)) false)))) ∧
    (∀ p ∈ [(Instr.fcos, 0x1FF), (.fsin, 0x1FE)], ends p.1 p.2 (fun g =>
      if f.emptyAt 0 then Underflowed f 0 0 g ∧ c2 g = false
      else if a.beyondTrig then same g ∧ c2 g = true ∧ (p.1 = .fsin → g.fsw.getLsbD 9 = false)
      else c2 g = false ∧ Computed f 0 0 (a.operandFlags true) (a.Answer true (fun v => ∀ z, a = .zero z →
        v = pack80 (if p.1 = .fsin then .zero z else intVal 1)) (∃ z, a = .zero z)) g)) ∧
    (∀ p ∈ [(Instr.fptan, 0x1F2), (.fsincos, 0x1FB)], ends p.1 p.2 (fun g =>
      if f.emptyAt 0 = false ∧ a.beyondTrig then
        same g ∧ c2 g = true ∧ g.fsw.getLsbD 9 = (if p.1 = .fptan then f.fsw.getLsbD 9 else false)
      else c2 g = false ∧ ComputedPair f (a.operandFlags true) (fun v w y =>
        a.Answer true (fun v => ∀ z, a = .zero z → v = pack80 (.zero z)) (∃ z, a = .zero z) v y ∧
        (if p.1 = .fptan then w = pack80 (intVal 1)
          else ∃ y', a.Answer true (fun w => ∀ z, a = .zero z → w = pack80 (intVal 1)) False w y')) g)) ∧
    ends .f2xm1 0x1F0 (fun g => if f.emptyAt 0 then Underflowed f 0 0 g
      else Computed f 0 0 (a.operandFlags false) (a.Answer false (fun v =>
        (∀ z, a = .zero z → v = pack80 (.zero z)) ∧ (a = .fin false (2 ^ 63) (-63) false → v = pack80 (intVal 1)))
        (∃ z, a = .zero z)) g) ∧
    ends .fpatan 0x1F3 (fun g => if empty2 then Underflowed f 1 1 g
      else if strange then Delivered f 1 1 (nanOf b a) g
      else Computed f 1 1 (if a.isDen || b.isDen then 2 else 0) (fun v y =>
        let size := (v.extractLsb' 0 79).toNat
        let halfPi := 0x3FFFC90FDAA22168C235
        v.getLsbD 79 = b.sign ∧
        (if a.sign then halfPi - 1 ≤ size ∧ size ≤ 0x4000C90FDAA22168C235 else size ≤ halfPi) ∧
        (∀ z, b = .zero z → a.sign = false → a ≠ .zero false → v = pack80 (.zero z) ∧ y &&& ~~~7 = 0)) g) ∧
    ends .fyl2x 0x1F1 (fun g => if empty2 then Underflowed f 1 1 g
      else if strange then Delivered f 1 1 (nanOf b a) g
      else match a, b with
        | .fin true _ _ _, _ => Delivered f 1 1 .invalid g
        | .zero _, .fin z _ _ _ => Delivered f 1 1 { val := .inf (!z), flags := 4, up := false } g
        | .fin false m e d, _ =>
          if m = 2 ^ m.log2 then Delivered f 1 1 (binary (f.envAt 64) (mulCore (f.envAt 64)) b (logVal (e + m.log2) d)) g
          else Computed f 1 1 (if d || b.isDen then 2 else 0) (fun _ _ => True) g
        | _, _ => Computed f 1 1 (if b.isDen then 2 else 0) (fun _ _ => True) g) ∧
    ends .fyl2xp1 0x1F9 (fun g => if empty2 then Underflowed f 1 1 g
      else if strange then Delivered f 1 1 (nanOf b a) g
      else Computed f 1 1 (if a.isDen || b.isDen then 2 else 0) (fun v y =>
        ∀ z, a = .zero z → v = pack80 (.zero (z != b.sign)) ∧ y &&& ~~~7 = 0) g)

/-- The x87 control instructions, WAIT and EMMS: the words they load, store and clear, and the pointers FIP, FCS, FDP and
FDS and the opcode FOP in the images of 14 and 28 bytes (R452, R456, R460, R467, R483, R484, R487, R493, R494, R500 to
R502, R507). The linear pointers of the images in real-address and virtual-8086 mode are PRESUMED (log entry 26), and what
a load leaves in a register that its image has no field for is the model's choice (log entry 89). That a load of the control word keeps its reserved bits as given is the
model's choice (log entry 47), as is the alignment of the images to 2 or 4 bytes (log entry 62); that FNSTSW leaves C0
to C3 as they are is DEDUCED (log entry 65). -/
def Obligations.X87Control : Prop :=
  ∀ s : State,
    let f := s.fpu
    let on := s.cr0.getLsbD 2 = false ∧ s.cr0.getLsbD 3 = false
    let ends := fun (i : Instr) (t : State) (p : Fpu → Prop) =>
      ∃ g n, p g ∧ exec i s = .next (({ t with fpu := g }.drawn n).endWith s.rflags)
    let kept := fun (g : Fpu) => g.r = f.r ∧ g.fop = f.fop ∧ g.fip = f.fip ∧ g.fcs = f.fcs ∧ g.fdp = f.fdp ∧ g.fds = f.fds
    let initial := fun (g : Fpu) => g = { f with
      fcw := 0x37F, fsw := 0, ftw := 0xFFFF, fop := 0, fip := 0, fcs := 0, fdp := 0, fds := 0 }
    let summary := fun (c : BitVec 16) (g : Fpu) => g.fsw &&& 0xB8FF =
      (f.fsw &&& 0x387F) ||| (if f.fsw &&& 0x3F &&& ~~~c ≠ 0 then 0x8080 else 0)
    (on → ends .fnclex s (fun g => kept g ∧ g.fcw = f.fcw ∧ g.ftw = f.ftw ∧ g.fsw &&& 0xB8FF = f.fsw &&& 0x3800) ∧
      ends .fninit s initial ∧
      exec (.fnstsw .ax) s = .next ((s.writeReg .b16 rAX f.fsw).endWith s.rflags) ∧
      ∀ (m : FMem) (sp : Span) (t : State), resolveMem m.mem 2 true (.natural 2) s = .ok (sp, t) →
        exec (.fnstsw (.mem m)) s = .next ((t.storeAt sp 2 f.fsw.toNat).endWith s.rflags) ∧
        ends (.fnstcw m) (t.storeAt sp 2 f.fcw.toNat) (fun g => kept g ∧ g.fcw = f.fcw ∧ g.ftw = f.ftw ∧
          g.fsw &&& 0xB8FF = f.fsw &&& 0xB8FF)) ∧
    (s.fpuFree → ∀ (m : FMem) (v : Nat) (t : State), FpuReads m 2 2 s v t → ends (.fldcw m) t (fun g => kept g ∧
      g.ftw = f.ftw ∧ g.fcw = BitVec.ofNat 16 v ∧ summary (BitVec.ofNat 16 v) g)) ∧
    (∀ osz : Width,
      let n := if osz = .b16 then 14 else 28
      let al := if osz = .b16 then 2 else 4
      let step := if osz = .b16 then 2 else 4
      let loaded := fun (v : Nat) (g : Fpu) => g.fcw = BitVec.ofNat 16 v ∧ g.ftw = BitVec.ofNat 16 (v / 256 ^ (2 * step)) ∧
        (let w := BitVec.ofNat 16 (v / 256 ^ step);
          g.fsw = (w &&& 0x7F7F) ||| (if w &&& 0x3F &&& ~~~g.fcw ≠ 0 then 0x8080 else 0)) ∧
        (let at_ := fun (k c : Nat) => v / 256 ^ k % 256 ^ c
         let selectors := s.paragraphs = false
         if osz = .b16 then
           g.fcs.toNat = (if selectors then at_ 8 2 else 0) ∧ g.fds.toNat = (if selectors then at_ 12 2 else 0) ∧
           g.fip.toNat = at_ 6 2 + (if selectors then 0 else at_ 8 2 / 2 ^ 12 * 2 ^ 16) ∧
           g.fdp.toNat = at_ 10 2 + (if selectors then 0 else at_ 12 2 / 2 ^ 12 * 2 ^ 16) ∧
           g.fop.toNat = (if selectors then f.fop.toNat else at_ 8 2 % 2 ^ 11)
         else
           g.fcs.toNat = (if selectors then at_ 16 2 else 0) ∧ g.fds.toNat = (if selectors then at_ 24 2 else 0) ∧
           g.fip.toNat = (if selectors then at_ 12 4 else at_ 12 2 + at_ 16 4 / 2 ^ 12 % 2 ^ 16 * 2 ^ 16) ∧
           g.fdp.toNat = (if selectors then at_ 20 4 else at_ 20 2 + at_ 24 4 / 2 ^ 12 % 2 ^ 16 * 2 ^ 16) ∧
           g.fop.toNat = (if selectors then at_ 18 2 else at_ 16 2) % 2 ^ 11)
      let pointers := fun (v : Nat) =>
        let at_ := fun (k c : Nat) => v / 256 ^ k % 256 ^ c
        let selectors := s.paragraphs = false
        let ip := (f.fcs.toNat * 16 + f.fip.toNat) % 2 ^ 32
        let dp := (f.fds.toNat * 16 + f.fdp.toNat) % 2 ^ 32
        if osz = .b16 then
          at_ 6 2 = (if selectors then f.fip.toNat else ip) % 2 ^ 16 ∧
          at_ 8 2 = (if selectors then f.fcs.toNat else f.fop.toNat + ip / 2 ^ 16 % 16 * 2 ^ 12) ∧
          at_ 10 2 = (if selectors then f.fdp.toNat else dp) % 2 ^ 16 ∧
          at_ 12 2 = (if selectors then f.fds.toNat else dp / 2 ^ 16 % 16 * 2 ^ 12)
        else
          (if selectors then at_ 12 4 = f.fip.toNat % 2 ^ 32 else at_ 12 2 = ip % 2 ^ 16) ∧
          at_ 16 4 = (if selectors then f.fcs.toNat + f.fop.toNat * 2 ^ 16 else f.fop.toNat + ip / 2 ^ 16 * 2 ^ 12) ∧
          (if selectors then at_ 20 4 = f.fdp.toNat % 2 ^ 32 else at_ 20 2 = dp % 2 ^ 16) ∧
          (if selectors then at_ 24 2 = f.fds.toNat else at_ 24 4 = dp / 2 ^ 16 * 2 ^ 12)
      (on → ∀ (m : FMem) (sp : Span) (t : State) (c : Nat), c = n ∨ c = n + 80 →
        resolveMem m.mem c true (.natural al) s = .ok (sp, t) → ∃ v : Nat,
        v % 65536 = f.fcw.toNat ∧ v / 256 ^ step % 65536 = f.fsw.toNat ∧ v / 256 ^ (2 * step) % 65536 = f.ftw.toNat ∧
        pointers v ∧
        (c = n → ends (.fnstenv osz m) (t.storeAt sp c v) (fun g => kept g ∧ g.fcw = f.fcw ||| 0x3F ∧ g.ftw = f.ftw ∧
          summary (f.fcw ||| 0x3F) g)) ∧
        (c = n + 80 → (∀ k < 8, v / 256 ^ (n + 10 * k) % 2 ^ 80 = (f.st (BitVec.ofNat 3 k)).toNat) ∧
          ends (.fnsave osz m) (t.storeAt sp c v) initial)) ∧
      (s.fpuFree → ∀ (m : FMem) (v : Nat) (t : State),
        (FpuReads m n al s v t → ends (.fldenv osz m) t (fun g => loaded v g ∧ g.r = f.r)) ∧
        (FpuReads m (n + 80) al s v t → ends (.frstor osz m) t (fun g => loaded v g ∧
          ∀ k < 8, g.st (BitVec.ofNat 3 k) = BitVec.ofNat 80 (v / 256 ^ (n + 10 * k)))))) ∧
    (s.cr0.getLsbD 1 = false ∨ s.cr0.getLsbD 3 = false → f.fsw.getLsbD 7 = false → exec .wait s = .next (s.endWith s.rflags)) ∧
    (s.fpuFree → ends .emms s (fun g => g = { f with ftw := 0xFFFF }))

/-- FXSAVE and FXRSTOR: the words of the image at their places, XMM8 to XMM15 only in 64-bit mode, a reserved MXCSR
bit raises #GP(0), and the tags come from the abridged tag word and the values; in real-address and virtual-8086 mode
an image that reaches beyond FFFFH raises #GP(0) (R440 to R442). That the bit of DAZ is reserved is read from the
default of MXCSR_MASK (log entry 10), and that the control word is loaded as given is the model's choice (log entry
47), as is that FXRSTOR with REX.W keeps FCS and FDS and that ES and B are computed anew (log entry 64), and that the
pointers are loaded whole in 16-bit code (log entry 92). -/
def Obligations.FxImage : Prop :=
  ∀ s : State, s.cr0.getLsbD 2 = false → s.cr0.getLsbD 3 = false →
    let f := s.fpu
    let regs := if s.is64 then 16 else 8
    ∀ (rexw : Bool) (m : Mem) (sp : Span) (t : State),
      let wide := rexw = true ∧ s.is64 = true
      let ipSize := if s.codeSize = .c16 then 2 ^ 16 else 2 ^ 32
      let high := s.paragraphs = true ∧ 0xFFFF < (s.effAddr m).toNat + 511
      (high → exec (.fxsave rexw m) s = deliver gp0 s ∧ exec (.fxrstor rexw m) s = deliver gp0 s) ∧
      (¬high → resolveMem m 512 true .para s = .ok (sp, t) → ∃ v n : Nat,
        exec (.fxsave rexw m) s = .next (((t.storeAt sp 512 v).drawn n).endWith s.rflags) ∧
        v % 65536 = f.fcw.toNat ∧ v / 256 ^ 2 % 65536 = f.fsw.toNat ∧ v / 256 ^ 6 % 2048 = f.fop.toNat ∧
        (∀ k < 8, (v / 256 ^ 4).testBit k = decide (f.tag (BitVec.ofNat 3 k) ≠ 3)) ∧
        v / 256 ^ 24 % 2 ^ 32 = s.mxcsr.toNat ∧ v / 256 ^ 28 % 2 ^ 32 = 0xFFBF ∧
        (∀ k < 8, v / 256 ^ (32 + 16 * k) % 2 ^ 80 = (f.st (BitVec.ofNat 3 k)).toNat) ∧
        (∀ k < regs, v / 256 ^ (160 + 16 * k) % 2 ^ 128 = (s.xmmReg (BitVec.ofNat 4 k)).toNat) ∧
        (if wide then v / 256 ^ 8 % 2 ^ 64 = f.fip.toNat ∧ v / 256 ^ 16 % 2 ^ 64 = f.fdp.toNat
          else v / 256 ^ 8 % ipSize = f.fip.toNat % ipSize ∧ v / 256 ^ 12 % 65536 = f.fcs.toNat ∧
            v / 256 ^ 16 % 2 ^ 32 = f.fdp.toNat % 2 ^ 32 ∧ v / 256 ^ 20 % 65536 = f.fds.toNat)) ∧
      (¬high → resolveMem m 512 false .para s = .ok (sp, t) →
        let v := spanGet t.mem sp 0 512
        let mx := BitVec.ofNat 32 (v / 256 ^ 24)
        let word := BitVec.ofNat 16 (v / 256 ^ 2)
        (mx &&& 0xFFFF0040 ≠ 0 → exec (.fxrstor rexw m) s = deliver gp0 s) ∧
        (mx &&& 0xFFFF0040 = 0 → ∃ (g : Fpu) (x : Vector (BitVec 128) 16),
          exec (.fxrstor rexw m) s = .next (State.endWith { t with fpu := g, xmm := x, mxcsr := mx } s.rflags) ∧
          g.fcw = BitVec.ofNat 16 v ∧ g.fop = BitVec.ofNat 11 (v / 256 ^ 6) ∧
          g.fsw = (word &&& 0x7F7F) ||| (if word &&& 0x3F &&& ~~~g.fcw ≠ 0 then 0x8080 else 0) ∧
          (if wide then g.fip = BitVec.ofNat 64 (v / 256 ^ 8) ∧ g.fdp = BitVec.ofNat 64 (v / 256 ^ 16) ∧
              g.fcs = f.fcs ∧ g.fds = f.fds
            else g.fip = BitVec.ofNat 64 (v / 256 ^ 8 % 2 ^ 32) ∧ g.fcs = BitVec.ofNat 16 (v / 256 ^ 12) ∧
              g.fdp = BitVec.ofNat 64 (v / 256 ^ 16 % 2 ^ 32) ∧ g.fds = BitVec.ofNat 16 (v / 256 ^ 20)) ∧
          (∀ k < 8, g.st (BitVec.ofNat 3 k) = BitVec.ofNat 80 (v / 256 ^ (32 + 16 * k))) ∧
          (∀ k : BitVec 3, g.tag k = if (v / 256 ^ 4).testBit k.toNat then tagOf (g.reg k) else 3) ∧
          ∀ (k : Nat) (h : k < 16), x[k] = if k < regs then BitVec.ofNat 128 (v / 256 ^ (160 + 16 * k)) else s.xmm[k]))

/-! ### SSE -/

/-- The packed, horizontal and scalar additions, subtractions and divisions: every lane is the rounded result under
MXCSR, with a denormal operand reported beside whatever else the lane reports; the exceptions of all lanes are taken
together, and where one of them is unmasked only the unmasked flags are set and nothing is written; a scalar form keeps
the rest of the register (R572 to R574, R580 to R593). That masked exceptions collected beside an unmasked one leave no
flag is DEDUCED (log entry 52); that the accessed flags of the operand's walk stay under an unmasked exception is the
model's choice (log entry 110). A register is one of the sixteen, and a write changes it alone; a lane is unpacked, and a
denormal counts as a zero of its sign with MXCSR.DAZ; the rounding is that of MXCSR.RC and MXCSR.FZ with the masks of MXCSR,
in the format of the lane (R73, R74, R573, R574); the operations are those of FloatRounding. -/
def Obligations.SseArithmetic : Prop :=
  (∀ s : State,
    let env := fun (p bias : Nat) =>
      (⟨s.mxcsr.extractLsb' 13 2, p, bias, s.mxcsr.extractLsb' 7 6, s.mxcsr.getLsbD 15, false⟩ : Env)
    let source : FVal → FVal := fun v => match v with
      | .fin z _ _ true => if s.mxcsr.getLsbD 6 then .zero z else v
      | v => v
    s.env32 = env 24 127 ∧ s.env64 = env 53 1023 ∧
    (∀ (x : BitVec 128) (k : Nat), s.valS x k = source (unpack32 (x.extractLsb' (32 * k) 32)) ∧
      s.valD x k = source (unpack64 (x.extractLsb' (64 * k) 64))) ∧
    (∀ r : Reg, s.xmmReg r = s.xmm[r.toNat]'r.isLt ∧ ∀ v,
      s.setXmm r v = { s with xmm := (s.setXmm r v).xmm } ∧ ∀ q, (s.setXmm r v).xmmReg q = if q = r then v else s.xmmReg q)) ∧
  ∀ (s t : State) (dst : Reg) (src : XM) (b : BitVec 128), s.sseOn →
    let a := s.xmmReg dst
    let d := fun (op : FOp) (x : BitVec 128) (i : Nat) (y : BitVec 128) (j : Nat) =>
      (op s.env64 (s.valD x i) (s.valD y j)).withDen ((s.valD x i).isDen || (s.valD y j).isDen)
    let f := fun (op : FOp) (x : BitVec 128) (i : Nat) (y : BitVec 128) (j : Nat) =>
      (op s.env32 (s.valS x i) (s.valS y j)).withDen ((s.valS x i).isDen || (s.valS y j).isDen)
    let pd := fun (i : Instr) (o0 o1 : FpOut) =>
      SimdEnds i s t (o0.flags ||| o1.flags) (fun w => w.setXmm dst (pack64 o1.val ++ pack64 o0.val))
    let ps := fun (i : Instr) (o0 o1 o2 o3 : FpOut) =>
      SimdEnds i s t (o0.flags ||| o1.flags ||| o2.flags ||| o3.flags)
        (fun w => w.setXmm dst (pack32 o3.val ++ pack32 o2.val ++ pack32 o1.val ++ pack32 o0.val))
    (readXm 16 .para src s = .ok (b, t) →
      (∀ p ∈ [(Instr.addpd dst src, fAdd, fAdd), (.addsubpd dst src, fSub, fAdd), (.divpd dst src, fDiv, fDiv)],
        pd p.1 (d p.2.1 a 0 b 0) (d p.2.2 a 1 b 1)) ∧
      (∀ p ∈ [(Instr.haddpd dst src, fAdd), (.hsubpd dst src, fSub)], pd p.1 (d p.2 a 0 a 1) (d p.2 b 0 b 1)) ∧
      (∀ p ∈ [(Instr.addps dst src, fAdd, fAdd), (.addsubps dst src, fSub, fAdd), (.divps dst src, fDiv, fDiv)],
        ps p.1 (f p.2.1 a 0 b 0) (f p.2.2 a 1 b 1) (f p.2.1 a 2 b 2) (f p.2.2 a 3 b 3)) ∧
      (∀ p ∈ [(Instr.haddps dst src, fAdd), (.hsubps dst src, fSub)],
        ps p.1 (f p.2 a 0 a 1) (f p.2 a 2 a 3) (f p.2 b 0 b 1) (f p.2 b 2 b 3))) ∧
    (readXm 8 (.natural 8) src s = .ok (b, t) →
      ∀ p ∈ [(Instr.addsd dst src, fAdd), (.divsd dst src, fDiv)],
        let o := d p.2 a 0 b 0
        SimdEnds p.1 s t o.flags (fun w => w.setXmm dst (a.extractLsb' 64 64 ++ pack64 o.val))) ∧
    (readXm 4 (.natural 4) src s = .ok (b, t) →
      ∀ p ∈ [(Instr.addss dst src, fAdd), (.divss dst src, fDiv)],
        let o := f p.2 a 0 b 0
        SimdEnds p.1 s t o.flags (fun w => w.setXmm dst (a.extractLsb' 32 96 ++ pack32 o.val)))

/-- The bitwise SSE instructions, LDDQU and LDMXCSR, and the comparisons CMPcc and COMIS: masks of ones by the
predicate, EFLAGS by the order; LT, LE, NLT, NLE and COMIS signal a quiet NaN, a denormal operand is reported beside
it; in real-address and virtual-8086 mode an operand that reaches beyond FFFFH raises #GP(0) (R595 to R606, R650,
R651, R673). That the bit of DAZ is reserved is read from the default of MXCSR_MASK (log entry 10); that masked
exceptions collected beside an unmasked one leave no flag is DEDUCED (log entry 52), as is that a predicate byte above
7 is read by its low three bits (log entry 67); that the accessed flags of the operand's walk stay under an unmasked
exception is the model's choice (log entry 110). The order of two values and the invalid operands are those of X87Compare,
the values of the lanes those of SseArithmetic. -/
def Obligations.SseCompare : Prop :=
  ∀ (s t : State) (dst : Reg) (src : XM) (b : BitVec 128) (imm : Byte), s.sseOn →
    let a := s.xmmReg dst
    let k := imm.toNat % 8
    let holds : Cmp → Bool := fun c => match k with
      | 0 => decide (c = .eq) | 1 => decide (c = .lt) | 2 => decide (c = .lt ∨ c = .eq) | 3 => decide (c = .un)
      | 4 => decide (c ≠ .eq) | 5 => decide (c ≠ .lt) | 6 => decide (c ≠ .lt ∧ c ≠ .eq) | _ => decide (c ≠ .un)
    let x := fun (quiet : Bool) (u v : FVal) =>
      compareFlags quiet false u v ||| (if u.isDen || v.isDen then 2 else 0)
    let high := fun (m : Mem) (n : Nat) => s.paragraphs = true ∧ 0xFFFF < (s.effAddr m).toNat + n
    let m := fun (n : Nat) (u v : FVal) => if holds (compareVal u v) then BitVec.allOnes n else 0
    let flagsOf := fun (i : Instr) (u v : FVal) => ∃ r, SameOutside 0x8D5 s.rflags r ∧
      r &&& 0x8D5 = (let c := compareVal u v
        if c = .gt then 0 else if c = .lt then 1 else if c = .eq then 0x40 else 0x45) ∧
      (let y := x true u v
       let z := y &&& ~~~s.mxcsr.extractLsb' 7 6
       let flagged := fun (f : BitVec 6) => { t with mxcsr := t.mxcsr ||| f.setWidth 32 }
       exec i s = if z = 0 then .next ((flagged y).endWith r)
         else deliver (if s.cr4.getLsbD 10 then xmFault else udFault) (flagged z))
    let x := x (decide (k ∈ [1, 2, 5, 6]))
    (∀ (n : Nat) (al : Align) (m : Mem) (sp : Span) (r : Reg), readXm n al (.reg r) s = .ok (s.xmmReg r, s) ∧
      (0 < n → ¬high m (n - 1) → resolveMem m n false al s = .ok (sp, t) →
        readXm n al (.mem m) s = .ok (BitVec.ofNat 128 (spanGet t.mem sp 0 n), t))) ∧
    (readXm 16 .para src s = .ok (b, t) →
      (∀ p ∈ [(Instr.andpd dst src, a &&& b), (.andps dst src, a &&& b), (.andnpd dst src, ~~~a &&& b),
          (.andnps dst src, ~~~a &&& b)], exec p.1 s = .next ((t.setXmm dst p.2).endWith s.rflags)) ∧
      SimdEnds (.cmppd dst src imm) s t (x (s.valD a 0) (s.valD b 0) ||| x (s.valD a 1) (s.valD b 1))
        (fun w => w.setXmm dst (m 64 (s.valD a 1) (s.valD b 1) ++ m 64 (s.valD a 0) (s.valD b 0))) ∧
      SimdEnds (.cmpps dst src imm) s t (x (s.valS a 0) (s.valS b 0) ||| x (s.valS a 1) (s.valS b 1) |||
          x (s.valS a 2) (s.valS b 2) ||| x (s.valS a 3) (s.valS b 3))
        (fun w => w.setXmm dst (m 32 (s.valS a 3) (s.valS b 3) ++ m 32 (s.valS a 2) (s.valS b 2) ++
          m 32 (s.valS a 1) (s.valS b 1) ++ m 32 (s.valS a 0) (s.valS b 0)))) ∧
    (readXm 8 (.natural 8) src s = .ok (b, t) →
      SimdEnds (.cmpsd dst src imm) s t (x (s.valD a 0) (s.valD b 0))
        (fun w => w.setXmm dst (a.extractLsb' 64 64 ++ m 64 (s.valD a 0) (s.valD b 0))) ∧
      flagsOf (.comisd dst src) (s.valD a 0) (s.valD b 0)) ∧
    (readXm 4 (.natural 4) src s = .ok (b, t) →
      SimdEnds (.cmpss dst src imm) s t (x (s.valS a 0) (s.valS b 0))
        (fun w => w.setXmm dst (a.extractLsb' 32 96 ++ m 32 (s.valS a 0) (s.valS b 0))) ∧
      flagsOf (.comiss dst src) (s.valS a 0) (s.valS b 0)) ∧
    (∀ (m : Mem) (sp : Span),
      (high m 15 → ∀ q ∈ [Instr.addpd dst (.mem m), .addps dst (.mem m), .addsubpd dst (.mem m), .addsubps dst (.mem m),
        .haddpd dst (.mem m), .haddps dst (.mem m), .hsubpd dst (.mem m), .hsubps dst (.mem m), .divpd dst (.mem m),
        .divps dst (.mem m), .andpd dst (.mem m), .andps dst (.mem m), .andnpd dst (.mem m), .andnps dst (.mem m),
        .cmppd dst (.mem m) imm, .cmpps dst (.mem m) imm, .lddqu dst (.mem m)], exec q s = deliver gp0 s) ∧
      (high m 7 → ∀ q ∈ [Instr.addsd dst (.mem m), .divsd dst (.mem m), .cmpsd dst (.mem m) imm, .comisd dst (.mem m)],
        exec q s = deliver gp0 s) ∧
      (high m 3 → ∀ q ∈ [Instr.addss dst (.mem m), .divss dst (.mem m), .cmpss dst (.mem m) imm, .comiss dst (.mem m),
        .ldmxcsr m], exec q s = deliver gp0 s) ∧
      (¬high m 15 → resolveMem m 16 false .any s = .ok (sp, t) → exec (.lddqu dst (.mem m)) s =
        .next ((t.setXmm dst (BitVec.ofNat 128 (spanGet t.mem sp 0 16))).endWith s.rflags)) ∧
      (¬high m 3 → resolveMem m 4 false (.natural 4) s = .ok (sp, t) →
        let v := BitVec.ofNat 32 (spanGet t.mem sp 0 4)
        exec (.ldmxcsr m) s = if v &&& 0xFFFF0040 = 0 then .next (State.endWith { t with mxcsr := v } s.rflags)
          else deliver gp0 s))

/-- The SSE conversions: to integers rounded by MXCSR or chopped with the integer indefinite out of range, from
integers, and between the formats; the forms with an MMX register make the MMX state; in real-address
and virtual-8086 mode an operand that reaches beyond FFFFH raises #GP(0) (R72, R572, R620, R621, R622 to R643, R673). That
masked exceptions collected beside an unmasked one leave no flag is DEDUCED (log entry 52); that the accessed flags of the
operand's walk stay under an unmasked exception is the model's choice (log entry 110), as are the fraction bits that a
NaN keeps in single precision (log entry 121). The conversions of a value are those of X87Load and X87Store, the rounding
and the values of the lanes those of SseArithmetic. -/
def Obligations.SseConvert : Prop :=
  ∀ (s t : State) (dst : Reg) (mm : Reg3) (src : XM) (b : BitVec 128), s.sseOn →
    let a := s.xmmReg dst
    let dq := fun (n : Nat) (chop : Bool) (v : FVal) => toSigned n (if chop then 3 else s.mxcsr.extractLsb' 13 2) v
    let high := fun (m : Mem) (n : Nat) => s.paragraphs = true ∧ 0xFFFF < (s.effAddr m).toNat + n - 1
    let lane := fun (k : Nat) => (b.extractLsb' (32 * k) 32).toInt
    let toS := fun (z : Int) => convert s.env32 false (intVal z)
    let toD := fun (z : Int) => convert s.env64 false (intVal z)
    let narrow := fun (k : Nat) => convert s.env32 true (s.valD b k)
    let widen := fun (k : Nat) => convert s.env64 true (s.valS b k)
    let x := fun (i : Instr) (flags : BitVec 6) (v : BitVec 128) => SimdEnds i s t flags (fun w => w.setXmm dst v)
    let mmx := fun (i : Instr) (flags : BitVec 6) (v : BitVec 64) => s.fpu.fsw.getLsbD 7 = false →
      SimdEnds i s t flags (fun w => { w with fpu := { w.fpu with
        r := w.fpu.r.set mm.toNat (0xFFFF#16 ++ v) mm.isLt, fsw := w.fpu.fsw &&& 0xC7FF, ftw := 0 } })
    (readXm 16 .para src s = .ok (b, t) →
      (∀ p ∈ [(Instr.cvtpd2dq dst src, Instr.cvtpd2pi mm src, false), (.cvttpd2dq dst src, .cvttpd2pi mm src, true)],
        let u := dq 32 p.2.2 (s.valD b 0)
        let v := dq 32 p.2.2 (s.valD b 1)
        x p.1 (u.2.1 ||| v.2.1) (0#64 ++ v.1 ++ u.1) ∧ mmx p.2.1 (u.2.1 ||| v.2.1) (v.1 ++ u.1)) ∧
      (∀ p ∈ [(Instr.cvtps2dq dst src, false), (.cvttps2dq dst src, true)],
        let u := fun k => dq 32 p.2 (s.valS b k)
        x p.1 ((u 0).2.1 ||| (u 1).2.1 ||| (u 2).2.1 ||| (u 3).2.1) ((u 3).1 ++ (u 2).1 ++ (u 1).1 ++ (u 0).1)) ∧
      x (.cvtdq2ps dst src) ((toS (lane 0)).flags ||| (toS (lane 1)).flags ||| (toS (lane 2)).flags ||| (toS (lane 3)).flags)
        (pack32 (toS (lane 3)).val ++ pack32 (toS (lane 2)).val ++ pack32 (toS (lane 1)).val ++ pack32 (toS (lane 0)).val) ∧
      x (.cvtpd2ps dst src) ((narrow 0).flags ||| (narrow 1).flags)
        (0#64 ++ pack32 (narrow 1).val ++ pack32 (narrow 0).val)) ∧
    (readXm 8 (.natural 8) src s = .ok (b, t) →
      x (.cvtdq2pd dst src) ((toD (lane 0)).flags ||| (toD (lane 1)).flags)
        (pack64 (toD (lane 1)).val ++ pack64 (toD (lane 0)).val) ∧
      x (.cvtps2pd dst src) ((widen 0).flags ||| (widen 1).flags) (pack64 (widen 1).val ++ pack64 (widen 0).val) ∧
      x (.cvtsd2ss dst src) (narrow 0).flags (a.extractLsb' 32 96 ++ pack32 (narrow 0).val) ∧
      (∀ p ∈ [(Instr.cvtps2pi mm src, false), (.cvttps2pi mm src, true)],
        let u := dq 32 p.2 (s.valS b 0)
        let v := dq 32 p.2 (s.valS b 1)
        mmx p.1 (u.2.1 ||| v.2.1) (v.1 ++ u.1)) ∧
      (∀ w : Width, ∀ p ∈ [(Instr.cvtsd2si w dst src, false), (.cvttsd2si w dst src, true)],
        let o := dq w.bits p.2 (s.valD b 0)
        SimdEnds p.1 s t o.2.1 (fun u => u.writeReg w dst o.1))) ∧
    (readXm 4 (.natural 4) src s = .ok (b, t) →
      x (.cvtss2sd dst src) (widen 0).flags (a.extractLsb' 64 64 ++ pack64 (widen 0).val) ∧
      (∀ w : Width, ∀ p ∈ [(Instr.cvtss2si w dst src, false), (.cvttss2si w dst src, true)],
        let o := dq w.bits p.2 (s.valS b 0)
        SimdEnds p.1 s t o.2.1 (fun u => u.writeReg w dst o.1))) ∧
    (∀ (w : Width) (m : Mem) (r : Reg) (sp : Span), readRmLow w (.reg r) s = .ok (s.readReg w r, s) ∧
      readMm (.reg mm) s = .ok ((s.fpu.r[mm.toNat]'mm.isLt).extractLsb' 0 64, s) ∧
      (∀ p ∈ [(16, [Instr.cvtpd2dq dst (.mem m), .cvttpd2dq dst (.mem m), .cvtps2dq dst (.mem m), .cvttps2dq dst (.mem m),
          .cvtdq2ps dst (.mem m), .cvtpd2ps dst (.mem m)], [Instr.cvtpd2pi mm (.mem m), .cvttpd2pi mm (.mem m)]),
          (8, [.cvtdq2pd dst (.mem m), .cvtps2pd dst (.mem m), .cvtsd2ss dst (.mem m), .cvtsd2si w dst (.mem m),
            .cvttsd2si w dst (.mem m)],
            [.cvtps2pi mm (.mem m), .cvttps2pi mm (.mem m), .cvtpi2ps dst (.mem m), .cvtpi2pd dst (.mem m)]),
          (4, [.cvtss2sd dst (.mem m), .cvtss2si w dst (.mem m), .cvttss2si w dst (.mem m)], []),
          (w.bytes, [.cvtsi2sd w dst (.mem m), .cvtsi2ss w dst (.mem m)], [])], high m p.1 →
        (∀ q ∈ p.2.1, exec q s = deliver gp0 s) ∧
        (s.fpu.fsw.getLsbD 7 = false → ∀ q ∈ p.2.2, exec q s = deliver gp0 s)) ∧
      (¬high m w.bytes → resolveMem m w.bytes false (.natural w.bytes) s = .ok (sp, t) →
        readRmLow w (.mem m) s = .ok (BitVec.ofNat w.bits (spanGet t.mem sp 0 w.bytes), t)) ∧
      (¬high m 8 → resolveMem m 8 false (.natural 8) s = .ok (sp, t) →
        readMm (.mem m) s = .ok (BitVec.ofNat 64 (spanGet t.mem sp 0 8), t))) ∧
    (∀ (w : Width) (rm : RM) (v : BitVec w.bits), readRmLow w rm s = .ok (v, t) →
      x (.cvtsi2sd w dst rm) (toD v.toInt).flags (a.extractLsb' 64 64 ++ pack64 (toD v.toInt).val) ∧
      x (.cvtsi2ss w dst rm) (toS v.toInt).flags (a.extractLsb' 32 96 ++ pack32 (toS v.toInt).val)) ∧
    (∀ (q : MM) (v : BitVec 64), readMm q s = .ok (v, t) → s.fpu.fsw.getLsbD 7 = false →
      let lo := (v.extractLsb' 0 32).toInt
      let hi := (v.extractLsb' 32 32).toInt
      let transition := fun (w : State) => { w with fpu := { w.fpu with fsw := w.fpu.fsw &&& 0xC7FF, ftw := 0 } }
      SimdEnds (.cvtpi2ps dst q) s t ((toS lo).flags ||| (toS hi).flags) (fun w =>
        transition (w.setXmm dst (a.extractLsb' 64 64 ++ pack32 (toS hi).val ++ pack32 (toS lo).val))) ∧
      SimdEnds (.cvtpi2pd dst q) s t ((toD lo).flags ||| (toD hi).flags) (fun w =>
        let y := w.setXmm dst (pack64 (toD hi).val ++ pack64 (toD lo).val)
        if inMemory q then y else transition y))

/-- Formats, rounding and exact arithmetic. The bits of the single, double and double extended formats stand for zeros,
denormals, normals, infinities, NaNs and, of 80 bits, unsupported formats; values in range become these bits; a tag is
their class; a NaN is signalling where the top bit of its fraction is 0, and made quiet by setting it (R70, R453,
R455, R456, R574). The rounding directions; a result is the exact value rounded to the precision, with
overflow, underflow, inexact and the masked responses; sum and product are the exact value so rounded,
quotient and root one with a last bit for the remainder (R71, R453, R455, R463, R485, R498, R573, R574). The
model's choices: a masked underflow of the x87 FPU with an exact result reports nothing (log entry 88);
with an unmasked overflow or underflow PE is judged by an unbounded exponent (log entry
96); a tiny x87 result is rounded to the denormals of the precision in force (log entry 109); the fraction bits a NaN keeps
in a narrower format (log entry 121). DEDUCED: FZ flushes exact tiny results too (log entry 53); infinity by zero is exact
(log entry 94).

The operations of FADD, FSUB, FSUBR, FMUL, FDIV, FDIVR, their SSE companions and FSQRT: which of the four, in which order of
the operands; an unsupported format is invalid; of two NaNs the x87 FPU delivers the one with the larger significand, SSE
the first, made quiet; a signalling one is invalid and so are unlike infinities added, 0 times infinity, 0 by 0,
infinity by infinity and the root of a negative value; a finite value by 0 is an infinity with zero-divide; else infinities
and zeros are exact, signed by the rule; a zero sum is -0 only of two -0 or when rounding down (R453, R463, R473, R474, R485,
R498, R503, R504, R573). PRESUMED: tininess is judged after
rounding (log entry 49); of equal significands the positive NaN (log entry 48); an invalid or zero-dividing x87
operation reports no denormal (log entry 50). -/
def Obligations.FloatRounding : Prop :=
  (let unpacked := fun (p bias n : Nat) (sign : Bool) =>
     let x : Nat := n / 2 ^ (p - 1) % (2 * bias + 2)
     let r : Nat := n % 2 ^ (p - 1)
     if x = 2 * bias + 1 then (if r = 0 then FVal.inf sign else .nan sign (BitVec.ofNat 63 (r * 2 ^ (64 - p))))
     else if x = 0 then (if r = 0 then .zero sign else .fin sign r (2 - bias - p) true)
     else .fin sign (2 ^ (p - 1) + r) ((x : Int) + 1 - bias - p) false
   let packed := fun (p bias : Nat) (explicit : Bool) (v : FVal) (n : Nat) =>
     let one := 2 ^ (p - 1)
     let hidden := if explicit then 0 else one
     let unit := if explicit then 2 * one else one
     let fields := fun (s : Bool) (x r : Nat) => (if s then (2 * bias + 2) * unit else 0) + x * unit + r
     let lowest : Int := 2 - bias - p
     match v with
     | .zero s => n = fields s 0 0
     | .inf s => n = fields s (2 * bias + 1) (one - hidden)
     | .nan s g => n = fields s (2 * bias + 1) (one - hidden + g.toNat / 2 ^ (64 - p))
     | .fin s m e _ => 0 < m →
       (1 - bias ≤ e + m.log2 → e + m.log2 ≤ bias →
         n = fields s (e + m.log2 + bias).toNat (m * one / 2 ^ m.log2 - hidden)) ∧
       (e + m.log2 < 1 - bias →
         n = fields s 0 (if lowest ≤ e then m * 2 ^ (e - lowest).toNat else m / 2 ^ (lowest - e).toNat))
     | .unsupported => True
   (∀ b : BitVec 32, unpack32 b = unpacked 24 127 b.toNat b.msb) ∧
   (∀ b : BitVec 64, unpack64 b = unpacked 53 1023 b.toNat b.msb) ∧
   (∀ b : BitVec 80,
     let x : Nat := b.toNat / 2 ^ 64 % 2 ^ 15
     let r : Nat := b.toNat % 2 ^ 64
     unpack80 b = (if x = 0 then (if r = 0 then .zero b.msb else .fin b.msb r (-16445) true)
       else if r < 2 ^ 63 then .unsupported
       else if x = 0x7FFF then (if r = 2 ^ 63 then .inf b.msb else .nan b.msb (BitVec.ofNat 63 r))
       else .fin b.msb r ((x : Int) - 16446) false) ∧
     tagOf b = (if x = 0 ∧ r = 0 then 1 else if x = 0 ∨ x = 0x7FFF ∨ r < 2 ^ 63 then 2 else 0)) ∧
   (∀ v : FVal, packed 24 127 false v (pack32 v).toNat ∧ packed 53 1023 false v (pack64 v).toNat ∧
     packed 64 16383 true v (pack80 v).toNat) ∧
   (∀ (s : Bool) (g : BitVec 63), (FVal.nan s g).signals = !g.getLsbD 62 ∧ (FVal.nan s g).quiet = .nan s (g ||| 0x4000000000000000)) ∧
   FVal.indef = .nan true 0x4000000000000000) ∧
  (∀ (rc : BitVec 2) (neg : Bool) (m k : Nat),
    let o := roundBits rc neg m k
    let r := o.1 * 2 ^ k
    o.2.1 = decide (r ≠ m) ∧ o.2.2 = decide (m < r) ∧
    (rc = 0 → 2 * m ≤ 2 * r + 2 ^ k ∧ 2 * r ≤ 2 * m + 2 ^ k ∧
      (2 * m = 2 * r + 2 ^ k ∨ 2 * r = 2 * m + 2 ^ k → o.1 % 2 = 0)) ∧
    (rc = 3 ∨ (rc = 1 ∧ neg = false) ∨ (rc = 2 ∧ neg = true) → r ≤ m ∧ m < r + 2 ^ k) ∧
    ((rc = 1 ∧ neg = true) ∨ (rc = 2 ∧ neg = false) → m ≤ r ∧ r < m + 2 ^ k) ∧
    (∀ e q : Int, (e ≤ q → q - e = k → roundAt rc neg m e q = ⟨o.1, q, o.2.1, o.2.2⟩) ∧
      (q ≤ e → roundAt rc neg m e q = ⟨m, e, false, false⟩))) ∧
  (∀ (n : Env) (neg : Bool) (m : Nat) (e : Int), 0 < m → 0 < n.p →
    let w := roundAt n.rc neg m e (e + m.log2 + 1 - n.p)
    let top := w.e + w.m.log2
    let o := finish n neg m e
    let inexact : BitVec 6 := if w.inexact then 32 else 0
    w.m ≤ 2 ^ n.p ∧ (w.inexact = true → 2 ^ (n.p - 1) ≤ w.m) ∧
    (1 - n.bias ≤ top → top ≤ n.bias → o = ⟨.fin neg w.m w.e false, inexact, w.up⟩) ∧
    (n.bias < top →
      if n.masks.getLsbD 3 then
        let away : Bool := n.rc = 0 || (n.rc = 1 && neg) || (n.rc = 2 && !neg)
        o = ⟨if away then .inf neg else .fin neg (2 ^ n.p - 1) (n.bias + 1 - n.p) false, 40, away⟩
      else o = ⟨.fin neg w.m (w.e - 24576) false, 8 ||| inexact, w.up⟩) ∧
    (top < 1 - n.bias →
      let near := roundAt n.rc neg m e (2 - n.bias - n.p)
      if n.masks.getLsbD 4 = false then o = ⟨.fin neg w.m (w.e + 24576) false, 16 ||| inexact, w.up⟩
      else if n.fz then o = ⟨.zero neg, 48, false⟩
      else o = ⟨if near.m = 0 then .zero neg else .fin neg near.m near.e false, if near.inexact then 48 else 0, near.up⟩)) ∧
  (∀ (n : Env) (s t : Bool) (m k : Nat) (e f : Int) (d d' : Bool),
    let q := min e f
    let z : Int := (if s then -1 else 1) * (m * 2 ^ (e - q).toNat : Nat) + (if t then -1 else 1) * (k * 2 ^ (f - q).toNat : Nat)
    addCore n (.fin s m e d) (.fin t k f d') =
      (if z = 0 then .exact (.zero (decide (n.rc = 1))) else finish n (decide (z < 0)) z.natAbs q) ∧
    mulCore n (.fin s m e d) (.fin t k f d') = finish n (s != t) (m * k) (e + f) ∧
    (0 < m → 0 < k → ∃ z w : Nat, divCore n (.fin s m e d) (.fin t k f d') = finish n (s != t) z (e - f - w) ∧
      2 ^ (n.p + 2) ≤ z ∧ (z * k = m * 2 ^ w ∨ (z % 2 = 1 ∧ z * k < m * 2 ^ w + k ∧ m * 2 ^ w < z * k + k)))) ∧
  (∀ (n : Env) (m : Nat) (e : Int) (d : Bool), 0 < m → ∃ z w : Nat, (e - w) % 2 = 0 ∧ 2 ^ (n.p + 2) ≤ z ∧
    sqrtCore n (.fin false m e d) = finish n false z ((e - w) / 2) ∧
    (z * z = m * 2 ^ w ∨ (z % 2 = 1 ∧ (z - 1) * (z - 1) < m * 2 ^ w ∧ m * 2 ^ w < (z + 1) * (z + 1)))) ∧
  (∀ (n : Env) (a b : FVal),
    let invalid : FpOut := ⟨.indef, 1, false⟩
    let quiet := fun (s : Bool) (g : BitVec 63) => FVal.nan s (g ||| 0x4000000000000000)
    let signalling := fun (c : Bool) => if c then (1 : BitVec 6) else 0
    let denormal : FVal → Bool := fun v => match v with | .fin _ _ _ d => d | _ => false
    let reports := fun (d : Bool) (o : FpOut) => if o.flags &&& 5 = 0 then { o with flags := o.flags ||| if d then 2 else 0 } else o
    (∀ core, binary n core a b = match a, b with
      | .unsupported, _ => invalid
      | _, .unsupported => invalid
      | .nan s g, .nan t h =>
        ⟨if n.larger = false ∨ h.toNat < g.toNat ∨ (h = g ∧ s = false) then quiet s g else quiet t h,
          signalling (!g.getLsbD 62 || !h.getLsbD 62), false⟩
      | .nan s g, _ => ⟨quiet s g, signalling (!g.getLsbD 62), false⟩
      | _, .nan t h => ⟨quiet t h, signalling (!h.getLsbD 62), false⟩
      | v, w => reports (denormal v || denormal w) (core v w)) ∧
    (∀ den core, unary den core a = match a with
      | .unsupported => invalid
      | .nan s g => ⟨quiet s g, signalling (!g.getLsbD 62), false⟩
      | v => reports (den && denormal v) (core v)) ∧
    fAdd n a b = binary n (addCore n) a b ∧ fSub n a b = binary n (subCore n) a b ∧ fMul n a b = binary n (mulCore n) a b ∧
    fDiv n a b = binary n (divCore n) a b ∧ fSubr n a b = fSub n b a ∧ fDivr n a b = fDiv n b a ∧
    FpOut.invalid = invalid ∧ FpOut.exact a = ⟨a, 0, false⟩ ∧
    ∀ (o : FpOut) (d : Bool), o.withDen d = { o with flags := o.flags ||| if d then 2 else 0 }) ∧
  (∀ (n : Env) (a : FVal) (s t : Bool) (m k : Nat) (e f : Int) (d d' : Bool), 0 < m → 0 < k →
    let invalid : FpOut := ⟨.indef, 1, false⟩
    let x := FVal.fin s m e d
    let y := FVal.fin t k f d'
    (addCore n (.inf s) (.inf t) = (if s = t then .exact (.inf s) else invalid) ∧
      (∀ v ∈ [FVal.zero t, y], addCore n (.inf s) v = .exact (.inf s) ∧ addCore n v (.inf s) = .exact (.inf s)) ∧
      addCore n (.zero s) (.zero t) = .exact (.zero (if s = t then s else decide (n.rc = 1))) ∧
      addCore n x (.zero t) = finish n s (m * 2 ^ e.toNat) (min 0 e) ∧
      addCore n (.zero s) y = finish n t (k * 2 ^ f.toNat) (min 0 f)) ∧
    (subCore n a (.inf t) = addCore n a (.inf (!t)) ∧ subCore n a (.zero t) = addCore n a (.zero (!t)) ∧
      subCore n a y = addCore n a (.fin (!t) k f d')) ∧
    (mulCore n (.inf s) (.zero t) = invalid ∧ mulCore n (.zero s) (.inf t) = invalid ∧
      (∀ v ∈ [FVal.inf t, y], mulCore n (.inf s) v = .exact (.inf (s != t)) ∧ mulCore n v (.inf s) = .exact (.inf (t != s))) ∧
      (∀ v ∈ [FVal.zero t, y], mulCore n (.zero s) v = .exact (.zero (s != t)) ∧
        mulCore n v (.zero s) = .exact (.zero (t != s)))) ∧
    (divCore n (.inf s) (.inf t) = invalid ∧ divCore n (.zero s) (.zero t) = invalid ∧
      (∀ v ∈ [FVal.zero t, y], divCore n (.inf s) v = .exact (.inf (s != t))) ∧
      (∀ v ∈ [FVal.inf t, y], divCore n (.zero s) v = .exact (.zero (s != t))) ∧
      divCore n x (.inf t) = .exact (.zero (s != t)) ∧ divCore n x (.zero t) = ⟨.inf (s != t), 4, false⟩) ∧
    sqrtCore n (.inf s) = (if s then invalid else .exact (.inf false)) ∧ sqrtCore n (.zero s) = .exact (.zero s) ∧
    sqrtCore n (.fin true m e d) = invalid)

/-- The x87 and SSE instructions, FXSAVE and FXRSTOR where the unit is switched off or an exception is pending: #NM, #MF,
#UD (R440, R441, R451, R452, R460, R507, R572). -/
def Obligations.UnitUnavailable : Prop :=
  ∀ (s : State) (k : Reg3) (m : FMem) (w : Width) (r : Reg) (src : XM) (imm : Byte) (rm : RM) (mm : MM),
    let waiting := [Instr.fadd (.sti k), .faddp k, .fiadd (.m16 m), .fmul (.m32 m), .fmulp k, .fimul (.m32 m),
      .fsub (.m64 m), .fsubp k, .fisub (.m16 m), .fsubr (.st0 k), .fsubrp k, .fisubr (.m32 m), .fdiv (.st0 k), .fdivp k,
      .fidiv (.m16 m), .fdivr (.sti k), .fdivrp k, .fidivr (.m32 m), .fsqrt, .fabs, .fchs, .frndint, .fscale, .fprem,
      .fprem1, .fxtract, .fcom (.sti k), .fcomp (.m32 m), .fcompp, .fucom k, .fucomp k, .fucompp, .ftst, .ficom (.m16 m),
      .ficomp (.m32 m), .fcomi k, .fcomip k, .fucomi k, .fucomip k, .fxam, .fld (.m80 m), .fild (.m64 m), .fbld m, .fld1,
      .fldl2t, .fldl2e, .fldpi, .fldlg2, .fldln2, .fldz, .fst (.m32 m), .fstp (.m80 m), .fist (.m16 m), .fistp (.m64 m),
      .fisttp (.m64 m), .fbstp m, .fcmovb k, .fcmove k, .fcmovbe k, .fcmovu k, .fcmovnb k, .fcmovne k, .fcmovnbe k,
      .fcmovnu k, .fdecstp, .fincstp, .ffree k, .fnop, .fxch k, .f2xm1, .fcos, .fsin, .fptan, .fsincos, .fpatan, .fyl2x,
      .fyl2xp1, .fldcw m, .fldenv w m, .frstor w m]
    let simd := [Instr.addpd r src, .addps r src, .addsd r src, .addss r src, .addsubpd r src, .addsubps r src,
      .haddpd r src, .haddps r src, .hsubpd r src, .hsubps r src, .divpd r src, .divps r src, .divsd r src, .divss r src,
      .andpd r src, .andps r src, .andnpd r src, .andnps r src, .cmppd r src imm, .cmpps r src imm, .cmpsd r src imm,
      .cmpss r src imm, .comisd r src, .comiss r src, .cvtdq2pd r src, .cvtdq2ps r src, .cvtpd2dq r src, .cvttpd2dq r src,
      .cvtps2dq r src, .cvttps2dq r src, .cvtpd2ps r src, .cvtps2pd r src, .cvtsd2ss r src, .cvtss2sd r src,
      .cvtsd2si w r src, .cvttsd2si w r src, .cvtss2si w r src, .cvttss2si w r src, .cvtsi2sd w r rm, .cvtsi2ss w r rm,
      .ldmxcsr m.mem, .lddqu r (.mem m.mem)]
    let mmx := [Instr.cvtpd2pi k src, .cvttpd2pi k src, .cvtps2pi k src, .cvttps2pi k src, .cvtpi2pd r mm, .cvtpi2ps r mm]
    let em := s.cr0.getLsbD 2
    let ts := s.cr0.getLsbD 3
    let off := em || !s.cr4.getLsbD 9
    let pending := s.fpu.fsw.getLsbD 7 && s.cr0.getLsbD 5
    (em || ts → ∀ i ∈ waiting ++ [.fnclex, .fninit, .fnstcw m, .fnstsw .ax, .fnstsw (.mem m), .fnstenv w m, .fnsave w m],
      exec i s = deliver nmFault s) ∧
    (em = false → ts = false → pending → ∀ i ∈ waiting ++ [.emms, .wait], exec i s = deliver mfFault s) ∧
    (s.cr0.getLsbD 1 && ts → exec .wait s = deliver nmFault s) ∧
    (off → ∀ i ∈ simd ++ mmx, exec i s = deliver udFault s) ∧
    (off = false → ts → ∀ i ∈ simd ++ mmx, exec i s = deliver nmFault s) ∧
    (off = false → ts = false → pending → ∀ i ∈ mmx, exec i s = deliver mfFault s) ∧
    (em → exec .emms s = deliver udFault s ∧ ∀ b, exec (.fxsave b m.mem) s = deliver udFault s ∧
      exec (.fxrstor b m.mem) s = deliver udFault s) ∧
    (em = false → ts → exec .emms s = deliver nmFault s ∧ ∀ b, exec (.fxsave b m.mem) s = deliver nmFault s ∧
      exec (.fxrstor b m.mem) s = deliver nmFault s)

/-! ### The machine -/

/-- After reset: the values R81 gives (R8 to R15 and the MSRs that R81 leaves unspecified are left out). The bases of
FS and GS are 0 by the row of the segment registers and unspecified by a row of their own: that they are 0 is the
model's choice (log entry 3). -/
def Obligations.ResetValues : Prop :=
  let s := State.reset
  s.get rDX = (cpuidTable false 1 0).a.setWidth 64 ∧ (∀ r ∈ [rAX, rCX, rBX, rSP, rBP, rSI, rDI], s.get r = 0) ∧
  s.rip = 0xFFF0 ∧ s.cs.sel = 0xF000 ∧ s.cs.base = 0xFFFF0000 ∧ s.cs.limit = 0xFFFF ∧
  (∀ g ∈ [s.ds, s.es, s.ss, s.fs, s.gs, s.ldtr, s.tr], g.sel = 0 ∧ g.base = 0 ∧ g.limit = 0xFFFF) ∧
  s.gdtr.base = 0 ∧ s.gdtr.limit = 0xFFFF ∧ s.idtr.base = 0 ∧ s.idtr.limit = 0xFFFF ∧
  s.rflags = 2 ∧ s.cr0 = 0x60000010 ∧ s.cr2 = 0 ∧ s.cr3 = 0 ∧ s.cr4 = 0 ∧ s.efer = 0 ∧ s.bootNt4 = false ∧
  s.tpr = 0 ∧ s.apicEnabled = true ∧ s.dr0 = 0 ∧ s.dr1 = 0 ∧ s.dr2 = 0 ∧ s.dr3 = 0 ∧ s.dr6 = 0xFFFF0FF0 ∧ s.dr7 = 0x400 ∧
  s.fpu.fcw = 0x40 ∧ s.fpu.fsw = 0 ∧ s.fpu.ftw = 0x5555 ∧ (∀ k, s.fpu.mmx k = 0) ∧ (∀ r, s.xmmReg r = 0) ∧
  s.mxcsr = 0x1F80

/-- Right after reset the memory is canonical and the state is legal (R81, R100). That memory lists nothing (log entry
1) and that the model-specific registers that R81 leaves unspecified are 0 (log entry 3) is the model's choice. -/
def Obligations.ResetInvariants : Prop := State.reset.memOk = true ∧ State.reset.Legal

/-- Every step keeps the memory in its canonical form. -/
def Obligations.StepKeepsMemory : Prop := ∀ s t : State, s.memOk = true → step s = .next t → t.memOk = true

/-- Every step keeps the state legal: the fixed bits of EFLAGS, CR0, CR4, IA32_EFER, MXCSR and FMASK, LMA equal to LME
and PG with PAE under it, paging only with protection, and canonical base addresses (R45, R51, R54, R57, R64 to R66, R74,
R751, R752). -/
def Obligations.StepKeepsLegal : Prop := ∀ s t : State, s.Legal → step s = .next t → t.Legal

/-- A STEP RUNS THE DECODED INSTRUCTION: where no event is pending and the bytes at CS:RIP decode to an instruction,
in the first page or with the second one after it, the step is that instruction's, from the state in which the
time-stamp counter has advanced, the following address is known, the shadow has ended (but is remembered for a string
instruction that goes on) and TF has armed its trap (R41, R42, R171, R663, R762, R771). That the counter advances with
every step by an amount the implementation gives is the model's choice (log entry 8), as is the trap armed by the TF
in force at the start of the instruction (log entry 28); the following address modulo 2^32 outside 64-bit mode is
DEDUCED (log entry 21). The bytes are those of at most 15 addresses from RIP that are canonical or inside the CS limit, read
through the translation of their page at the present privilege level; where there is none the step is #GP(0), and where their
page faults, that fault. Where they do not end an instruction, the bytes after them are fetched one at a time: a fault of
such a fetch comes first, and the end of the instruction, now too long, or of the code segment is #GP(0) (R42, R119, R171,
R210, R681). -/
def Obligations.StepRunsDecoded : Prop :=
  (∀ (s : State) (la : Word) (n : Nat),
    let inside := fun (k : Nat) => if s.is64 then canonical (s.rip + BitVec.ofNat 64 k) = true else s.rip.toNat + k ≤ s.cs.limit.toNat
    (s.codeRoom = min 15 s.codeLeft ∧ (∀ k < s.codeLeft, inside k) ∧ ¬ inside s.codeLeft) ∧
    (∀ e, translate la ⟨false, s.cpl == 3⟩ s = .error e → fetchBytes la n s = .error e) ∧
    (∀ a t, translate la ⟨false, s.cpl == 3⟩ s = .ok (a, t) →
      fetchBytes la n s = .ok ((List.range n).map (fun k => t.byteAt (a + k)), t)) ∧
    (∀ wide, laStep wide la n = if wide then la + BitVec.ofNat 64 n else (la + BitVec.ofNat 64 n) &&& 0xFFFFFFFF) ∧
    (∀ bs, fetchOverlong 0 bs s = .error (.raised gp0) ∧
      ∀ left, let next := laStep s.is64 (s.linear .cs s.rip) bs.length
        (∃ e, fetchOverlong left bs s = .error (.raised e)) ∧
        (∀ e, fetchBytes next 1 s = .error e → fetchOverlong (left + 1) bs s = .error e) ∧
        ∀ b t, fetchBytes next 1 s = .ok (b, t) → fetchOverlong (left + 1) bs s =
          if decode s.codeSize (bs ++ b) = .error .short then fetchOverlong left (bs ++ b) t else .error (.raised gp0)) ∧
    (s.boundary = none ↔ (s.pendingDb = false ∨ s.shadow = .movss) ∧
      (s.pendingNmi = false ∨ s.nmiBlocked = true ∨ s.shadow = .movss) ∧
      ∀ v, s.pendingInt = some v → s.flag fIF = false ∨ s.shadow ≠ .none ∨ v.toNat / 16 ≤ s.tpr.toNat / 16) ∧
    (let u := { s with tsc := s.tsc + 1 + (Config.tscExtra s.tsc).setWidth 64 }
     let first := u.linear .cs u.rip
     let room := min u.codeRoom (4096 - first.toNat % 4096)
     s.activity = .active → u.boundary = none →
      (u.codeRoom = 0 → step s = deliver gp0 u) ∧
      (u.codeRoom ≠ 0 →
        (∀ e, fetchBytes first room u = .error (.raised e) → step s = deliver e u) ∧
        ∀ b t, fetchBytes first room u = .ok (b, t) → decode u.codeSize b = .error .short →
          (room = u.codeRoom → ∀ e, fetchOverlong (u.codeLeft - room) b t = .error (.raised e) → step s = deliver e u) ∧
          (room ≠ u.codeRoom →
            (∀ e, fetchBytes (laStep u.is64 first room) (u.codeRoom - room) t = .error (.raised e) → step s = deliver e u) ∧
            ∀ c v, fetchBytes (laStep u.is64 first room) (u.codeRoom - room) t = .ok (c, v) →
              decode u.codeSize (b ++ c) = .error .short → ∀ e,
                fetchOverlong (u.codeLeft - u.codeRoom) (b ++ c) v = .error (.raised e) → step s = deliver e u)))) ∧
  ∀ (s t : State) (i : Instr) (len : Nat) (b : List Byte),
    let u := { s with tsc := s.tsc + 1 + (Config.tscExtra s.tsc).setWidth 64 }
    let la := u.linear .cs u.rip
    let n := min u.codeRoom (4096 - la.toNat % 4096)
    let begun := fun (t : State) => { t with
      nextPc := if s.is64 then s.rip + BitVec.ofNat 64 len else (s.rip + BitVec.ofNat 64 len) &&& 0xFFFFFFFF
      shadow := .none, heldShadow := s.shadow, pendingDb := s.pendingDb || s.flag fTF }
    s.activity = .active → u.boundary = none → u.codeRoom ≠ 0 → fetchBytes la n u = .ok (b, t) →
    (decode u.codeSize b = .ok (i, len) → step s = exec i (begun t)) ∧
    (decode u.codeSize b = .error .short → n ≠ u.codeRoom → ∀ c v,
      fetchBytes (laStep u.is64 la n) (u.codeRoom - n) t = .ok (c, v) → decode u.codeSize (b ++ c) = .ok (i, len) →
      step s = exec i (begun v))

/-- What a step does at an instruction boundary before any instruction: shutdown and a halt without an event stop; a
pending single-step trap goes before an NMI and that before a maskable interrupt; NMI waits while blocked, all three
as the shadow says; a maskable interrupt needs IF and a priority class above TPR's (R415, R663, R681, R698, R712,
R715, R762). The model's choices in this are the counter's advance (log entry 8), the single-step trap kept as a
pending bit that leaves DR6 alone (log entry 28), the stop of a halted processor with no event (log entry 31), the
single-step trap that ends a halt with TF = 1 (log entry 93), that an event is no longer pending once its delivery
begins (log entry 100), that the task priority counts with the local APIC disabled too (log entry 118), and the one
interrupt vector that the platform offers (log entry 76). -/
def Obligations.PendingEvents : Prop :=
  ∀ s : State,
    let t := { s with tsc := s.tsc + 1 + (Config.tscExtra s.tsc).setWidth 64 }
    let db := s.pendingDb = true ∧ s.shadow ≠ .movss
    let nmi := s.pendingNmi = true ∧ s.nmiBlocked = false ∧ s.shadow ≠ .movss
    let int := fun (v : Byte) => s.pendingInt = some v ∧ s.flag fIF = true ∧ s.shadow = .none ∧
      s.tpr.toNat / 16 < v.toNat / 16
    (s.activity = .shutdown → step s = .fault .shutdown) ∧
    (s.activity ≠ .shutdown →
      (db → step s = deliver dbTrap { t with pendingDb := false }) ∧
      (¬ db → nmi → step s = deliver nmiEvent { t with pendingNmi := false }) ∧
      (¬ db → ¬ nmi → ∀ v, int v →
        step s = deliver { vector := v, kind := .external, code := none, cr2 := none } { t with pendingInt := none }) ∧
      (¬ db → ¬ nmi → (∀ v, ¬ int v) → s.activity = .halted → step s = .fault .halted))

/-- Forming an address, the checks of an access, storing and loading, and the walk that translates. An effective address
is base plus scaled index plus displacement, truncated to the address size, where a RIP-relative operand counts from the
following instruction (R110 to R113); a linear address adds the base of the segment, in 64-bit mode of FS and GS only
and modulo 2^64, elsewhere modulo 2^32 (R115 to R117); canonical are the addresses whose bits 63:47 are all equal
(R120). An access is checked in the order of R130: outside 64-bit mode the
null selector and the type in protected and compatibility mode and the limit, in 64-bit mode the canonical form of every
byte; then 16-byte alignment, the translation, and alignment checking at CPL 3; #SS(0) through SS and #GP(0) otherwise,
#AC(0) last (R105, R106, R119, R121). Its bytes lie where the one or two pages it touches are translated to, and a read
gives them, the lowest first (R100). That a null SS raises #SS(0) is the model's choice (log entry 101), and the upper bound
of an expand-down segment is PRESUMED (log entry 79). A value of `n` bytes stored in a span that an access has resolved to
is read back wherever the bytes of the span are distinct, as they are without paging; no
other byte changes, the memory stays canonical, and resolving only sets accessed and dirty flags, none without
paging (R100, R130, R146). With paging, a linear address is translated through the entries of its walk: the first one
that is not present or has a reserved bit set, and then a protection that the combined U/S and R/W bits deny, raise
#PF with its error code; else the physical address is that of the page, and of memory only A of the entries used, and
D of the last on a write, change (R135 to R147). That no flag is set by a walk that faults is log entry 14; the
walks R147 only outlines are PRESUMED (log entry 13). That of two
pages the lower one is translated first is the model's choice (log entry 122). -/
def Obligations.StoreThenLoad : Prop :=
  (∀ (s : State) (m : Mem),
    let base := match m.base with | .none => 0 | .reg r => (s.get r).toNat | .rip => s.nextPc.toNat
    let index := match m.index with | none => 0 | some i => (s.get i.reg).toNat * 2 ^ i.scale.toNat
    let size := match m.asz with | .a16 => 2 ^ 16 | .a32 => 2 ^ 32 | .a64 => 2 ^ 64
    (s.effAddr m).toNat = (base + index + m.disp.toNat) % size ∧ (∀ a, (asizeTrunc m.asz a).toNat = a.toNat % size) ∧
    ∀ n write al, resolveMem m n write al s = resolve m.seg (s.effAddr m) n write al s) ∧
  (∀ a : Word, (canonical a = true ↔ a.toNat < 2 ^ 47 ∨ 2 ^ 64 - 2 ^ 47 ≤ a.toNat) ∧
    ∀ n, 0 < n → n ≤ 4096 → (canonicalRange a n = true ↔ ∀ k < n, canonical (a + BitVec.ofNat 64 k) = true)) ∧
  (∀ (s : State) (sp : Span) (n : Nat), spanGet s.mem sp 0 n < 256 ^ n ∧
    ∀ k < n, spanGet s.mem sp 0 n / 256 ^ k % 256 = (s.byteAt (sp.addr k)).toNat) ∧
  (∀ (s : State) (sr : SReg) (ea : Word), (s.linear sr ea).toNat =
    if s.is64 then ((if sr = .fs then s.fs.base.toNat else if sr = .gs then s.gs.base.toNat else 0) + ea.toNat) % 2 ^ 64
    else ((s.seg sr).base.toNat + ea.toNat) % 2 ^ 32) ∧
  (∀ (s : State) (sr : SReg) (ea : Word) (n : Nat) (write : Bool) (al : Align), 0 < n → n ≤ 4096 →
    let g := s.seg sr
    let la := s.linear sr ea
    let segment : Event := .coded (if sr = .ss then 12 else 13) 0
    let stops := fun (e : Event) => resolve sr ea n write al s = .error (.raised e)
    let selectors := s.mode = .prot ∨ s.mode = .compat
    let last := ea.toNat + n - 1
    let inside := if g.s = true ∧ g.typ.getLsbD 3 = false ∧ g.typ.getLsbD 2 = true
      then g.limit.toNat < ea.toNat ∧ last < (if g.db then 2 ^ 32 else 2 ^ 16) else last ≤ g.limit.toNat
    let allowed := if write then g.typ.getLsbD 3 = false ∧ g.typ.getLsbD 1 = true
      else g.typ.getLsbD 3 = false ∨ g.typ.getLsbD 1 = true
    let passes := if s.is64 then ∀ k < n, canonical (la + BitVec.ofNat 64 k) = true
      else (selectors → g.unusable = false ∧ allowed) ∧ inside
    let aligned := al = .para → la.toNat % 16 = 0
    let checked := s.cr0.getLsbD 18 = true ∧ s.flag fAC = true ∧ s.cpl = 3 ∧ ∃ k, al = .natural k ∧ la.toNat % k ≠ 0
    (selectors → g.unusable = true → stops segment) ∧
    (selectors → g.unusable = false → ¬ allowed → stops (.coded 13 0)) ∧
    (s.is64 = false → (selectors → g.unusable = false ∧ allowed) → ¬ inside → stops segment) ∧
    (s.is64 = true → ¬ passes → stops segment) ∧
    (passes → ¬ aligned → stops (.coded 13 0)) ∧
    (passes → aligned →
      (∀ e, spanOf s.is64 la n ⟨write, s.cpl == 3⟩ s = .error e → resolve sr ea n write al s = .error e) ∧
      ∀ sp t, spanOf s.is64 la n ⟨write, s.cpl == 3⟩ s = .ok (sp, t) →
        (checked → stops (.coded 17 0)) ∧ (¬ checked → resolve sr ea n write al s = .ok (sp, t)))) ∧
  (∀ (s : State) (sr : SReg) (ea : Word) (n : Nat),
    (∀ e, resolve sr ea n false (.natural n) s = .error e → readMem sr ea n s = .error e) ∧
    ∀ sp t, resolve sr ea n false (.natural n) s = .ok (sp, t) → readMem sr ea n s = .ok (spanGet t.mem sp 0 n, t)) ∧
  (∀ (s : State) (wide : Bool) (la : Word) (n : Nat) (pu : Purpose),
    let room := 4096 - la.toNat % 4096
    let next := if wide then la + BitVec.ofNat 64 room else (la + BitVec.ofNat 64 room) &&& 0xFFFFFFFF
    (∀ e, translate la pu s = .error e → spanOf wide la n pu s = .error e) ∧
    ∀ a t, translate la pu s = .ok (a, t) →
      (n ≤ room → ∃ sp, spanOf wide la n pu s = .ok (sp, t) ∧ ∀ k < n, sp.addr k = a + k) ∧
      (room < n → (∀ e, translate next pu t = .error e → spanOf wide la n pu s = .error e) ∧
        ∀ b u, translate next pu t = .ok (b, u) →
          ∃ sp, spanOf wide la n pu s = .ok (sp, u) ∧ ∀ k < n, sp.addr k = if k < room then a + k else b + (k - room))) ∧
  (∀ (s u : State) (sr : SReg) (ea : Word) (n v : Nat) (write : Bool) (al : Align) (sp : Span),
    resolve sr ea n write al s = .ok (sp, u) → s.memOk = true →
    let t := u.storeAt sp n v
    ((∀ j k, j < k → k < n → sp.addr j ≠ sp.addr k) → spanGet t.mem sp 0 n = v % 256 ^ n) ∧
    (n ≤ 2048 → s.pg = false → ∀ j k, j < k → k < n → sp.addr j ≠ sp.addr k) ∧
    OnlySpan sp n u t ∧ t.memOk = true ∧ u = { s with mem := u.mem } ∧ (s.pg = false → u = s) ∧
    (∀ a, u.byteAt a &&& ~~~0x60 = s.byteAt a &&& ~~~0x60 ∧ s.byteAt a &&& u.byteAt a = s.byteAt a)) ∧
  (∀ (s : State) (la : Word) (write user : Bool), s.memOk = true →
    let q := s.pagePath la
    let faults := fun (present reserved : Bool) => translate la ⟨write, user⟩ s =
      .error (.raised { vector := 14, kind := .fault, code := some (faultCode present write user reserved), cr2 := some la })
    (s.pg = false → translate la ⟨write, user⟩ s = .ok (la.toNat % 2 ^ 32, s)) ∧
    (s.pg = true →
      match q.1.find? (fun p => !p.value.getLsbD 0 || p.value &&& p.checked != 0) with
      | some p => faults (p.value.getLsbD 0) (p.value.getLsbD 0)
      | none =>
        let userPage := q.1.all fun p => !p.guards || p.value.getLsbD 2
        let writable := q.1.all fun p => !p.guards || p.value.getLsbD 1
        if (user && !userPage) || (write && !writable && (user || s.cr0.getLsbD 16)) then faults true false
        else ∃ t, translate la ⟨write, user⟩ s = .ok (q.2, t) ∧ t = { s with mem := t.mem } ∧ t.memOk = true ∧
          ∀ a, t.byteAt a = q.1.foldl (fun b p => if p.addr = a then b ||| p.marks write else b) (s.byteAt a)))

/-- DECODE AND ENCODE AGREE on the general-purpose instructions: the bytes of every well-formed one, with every operand,
decode to it, whatever follows them: arithmetic and logic, decimal adjustment, conversions, conditional moves, exchanges,
bit tests and scans, SETcc, shifts and rotates, moves, the stack, XLAT, strings and ports, and LOCK with its instruction
(R170 to R200, R240). -/
def Obligations.DecodeEncodeArithmetic : Prop :=
  ∀ (a : AluArgs) (t : TestArgs) (d : IncArgs) (w v : Width) (rm : RMB) (m : ImulArgs) (b : Byte) (r q : Reg)
    (x : RM) (g : GReg) (e : XchgArgs) (z : Bool) (n : BitSel) (c : ShiftCount) (p : Option Byte) (mov : MovArgs)
    (s : SReg) (y : ASize) (o : Word) (k : Reg3) (push : PushArgs) (pp : PopArgs) (src : StrSrc) (dst : StrDst)
    (l : LockOp),
    ∀ i ∈
      [Instr.add a, .adc a, .and a, .cmp a, .or a, .sbb a, .sub a, .xor a, .test t, .inc d, .dec d, .not w rm,
        .neg w rm, .mul w rm, .div w rm, .idiv w rm, .imul m] ++
      [Instr.aaa, .aas, .daa, .das, .aad b, .aam b, .cbw w, .cdqe, .cwd w, .cqo, .bswap w r, .lahf, .sahf,
        .lea w r x] ++
      [Instr.cmovo w r x, .cmovno w r x, .cmovb w r x, .cmovae w r x, .cmove w r x, .cmovne w r x,
        .cmovbe w r x, .cmova w r x, .cmovs w r x, .cmovns w r x, .cmovp w r x, .cmovnp w r x, .cmovl w r x,
        .cmovge w r x, .cmovle w r x, .cmovg w r x, .cmpxchg w rm g, .cmpxchg8b x, .cmpxchg16b x, .xchg e,
        .xadd w rm g, .nop z, .bsf w r x, .bsr w r x, .bt w x n, .btc w x n, .btr w x n, .bts w x n] ++
      [Instr.seto rm, .setno rm, .setb rm, .setae rm, .sete rm, .setne rm, .setbe rm, .seta rm, .sets rm,
        .setns rm, .setp rm, .setnp rm, .setl rm, .setge rm, .setle rm, .setg rm] ++
      [Instr.rol w rm c, .ror w rm c, .rcl w rm c, .rcr w rm c, .shl w rm c, .shr w rm c, .sar w rm c,
        .shld w x r p, .shrd w x r p] ++
      [Instr.mov mov, .movMoffs z w s y o, .movFromCr r q, .movToCr r q, .movFromDr r q, .movToDr r q,
        .movFromSreg w x k, .movToSreg k x, .movsxd w r x, .movzx w v r rm, .movsx w v r rm, .push push,
        .pop pp, .pushf w, .popf w, .pusha w, .popa w, .xlat y s] ++
      [Instr.cmpsb src, .cmpsw w src, .cmpsq src, .lodsb src, .lodsw w src, .lodsq src, .movsb src,
        .movsw w src, .movsq src, .stosb dst, .stosw w dst, .stosq dst, .scasb dst, .scasw w dst, .scasq dst,
        .insb dst, .insw w dst, .outsb src, .outsw w src, .inp w p, .outp w p] ++
      [Instr.lock l],
      i.RoundTrip

/-- DECODE AND ENCODE AGREE on the other instructions: the bytes of every well-formed branch, near and far, and of every
well-formed system, x87, FXSAVE and SSE instruction decode to it, whatever follows them (R170 to R200, R320 to R340,
R450, R570). -/
def Obligations.DecodeEncodeBranches : Prop :=
  ∀ (w : Width) (rel : Rel) (y : ASize) (b : Byte) (x : RM) (off : BitVec 32) (sel : BitVec 16)
    (pop : Option (BitVec 16)) (r : Reg) (mem : Mem) (z : Bool) (fa : FArith) (k : Reg3) (fi : FInt) (fm : FMem)
    (fc : FCmp) (fl : FIntL) (fg : FLong) (fs : FSw) (mm : MM),
    ∀ i ∈
      [Instr.jo w rel, .jno w rel, .jb w rel, .jae w rel, .je w rel, .jne w rel, .jbe w rel, .ja w rel,
        .js w rel, .jns w rel, .jp w rel, .jnp w rel, .jl w rel, .jge w rel, .jle w rel, .jg w rel, .jcxz w y b,
        .loop w y b, .loope w y b, .loopne w y b, .jmpRel w rel, .jmpInd w x, .jmpFarPtr w off sel,
        .jmpFarMem w x, .callRel w rel, .callInd w x, .callFarPtr w off sel, .callFarMem w x, .ret w pop,
        .retFar w pop, .enter w sel b, .leave w, .bound w r x, .int b, .int3, .into, .iret w, .iretq] ++
      [Instr.arpl x r, .clc, .cld, .cli, .clts, .cmc, .stc, .std, .sti, .clflush mem, .cpuid, .hlt, .invd,
        .invlpg x, .lfence, .mfence, .sfence, .wbinvd, .lar w r x, .lsl w r x, .lds w r x, .les w r x,
        .lss w r x, .lfs w r x, .lgs w r x, .lgdt w x, .lidt w x, .lldt x, .ltr x, .lmsw x, .sgdt mem,
        .sidt mem, .sldt w x, .str w x, .smsw w x, .verr x, .verw x, .swapgs, .syscall, .sysret z, .sysenter,
        .sysexit, .wrmsr, .rdmsr, .ud2, .rdtsc, .rdpmc, .monitor, .mwait, .rsm] ++
      [Instr.fxsave z mem, .fxrstor z mem, .emms, .f2xm1, .fabs, .fadd fa, .faddp k, .fiadd fi, .fmul fa,
        .fmulp k, .fimul fi, .fsub fa, .fsubp k, .fisub fi, .fsubr fa, .fsubrp k, .fisubr fi, .fdiv fa,
        .fdivp k, .fidiv fi, .fdivr fa, .fdivrp k, .fidivr fi, .fbld fm, .fbstp fm, .fchs, .fnclex, .fcmovb k,
        .fcmove k, .fcmovbe k, .fcmovu k, .fcmovnb k, .fcmovne k, .fcmovnbe k, .fcmovnu k, .fcom fc, .fcomp fc,
        .fcompp, .fcomi k, .fcomip k, .fucomi k, .fucomip k, .fcos, .fdecstp, .ffree k, .ficom fi, .ficomp fi,
        .fild fl, .fincstp, .fninit, .fist fi, .fistp fl, .fisttp fl, .fld fg, .fld1, .fldl2t, .fldl2e, .fldpi,
        .fldlg2, .fldln2, .fldz, .fldcw fm, .fldenv w fm, .fnop, .fpatan, .fprem, .fprem1, .fptan, .frndint,
        .frstor w fm, .fnsave w fm, .fscale, .fsin, .fsincos, .fsqrt, .fst fc, .fstp fg, .fnstcw fm,
        .fnstenv w fm, .fnstsw fs, .ftst, .fucom k, .fucomp k, .fucompp, .wait, .fxam, .fxch k, .fxtract,
        .fyl2x, .fyl2xp1] ++
      [Instr.addpd r x, .addps r x, .addsd r x, .addss r x, .addsubpd r x, .addsubps r x, .haddpd r x,
        .haddps r x, .hsubpd r x, .hsubps r x, .divpd r x, .divps r x, .divsd r x, .divss r x, .andpd r x,
        .andps r x, .andnpd r x, .andnps r x, .cmppd r x b, .cmpps r x b, .cmpsd r x b, .cmpss r x b,
        .comisd r x, .comiss r x, .cvtdq2pd r x, .cvtdq2ps r x, .cvtpd2dq r x, .cvtpd2ps r x, .cvtps2dq r x,
        .cvtps2pd r x, .cvttpd2dq r x, .cvttps2dq r x, .cvtpd2pi k x, .cvtps2pi k x, .cvttpd2pi k x,
        .cvttps2pi k x, .cvtpi2pd r mm, .cvtpi2ps r mm, .cvtsd2si w r x, .cvttsd2si w r x, .cvtss2si w r x,
        .cvttss2si w r x, .cvtsd2ss r x, .cvtss2sd r x, .cvtsi2sd w r x, .cvtsi2ss w r x, .lddqu r x,
        .ldmxcsr mem],
      i.RoundTrip

/-- Ten words written out from the encodings the rules of their instructions give, and what they decode to (R240,
R247, R260, R302, R331, R348, R365, R403, R460, R463, R595). -/
def Obligations.DecodeWords : Prop :=
  decode .c64 [0x48, 0x81, 0xE3, 0x78, 0x56, 0x34, 0x12] = .ok (.and (.rmImm .b64 (.reg (.full rBX)) 0x12345678), 7) ∧
  decode .c64 [0x48, 0x0F, 0xBD, 0xC3] = .ok (.bsr .b64 rAX (.reg rBX), 4) ∧
  decode .c64 [0x74, 0xFE] = .ok (.je .b64 (.r8 0xFE), 2) ∧
  decode .c64 [0xF3, 0x48, 0xA7] = .ok (.cmpsq { asz := .a64, seg := .ds, rep := .rep }, 3) ∧
  decode .c64 [0x0F, 0xA2] = .ok (.cpuid, 2) ∧
  decode .c64 [0x0F, 0x77] = .ok (.emms, 2) ∧
  decode .c64 [0xD8, 0xC1] = .ok (.fadd (.st0 1), 2) ∧
  decode .c64 [0x66, 0x0F, 0x54, 0xC1] = .ok (.andpd 0 (.reg 1), 4) ∧
  decode .c16 [0x66, 0xCF] = .ok (.iret .b32, 2) ∧
  decode .c32 [0x37] = .ok (.aaa, 1)

/-- LFENCE: its encoding `0F AE /5` with a register form, whatever its r/m field, and no effect but the advance of the instruction pointer (R424). -/
def Obligations.LoadFence : Prop :=
  ∀ (c : CodeSize) (s : State) (rm : BitVec 3) (rest : List Byte),
    decode c (0x0F :: 0xAE :: (0xE8 ||| rm.setWidth 8) :: rest) = .ok (.lfence, 3) ∧
    exec .lfence s = .next { s with rip := s.nextPc }
end

