-- ==== Sys2Proof/Laws/Config.lean ====
section
/-! SUPPORT. What the operations that read a parameter of R10 answer at its value for the first implementation: one
lemma for each, so that no proof unfolds a parameter. -/

namespace Sys2Proof.Machine

/-- A table base has bits 39:12 (R136, PA_BITS = 40). -/
theorem entryBase_eq (e : Word) : entryBase e = e.toNat % 2 ^ 40 / 4096 * 4096 := by
  show (e.extractLsb' 12 28).toNat * 4096 = _
  rw [BitVec.extractLsb'_toNat, Nat.shiftRight_eq_div_pow]
  omega

/-- The checked reserved bits of the IA-32e entries: 63 and 51:40 (R144). -/
@[simp] theorem rsvd64_eq (e : Word) : rsvd64 e = 0x800FFF0000000000 := by
  unfold rsvd64; decide

/-- A page-directory entry of IA-32e mode also checks 20:13 with PS = 1 (R144). -/
theorem rsvdPde64_eq (e : Word) :
    rsvdPde64 e = if e.getLsbD 7 then 0x800FFF00001FE000 else 0x800FFF0000000000 := by
  unfold rsvdPde64 rsvdLarge rsvd64
  split <;> decide

/-- The checked reserved bits of the legacy PAE entries: 63:40 (R144). -/
@[simp] theorem rsvdPae_eq (e : Word) : rsvdPae e = 0xFFFFFF0000000000 := by
  unfold rsvdPae; decide

/-- A legacy PAE page-directory-pointer entry also checks 8:5 and 2:1 (R144). -/
@[simp] theorem rsvdPaePdpte_eq (e : Word) : rsvdPaePdpte e = 0xFFFFFF00000001E6 := by
  unfold rsvdPaePdpte rsvdPae; decide

/-- A legacy PAE page-directory entry also checks 20:13 with PS = 1 (R144). -/
theorem rsvdPaePde_eq (e : Word) :
    rsvdPaePde e = if e.getLsbD 7 then 0xFFFFFF00001FE000 else 0xFFFFFF0000000000 := by
  unfold rsvdPaePde rsvdLarge rsvdPae
  split <;> decide

/-- A 4-MByte page checks bit 21 (R144). -/
@[simp] theorem bitRange_psePage : bitRange 21 (Config.paBits - 19) = 0x200000 := by
  decide

/-- The control registers are CR0, CR2, CR3, CR4 and, in 64-bit mode, CR8 (R785). -/
theorem crImplemented_contains (cr : Reg) :
    Config.crImplemented.contains cr = (cr == 0 || cr == 2 || cr == 3 || cr == 4 || cr == 8) := by
  revert cr; decide

/-- The debug registers are DR0 to DR7 (R786). -/
theorem drImplemented_contains (dr : Reg) : Config.drImplemented.contains dr = decide (dr.toNat < 8) := by
  revert dr; decide

/-- SYSCALL and SYSRET exist in 64-bit mode only (R792). -/
@[simp] theorem State.syscallMode_eq (s : State) : s.syscallMode = s.is64 := by
  unfold State.syscallMode; simp

/-- SYSCALL in 64-bit mode goes to LSTAR (R792). -/
theorem State.syscallTarget_of_is64 {s : State} (h : s.is64 = true) : s.syscallTarget = some s.lstar := if_pos h

/-- LLDT and LTR read the low half of a descriptor first (R427). -/
theorem readDesc16_eq (sel : BitVec 16) : readDesc16 sel = (do
    let lo ← readDescPart sel false 16 0
    let hi ← readDescPart sel false 16 8
    pure (lo, hi)) := rfl

/-- FXSAVE and FXRSTOR handle MXCSR and the XMM registers with and without CR4.OSFXSR (D22). -/
@[simp] theorem State.fxSimd_eq (s : State) : s.fxSimd = true := Bool.or_true _

/-- The XMM part of an image of FXSAVE (R440). -/
theorem xmmFields_eq (s : State) (hidden skipped : Nat) :
    xmmFields s hidden skipped = if s.is64 then xmmRows s 16 else (xmmRows s 16).take 8 ++ [(128, hidden)] := by
  simp [xmmFields]

/-- What FXRSTOR loads of the SSE state (R441). -/
theorem State.loadSimd_eq (s : State) (img : Nat) (mx : BitVec 32) :
    s.loadSimd img mx = { s with mxcsr := mx, xmm := loadXmm img s.xmm (if s.is64 then 16 else 8) } := by
  simp [State.loadSimd]

end Sys2Proof.Machine

namespace Sys2Proof

/-- The displacement of a near branch has 16 bits with a 16-bit operand size, which no near branch has in 64-bit mode
(R199). -/
@[simp] theorem Ctx.rel16_eq (x : Ctx) : x.rel16 = (x.nearOsz == .b16) := by simp [Ctx.rel16]

end Sys2Proof
end

