-- ==== Sys2Proof/Laws/Decode.lean ====
section
/-! SUPPORT. What the readers of the decoder and the parts of the encoder do to each other, once for all instructions:
numbers, prefixes, and the ModR/M operand. -/

namespace Sys2Proof

open Machine (CodeSize)

/-! ### Numbers -/

theorem nextByte_cons (b : Byte) (l : List Byte) : nextByte (b :: l) = .ok (b, l) := rfl

/-- Running two readers in turn, where the first one succeeds. -/
theorem reader_bind {α β : Type} {r : Reader α} {f : α → Reader β} {l t : List Byte} {a : α} (h : r l = .ok (a, t)) :
    (r >>= f) l = f a t := by
  show (StateT.bind r f) l = _
  unfold StateT.bind
  rw [h]
  rfl

theorem reader_pure {α : Type} (a : α) (l : List Byte) : (pure a : Reader α) l = .ok (a, l) := rfl

/-- Reading back a number written low-order byte first (R100). -/
theorem nextLE_leBytes (n v : Nat) (rest : List Byte) : nextLE n (leBytes n v ++ rest) = .ok (v % 256 ^ n, rest) := by
  induction n generalizing v with
  | zero => rw [Nat.pow_zero, Nat.mod_one]; rfl
  | succ n ih =>
    show (nextByte >>= fun b => nextLE n >>= fun r => pure (b.toNat + 256 * r)) (BitVec.ofNat 8 v :: (leBytes n (v / 256) ++ rest)) = _
    rw [reader_bind (nextByte_cons _ _), reader_bind (ih (v / 256)), reader_pure, BitVec.toNat_ofNat,
      show (256 : Nat) ^ (n + 1) = 256 * 256 ^ n from Nat.pow_succ', Nat.mod_mul]

/-- Reading back a field of whole bytes. -/
theorem nextField_leBytes {n : Nat} (h : n / 8 * 8 = n) (i : BitVec n) (rest : List Byte) :
    nextField n (leBytes (n / 8) i.toNat ++ rest) = .ok (i, rest) := by
  show (nextLE (n / 8) >>= fun v => pure (BitVec.ofNat n v)) _ = _
  rw [reader_bind (nextLE_leBytes _ _ _), reader_pure]
  have e : 256 ^ (n / 8) = 2 ^ n := by
    rw [show (256 : Nat) = 2 ^ 8 from rfl, ← Nat.pow_mul, Nat.mul_comm, h]
  rw [e, Nat.mod_eq_of_lt i.isLt, BitVec.ofNat_toNat, BitVec.setWidth_eq]

/-- Reading back a displacement of `n` bits that its sign extension gives back (R191). -/
theorem nextField_dispBytes {n : Nat} (h : n / 8 * 8 = n) (d : Word) (rest : List Byte) :
    nextField n (dispBytes (n / 8) d ++ rest) = .ok (d.setWidth n, rest) := by
  show (nextLE (n / 8) >>= fun v => pure (BitVec.ofNat n v)) _ = _
  unfold dispBytes
  rw [reader_bind (nextLE_leBytes _ _ _), reader_pure]
  have e : 256 ^ (n / 8) = 2 ^ n := by
    rw [show (256 : Nat) = 2 ^ 8 from rfl, ← Nat.pow_mul, Nat.mul_comm, h]
  congr 2
  apply BitVec.eq_of_toNat_eq
  rw [BitVec.toNat_ofNat, e, Nat.mod_mod, BitVec.toNat_setWidth]

/-! ### Prefixes -/

/-- The REX bits of an encoding, if it has a REX prefix (R182). -/
def Pre.rex (p : Pre) : Option (BitVec 4) :=
  if p.w || p.r || p.x || p.b || p.force then
    some (BitVec.ofBool p.w ++ BitVec.ofBool p.r ++ BitVec.ofBool p.x ++ BitVec.ofBool p.b)
  else none

/-- The prefixes that the bytes of an encoding put in force, after a LOCK prefix if `l`. -/
def Pre.prefixes (p : Pre) (l : Bool) : Prefixes :=
  { p66 := p.p66, p67 := p.p67, lock := l && p.rep == .none, rep := p.rep, seg := p.seg, rex := p.rex }

/-- A legacy prefix is recorded, and the decoder goes on (R172). -/
theorem decodeFrom_legacy {c : CodeSize} {p q : Prefixes} {b : Byte} (h : addPrefix p b = some q) (t : List Byte) :
    decodeFrom c p (b :: t) = decodeFrom c q t := by
  rw [decodeFrom, h]

/-- In 64-bit mode a byte from 40H to 4FH is a REX prefix (R181). -/
theorem decodeFrom_rex (p : Prefixes) (r : BitVec 4) (t : List Byte) :
    decodeFrom .c64 p ((4#4 ++ r) :: t) = decodeFrom .c64 { p with rex := some r } t := by
  have h1 : addPrefix p (4#4 ++ r) = none := by
    unfold addPrefix
    have : ∀ r : BitVec 4, (4#4 ++ r).toNat = 64 + r.toNat := by decide
    rw [this]
    have hr := r.isLt
    generalize r.toNat = n at hr
    interval_cases n <;> rfl
  have h2 : ∀ r : BitVec 4, (4#4 ++ r).extractLsb' 4 4 = 4#4 ∧ (4#4 ++ r).extractLsb' 0 4 = r := by decide
  rw [decodeFrom, h1]
  simp [(h2 r).1, (h2 r).2]

/-- A segment override, if there is one, is recorded. -/
theorem decodeFrom_seg (c : CodeSize) (q : Prefixes) (h : q.rex = none) (hs : q.seg = none) (s : Option SReg) (t : List Byte) :
    decodeFrom c q ((match s with | some s => [segByte s] | none => []) ++ t) = decodeFrom c { q with seg := s } t := by
  obtain ⟨⟩ := q
  cases h
  cases hs
  cases s with
  | none => rfl
  | some s => cases s <;> exact decodeFrom_legacy rfl t

/-- An operand-size prefix, if there is one, is recorded. -/
theorem decodeFrom_p66 (c : CodeSize) (q : Prefixes) (h : q.rex = none) (hs : q.p66 = false) (b : Bool) (t : List Byte) :
    decodeFrom c q ((if b then [0x66] else []) ++ t) = decodeFrom c { q with p66 := b } t := by
  obtain ⟨⟩ := q
  cases h
  cases hs
  cases b
  · rfl
  · exact decodeFrom_legacy rfl t

/-- An address-size prefix, if there is one, is recorded. -/
theorem decodeFrom_p67 (c : CodeSize) (q : Prefixes) (h : q.rex = none) (hs : q.p67 = false) (b : Bool) (t : List Byte) :
    decodeFrom c q ((if b then [0x67] else []) ++ t) = decodeFrom c { q with p67 := b } t := by
  obtain ⟨⟩ := q
  cases h
  cases hs
  cases b
  · rfl
  · exact decodeFrom_legacy rfl t

/-- A repeat prefix, if there is one, is recorded, and ends a LOCK prefix before it. -/
theorem decodeFrom_rep (c : CodeSize) (q : Prefixes) (h : q.rex = none) (hs : q.rep = .none) (r : Rep) (t : List Byte) :
    decodeFrom c q (repBytes r ++ t) = decodeFrom c { q with rep := r, lock := q.lock && r == .none } t := by
  obtain ⟨_, _, l⟩ := q
  cases h
  cases hs
  cases r
  · cases l <;> rfl
  · cases l <;> exact decodeFrom_legacy rfl t
  · cases l <;> exact decodeFrom_legacy rfl t

/-- The REX prefix of an encoding, if it has one, is recorded; it needs 64-bit mode. -/
theorem decodeFrom_rexBytes {c : CodeSize} {p : Pre} (hc : p.rex ≠ none → c = .c64) (q : Prefixes) (h : q.rex = none)
    (t : List Byte) : decodeFrom c q (p.rexBytes ++ t) = decodeFrom c { q with rex := p.rex } t := by
  obtain ⟨_, _, _, _, w, r, x, b, f⟩ := p
  unfold Pre.rexBytes
  unfold Pre.rex at *
  by_cases k : (w || r || x || b || f) = true
  · have hc : c = .c64 := hc (by simp only [k, if_true]; exact Option.some_ne_none _)
    subst hc
    simp only [k, if_true]
    have e : 4#4 ++ BitVec.ofBool w ++ BitVec.ofBool r ++ BitVec.ofBool x ++ BitVec.ofBool b =
        4#4 ++ (BitVec.ofBool w ++ BitVec.ofBool r ++ BitVec.ofBool x ++ BitVec.ofBool b) := by
      cases w <;> cases r <;> cases x <;> cases b <;> rfl
    rw [e]
    exact decodeFrom_rex q _ t
  · simp only [k]
    obtain ⟨⟩ := q
    cases h
    rfl

/-- The prefix bytes of an encoding put its prefixes in force; a REX prefix needs 64-bit mode (R170, R181). -/
theorem decodeFrom_pre {c : CodeSize} {p : Pre} (h : p.rex ≠ none → c = .c64) (l : Bool) (t : List Byte) :
    decodeFrom c { lock := l } (p.bytes ++ t) = decodeFrom c (p.prefixes l) t := by
  unfold Pre.bytes
  simp only [List.append_assoc]
  refine (decodeFrom_seg c _ rfl rfl p.seg _).trans ?_
  rw [decodeFrom_p66 c _ rfl rfl, decodeFrom_p67 c _ rfl rfl, decodeFrom_rep c _ rfl rfl,
    decodeFrom_rexBytes h _ rfl]
  rfl

/-- The byte after the prefixes is the opcode (R210). -/
theorem decodeFrom_opcode {c : CodeSize} {q : Prefixes} {b : Byte} (h : addPrefix q b = none)
    (hr : c = .c64 → b.extractLsb' 4 4 ≠ 4) (t : List Byte) :
    decodeFrom c q (b :: t) = match decOpcode { size := c, p := q } b t with
      | .ok (i, rest) => .ok (if q.lock then .lock (lockOf i) else i, rest)
      | .error e => .error e := by
  rw [decodeFrom, h]
  have : (c = .c64 && b.extractLsb' 4 4 == 4) = false := by
    by_cases k : c = .c64
    · rw [Bool.and_eq_false_iff]
      exact .inr (by simpa using hr k)
    · simp [k]
  simp only [this]
  rfl

/-- Decoding the whole of an encoding: what is left after it is what was behind it. -/
theorem decode_of_decodeFrom {c : CodeSize} {bs rest : List Byte} {i : Instr} (h : decodeFrom c {} (bs ++ rest) = .ok (i, rest)) :
    decode c (bs ++ rest) = .ok (i, bs.length) := by
  unfold decode
  rw [h]
  simp

/-! ### The ModR/M operand -/

/-- The fields of a ModR/M byte come back (R185). -/
theorem splitModRm_append (mod : BitVec 2) (reg rm : BitVec 3) : splitModRm (mod ++ reg ++ rm) = { mod := mod, reg := reg, rm := rm } := by
  revert mod reg rm
  decide

/-- A register number is its REX bit and its 3-bit field (R183). -/
theorem regNum_parts (r : Reg) : regNum (r.getLsbD 3) (r.extractLsb' 0 3) = r := by
  revert r
  decide

/-- The effective address size comes back from the prefix (R177). -/
theorem asz_of_flag {c : CodeSize} {a : ASize} (h : okAsz c a = true) {p : Prefixes} (hp : p.p67 = aszFlag c a) :
    ({ size := c, p := p } : Ctx).asz = a := by
  unfold Ctx.asz
  simp only [hp]
  cases c <;> cases a <;> first | rfl | exact absurd h (by decide)

/-- The prefixes and the code size fit the encoding of a memory operand: the address size, the segment override, REX.X
and REX.B. -/
structure Ctx.Fits (x : Ctx) (e : RmEnc) : Prop where
  p67 : x.p.p67 = e.pre.p67
  seg : x.p.seg = e.pre.seg
  index : x.rexBit 1 = e.pre.x
  base : x.rexBit 0 = e.pre.b

/-- The r/m field of a 16-bit form stands for its base and index (R190). -/
theorem form16_form16Of {b : Reg} {i : Option Index} {k : BitVec 3} (h : form16Of b i = some k) : form16 k = (.reg b, i) := by
  unfold form16Of at h
  split at h <;> cases h
  all_goals
    rename_i hb
    have : b = BitVec.ofNat 4 b.toNat := by simp
    rw [hb] at this
    subst this
    rfl

/-- The segment and the address size of a memory operand come back (R118, R174). -/
theorem withSeg_memEnc {x : Ctx} {m : Mem} (ha : x.asz = m.asz)
    (h : x.p.seg = if m.seg = defaultSeg m.base then none else some m.seg) :
    withSeg x m.base m.index m.disp = m := by
  unfold withSeg
  rw [h, ha]
  obtain ⟨seg, base, index, disp, asz⟩ := m
  by_cases k : seg = defaultSeg base
  · simp [k]
  · simp [k]

/-- A displacement that its low bits give back (R191). -/
theorem okDisp_signExtend {n : Nat} {d : Word} (h : okDisp n d = true) : (d.setWidth n).signExtend 64 = d := by
  simpa [okDisp] using h

/-- A long displacement is read back (R186). -/
theorem nextDisp_dispBytes {n : Nat} (h : n / 8 * 8 = n) {d : Word} (hd : okDisp n d = true) (rest : List Byte) :
    nextDisp 2 n (dispBytes (n / 8) d ++ rest) = .ok (d, rest) := by
  show (nextField n >>= fun d => pure (d.signExtend 64)) _ = _
  rw [reader_bind (nextField_dispBytes h d rest), reader_pure, okDisp_signExtend hd]

/-- The parts of a SIB byte come back (R187). -/
theorem sibByte_parts (i : Option Index) (b : BitVec 3) (h : ∀ j, i = some j → j.reg ≠ 4) :
    (sibByte i b).extractLsb' 0 3 = b ∧
    (let r := regNum (indexExt i) ((sibByte i b).extractLsb' 3 3)
     (if r == 4 then none else some { reg := r, scale := (sibByte i b).extractLsb' 6 2 : Index }) = i) := by
  cases i with
  | none => revert b; decide
  | some j =>
    obtain ⟨r, s⟩ := j
    have k := h _ rfl
    have e : ∀ (s : BitVec 2) (r : Reg) (b : BitVec 3), (s ++ r.extractLsb' 0 3 ++ b).extractLsb' 0 3 = b ∧
        regNum (r.getLsbD 3) ((s ++ r.extractLsb' 0 3 ++ b).extractLsb' 3 3) = r ∧
        (s ++ r.extractLsb' 0 3 ++ b).extractLsb' 6 2 = s := by decide +kernel
    obtain ⟨e1, e2, e3⟩ := e s r b
    refine ⟨e1, ?_⟩
    have e2 : regNum (indexExt (some ⟨r, s⟩)) ((sibByte (some ⟨r, s⟩) b).extractLsb' 3 3) = r := e2
    have e3 : (sibByte (some ⟨r, s⟩) b).extractLsb' 6 2 = s := e3
    have : (r == 4) = false := by simpa using k
    simp only [e2, e3, this]
    rfl

/-- The prefixes of a memory operand: the address size, the segment, and the bits of index and base. -/
theorem memEnc_pre (c : CodeSize) (m : Mem) : (memEnc c m).pre.p67 = aszFlag c m.asz ∧
    (memEnc c m).pre.seg = (if m.seg = defaultSeg m.base then none else some m.seg) ∧ (memEnc c m).mod ≠ 3 ∧
    (memEnc c m).pre.force = false := by
  obtain ⟨seg, base, index, disp, asz⟩ := m
  unfold memEnc
  by_cases k : asz = .a16
  · simp only [k, if_true]
    cases base <;> exact ⟨rfl, rfl, (by simp), rfl⟩
  · simp only [k, if_false]
    cases base <;> exact ⟨rfl, rfl, (by simp), rfl⟩

/-- READING BACK A MEMORY OPERAND: after a ModR/M byte with the fields of its encoding, in a context that its prefixes
make, the bytes of the encoding give the operand (R186 to R191). -/
theorem nextMem_memEnc {x : Ctx} {m : Mem} (h : okMem x.size m = true) (f : x.Fits (memEnc x.size m)) (reg : BitVec 3)
    (rest : List Byte) :
    nextMem x { mod := (memEnc x.size m).mod, reg := reg, rm := (memEnc x.size m).rm } ((memEnc x.size m).tail ++ rest) =
      .ok (m, rest) := by
  have hp := memEnc_pre x.size m
  unfold okMem at h
  rw [Bool.and_eq_true] at h
  obtain ⟨hz, h⟩ := h
  have ha : x.asz = m.asz := asz_of_flag (p := x.p) hz (f.p67.trans hp.1)
  have hs := withSeg_memEnc ha (f.seg.trans hp.2.1)
  have hx := f.index
  have hb := f.base
  unfold nextMem
  rw [ha]
  obtain ⟨seg, base, index, disp, asz⟩ := m
  unfold memEnc at *
  by_cases k : asz = .a16
  · subst k
    simp only [if_true] at *
    rw [Bool.and_eq_true] at h
    obtain ⟨hd, h⟩ := h
    cases base with
    | none =>
      simp only [Option.isNone_iff_eq_none] at h
      subst h
      show (nextField 16 >>= fun d => pure (withSeg x .none none (d.signExtend 64))) _ = _
      rw [reader_bind (nextField_dispBytes rfl disp rest), reader_pure, okDisp_signExtend hd, hs]
    | rip => cases h
    | reg b =>
      obtain ⟨k, hk⟩ := Option.isSome_iff_exists.mp h
      simp only [hk, Option.getD_some]
      show (nextDisp 2 16 >>= fun d => _) _ = _
      rw [reader_bind (nextDisp_dispBytes rfl hd rest), form16_form16Of hk]
      show (pure (withSeg x (.reg b) index disp) : Reader Mem) _ = _
      rw [hs, reader_pure]
  · simp only [k, if_false] at *
    rw [Bool.and_eq_true, Bool.and_eq_true] at h
    obtain ⟨⟨hd, hi⟩, h⟩ := h
    have hn : ∀ j, index = some j → j.reg ≠ 4 := by
      rintro j rfl
      simpa using (Bool.and_eq_true_iff.mp hi).2
    cases base with
    | none =>
      show (memSib x { mod := 0, reg := reg, rm := 4 }) _ = _
      obtain ⟨s1, s2⟩ := sibByte_parts index 5 hn
      show (nextByte >>= fun sib => _) _ = _
      rw [List.cons_append, reader_bind (nextByte_cons _ _)]
      simp only [s1, show x.rexBit 1 = indexExt index from hx, s2]
      show (nextField 32 >>= fun d => pure (withSeg x .none index (d.signExtend 64))) _ = _
      rw [reader_bind (nextField_dispBytes rfl disp rest), reader_pure, okDisp_signExtend hd, hs]
    | rip =>
      rw [Bool.and_eq_true, Option.isNone_iff_eq_none, beq_iff_eq] at h
      obtain ⟨hc, rfl⟩ := h
      show (nextField 32 >>= fun d => pure (withSeg x (if x.size = .c64 then .rip else .none) none (d.signExtend 64))) _ = _
      rw [reader_bind (nextField_dispBytes rfl disp rest), reader_pure, okDisp_signExtend hd, if_pos hc, hs]
    | reg b =>
      show (memSib x { mod := 2, reg := reg, rm := 4 }) _ = _
      obtain ⟨s1, s2⟩ := sibByte_parts index (b.extractLsb' 0 3) hn
      show (nextByte >>= fun sib => _) _ = _
      rw [List.cons_append, reader_bind (nextByte_cons _ _)]
      simp only [s1, show x.rexBit 1 = indexExt index from hx, s2, show x.rexBit 0 = b.getLsbD 3 from hb, regNum_parts]
      show (nextDisp 2 32 >>= fun d => _) _ = _
      rw [reader_bind (nextDisp_dispBytes rfl hd rest), reader_pure, hs]

/-- Reading back an operand of 16, 32 or 64 bits, or of XMM registers (R183, R185). -/
theorem nextRm_rmEnc {x : Ctx} {s : RM} (h : okRm x.size s = true) (f : x.Fits (rmEnc x.size s)) (reg : BitVec 3)
    (rest : List Byte) :
    nextRm x { mod := (rmEnc x.size s).mod, reg := reg, rm := (rmEnc x.size s).rm } ((rmEnc x.size s).tail ++ rest) =
      .ok (s, rest) := by
  cases s with
  | reg r =>
    show (pure (.reg (regNum (x.rexBit 0) (r.extractLsb' 0 3))) : Reader RM) _ = _
    rw [show x.rexBit 0 = r.getLsbD 3 from f.base, regNum_parts]
    rfl
  | mem m =>
    have hm : ((memEnc x.size m).mod == 3) = false := by simpa using (memEnc_pre x.size m).2.2.1
    show nextRm x { mod := (memEnc x.size m).mod, reg := reg, rm := (memEnc x.size m).rm } _ = _
    unfold nextRm
    simp only [hm]
    exact reader_bind (f := fun a => pure (Opnd.mem a)) (nextMem_memEnc h f reg rest)

/-- Reading back an MMX operand (R183). -/
theorem nextMm_mmEnc {x : Ctx} {s : MM} (h : okMm x.size s = true) (f : x.Fits (mmEnc x.size s)) (reg : BitVec 3)
    (rest : List Byte) :
    nextMm x { mod := (mmEnc x.size s).mod, reg := reg, rm := (mmEnc x.size s).rm } ((mmEnc x.size s).tail ++ rest) =
      .ok (s, rest) := by
  cases s with
  | reg r =>
    have e : ∀ r : BitVec 3, (0#1 ++ r).extractLsb' 0 3 = r := by decide
    show (pure (.reg ((0#1 ++ r).extractLsb' 0 3)) : Reader MM) _ = _
    rw [e]
    rfl
  | mem m =>
    have hm : ((memEnc x.size m).mod == 3) = false := by simpa using (memEnc_pre x.size m).2.2.1
    show nextMm x { mod := (memEnc x.size m).mod, reg := reg, rm := (memEnc x.size m).rm } _ = _
    unfold nextMm
    simp only [hm]
    exact reader_bind (f := fun a => pure (Opnd.mem a)) (nextMem_memEnc h f reg rest)

/-- A register operand comes back, if AH, CH, DH and BH stand without a REX prefix and the registers that need one have
it (R31, R184). -/
theorem gregOf_gCode {x : Ctx} {w : Width} {g : GReg} (h : okG x.size w g = true) (hh : isHigh g = true → x.p.rex = none)
    (hr : rexG w g = true → x.p.rex ≠ none) : gregOf x w (gCode g) = g := by
  unfold gregOf
  cases g with
  | high k =>
    have hw : w = .b8 := by simpa [okG] using h
    have e : ∀ k : BitVec 2, (1#2 ++ k).extractLsb' 2 2 = 1 ∧ (1#2 ++ k).extractLsb' 0 2 = k := by decide
    simp [hw, hh rfl, gCode, e]
  | full r =>
    have e : ∀ r : Reg, r.extractLsb' 2 2 = 1 → r.getLsbD 2 = true := by decide
    rw [if_neg]
    · rfl
    · intro k
      simp only [Bool.and_eq_true, decide_eq_true_eq, Option.isNone_iff_eq_none, beq_iff_eq] at k
      exact hr (by simp only [rexG, k.1.1, e r k.2]; simp) k.1.2

/-- Reading back an operand of any width (R184, R185). -/
theorem nextRmb_rmbEnc {x : Ctx} {w : Width} {s : RMB} (h : okRmb x.size w s = true) (f : x.Fits (rmbEnc x.size w s))
    (hg : ∀ g, s = .reg g → gregOf x w (gCode g) = g) (reg : BitVec 3) (rest : List Byte) :
    nextRmb x w { mod := (rmbEnc x.size w s).mod, reg := reg, rm := (rmbEnc x.size w s).rm }
      ((rmbEnc x.size w s).tail ++ rest) = .ok (s, rest) := by
  cases s with
  | reg g =>
    show (pure (.reg (gregOf x w (regNum (x.rexBit 0) ((gCode g).extractLsb' 0 3)))) : Reader RMB) _ = _
    rw [show x.rexBit 0 = (gCode g).getLsbD 3 from f.base, regNum_parts, hg g rfl]
    rfl
  | mem m =>
    have hm : ((memEnc x.size m).mod == 3) = false := by simpa using (memEnc_pre x.size m).2.2.1
    show nextRmb x w { mod := (memEnc x.size m).mod, reg := reg, rm := (memEnc x.size m).rm } _ = _
    unfold nextRmb
    simp only [hm]
    exact reader_bind (f := fun a => pure (Opnd.mem a)) (nextMem_memEnc h f reg rest)

/-! ### An instruction with a ModR/M byte -/

/-- The REX bits in force after the prefixes of an encoding (R182). -/
theorem rexBit_prefixes (c : CodeSize) (p : Pre) (l : Bool) :
    ({ size := c, p := p.prefixes l } : Ctx).rexBit 3 = p.w ∧ ({ size := c, p := p.prefixes l } : Ctx).rexBit 2 = p.r ∧
    ({ size := c, p := p.prefixes l } : Ctx).rexBit 1 = p.x ∧ ({ size := c, p := p.prefixes l } : Ctx).rexBit 0 = p.b := by
  obtain ⟨_, _, _, _, w, r, x, b, f⟩ := p
  have e : ∀ w r x b : Bool, let v := BitVec.ofBool w ++ BitVec.ofBool r ++ BitVec.ofBool x ++ BitVec.ofBool b
      v.getLsbD 3 = w ∧ v.getLsbD 2 = r ∧ v.getLsbD 1 = x ∧ v.getLsbD 0 = b := by decide
  unfold Ctx.rexBit Pre.prefixes Pre.rex
  by_cases k : (w || r || x || b || f) = true
  · simp only [k, if_true]
    exact e w r x b
  · simp only [Bool.or_eq_true, not_or, Bool.not_eq_true] at k
    obtain ⟨⟨⟨⟨rfl, rfl⟩, rfl⟩, rfl⟩, rfl⟩ := k
    exact ⟨rfl, rfl, rfl, rfl⟩

/-- The prefixes of an instruction with a ModR/M byte: its own, those of the number in the reg field, and those of the
operand. -/
def assemblePre (p : Pre) (reg : Reg) (force : Bool) (e : RmEnc) : Pre :=
  { p with p67 := e.pre.p67, seg := e.pre.seg, r := reg.getLsbD 3, x := e.pre.x, b := e.pre.b, force := force || e.pre.force }

/-- The context that the prefixes of an instruction with a ModR/M byte make fits its operand, and gives back its W bit
and the number in the reg field. -/
theorem fits_assemblePre (c : CodeSize) (p : Pre) (reg : Reg) (force : Bool) (e : RmEnc) (l : Bool) (mod : BitVec 2)
    (rm : BitVec 3) :
    let x : Ctx := { size := c, p := (assemblePre p reg force e).prefixes l }
    x.Fits e ∧ x.w = p.w ∧ regOf x { mod := mod, reg := reg.extractLsb' 0 3, rm := rm } = reg := by
  intro x
  obtain ⟨h3, h2, h1, h0⟩ := rexBit_prefixes c (assemblePre p reg force e) l
  refine ⟨⟨rfl, rfl, h1, h0⟩, h3, ?_⟩
  show regNum (x.rexBit 2) (reg.extractLsb' 0 3) = reg
  rw [show x.rexBit 2 = reg.getLsbD 3 from h2, regNum_parts]

/-- DECODING AN INSTRUCTION WITH A ModR/M BYTE: the decoder comes to its opcode in the context its prefixes make, with the
rest of the opcode, the ModR/M byte, the operand's bytes and the immediates before it. -/
theorem decodeFrom_assemble {c : CodeSize} {p : Pre} {b : Byte} {op : List Byte} {reg : Reg} {force : Bool} {e : RmEnc}
    {imm rest : List Byte} {l : Bool} (hb : ∀ q, addPrefix q b = none) (h4 : c = .c64 → b.extractLsb' 4 4 ≠ 4)
    (hc : (assemblePre p reg force e).rex ≠ none → c = .c64) :
    let x : Ctx := { size := c, p := (assemblePre p reg force e).prefixes l }
    decodeFrom c { lock := l } (assemble p (b :: op) reg force e imm ++ rest) =
      match decOpcode x b (op ++ ((e.mod ++ reg.extractLsb' 0 3 ++ e.rm) :: (e.tail ++ (imm ++ rest)))) with
      | .ok (i, r) => .ok (if x.p.lock then .lock (lockOf i) else i, r)
      | .error k => .error k := by
  intro x
  have h : assemble p (b :: op) reg force e imm ++ rest =
      (assemblePre p reg force e).bytes ++ (b :: (op ++ ((e.mod ++ reg.extractLsb' 0 3 ++ e.rm) :: (e.tail ++ (imm ++ rest))))) := by
    unfold assemble
    simp only [List.append_assoc, List.cons_append, List.nil_append]
    rfl
  rw [h, decodeFrom_pre hc, decodeFrom_opcode (hb _) h4]

/-- A register number above 7 is one of 64-bit mode (R183). -/
theorem okReg_ext {c : CodeSize} {r : Reg} (h : okReg c r = true) : r.getLsbD 3 = true → c = .c64 := by
  intro k
  simpa only [okReg, k, Bool.not_true, Bool.or_false, beq_iff_eq] using h

/-- An encoding needs REX only in 64-bit mode (R180). -/
structure RmEnc.RexOk (c : CodeSize) (e : RmEnc) : Prop where
  x : e.pre.x = true → c = .c64
  b : e.pre.b = true → c = .c64
  force : e.pre.force = true → c = .c64

/-- A memory operand needs REX only in 64-bit mode (R183). -/
theorem rexOk_memEnc {c : CodeSize} {m : Mem} (h : okMem c m = true) : (memEnc c m).RexOk c := by
  obtain ⟨seg, base, index, disp, asz⟩ := m
  unfold okMem at h
  rw [Bool.and_eq_true] at h
  obtain ⟨-, h⟩ := h
  have hi : okIndex c index = true → indexExt index = true → c = .c64 := by
    intro h k
    cases index with
    | none => cases k
    | some j => exact okReg_ext (Bool.and_eq_true_iff.mp h).1 k
  unfold memEnc
  by_cases k : asz = .a16
  · simp only [k, if_true] at *
    cases base <;> exact ⟨nofun, nofun, nofun⟩
  · simp only [k, if_false] at *
    rw [Bool.and_eq_true, Bool.and_eq_true] at h
    cases base with
    | none => exact ⟨hi h.1.2, nofun, nofun⟩
    | rip => exact ⟨nofun, nofun, nofun⟩
    | reg b => exact ⟨hi h.1.2, okReg_ext h.2, nofun⟩

/-- So does an operand of 16, 32 or 64 bits. -/
theorem rexOk_rmEnc {c : CodeSize} {s : RM} (h : okRm c s = true) : (rmEnc c s).RexOk c := by
  cases s with
  | reg r => exact ⟨nofun, okReg_ext h, nofun⟩
  | mem m => exact rexOk_memEnc h

/-- So does an MMX operand. -/
theorem rexOk_mmEnc {c : CodeSize} {s : MM} (h : okMm c s = true) : (mmEnc c s).RexOk c := by
  cases s with
  | reg r =>
    have e : ∀ r : BitVec 3, (0#1 ++ r).getLsbD 3 = false := by decide
    exact ⟨nofun, fun k => absurd (k.symm.trans (e r)) (by decide), nofun⟩
  | mem m => exact rexOk_memEnc h

/-- A general register needs REX only in 64-bit mode (R183, R184). -/
theorem okG_rex {c : CodeSize} {w : Width} {g : GReg} (h : okG c w g = true) :
    ((gCode g).getLsbD 3 = true → c = .c64) ∧ (gForce w g = true → c = .c64) := by
  cases g with
  | full r =>
    rw [okG, Bool.and_eq_true] at h
    refine ⟨okReg_ext h.1, fun k => ?_⟩
    rw [gForce, Bool.and_eq_true] at k
    have := h.2
    rw [k.2, show w = .b8 by simpa using k.1] at this
    simpa using this
  | high k =>
    have e : ∀ k : BitVec 2, (1#2 ++ k).getLsbD 3 = false := by decide
    exact ⟨fun q => absurd (q.symm.trans (e k)) (by decide), nofun⟩

/-- So does an operand of any width. -/
theorem rexOk_rmbEnc {c : CodeSize} {w : Width} {s : RMB} (h : okRmb c w s = true) : (rmbEnc c w s).RexOk c := by
  cases s with
  | reg g => exact ⟨nofun, (okG_rex h).1, (okG_rex h).2⟩
  | mem m => exact rexOk_memEnc h

/-- The prefixes of an instruction with a ModR/M byte hold REX only in 64-bit mode. -/
theorem rex_assemblePre {c : CodeSize} {p : Pre} {reg : Reg} {force : Bool} {e : RmEnc} (he : e.RexOk c)
    (hw : p.w = true → c = .c64) (hr : reg.getLsbD 3 = true → c = .c64) (hf : force = true → c = .c64) :
    (assemblePre p reg force e).rex ≠ none → c = .c64 := by
  intro h
  unfold Pre.rex at h
  split at h
  · next k =>
    simp only [assemblePre, Bool.or_eq_true] at k
    obtain (((k | k) | k) | k) | k | k := k
    exacts [hw k, hr k, he.x k, he.b k, hf k, he.force k]
  · exact absurd rfl h

/-- An operand size needs REX.W only in 64-bit mode (R178). -/
theorem oszPre_w {c : CodeSize} {w : Width} (h : okWidth c w = true) : (oszPre c w).w = true → c = .c64 := by
  cases w <;> simp_all [okWidth, okOsz, oszPre]

/-- Decoding an instruction with a ModR/M byte and without LOCK, where the decoder reads it from its opcode on. -/
theorem decode_assemble {c : CodeSize} {p : Pre} {b : Byte} {op : List Byte} {reg : Reg} {force : Bool} {e : RmEnc}
    {imm rest : List Byte} {i : Instr} (hb : ∀ q, addPrefix q b = none) (h4 : c = .c64 → b.extractLsb' 4 4 ≠ 4)
    (hc : (assemblePre p reg force e).rex ≠ none → c = .c64)
    (h : decOpcode { size := c, p := (assemblePre p reg force e).prefixes false } b
      (op ++ ((e.mod ++ reg.extractLsb' 0 3 ++ e.rm) :: (e.tail ++ (imm ++ rest)))) = .ok (i, rest)) :
    decode c (assemble p (b :: op) reg force e imm ++ rest) = .ok (i, (assemble p (b :: op) reg force e imm).length) := by
  refine decode_of_decodeFrom ((decodeFrom_assemble (l := false) hb h4 hc).trans ?_)
  simp only [h]
  rfl

/-- Reading the ModR/M byte of an encoding. -/
theorem nextModRm_cons (mod : BitVec 2) (reg rm : BitVec 3) (t : List Byte) :
    nextModRm ((mod ++ reg ++ rm) :: t) = .ok ({ mod := mod, reg := reg, rm := rm }, t) := by
  show (nextByte >>= fun b => pure (splitModRm b)) _ = _
  rw [reader_bind (nextByte_cons _ _), splitModRm_append, reader_pure]

/-! ### Sizes -/

/-- The operand size comes back from its prefixes (R178). -/
theorem osz_oszPre {x : Ctx} {w : Width} (h : okOsz x.size w = true) (h66 : x.p.p66 = (oszPre x.size w).p66)
    (hw : x.w = (oszPre x.size w).w) : x.osz = w := by
  obtain ⟨c, p⟩ := x
  unfold Ctx.osz
  cases c <;> cases w <;> simp_all [okOsz, oszPre]

/-- The stack operand size comes back from its prefixes (R198). -/
theorem stackOsz_stackPre {x : Ctx} {w : Width} (h : okStack x.size w = true) (h66 : x.p.p66 = (stackPre x.size w).p66)
    (hw : x.w = false) : x.stackOsz = w := by
  obtain ⟨c, p⟩ := x
  unfold Ctx.stackOsz Ctx.osz
  cases c <;> cases w <;> simp_all [okStack, stackPre, oszPre]

/-- The size of a near branch comes back from its prefixes (R199). -/
theorem nearOsz_nearPre {x : Ctx} {w : Width} (h : okNear x.size w = true) (h66 : x.p.p66 = (nearPre x.size w).p66)
    (hw : x.w = false) : x.nearOsz = w := by
  obtain ⟨c, p⟩ := x
  unfold Ctx.nearOsz Ctx.osz
  cases c <;> cases w <;> simp_all [okNear, nearPre, oszPre]

/-- The 16- or 32-bit size of an instruction without a 64-bit form comes back from its prefixes. -/
theorem legacyOsz_oszPre {x : Ctx} {w : Width} (h : okHalf w = true) (h66 : x.p.p66 = (oszPre x.size w).p66)
    (hw : x.w = false) : x.legacyOsz = w ∧ x.ioOsz = w ∧ x.fpuOsz = w ∧ x.osz = w := by
  obtain ⟨c, p⟩ := x
  unfold Ctx.legacyOsz Ctx.ioOsz Ctx.fpuOsz Ctx.osz
  cases c <;> cases w <;> simp_all [okHalf, oszPre]

end Sys2Proof
end

