-- ==== Sys2Proof/Laws/Float.lean ====
section
/-! SUPPORT. What packing, rounding and scaling a finite value do, said once. -/

namespace Sys2Proof.Machine

/-- Exponent field and significand of a value in the normal range (R70, R574). -/
theorem packParts_normal {p bias m : Nat} {e : Int} (h1 : 1 - bias ≤ e + m.log2) (h2 : e + m.log2 ≤ bias) :
    packParts p bias m e = ((e + m.log2 + bias).toNat, m * 2 ^ (p - 1) / 2 ^ m.log2) := by
  have h3 : ¬ (e + m.log2 < 1 - bias) := by omega
  have h4 : ¬ ((bias : Int) < e + m.log2) := by omega
  simp only [packParts, h3, h4, if_false]
  congr 1
  split
  · rw [show p - 1 = (p - 1 - m.log2) + m.log2 by omega, Nat.pow_add, ← Nat.mul_assoc, Nat.mul_div_cancel _ (Nat.two_pow_pos _),
      Nat.add_sub_cancel]
  · have h : m.log2 = (m.log2 - (p - 1)) + (p - 1) := by omega
    conv => rhs; rw [h, Nat.pow_add]
    rw [Nat.mul_div_mul_right _ _ (Nat.two_pow_pos _)]

/-- Exponent field and significand of a value below the normal range: a multiple of the least denormal (R70, R574). -/
theorem packParts_denormal {p bias m : Nat} {e : Int} (h : e + m.log2 < 1 - bias) : packParts p bias m e =
    (0, if (2 - bias - p : Int) ≤ e then m * 2 ^ (e - (2 - bias - p)).toNat else m / 2 ^ ((2 - bias - p) - e).toNat) := by
  simp [packParts, h]

/-- A magnitude of at most `n.p` bits on the grid of the format is not rounded: below the normal range it is reported as an
underflow, with its exponent biased, where that is unmasked (R453). -/
theorem finish_exact {n : Env} (sign : Bool) {m : Nat} {e : Int} (hm : 0 < m) (hp : (m.log2 : Int) < n.p)
    (he : 2 - n.bias - n.p ≤ e) (ht : e + m.log2 ≤ n.bias) (hf : n.fz = false) : finish n sign m e =
    if e + m.log2 < 1 - n.bias ∧ n.masked xU = false then { val := .fin sign m (e + 24576) false, flags := xU, up := false }
    else .exact (.fin sign m e false) := by
  have h1 : ∀ q, q ≤ e → roundAt n.rc sign m e q = { m := m, e := e, inexact := false, up := false } := fun q h => by
    simp [roundAt, h]
  unfold finish
  rw [h1 _ (by omega), h1 _ (by omega)]
  have h2 : ¬ ((n.bias : Int) < e + m.log2) := by omega
  have h3 : m ≠ 0 := by omega
  simp only [h2, if_false, hf, finOrZero, h3, whenFlag, FpOut.exact]
  by_cases h4 : e + m.log2 < 1 - n.bias <;> cases h5 : n.masked xU <;> simp [h4]

/-- Rounding raises overflow, underflow and inexactness only (R453). -/
theorem finish_flags (n : Env) (sign : Bool) (m : Nat) (e : Int) : (finish n sign m e).flags &&& 7 = 0 := by
  have h : ∀ c (f : BitVec 6), f &&& 7 = 0 → whenFlag c f &&& 7 = 0 := fun c f h => by
    cases c
    · simp [whenFlag]
    · exact h
  unfold finish
  dsimp only
  repeat' split
  all_goals first
    | exact h _ _ (by decide)
    | exact (by decide : (xO ||| xP) &&& 7 = 0)
    | exact (by decide : (xU ||| xP) &&& 7 = 0)
    | rw [BitVec.and_or_distrib_right, h _ _ (by decide)]; decide

/-- A finite value as a multiple of a power of two stands for the number it encodes (R70, R574). -/
theorem scaled_number {s d : Bool} {m : Nat} {e q : Int} (h : q ≤ e) :
    ((FVal.fin s m e d).scaled q : ℚ) * 2 ^ q = (if s then -1 else 1) * m * 2 ^ e := by
  have he : (2 : ℚ) ^ e = 2 ^ (e - q).toNat * 2 ^ q := by
    rw [← zpow_natCast, ← zpow_add₀ (by norm_num)]
    congr 1
    omega
  cases s <;> simp [FVal.scaled, FVal.parts, FVal.sign, he] <;> ring

end Sys2Proof.Machine
end

