-- ==== Sys2Proof/Laws/Monad.lean ====
section
/-! SUPPORT. The laws of the meanings' monad: what each primitive answers, and how a sequence runs. -/

namespace Sys2Proof.Machine

variable {α β : Type}

@[simp] theorem M.pure_apply (a : α) (s : State) : (pure a : M α) s = .ok (a, s) := rfl

@[simp] theorem readS_apply (f : State → α) (s : State) : readS f s = .ok (f s, s) := rfl

@[simp] theorem upd_apply (f : State → State) (s : State) : upd f s = .ok ((), f s) := rfl

@[simp] theorem stop_apply (x : Stop) (s : State) : (stop x : M α) s = .error x := rfl

@[simp] theorem raise_apply (e : Event) (s : State) : (raise e : M α) s = .error (.raised e) := rfl

@[simp] theorem raiseHere_apply (e : Event) (s : State) : (raiseHere e : M α) s = .error (.raisedAfter e s) := rfl

@[simp] theorem refuse_apply (r : Refusal) (s : State) : (refuse r : M α) s = .error (.refused r) := rfl

@[simp] theorem draw_apply (s : State) :
    draw s = .ok (Config.freeValue s.freeCount, { s with freeCount := s.freeCount + 1 }) := rfl

/-- A check that does not raise does nothing. -/
@[simp] theorem raiseIf_false (e : Event) (s : State) : raiseIf false e s = .ok ((), s) := rfl

/-- A check that raises ends the run. -/
@[simp] theorem raiseIf_true (e : Event) (s : State) : raiseIf true e s = .error (.raised e) := rfl

/-- A sequence runs its first part and, if that answers, the rest from the state it leaves. -/
theorem M.bind_apply (m : M α) (f : α → M β) (s : State) :
    (m >>= f) s = match m s with | .ok (a, t) => f a t | .error x => .error x := by
  show (StateT.bind m f) s = _
  unfold StateT.bind
  cases m s <;> rfl

/-- A sequence whose first part answers. -/
theorem M.bind_of_ok {m : M α} {f : α → M β} {s t : State} {a : α} (h : m s = .ok (a, t)) :
    (m >>= f) s = f a t := by
  rw [M.bind_apply, h]

/-- A sequence whose first part stops. -/
theorem M.bind_of_error {m : M α} {f : α → M β} {s : State} {x : Stop} (h : m s = .error x) :
    (m >>= f) s = .error x := by
  rw [M.bind_apply, h]

/-- A sequence answers exactly if both its parts do. -/
theorem M.bind_eq_ok {m : M α} {f : α → M β} {s u : State} {b : β} :
    (m >>= f) s = .ok (b, u) ↔ ∃ a t, m s = .ok (a, t) ∧ f a t = .ok (b, u) := by
  rw [M.bind_apply]
  constructor
  · intro h
    split at h
    · exact ⟨_, _, ‹_›, h⟩
    · cases h
  · rintro ⟨a, t, h, h'⟩
    rw [h]
    exact h'

@[simp] theorem readS_bind (f : State → α) (g : α → M β) (s : State) : (readS f >>= g) s = g (f s) s := rfl

@[simp] theorem upd_bind (f : State → State) (g : Unit → M β) (s : State) : (upd f >>= g) s = g () (f s) := rfl

@[simp] theorem draw_bind (g : Word → M β) (s : State) :
    (draw >>= g) s = g (Config.freeValue s.freeCount) { s with freeCount := s.freeCount + 1 } := rfl

@[simp] theorem raise_bind (e : Event) (g : α → M β) (s : State) :
    ((raise e : M α) >>= g) s = .error (.raised e) := rfl

@[simp] theorem raiseIf_false_bind (e : Event) (g : Unit → M β) (s : State) :
    (raiseIf false e >>= g) s = g () s := rfl

@[simp] theorem raiseIf_true_bind (e : Event) (g : Unit → M β) (s : State) :
    (raiseIf true e >>= g) s = .error (.raised e) := rfl

/-- A check answers exactly if its condition fails, and then changes nothing. -/
theorem raiseIf_eq_ok {c : Bool} {e : Event} {s t : State} : raiseIf c e s = .ok ((), t) ↔ c = false ∧ t = s := by
  cases c <;> simp [eq_comm]

/-- A check before a sequence. -/
theorem raiseIf_bind_eq_ok {c : Bool} {e : Event} {g : Unit → M β} {s t : State} {b : β} :
    (raiseIf c e >>= g) s = .ok (b, t) ↔ c = false ∧ g () s = .ok (b, t) := by
  cases c <;> simp

/-! ### Properties of the state that a meaning keeps -/

/-- A stop hands on no state without the property `p`. -/
def Stop.Holds (p : State → Prop) : Stop → Prop
  | .raisedAfter _ t => p t
  | .raised _ => True
  | .refused _ => True

/-- `m` keeps the property `p` of the state, whether it answers or stops. -/
structure Keeps (p : State → Prop) (m : M α) : Prop where
  run : ∀ s, p s → match m s with | .ok (_, t) => p t | .error x => x.Holds p

variable {p : State → Prop}

theorem Keeps.pure (a : α) : Keeps p (pure a : M α) := ⟨fun _ h => h⟩

theorem Keeps.readS (f : State → α) : Keeps p (readS f) := ⟨fun _ h => h⟩

theorem Keeps.upd {f : State → State} (h : ∀ s, p s → p (f s)) : Keeps p (upd f) := ⟨fun s hs => h s hs⟩

theorem Keeps.raise (e : Event) : Keeps p (raise e : M α) := ⟨fun _ _ => trivial⟩

theorem Keeps.refuse (r : Refusal) : Keeps p (refuse r : M α) := ⟨fun _ _ => trivial⟩

theorem Keeps.raiseHere (e : Event) : Keeps p (raiseHere e : M α) := ⟨fun _ h => h⟩

theorem Keeps.raiseIf (c : Bool) (e : Event) : Keeps p (raiseIf c e) := by
  cases c
  · exact ⟨fun _ h => h⟩
  · exact ⟨fun _ _ => trivial⟩

theorem Keeps.draw (h : ∀ s n, p s → p { s with freeCount := n }) : Keeps p draw := ⟨fun s hs => h s _ hs⟩

theorem Keeps.bind {m : M α} {f : α → M β} (hm : Keeps p m) (hf : ∀ a, Keeps p (f a)) : Keeps p (m >>= f) := by
  refine ⟨fun s hs => ?_⟩
  have h := hm.run s hs
  rw [M.bind_apply]
  cases hm' : m s with
  | ok r => rw [hm'] at h; exact (hf r.1).run r.2 h
  | error x => rw [hm'] at h; exact h

/-- After a reading of the state, the rest may use that the state read has the property. -/
theorem Keeps.bind_readS {g : State → α} {f : α → M β} (h : ∀ s, p s → Keeps p (f (g s))) :
    Keeps p (Machine.readS g >>= f) := ⟨fun s hs => (h s hs).run s hs⟩

theorem Keeps.ite {c : Prop} [Decidable c] {m n : M α} (hm : Keeps p m) (hn : Keeps p n) :
    Keeps p (if c then m else n) := by
  split
  · exact hm
  · exact hn

/-- What a kept property gives on an answer. -/
theorem Keeps.of_ok {m : M α} (h : Keeps p m) {s t : State} {a : α} (hs : p s) (e : m s = .ok (a, t)) : p t := by
  have := h.run s hs
  rw [e] at this
  exact this

end Sys2Proof.Machine
end

