-- ==== Sys2Proof/Laws/State.lean ====
section
/-! SUPPORT. What each named update of the state leaves in each field: one lemma for each field. -/

namespace Sys2Proof.Machine


/-! ### put -/

@[simp] theorem State.put_gpr (s : State) (r : Reg) (v : Word) :
    (s.put r v).gpr = s.gpr.set r.toNat v r.isLt := rfl
@[simp] theorem State.put_rip (s : State) (r : Reg) (v : Word) : (s.put r v).rip = s.rip := rfl
@[simp] theorem State.put_nextPc (s : State) (r : Reg) (v : Word) : (s.put r v).nextPc = s.nextPc := rfl
@[simp] theorem State.put_rflags (s : State) (r : Reg) (v : Word) : (s.put r v).rflags = s.rflags := rfl
@[simp] theorem State.put_es (s : State) (r : Reg) (v : Word) : (s.put r v).es = s.es := rfl
@[simp] theorem State.put_cs (s : State) (r : Reg) (v : Word) : (s.put r v).cs = s.cs := rfl
@[simp] theorem State.put_ss (s : State) (r : Reg) (v : Word) : (s.put r v).ss = s.ss := rfl
@[simp] theorem State.put_ds (s : State) (r : Reg) (v : Word) : (s.put r v).ds = s.ds := rfl
@[simp] theorem State.put_fs (s : State) (r : Reg) (v : Word) : (s.put r v).fs = s.fs := rfl
@[simp] theorem State.put_gs (s : State) (r : Reg) (v : Word) : (s.put r v).gs = s.gs := rfl
@[simp] theorem State.put_ldtr (s : State) (r : Reg) (v : Word) : (s.put r v).ldtr = s.ldtr := rfl
@[simp] theorem State.put_tr (s : State) (r : Reg) (v : Word) : (s.put r v).tr = s.tr := rfl
@[simp] theorem State.put_gdtr (s : State) (r : Reg) (v : Word) : (s.put r v).gdtr = s.gdtr := rfl
@[simp] theorem State.put_idtr (s : State) (r : Reg) (v : Word) : (s.put r v).idtr = s.idtr := rfl
@[simp] theorem State.put_cr0 (s : State) (r : Reg) (v : Word) : (s.put r v).cr0 = s.cr0 := rfl
@[simp] theorem State.put_cr2 (s : State) (r : Reg) (v : Word) : (s.put r v).cr2 = s.cr2 := rfl
@[simp] theorem State.put_cr3 (s : State) (r : Reg) (v : Word) : (s.put r v).cr3 = s.cr3 := rfl
@[simp] theorem State.put_cr4 (s : State) (r : Reg) (v : Word) : (s.put r v).cr4 = s.cr4 := rfl
@[simp] theorem State.put_tpr (s : State) (r : Reg) (v : Word) : (s.put r v).tpr = s.tpr := rfl
@[simp] theorem State.put_apicEnabled (s : State) (r : Reg) (v : Word) : (s.put r v).apicEnabled = s.apicEnabled := rfl
@[simp] theorem State.put_dr0 (s : State) (r : Reg) (v : Word) : (s.put r v).dr0 = s.dr0 := rfl
@[simp] theorem State.put_dr1 (s : State) (r : Reg) (v : Word) : (s.put r v).dr1 = s.dr1 := rfl
@[simp] theorem State.put_dr2 (s : State) (r : Reg) (v : Word) : (s.put r v).dr2 = s.dr2 := rfl
@[simp] theorem State.put_dr3 (s : State) (r : Reg) (v : Word) : (s.put r v).dr3 = s.dr3 := rfl
@[simp] theorem State.put_dr6 (s : State) (r : Reg) (v : Word) : (s.put r v).dr6 = s.dr6 := rfl
@[simp] theorem State.put_dr7 (s : State) (r : Reg) (v : Word) : (s.put r v).dr7 = s.dr7 := rfl
@[simp] theorem State.put_efer (s : State) (r : Reg) (v : Word) : (s.put r v).efer = s.efer := rfl
@[simp] theorem State.put_star (s : State) (r : Reg) (v : Word) : (s.put r v).star = s.star := rfl
@[simp] theorem State.put_lstar (s : State) (r : Reg) (v : Word) : (s.put r v).lstar = s.lstar := rfl
@[simp] theorem State.put_cstar (s : State) (r : Reg) (v : Word) : (s.put r v).cstar = s.cstar := rfl
@[simp] theorem State.put_fmask (s : State) (r : Reg) (v : Word) : (s.put r v).fmask = s.fmask := rfl
@[simp] theorem State.put_kernelGsBase (s : State) (r : Reg) (v : Word) : (s.put r v).kernelGsBase = s.kernelGsBase := rfl
@[simp] theorem State.put_bootNt4 (s : State) (r : Reg) (v : Word) : (s.put r v).bootNt4 = s.bootNt4 := rfl
@[simp] theorem State.put_fpu (s : State) (r : Reg) (v : Word) : (s.put r v).fpu = s.fpu := rfl
@[simp] theorem State.put_xmm (s : State) (r : Reg) (v : Word) : (s.put r v).xmm = s.xmm := rfl
@[simp] theorem State.put_mxcsr (s : State) (r : Reg) (v : Word) : (s.put r v).mxcsr = s.mxcsr := rfl
@[simp] theorem State.put_tsc (s : State) (r : Reg) (v : Word) : (s.put r v).tsc = s.tsc := rfl
@[simp] theorem State.put_mem (s : State) (r : Reg) (v : Word) : (s.put r v).mem = s.mem := rfl
@[simp] theorem State.put_pendingNmi (s : State) (r : Reg) (v : Word) : (s.put r v).pendingNmi = s.pendingNmi := rfl
@[simp] theorem State.put_nmiBlocked (s : State) (r : Reg) (v : Word) : (s.put r v).nmiBlocked = s.nmiBlocked := rfl
@[simp] theorem State.put_pendingInt (s : State) (r : Reg) (v : Word) : (s.put r v).pendingInt = s.pendingInt := rfl
@[simp] theorem State.put_pendingDb (s : State) (r : Reg) (v : Word) : (s.put r v).pendingDb = s.pendingDb := rfl
@[simp] theorem State.put_shadow (s : State) (r : Reg) (v : Word) : (s.put r v).shadow = s.shadow := rfl
@[simp] theorem State.put_heldShadow (s : State) (r : Reg) (v : Word) : (s.put r v).heldShadow = s.heldShadow := rfl
@[simp] theorem State.put_activity (s : State) (r : Reg) (v : Word) : (s.put r v).activity = s.activity := rfl
@[simp] theorem State.put_freeCount (s : State) (r : Reg) (v : Word) : (s.put r v).freeCount = s.freeCount := rfl
@[simp] theorem State.put_ioLog (s : State) (r : Reg) (v : Word) : (s.put r v).ioLog = s.ioLog := rfl

/-! ### writeReg -/

@[simp] theorem State.writeReg_gpr (s : State) (w : Width) (r : Reg) (v : BitVec w.bits) :
    (s.writeReg w r v).gpr = s.gpr.set r.toNat (mergeReg w (s.get r) v) r.isLt := rfl
@[simp] theorem State.writeReg_rip (s : State) (w : Width) (r : Reg) (v : BitVec w.bits) : (s.writeReg w r v).rip = s.rip := rfl
@[simp] theorem State.writeReg_nextPc (s : State) (w : Width) (r : Reg) (v : BitVec w.bits) : (s.writeReg w r v).nextPc = s.nextPc := rfl
@[simp] theorem State.writeReg_rflags (s : State) (w : Width) (r : Reg) (v : BitVec w.bits) : (s.writeReg w r v).rflags = s.rflags := rfl
@[simp] theorem State.writeReg_es (s : State) (w : Width) (r : Reg) (v : BitVec w.bits) : (s.writeReg w r v).es = s.es := rfl
@[simp] theorem State.writeReg_cs (s : State) (w : Width) (r : Reg) (v : BitVec w.bits) : (s.writeReg w r v).cs = s.cs := rfl
@[simp] theorem State.writeReg_ss (s : State) (w : Width) (r : Reg) (v : BitVec w.bits) : (s.writeReg w r v).ss = s.ss := rfl
@[simp] theorem State.writeReg_ds (s : State) (w : Width) (r : Reg) (v : BitVec w.bits) : (s.writeReg w r v).ds = s.ds := rfl
@[simp] theorem State.writeReg_fs (s : State) (w : Width) (r : Reg) (v : BitVec w.bits) : (s.writeReg w r v).fs = s.fs := rfl
@[simp] theorem State.writeReg_gs (s : State) (w : Width) (r : Reg) (v : BitVec w.bits) : (s.writeReg w r v).gs = s.gs := rfl
@[simp] theorem State.writeReg_ldtr (s : State) (w : Width) (r : Reg) (v : BitVec w.bits) : (s.writeReg w r v).ldtr = s.ldtr := rfl
@[simp] theorem State.writeReg_tr (s : State) (w : Width) (r : Reg) (v : BitVec w.bits) : (s.writeReg w r v).tr = s.tr := rfl
@[simp] theorem State.writeReg_gdtr (s : State) (w : Width) (r : Reg) (v : BitVec w.bits) : (s.writeReg w r v).gdtr = s.gdtr := rfl
@[simp] theorem State.writeReg_idtr (s : State) (w : Width) (r : Reg) (v : BitVec w.bits) : (s.writeReg w r v).idtr = s.idtr := rfl
@[simp] theorem State.writeReg_cr0 (s : State) (w : Width) (r : Reg) (v : BitVec w.bits) : (s.writeReg w r v).cr0 = s.cr0 := rfl
@[simp] theorem State.writeReg_cr2 (s : State) (w : Width) (r : Reg) (v : BitVec w.bits) : (s.writeReg w r v).cr2 = s.cr2 := rfl
@[simp] theorem State.writeReg_cr3 (s : State) (w : Width) (r : Reg) (v : BitVec w.bits) : (s.writeReg w r v).cr3 = s.cr3 := rfl
@[simp] theorem State.writeReg_cr4 (s : State) (w : Width) (r : Reg) (v : BitVec w.bits) : (s.writeReg w r v).cr4 = s.cr4 := rfl
@[simp] theorem State.writeReg_tpr (s : State) (w : Width) (r : Reg) (v : BitVec w.bits) : (s.writeReg w r v).tpr = s.tpr := rfl
@[simp] theorem State.writeReg_apicEnabled (s : State) (w : Width) (r : Reg) (v : BitVec w.bits) : (s.writeReg w r v).apicEnabled = s.apicEnabled := rfl
@[simp] theorem State.writeReg_dr0 (s : State) (w : Width) (r : Reg) (v : BitVec w.bits) : (s.writeReg w r v).dr0 = s.dr0 := rfl
@[simp] theorem State.writeReg_dr1 (s : State) (w : Width) (r : Reg) (v : BitVec w.bits) : (s.writeReg w r v).dr1 = s.dr1 := rfl
@[simp] theorem State.writeReg_dr2 (s : State) (w : Width) (r : Reg) (v : BitVec w.bits) : (s.writeReg w r v).dr2 = s.dr2 := rfl
@[simp] theorem State.writeReg_dr3 (s : State) (w : Width) (r : Reg) (v : BitVec w.bits) : (s.writeReg w r v).dr3 = s.dr3 := rfl
@[simp] theorem State.writeReg_dr6 (s : State) (w : Width) (r : Reg) (v : BitVec w.bits) : (s.writeReg w r v).dr6 = s.dr6 := rfl
@[simp] theorem State.writeReg_dr7 (s : State) (w : Width) (r : Reg) (v : BitVec w.bits) : (s.writeReg w r v).dr7 = s.dr7 := rfl
@[simp] theorem State.writeReg_efer (s : State) (w : Width) (r : Reg) (v : BitVec w.bits) : (s.writeReg w r v).efer = s.efer := rfl
@[simp] theorem State.writeReg_star (s : State) (w : Width) (r : Reg) (v : BitVec w.bits) : (s.writeReg w r v).star = s.star := rfl
@[simp] theorem State.writeReg_lstar (s : State) (w : Width) (r : Reg) (v : BitVec w.bits) : (s.writeReg w r v).lstar = s.lstar := rfl
@[simp] theorem State.writeReg_cstar (s : State) (w : Width) (r : Reg) (v : BitVec w.bits) : (s.writeReg w r v).cstar = s.cstar := rfl
@[simp] theorem State.writeReg_fmask (s : State) (w : Width) (r : Reg) (v : BitVec w.bits) : (s.writeReg w r v).fmask = s.fmask := rfl
@[simp] theorem State.writeReg_kernelGsBase (s : State) (w : Width) (r : Reg) (v : BitVec w.bits) : (s.writeReg w r v).kernelGsBase = s.kernelGsBase := rfl
@[simp] theorem State.writeReg_bootNt4 (s : State) (w : Width) (r : Reg) (v : BitVec w.bits) : (s.writeReg w r v).bootNt4 = s.bootNt4 := rfl
@[simp] theorem State.writeReg_fpu (s : State) (w : Width) (r : Reg) (v : BitVec w.bits) : (s.writeReg w r v).fpu = s.fpu := rfl
@[simp] theorem State.writeReg_xmm (s : State) (w : Width) (r : Reg) (v : BitVec w.bits) : (s.writeReg w r v).xmm = s.xmm := rfl
@[simp] theorem State.writeReg_mxcsr (s : State) (w : Width) (r : Reg) (v : BitVec w.bits) : (s.writeReg w r v).mxcsr = s.mxcsr := rfl
@[simp] theorem State.writeReg_tsc (s : State) (w : Width) (r : Reg) (v : BitVec w.bits) : (s.writeReg w r v).tsc = s.tsc := rfl
@[simp] theorem State.writeReg_mem (s : State) (w : Width) (r : Reg) (v : BitVec w.bits) : (s.writeReg w r v).mem = s.mem := rfl
@[simp] theorem State.writeReg_pendingNmi (s : State) (w : Width) (r : Reg) (v : BitVec w.bits) : (s.writeReg w r v).pendingNmi = s.pendingNmi := rfl
@[simp] theorem State.writeReg_nmiBlocked (s : State) (w : Width) (r : Reg) (v : BitVec w.bits) : (s.writeReg w r v).nmiBlocked = s.nmiBlocked := rfl
@[simp] theorem State.writeReg_pendingInt (s : State) (w : Width) (r : Reg) (v : BitVec w.bits) : (s.writeReg w r v).pendingInt = s.pendingInt := rfl
@[simp] theorem State.writeReg_pendingDb (s : State) (w : Width) (r : Reg) (v : BitVec w.bits) : (s.writeReg w r v).pendingDb = s.pendingDb := rfl
@[simp] theorem State.writeReg_shadow (s : State) (w : Width) (r : Reg) (v : BitVec w.bits) : (s.writeReg w r v).shadow = s.shadow := rfl
@[simp] theorem State.writeReg_heldShadow (s : State) (w : Width) (r : Reg) (v : BitVec w.bits) : (s.writeReg w r v).heldShadow = s.heldShadow := rfl
@[simp] theorem State.writeReg_activity (s : State) (w : Width) (r : Reg) (v : BitVec w.bits) : (s.writeReg w r v).activity = s.activity := rfl
@[simp] theorem State.writeReg_freeCount (s : State) (w : Width) (r : Reg) (v : BitVec w.bits) : (s.writeReg w r v).freeCount = s.freeCount := rfl
@[simp] theorem State.writeReg_ioLog (s : State) (w : Width) (r : Reg) (v : BitVec w.bits) : (s.writeReg w r v).ioLog = s.ioLog := rfl

/-! ### writeGReg -/

@[simp] theorem State.writeGReg_rip (s : State) (w : Width) (g : GReg) (v : BitVec w.bits) : (s.writeGReg w g v).rip = s.rip := by cases g <;> rfl
@[simp] theorem State.writeGReg_nextPc (s : State) (w : Width) (g : GReg) (v : BitVec w.bits) : (s.writeGReg w g v).nextPc = s.nextPc := by cases g <;> rfl
@[simp] theorem State.writeGReg_rflags (s : State) (w : Width) (g : GReg) (v : BitVec w.bits) : (s.writeGReg w g v).rflags = s.rflags := by cases g <;> rfl
@[simp] theorem State.writeGReg_es (s : State) (w : Width) (g : GReg) (v : BitVec w.bits) : (s.writeGReg w g v).es = s.es := by cases g <;> rfl
@[simp] theorem State.writeGReg_cs (s : State) (w : Width) (g : GReg) (v : BitVec w.bits) : (s.writeGReg w g v).cs = s.cs := by cases g <;> rfl
@[simp] theorem State.writeGReg_ss (s : State) (w : Width) (g : GReg) (v : BitVec w.bits) : (s.writeGReg w g v).ss = s.ss := by cases g <;> rfl
@[simp] theorem State.writeGReg_ds (s : State) (w : Width) (g : GReg) (v : BitVec w.bits) : (s.writeGReg w g v).ds = s.ds := by cases g <;> rfl
@[simp] theorem State.writeGReg_fs (s : State) (w : Width) (g : GReg) (v : BitVec w.bits) : (s.writeGReg w g v).fs = s.fs := by cases g <;> rfl
@[simp] theorem State.writeGReg_gs (s : State) (w : Width) (g : GReg) (v : BitVec w.bits) : (s.writeGReg w g v).gs = s.gs := by cases g <;> rfl
@[simp] theorem State.writeGReg_ldtr (s : State) (w : Width) (g : GReg) (v : BitVec w.bits) : (s.writeGReg w g v).ldtr = s.ldtr := by cases g <;> rfl
@[simp] theorem State.writeGReg_tr (s : State) (w : Width) (g : GReg) (v : BitVec w.bits) : (s.writeGReg w g v).tr = s.tr := by cases g <;> rfl
@[simp] theorem State.writeGReg_gdtr (s : State) (w : Width) (g : GReg) (v : BitVec w.bits) : (s.writeGReg w g v).gdtr = s.gdtr := by cases g <;> rfl
@[simp] theorem State.writeGReg_idtr (s : State) (w : Width) (g : GReg) (v : BitVec w.bits) : (s.writeGReg w g v).idtr = s.idtr := by cases g <;> rfl
@[simp] theorem State.writeGReg_cr0 (s : State) (w : Width) (g : GReg) (v : BitVec w.bits) : (s.writeGReg w g v).cr0 = s.cr0 := by cases g <;> rfl
@[simp] theorem State.writeGReg_cr2 (s : State) (w : Width) (g : GReg) (v : BitVec w.bits) : (s.writeGReg w g v).cr2 = s.cr2 := by cases g <;> rfl
@[simp] theorem State.writeGReg_cr3 (s : State) (w : Width) (g : GReg) (v : BitVec w.bits) : (s.writeGReg w g v).cr3 = s.cr3 := by cases g <;> rfl
@[simp] theorem State.writeGReg_cr4 (s : State) (w : Width) (g : GReg) (v : BitVec w.bits) : (s.writeGReg w g v).cr4 = s.cr4 := by cases g <;> rfl
@[simp] theorem State.writeGReg_tpr (s : State) (w : Width) (g : GReg) (v : BitVec w.bits) : (s.writeGReg w g v).tpr = s.tpr := by cases g <;> rfl
@[simp] theorem State.writeGReg_apicEnabled (s : State) (w : Width) (g : GReg) (v : BitVec w.bits) : (s.writeGReg w g v).apicEnabled = s.apicEnabled := by cases g <;> rfl
@[simp] theorem State.writeGReg_dr0 (s : State) (w : Width) (g : GReg) (v : BitVec w.bits) : (s.writeGReg w g v).dr0 = s.dr0 := by cases g <;> rfl
@[simp] theorem State.writeGReg_dr1 (s : State) (w : Width) (g : GReg) (v : BitVec w.bits) : (s.writeGReg w g v).dr1 = s.dr1 := by cases g <;> rfl
@[simp] theorem State.writeGReg_dr2 (s : State) (w : Width) (g : GReg) (v : BitVec w.bits) : (s.writeGReg w g v).dr2 = s.dr2 := by cases g <;> rfl
@[simp] theorem State.writeGReg_dr3 (s : State) (w : Width) (g : GReg) (v : BitVec w.bits) : (s.writeGReg w g v).dr3 = s.dr3 := by cases g <;> rfl
@[simp] theorem State.writeGReg_dr6 (s : State) (w : Width) (g : GReg) (v : BitVec w.bits) : (s.writeGReg w g v).dr6 = s.dr6 := by cases g <;> rfl
@[simp] theorem State.writeGReg_dr7 (s : State) (w : Width) (g : GReg) (v : BitVec w.bits) : (s.writeGReg w g v).dr7 = s.dr7 := by cases g <;> rfl
@[simp] theorem State.writeGReg_efer (s : State) (w : Width) (g : GReg) (v : BitVec w.bits) : (s.writeGReg w g v).efer = s.efer := by cases g <;> rfl
@[simp] theorem State.writeGReg_star (s : State) (w : Width) (g : GReg) (v : BitVec w.bits) : (s.writeGReg w g v).star = s.star := by cases g <;> rfl
@[simp] theorem State.writeGReg_lstar (s : State) (w : Width) (g : GReg) (v : BitVec w.bits) : (s.writeGReg w g v).lstar = s.lstar := by cases g <;> rfl
@[simp] theorem State.writeGReg_cstar (s : State) (w : Width) (g : GReg) (v : BitVec w.bits) : (s.writeGReg w g v).cstar = s.cstar := by cases g <;> rfl
@[simp] theorem State.writeGReg_fmask (s : State) (w : Width) (g : GReg) (v : BitVec w.bits) : (s.writeGReg w g v).fmask = s.fmask := by cases g <;> rfl
@[simp] theorem State.writeGReg_kernelGsBase (s : State) (w : Width) (g : GReg) (v : BitVec w.bits) : (s.writeGReg w g v).kernelGsBase = s.kernelGsBase := by cases g <;> rfl
@[simp] theorem State.writeGReg_bootNt4 (s : State) (w : Width) (g : GReg) (v : BitVec w.bits) : (s.writeGReg w g v).bootNt4 = s.bootNt4 := by cases g <;> rfl
@[simp] theorem State.writeGReg_fpu (s : State) (w : Width) (g : GReg) (v : BitVec w.bits) : (s.writeGReg w g v).fpu = s.fpu := by cases g <;> rfl
@[simp] theorem State.writeGReg_xmm (s : State) (w : Width) (g : GReg) (v : BitVec w.bits) : (s.writeGReg w g v).xmm = s.xmm := by cases g <;> rfl
@[simp] theorem State.writeGReg_mxcsr (s : State) (w : Width) (g : GReg) (v : BitVec w.bits) : (s.writeGReg w g v).mxcsr = s.mxcsr := by cases g <;> rfl
@[simp] theorem State.writeGReg_tsc (s : State) (w : Width) (g : GReg) (v : BitVec w.bits) : (s.writeGReg w g v).tsc = s.tsc := by cases g <;> rfl
@[simp] theorem State.writeGReg_mem (s : State) (w : Width) (g : GReg) (v : BitVec w.bits) : (s.writeGReg w g v).mem = s.mem := by cases g <;> rfl
@[simp] theorem State.writeGReg_pendingNmi (s : State) (w : Width) (g : GReg) (v : BitVec w.bits) : (s.writeGReg w g v).pendingNmi = s.pendingNmi := by cases g <;> rfl
@[simp] theorem State.writeGReg_nmiBlocked (s : State) (w : Width) (g : GReg) (v : BitVec w.bits) : (s.writeGReg w g v).nmiBlocked = s.nmiBlocked := by cases g <;> rfl
@[simp] theorem State.writeGReg_pendingInt (s : State) (w : Width) (g : GReg) (v : BitVec w.bits) : (s.writeGReg w g v).pendingInt = s.pendingInt := by cases g <;> rfl
@[simp] theorem State.writeGReg_pendingDb (s : State) (w : Width) (g : GReg) (v : BitVec w.bits) : (s.writeGReg w g v).pendingDb = s.pendingDb := by cases g <;> rfl
@[simp] theorem State.writeGReg_shadow (s : State) (w : Width) (g : GReg) (v : BitVec w.bits) : (s.writeGReg w g v).shadow = s.shadow := by cases g <;> rfl
@[simp] theorem State.writeGReg_heldShadow (s : State) (w : Width) (g : GReg) (v : BitVec w.bits) : (s.writeGReg w g v).heldShadow = s.heldShadow := by cases g <;> rfl
@[simp] theorem State.writeGReg_activity (s : State) (w : Width) (g : GReg) (v : BitVec w.bits) : (s.writeGReg w g v).activity = s.activity := by cases g <;> rfl
@[simp] theorem State.writeGReg_freeCount (s : State) (w : Width) (g : GReg) (v : BitVec w.bits) : (s.writeGReg w g v).freeCount = s.freeCount := by cases g <;> rfl
@[simp] theorem State.writeGReg_ioLog (s : State) (w : Width) (g : GReg) (v : BitVec w.bits) : (s.writeGReg w g v).ioLog = s.ioLog := by cases g <;> rfl

/-! ### setRflags -/

@[simp] theorem State.setRflags_gpr (s : State) (v : BitVec 32) : (s.setRflags v).gpr = s.gpr := rfl
@[simp] theorem State.setRflags_rip (s : State) (v : BitVec 32) : (s.setRflags v).rip = s.rip := rfl
@[simp] theorem State.setRflags_nextPc (s : State) (v : BitVec 32) : (s.setRflags v).nextPc = s.nextPc := rfl
@[simp] theorem State.setRflags_rflags (s : State) (v : BitVec 32) :
    (s.setRflags v).rflags = v := rfl
@[simp] theorem State.setRflags_es (s : State) (v : BitVec 32) : (s.setRflags v).es = s.es := rfl
@[simp] theorem State.setRflags_cs (s : State) (v : BitVec 32) : (s.setRflags v).cs = s.cs := rfl
@[simp] theorem State.setRflags_ss (s : State) (v : BitVec 32) : (s.setRflags v).ss = s.ss := rfl
@[simp] theorem State.setRflags_ds (s : State) (v : BitVec 32) : (s.setRflags v).ds = s.ds := rfl
@[simp] theorem State.setRflags_fs (s : State) (v : BitVec 32) : (s.setRflags v).fs = s.fs := rfl
@[simp] theorem State.setRflags_gs (s : State) (v : BitVec 32) : (s.setRflags v).gs = s.gs := rfl
@[simp] theorem State.setRflags_ldtr (s : State) (v : BitVec 32) : (s.setRflags v).ldtr = s.ldtr := rfl
@[simp] theorem State.setRflags_tr (s : State) (v : BitVec 32) : (s.setRflags v).tr = s.tr := rfl
@[simp] theorem State.setRflags_gdtr (s : State) (v : BitVec 32) : (s.setRflags v).gdtr = s.gdtr := rfl
@[simp] theorem State.setRflags_idtr (s : State) (v : BitVec 32) : (s.setRflags v).idtr = s.idtr := rfl
@[simp] theorem State.setRflags_cr0 (s : State) (v : BitVec 32) : (s.setRflags v).cr0 = s.cr0 := rfl
@[simp] theorem State.setRflags_cr2 (s : State) (v : BitVec 32) : (s.setRflags v).cr2 = s.cr2 := rfl
@[simp] theorem State.setRflags_cr3 (s : State) (v : BitVec 32) : (s.setRflags v).cr3 = s.cr3 := rfl
@[simp] theorem State.setRflags_cr4 (s : State) (v : BitVec 32) : (s.setRflags v).cr4 = s.cr4 := rfl
@[simp] theorem State.setRflags_tpr (s : State) (v : BitVec 32) : (s.setRflags v).tpr = s.tpr := rfl
@[simp] theorem State.setRflags_apicEnabled (s : State) (v : BitVec 32) : (s.setRflags v).apicEnabled = s.apicEnabled := rfl
@[simp] theorem State.setRflags_dr0 (s : State) (v : BitVec 32) : (s.setRflags v).dr0 = s.dr0 := rfl
@[simp] theorem State.setRflags_dr1 (s : State) (v : BitVec 32) : (s.setRflags v).dr1 = s.dr1 := rfl
@[simp] theorem State.setRflags_dr2 (s : State) (v : BitVec 32) : (s.setRflags v).dr2 = s.dr2 := rfl
@[simp] theorem State.setRflags_dr3 (s : State) (v : BitVec 32) : (s.setRflags v).dr3 = s.dr3 := rfl
@[simp] theorem State.setRflags_dr6 (s : State) (v : BitVec 32) : (s.setRflags v).dr6 = s.dr6 := rfl
@[simp] theorem State.setRflags_dr7 (s : State) (v : BitVec 32) : (s.setRflags v).dr7 = s.dr7 := rfl
@[simp] theorem State.setRflags_efer (s : State) (v : BitVec 32) : (s.setRflags v).efer = s.efer := rfl
@[simp] theorem State.setRflags_star (s : State) (v : BitVec 32) : (s.setRflags v).star = s.star := rfl
@[simp] theorem State.setRflags_lstar (s : State) (v : BitVec 32) : (s.setRflags v).lstar = s.lstar := rfl
@[simp] theorem State.setRflags_cstar (s : State) (v : BitVec 32) : (s.setRflags v).cstar = s.cstar := rfl
@[simp] theorem State.setRflags_fmask (s : State) (v : BitVec 32) : (s.setRflags v).fmask = s.fmask := rfl
@[simp] theorem State.setRflags_kernelGsBase (s : State) (v : BitVec 32) : (s.setRflags v).kernelGsBase = s.kernelGsBase := rfl
@[simp] theorem State.setRflags_bootNt4 (s : State) (v : BitVec 32) : (s.setRflags v).bootNt4 = s.bootNt4 := rfl
@[simp] theorem State.setRflags_fpu (s : State) (v : BitVec 32) : (s.setRflags v).fpu = s.fpu := rfl
@[simp] theorem State.setRflags_xmm (s : State) (v : BitVec 32) : (s.setRflags v).xmm = s.xmm := rfl
@[simp] theorem State.setRflags_mxcsr (s : State) (v : BitVec 32) : (s.setRflags v).mxcsr = s.mxcsr := rfl
@[simp] theorem State.setRflags_tsc (s : State) (v : BitVec 32) : (s.setRflags v).tsc = s.tsc := rfl
@[simp] theorem State.setRflags_mem (s : State) (v : BitVec 32) : (s.setRflags v).mem = s.mem := rfl
@[simp] theorem State.setRflags_pendingNmi (s : State) (v : BitVec 32) : (s.setRflags v).pendingNmi = s.pendingNmi := rfl
@[simp] theorem State.setRflags_nmiBlocked (s : State) (v : BitVec 32) : (s.setRflags v).nmiBlocked = s.nmiBlocked := rfl
@[simp] theorem State.setRflags_pendingInt (s : State) (v : BitVec 32) : (s.setRflags v).pendingInt = s.pendingInt := rfl
@[simp] theorem State.setRflags_pendingDb (s : State) (v : BitVec 32) : (s.setRflags v).pendingDb = s.pendingDb := rfl
@[simp] theorem State.setRflags_shadow (s : State) (v : BitVec 32) : (s.setRflags v).shadow = s.shadow := rfl
@[simp] theorem State.setRflags_heldShadow (s : State) (v : BitVec 32) : (s.setRflags v).heldShadow = s.heldShadow := rfl
@[simp] theorem State.setRflags_activity (s : State) (v : BitVec 32) : (s.setRflags v).activity = s.activity := rfl
@[simp] theorem State.setRflags_freeCount (s : State) (v : BitVec 32) : (s.setRflags v).freeCount = s.freeCount := rfl
@[simp] theorem State.setRflags_ioLog (s : State) (v : BitVec 32) : (s.setRflags v).ioLog = s.ioLog := rfl

/-! ### setFlag -/

@[simp] theorem State.setFlag_gpr (s : State) (i : Nat) (b : Bool) : (s.setFlag i b).gpr = s.gpr := rfl
@[simp] theorem State.setFlag_rip (s : State) (i : Nat) (b : Bool) : (s.setFlag i b).rip = s.rip := rfl
@[simp] theorem State.setFlag_nextPc (s : State) (i : Nat) (b : Bool) : (s.setFlag i b).nextPc = s.nextPc := rfl
@[simp] theorem State.setFlag_rflags (s : State) (i : Nat) (b : Bool) :
    (s.setFlag i b).rflags = putBit s.rflags i b := rfl
@[simp] theorem State.setFlag_es (s : State) (i : Nat) (b : Bool) : (s.setFlag i b).es = s.es := rfl
@[simp] theorem State.setFlag_cs (s : State) (i : Nat) (b : Bool) : (s.setFlag i b).cs = s.cs := rfl
@[simp] theorem State.setFlag_ss (s : State) (i : Nat) (b : Bool) : (s.setFlag i b).ss = s.ss := rfl
@[simp] theorem State.setFlag_ds (s : State) (i : Nat) (b : Bool) : (s.setFlag i b).ds = s.ds := rfl
@[simp] theorem State.setFlag_fs (s : State) (i : Nat) (b : Bool) : (s.setFlag i b).fs = s.fs := rfl
@[simp] theorem State.setFlag_gs (s : State) (i : Nat) (b : Bool) : (s.setFlag i b).gs = s.gs := rfl
@[simp] theorem State.setFlag_ldtr (s : State) (i : Nat) (b : Bool) : (s.setFlag i b).ldtr = s.ldtr := rfl
@[simp] theorem State.setFlag_tr (s : State) (i : Nat) (b : Bool) : (s.setFlag i b).tr = s.tr := rfl
@[simp] theorem State.setFlag_gdtr (s : State) (i : Nat) (b : Bool) : (s.setFlag i b).gdtr = s.gdtr := rfl
@[simp] theorem State.setFlag_idtr (s : State) (i : Nat) (b : Bool) : (s.setFlag i b).idtr = s.idtr := rfl
@[simp] theorem State.setFlag_cr0 (s : State) (i : Nat) (b : Bool) : (s.setFlag i b).cr0 = s.cr0 := rfl
@[simp] theorem State.setFlag_cr2 (s : State) (i : Nat) (b : Bool) : (s.setFlag i b).cr2 = s.cr2 := rfl
@[simp] theorem State.setFlag_cr3 (s : State) (i : Nat) (b : Bool) : (s.setFlag i b).cr3 = s.cr3 := rfl
@[simp] theorem State.setFlag_cr4 (s : State) (i : Nat) (b : Bool) : (s.setFlag i b).cr4 = s.cr4 := rfl
@[simp] theorem State.setFlag_tpr (s : State) (i : Nat) (b : Bool) : (s.setFlag i b).tpr = s.tpr := rfl
@[simp] theorem State.setFlag_apicEnabled (s : State) (i : Nat) (b : Bool) : (s.setFlag i b).apicEnabled = s.apicEnabled := rfl
@[simp] theorem State.setFlag_dr0 (s : State) (i : Nat) (b : Bool) : (s.setFlag i b).dr0 = s.dr0 := rfl
@[simp] theorem State.setFlag_dr1 (s : State) (i : Nat) (b : Bool) : (s.setFlag i b).dr1 = s.dr1 := rfl
@[simp] theorem State.setFlag_dr2 (s : State) (i : Nat) (b : Bool) : (s.setFlag i b).dr2 = s.dr2 := rfl
@[simp] theorem State.setFlag_dr3 (s : State) (i : Nat) (b : Bool) : (s.setFlag i b).dr3 = s.dr3 := rfl
@[simp] theorem State.setFlag_dr6 (s : State) (i : Nat) (b : Bool) : (s.setFlag i b).dr6 = s.dr6 := rfl
@[simp] theorem State.setFlag_dr7 (s : State) (i : Nat) (b : Bool) : (s.setFlag i b).dr7 = s.dr7 := rfl
@[simp] theorem State.setFlag_efer (s : State) (i : Nat) (b : Bool) : (s.setFlag i b).efer = s.efer := rfl
@[simp] theorem State.setFlag_star (s : State) (i : Nat) (b : Bool) : (s.setFlag i b).star = s.star := rfl
@[simp] theorem State.setFlag_lstar (s : State) (i : Nat) (b : Bool) : (s.setFlag i b).lstar = s.lstar := rfl
@[simp] theorem State.setFlag_cstar (s : State) (i : Nat) (b : Bool) : (s.setFlag i b).cstar = s.cstar := rfl
@[simp] theorem State.setFlag_fmask (s : State) (i : Nat) (b : Bool) : (s.setFlag i b).fmask = s.fmask := rfl
@[simp] theorem State.setFlag_kernelGsBase (s : State) (i : Nat) (b : Bool) : (s.setFlag i b).kernelGsBase = s.kernelGsBase := rfl
@[simp] theorem State.setFlag_bootNt4 (s : State) (i : Nat) (b : Bool) : (s.setFlag i b).bootNt4 = s.bootNt4 := rfl
@[simp] theorem State.setFlag_fpu (s : State) (i : Nat) (b : Bool) : (s.setFlag i b).fpu = s.fpu := rfl
@[simp] theorem State.setFlag_xmm (s : State) (i : Nat) (b : Bool) : (s.setFlag i b).xmm = s.xmm := rfl
@[simp] theorem State.setFlag_mxcsr (s : State) (i : Nat) (b : Bool) : (s.setFlag i b).mxcsr = s.mxcsr := rfl
@[simp] theorem State.setFlag_tsc (s : State) (i : Nat) (b : Bool) : (s.setFlag i b).tsc = s.tsc := rfl
@[simp] theorem State.setFlag_mem (s : State) (i : Nat) (b : Bool) : (s.setFlag i b).mem = s.mem := rfl
@[simp] theorem State.setFlag_pendingNmi (s : State) (i : Nat) (b : Bool) : (s.setFlag i b).pendingNmi = s.pendingNmi := rfl
@[simp] theorem State.setFlag_nmiBlocked (s : State) (i : Nat) (b : Bool) : (s.setFlag i b).nmiBlocked = s.nmiBlocked := rfl
@[simp] theorem State.setFlag_pendingInt (s : State) (i : Nat) (b : Bool) : (s.setFlag i b).pendingInt = s.pendingInt := rfl
@[simp] theorem State.setFlag_pendingDb (s : State) (i : Nat) (b : Bool) : (s.setFlag i b).pendingDb = s.pendingDb := rfl
@[simp] theorem State.setFlag_shadow (s : State) (i : Nat) (b : Bool) : (s.setFlag i b).shadow = s.shadow := rfl
@[simp] theorem State.setFlag_heldShadow (s : State) (i : Nat) (b : Bool) : (s.setFlag i b).heldShadow = s.heldShadow := rfl
@[simp] theorem State.setFlag_activity (s : State) (i : Nat) (b : Bool) : (s.setFlag i b).activity = s.activity := rfl
@[simp] theorem State.setFlag_freeCount (s : State) (i : Nat) (b : Bool) : (s.setFlag i b).freeCount = s.freeCount := rfl
@[simp] theorem State.setFlag_ioLog (s : State) (i : Nat) (b : Bool) : (s.setFlag i b).ioLog = s.ioLog := rfl

/-! ### setStatus -/

@[simp] theorem State.setStatus_gpr (s : State) (m : BitVec 32) (f : Status) : (s.setStatus m f).gpr = s.gpr := rfl
@[simp] theorem State.setStatus_rip (s : State) (m : BitVec 32) (f : Status) : (s.setStatus m f).rip = s.rip := rfl
@[simp] theorem State.setStatus_nextPc (s : State) (m : BitVec 32) (f : Status) : (s.setStatus m f).nextPc = s.nextPc := rfl
@[simp] theorem State.setStatus_rflags (s : State) (m : BitVec 32) (f : Status) :
    (s.setStatus m f).rflags = maskFlags s.rflags m f.bits := rfl
@[simp] theorem State.setStatus_es (s : State) (m : BitVec 32) (f : Status) : (s.setStatus m f).es = s.es := rfl
@[simp] theorem State.setStatus_cs (s : State) (m : BitVec 32) (f : Status) : (s.setStatus m f).cs = s.cs := rfl
@[simp] theorem State.setStatus_ss (s : State) (m : BitVec 32) (f : Status) : (s.setStatus m f).ss = s.ss := rfl
@[simp] theorem State.setStatus_ds (s : State) (m : BitVec 32) (f : Status) : (s.setStatus m f).ds = s.ds := rfl
@[simp] theorem State.setStatus_fs (s : State) (m : BitVec 32) (f : Status) : (s.setStatus m f).fs = s.fs := rfl
@[simp] theorem State.setStatus_gs (s : State) (m : BitVec 32) (f : Status) : (s.setStatus m f).gs = s.gs := rfl
@[simp] theorem State.setStatus_ldtr (s : State) (m : BitVec 32) (f : Status) : (s.setStatus m f).ldtr = s.ldtr := rfl
@[simp] theorem State.setStatus_tr (s : State) (m : BitVec 32) (f : Status) : (s.setStatus m f).tr = s.tr := rfl
@[simp] theorem State.setStatus_gdtr (s : State) (m : BitVec 32) (f : Status) : (s.setStatus m f).gdtr = s.gdtr := rfl
@[simp] theorem State.setStatus_idtr (s : State) (m : BitVec 32) (f : Status) : (s.setStatus m f).idtr = s.idtr := rfl
@[simp] theorem State.setStatus_cr0 (s : State) (m : BitVec 32) (f : Status) : (s.setStatus m f).cr0 = s.cr0 := rfl
@[simp] theorem State.setStatus_cr2 (s : State) (m : BitVec 32) (f : Status) : (s.setStatus m f).cr2 = s.cr2 := rfl
@[simp] theorem State.setStatus_cr3 (s : State) (m : BitVec 32) (f : Status) : (s.setStatus m f).cr3 = s.cr3 := rfl
@[simp] theorem State.setStatus_cr4 (s : State) (m : BitVec 32) (f : Status) : (s.setStatus m f).cr4 = s.cr4 := rfl
@[simp] theorem State.setStatus_tpr (s : State) (m : BitVec 32) (f : Status) : (s.setStatus m f).tpr = s.tpr := rfl
@[simp] theorem State.setStatus_apicEnabled (s : State) (m : BitVec 32) (f : Status) : (s.setStatus m f).apicEnabled = s.apicEnabled := rfl
@[simp] theorem State.setStatus_dr0 (s : State) (m : BitVec 32) (f : Status) : (s.setStatus m f).dr0 = s.dr0 := rfl
@[simp] theorem State.setStatus_dr1 (s : State) (m : BitVec 32) (f : Status) : (s.setStatus m f).dr1 = s.dr1 := rfl
@[simp] theorem State.setStatus_dr2 (s : State) (m : BitVec 32) (f : Status) : (s.setStatus m f).dr2 = s.dr2 := rfl
@[simp] theorem State.setStatus_dr3 (s : State) (m : BitVec 32) (f : Status) : (s.setStatus m f).dr3 = s.dr3 := rfl
@[simp] theorem State.setStatus_dr6 (s : State) (m : BitVec 32) (f : Status) : (s.setStatus m f).dr6 = s.dr6 := rfl
@[simp] theorem State.setStatus_dr7 (s : State) (m : BitVec 32) (f : Status) : (s.setStatus m f).dr7 = s.dr7 := rfl
@[simp] theorem State.setStatus_efer (s : State) (m : BitVec 32) (f : Status) : (s.setStatus m f).efer = s.efer := rfl
@[simp] theorem State.setStatus_star (s : State) (m : BitVec 32) (f : Status) : (s.setStatus m f).star = s.star := rfl
@[simp] theorem State.setStatus_lstar (s : State) (m : BitVec 32) (f : Status) : (s.setStatus m f).lstar = s.lstar := rfl
@[simp] theorem State.setStatus_cstar (s : State) (m : BitVec 32) (f : Status) : (s.setStatus m f).cstar = s.cstar := rfl
@[simp] theorem State.setStatus_fmask (s : State) (m : BitVec 32) (f : Status) : (s.setStatus m f).fmask = s.fmask := rfl
@[simp] theorem State.setStatus_kernelGsBase (s : State) (m : BitVec 32) (f : Status) : (s.setStatus m f).kernelGsBase = s.kernelGsBase := rfl
@[simp] theorem State.setStatus_bootNt4 (s : State) (m : BitVec 32) (f : Status) : (s.setStatus m f).bootNt4 = s.bootNt4 := rfl
@[simp] theorem State.setStatus_fpu (s : State) (m : BitVec 32) (f : Status) : (s.setStatus m f).fpu = s.fpu := rfl
@[simp] theorem State.setStatus_xmm (s : State) (m : BitVec 32) (f : Status) : (s.setStatus m f).xmm = s.xmm := rfl
@[simp] theorem State.setStatus_mxcsr (s : State) (m : BitVec 32) (f : Status) : (s.setStatus m f).mxcsr = s.mxcsr := rfl
@[simp] theorem State.setStatus_tsc (s : State) (m : BitVec 32) (f : Status) : (s.setStatus m f).tsc = s.tsc := rfl
@[simp] theorem State.setStatus_mem (s : State) (m : BitVec 32) (f : Status) : (s.setStatus m f).mem = s.mem := rfl
@[simp] theorem State.setStatus_pendingNmi (s : State) (m : BitVec 32) (f : Status) : (s.setStatus m f).pendingNmi = s.pendingNmi := rfl
@[simp] theorem State.setStatus_nmiBlocked (s : State) (m : BitVec 32) (f : Status) : (s.setStatus m f).nmiBlocked = s.nmiBlocked := rfl
@[simp] theorem State.setStatus_pendingInt (s : State) (m : BitVec 32) (f : Status) : (s.setStatus m f).pendingInt = s.pendingInt := rfl
@[simp] theorem State.setStatus_pendingDb (s : State) (m : BitVec 32) (f : Status) : (s.setStatus m f).pendingDb = s.pendingDb := rfl
@[simp] theorem State.setStatus_shadow (s : State) (m : BitVec 32) (f : Status) : (s.setStatus m f).shadow = s.shadow := rfl
@[simp] theorem State.setStatus_heldShadow (s : State) (m : BitVec 32) (f : Status) : (s.setStatus m f).heldShadow = s.heldShadow := rfl
@[simp] theorem State.setStatus_activity (s : State) (m : BitVec 32) (f : Status) : (s.setStatus m f).activity = s.activity := rfl
@[simp] theorem State.setStatus_freeCount (s : State) (m : BitVec 32) (f : Status) : (s.setStatus m f).freeCount = s.freeCount := rfl
@[simp] theorem State.setStatus_ioLog (s : State) (m : BitVec 32) (f : Status) : (s.setStatus m f).ioLog = s.ioLog := rfl

/-! ### setRip -/

@[simp] theorem State.setRip_gpr (s : State) (v : Word) : (s.setRip v).gpr = s.gpr := rfl
@[simp] theorem State.setRip_rip (s : State) (v : Word) :
    (s.setRip v).rip = v := rfl
@[simp] theorem State.setRip_nextPc (s : State) (v : Word) : (s.setRip v).nextPc = s.nextPc := rfl
@[simp] theorem State.setRip_rflags (s : State) (v : Word) : (s.setRip v).rflags = s.rflags := rfl
@[simp] theorem State.setRip_es (s : State) (v : Word) : (s.setRip v).es = s.es := rfl
@[simp] theorem State.setRip_cs (s : State) (v : Word) : (s.setRip v).cs = s.cs := rfl
@[simp] theorem State.setRip_ss (s : State) (v : Word) : (s.setRip v).ss = s.ss := rfl
@[simp] theorem State.setRip_ds (s : State) (v : Word) : (s.setRip v).ds = s.ds := rfl
@[simp] theorem State.setRip_fs (s : State) (v : Word) : (s.setRip v).fs = s.fs := rfl
@[simp] theorem State.setRip_gs (s : State) (v : Word) : (s.setRip v).gs = s.gs := rfl
@[simp] theorem State.setRip_ldtr (s : State) (v : Word) : (s.setRip v).ldtr = s.ldtr := rfl
@[simp] theorem State.setRip_tr (s : State) (v : Word) : (s.setRip v).tr = s.tr := rfl
@[simp] theorem State.setRip_gdtr (s : State) (v : Word) : (s.setRip v).gdtr = s.gdtr := rfl
@[simp] theorem State.setRip_idtr (s : State) (v : Word) : (s.setRip v).idtr = s.idtr := rfl
@[simp] theorem State.setRip_cr0 (s : State) (v : Word) : (s.setRip v).cr0 = s.cr0 := rfl
@[simp] theorem State.setRip_cr2 (s : State) (v : Word) : (s.setRip v).cr2 = s.cr2 := rfl
@[simp] theorem State.setRip_cr3 (s : State) (v : Word) : (s.setRip v).cr3 = s.cr3 := rfl
@[simp] theorem State.setRip_cr4 (s : State) (v : Word) : (s.setRip v).cr4 = s.cr4 := rfl
@[simp] theorem State.setRip_tpr (s : State) (v : Word) : (s.setRip v).tpr = s.tpr := rfl
@[simp] theorem State.setRip_apicEnabled (s : State) (v : Word) : (s.setRip v).apicEnabled = s.apicEnabled := rfl
@[simp] theorem State.setRip_dr0 (s : State) (v : Word) : (s.setRip v).dr0 = s.dr0 := rfl
@[simp] theorem State.setRip_dr1 (s : State) (v : Word) : (s.setRip v).dr1 = s.dr1 := rfl
@[simp] theorem State.setRip_dr2 (s : State) (v : Word) : (s.setRip v).dr2 = s.dr2 := rfl
@[simp] theorem State.setRip_dr3 (s : State) (v : Word) : (s.setRip v).dr3 = s.dr3 := rfl
@[simp] theorem State.setRip_dr6 (s : State) (v : Word) : (s.setRip v).dr6 = s.dr6 := rfl
@[simp] theorem State.setRip_dr7 (s : State) (v : Word) : (s.setRip v).dr7 = s.dr7 := rfl
@[simp] theorem State.setRip_efer (s : State) (v : Word) : (s.setRip v).efer = s.efer := rfl
@[simp] theorem State.setRip_star (s : State) (v : Word) : (s.setRip v).star = s.star := rfl
@[simp] theorem State.setRip_lstar (s : State) (v : Word) : (s.setRip v).lstar = s.lstar := rfl
@[simp] theorem State.setRip_cstar (s : State) (v : Word) : (s.setRip v).cstar = s.cstar := rfl
@[simp] theorem State.setRip_fmask (s : State) (v : Word) : (s.setRip v).fmask = s.fmask := rfl
@[simp] theorem State.setRip_kernelGsBase (s : State) (v : Word) : (s.setRip v).kernelGsBase = s.kernelGsBase := rfl
@[simp] theorem State.setRip_bootNt4 (s : State) (v : Word) : (s.setRip v).bootNt4 = s.bootNt4 := rfl
@[simp] theorem State.setRip_fpu (s : State) (v : Word) : (s.setRip v).fpu = s.fpu := rfl
@[simp] theorem State.setRip_xmm (s : State) (v : Word) : (s.setRip v).xmm = s.xmm := rfl
@[simp] theorem State.setRip_mxcsr (s : State) (v : Word) : (s.setRip v).mxcsr = s.mxcsr := rfl
@[simp] theorem State.setRip_tsc (s : State) (v : Word) : (s.setRip v).tsc = s.tsc := rfl
@[simp] theorem State.setRip_mem (s : State) (v : Word) : (s.setRip v).mem = s.mem := rfl
@[simp] theorem State.setRip_pendingNmi (s : State) (v : Word) : (s.setRip v).pendingNmi = s.pendingNmi := rfl
@[simp] theorem State.setRip_nmiBlocked (s : State) (v : Word) : (s.setRip v).nmiBlocked = s.nmiBlocked := rfl
@[simp] theorem State.setRip_pendingInt (s : State) (v : Word) : (s.setRip v).pendingInt = s.pendingInt := rfl
@[simp] theorem State.setRip_pendingDb (s : State) (v : Word) : (s.setRip v).pendingDb = s.pendingDb := rfl
@[simp] theorem State.setRip_shadow (s : State) (v : Word) : (s.setRip v).shadow = s.shadow := rfl
@[simp] theorem State.setRip_heldShadow (s : State) (v : Word) : (s.setRip v).heldShadow = s.heldShadow := rfl
@[simp] theorem State.setRip_activity (s : State) (v : Word) : (s.setRip v).activity = s.activity := rfl
@[simp] theorem State.setRip_freeCount (s : State) (v : Word) : (s.setRip v).freeCount = s.freeCount := rfl
@[simp] theorem State.setRip_ioLog (s : State) (v : Word) : (s.setRip v).ioLog = s.ioLog := rfl

/-! ### setSeg -/

@[simp] theorem State.setSeg_gpr (s : State) (r : SReg) (v : SegReg) : (s.setSeg r v).gpr = s.gpr := by cases r <;> rfl
@[simp] theorem State.setSeg_rip (s : State) (r : SReg) (v : SegReg) : (s.setSeg r v).rip = s.rip := by cases r <;> rfl
@[simp] theorem State.setSeg_nextPc (s : State) (r : SReg) (v : SegReg) : (s.setSeg r v).nextPc = s.nextPc := by cases r <;> rfl
@[simp] theorem State.setSeg_rflags (s : State) (r : SReg) (v : SegReg) : (s.setSeg r v).rflags = s.rflags := by cases r <;> rfl
@[simp] theorem State.setSeg_ldtr (s : State) (r : SReg) (v : SegReg) : (s.setSeg r v).ldtr = s.ldtr := by cases r <;> rfl
@[simp] theorem State.setSeg_tr (s : State) (r : SReg) (v : SegReg) : (s.setSeg r v).tr = s.tr := by cases r <;> rfl
@[simp] theorem State.setSeg_gdtr (s : State) (r : SReg) (v : SegReg) : (s.setSeg r v).gdtr = s.gdtr := by cases r <;> rfl
@[simp] theorem State.setSeg_idtr (s : State) (r : SReg) (v : SegReg) : (s.setSeg r v).idtr = s.idtr := by cases r <;> rfl
@[simp] theorem State.setSeg_cr0 (s : State) (r : SReg) (v : SegReg) : (s.setSeg r v).cr0 = s.cr0 := by cases r <;> rfl
@[simp] theorem State.setSeg_cr2 (s : State) (r : SReg) (v : SegReg) : (s.setSeg r v).cr2 = s.cr2 := by cases r <;> rfl
@[simp] theorem State.setSeg_cr3 (s : State) (r : SReg) (v : SegReg) : (s.setSeg r v).cr3 = s.cr3 := by cases r <;> rfl
@[simp] theorem State.setSeg_cr4 (s : State) (r : SReg) (v : SegReg) : (s.setSeg r v).cr4 = s.cr4 := by cases r <;> rfl
@[simp] theorem State.setSeg_tpr (s : State) (r : SReg) (v : SegReg) : (s.setSeg r v).tpr = s.tpr := by cases r <;> rfl
@[simp] theorem State.setSeg_apicEnabled (s : State) (r : SReg) (v : SegReg) : (s.setSeg r v).apicEnabled = s.apicEnabled := by cases r <;> rfl
@[simp] theorem State.setSeg_dr0 (s : State) (r : SReg) (v : SegReg) : (s.setSeg r v).dr0 = s.dr0 := by cases r <;> rfl
@[simp] theorem State.setSeg_dr1 (s : State) (r : SReg) (v : SegReg) : (s.setSeg r v).dr1 = s.dr1 := by cases r <;> rfl
@[simp] theorem State.setSeg_dr2 (s : State) (r : SReg) (v : SegReg) : (s.setSeg r v).dr2 = s.dr2 := by cases r <;> rfl
@[simp] theorem State.setSeg_dr3 (s : State) (r : SReg) (v : SegReg) : (s.setSeg r v).dr3 = s.dr3 := by cases r <;> rfl
@[simp] theorem State.setSeg_dr6 (s : State) (r : SReg) (v : SegReg) : (s.setSeg r v).dr6 = s.dr6 := by cases r <;> rfl
@[simp] theorem State.setSeg_dr7 (s : State) (r : SReg) (v : SegReg) : (s.setSeg r v).dr7 = s.dr7 := by cases r <;> rfl
@[simp] theorem State.setSeg_efer (s : State) (r : SReg) (v : SegReg) : (s.setSeg r v).efer = s.efer := by cases r <;> rfl
@[simp] theorem State.setSeg_star (s : State) (r : SReg) (v : SegReg) : (s.setSeg r v).star = s.star := by cases r <;> rfl
@[simp] theorem State.setSeg_lstar (s : State) (r : SReg) (v : SegReg) : (s.setSeg r v).lstar = s.lstar := by cases r <;> rfl
@[simp] theorem State.setSeg_cstar (s : State) (r : SReg) (v : SegReg) : (s.setSeg r v).cstar = s.cstar := by cases r <;> rfl
@[simp] theorem State.setSeg_fmask (s : State) (r : SReg) (v : SegReg) : (s.setSeg r v).fmask = s.fmask := by cases r <;> rfl
@[simp] theorem State.setSeg_kernelGsBase (s : State) (r : SReg) (v : SegReg) : (s.setSeg r v).kernelGsBase = s.kernelGsBase := by cases r <;> rfl
@[simp] theorem State.setSeg_bootNt4 (s : State) (r : SReg) (v : SegReg) : (s.setSeg r v).bootNt4 = s.bootNt4 := by cases r <;> rfl
@[simp] theorem State.setSeg_fpu (s : State) (r : SReg) (v : SegReg) : (s.setSeg r v).fpu = s.fpu := by cases r <;> rfl
@[simp] theorem State.setSeg_xmm (s : State) (r : SReg) (v : SegReg) : (s.setSeg r v).xmm = s.xmm := by cases r <;> rfl
@[simp] theorem State.setSeg_mxcsr (s : State) (r : SReg) (v : SegReg) : (s.setSeg r v).mxcsr = s.mxcsr := by cases r <;> rfl
@[simp] theorem State.setSeg_tsc (s : State) (r : SReg) (v : SegReg) : (s.setSeg r v).tsc = s.tsc := by cases r <;> rfl
@[simp] theorem State.setSeg_mem (s : State) (r : SReg) (v : SegReg) : (s.setSeg r v).mem = s.mem := by cases r <;> rfl
@[simp] theorem State.setSeg_pendingNmi (s : State) (r : SReg) (v : SegReg) : (s.setSeg r v).pendingNmi = s.pendingNmi := by cases r <;> rfl
@[simp] theorem State.setSeg_nmiBlocked (s : State) (r : SReg) (v : SegReg) : (s.setSeg r v).nmiBlocked = s.nmiBlocked := by cases r <;> rfl
@[simp] theorem State.setSeg_pendingInt (s : State) (r : SReg) (v : SegReg) : (s.setSeg r v).pendingInt = s.pendingInt := by cases r <;> rfl
@[simp] theorem State.setSeg_pendingDb (s : State) (r : SReg) (v : SegReg) : (s.setSeg r v).pendingDb = s.pendingDb := by cases r <;> rfl
@[simp] theorem State.setSeg_shadow (s : State) (r : SReg) (v : SegReg) : (s.setSeg r v).shadow = s.shadow := by cases r <;> rfl
@[simp] theorem State.setSeg_heldShadow (s : State) (r : SReg) (v : SegReg) : (s.setSeg r v).heldShadow = s.heldShadow := by cases r <;> rfl
@[simp] theorem State.setSeg_activity (s : State) (r : SReg) (v : SegReg) : (s.setSeg r v).activity = s.activity := by cases r <;> rfl
@[simp] theorem State.setSeg_freeCount (s : State) (r : SReg) (v : SegReg) : (s.setSeg r v).freeCount = s.freeCount := by cases r <;> rfl
@[simp] theorem State.setSeg_ioLog (s : State) (r : SReg) (v : SegReg) : (s.setSeg r v).ioLog = s.ioLog := by cases r <;> rfl

/-! ### setSp -/

@[simp] theorem State.setSp_rip (s : State) (v : Word) : (s.setSp v).rip = s.rip := rfl
@[simp] theorem State.setSp_nextPc (s : State) (v : Word) : (s.setSp v).nextPc = s.nextPc := rfl
@[simp] theorem State.setSp_rflags (s : State) (v : Word) : (s.setSp v).rflags = s.rflags := rfl
@[simp] theorem State.setSp_es (s : State) (v : Word) : (s.setSp v).es = s.es := rfl
@[simp] theorem State.setSp_cs (s : State) (v : Word) : (s.setSp v).cs = s.cs := rfl
@[simp] theorem State.setSp_ss (s : State) (v : Word) : (s.setSp v).ss = s.ss := rfl
@[simp] theorem State.setSp_ds (s : State) (v : Word) : (s.setSp v).ds = s.ds := rfl
@[simp] theorem State.setSp_fs (s : State) (v : Word) : (s.setSp v).fs = s.fs := rfl
@[simp] theorem State.setSp_gs (s : State) (v : Word) : (s.setSp v).gs = s.gs := rfl
@[simp] theorem State.setSp_ldtr (s : State) (v : Word) : (s.setSp v).ldtr = s.ldtr := rfl
@[simp] theorem State.setSp_tr (s : State) (v : Word) : (s.setSp v).tr = s.tr := rfl
@[simp] theorem State.setSp_gdtr (s : State) (v : Word) : (s.setSp v).gdtr = s.gdtr := rfl
@[simp] theorem State.setSp_idtr (s : State) (v : Word) : (s.setSp v).idtr = s.idtr := rfl
@[simp] theorem State.setSp_cr0 (s : State) (v : Word) : (s.setSp v).cr0 = s.cr0 := rfl
@[simp] theorem State.setSp_cr2 (s : State) (v : Word) : (s.setSp v).cr2 = s.cr2 := rfl
@[simp] theorem State.setSp_cr3 (s : State) (v : Word) : (s.setSp v).cr3 = s.cr3 := rfl
@[simp] theorem State.setSp_cr4 (s : State) (v : Word) : (s.setSp v).cr4 = s.cr4 := rfl
@[simp] theorem State.setSp_tpr (s : State) (v : Word) : (s.setSp v).tpr = s.tpr := rfl
@[simp] theorem State.setSp_apicEnabled (s : State) (v : Word) : (s.setSp v).apicEnabled = s.apicEnabled := rfl
@[simp] theorem State.setSp_dr0 (s : State) (v : Word) : (s.setSp v).dr0 = s.dr0 := rfl
@[simp] theorem State.setSp_dr1 (s : State) (v : Word) : (s.setSp v).dr1 = s.dr1 := rfl
@[simp] theorem State.setSp_dr2 (s : State) (v : Word) : (s.setSp v).dr2 = s.dr2 := rfl
@[simp] theorem State.setSp_dr3 (s : State) (v : Word) : (s.setSp v).dr3 = s.dr3 := rfl
@[simp] theorem State.setSp_dr6 (s : State) (v : Word) : (s.setSp v).dr6 = s.dr6 := rfl
@[simp] theorem State.setSp_dr7 (s : State) (v : Word) : (s.setSp v).dr7 = s.dr7 := rfl
@[simp] theorem State.setSp_efer (s : State) (v : Word) : (s.setSp v).efer = s.efer := rfl
@[simp] theorem State.setSp_star (s : State) (v : Word) : (s.setSp v).star = s.star := rfl
@[simp] theorem State.setSp_lstar (s : State) (v : Word) : (s.setSp v).lstar = s.lstar := rfl
@[simp] theorem State.setSp_cstar (s : State) (v : Word) : (s.setSp v).cstar = s.cstar := rfl
@[simp] theorem State.setSp_fmask (s : State) (v : Word) : (s.setSp v).fmask = s.fmask := rfl
@[simp] theorem State.setSp_kernelGsBase (s : State) (v : Word) : (s.setSp v).kernelGsBase = s.kernelGsBase := rfl
@[simp] theorem State.setSp_bootNt4 (s : State) (v : Word) : (s.setSp v).bootNt4 = s.bootNt4 := rfl
@[simp] theorem State.setSp_fpu (s : State) (v : Word) : (s.setSp v).fpu = s.fpu := rfl
@[simp] theorem State.setSp_xmm (s : State) (v : Word) : (s.setSp v).xmm = s.xmm := rfl
@[simp] theorem State.setSp_mxcsr (s : State) (v : Word) : (s.setSp v).mxcsr = s.mxcsr := rfl
@[simp] theorem State.setSp_tsc (s : State) (v : Word) : (s.setSp v).tsc = s.tsc := rfl
@[simp] theorem State.setSp_mem (s : State) (v : Word) : (s.setSp v).mem = s.mem := rfl
@[simp] theorem State.setSp_pendingNmi (s : State) (v : Word) : (s.setSp v).pendingNmi = s.pendingNmi := rfl
@[simp] theorem State.setSp_nmiBlocked (s : State) (v : Word) : (s.setSp v).nmiBlocked = s.nmiBlocked := rfl
@[simp] theorem State.setSp_pendingInt (s : State) (v : Word) : (s.setSp v).pendingInt = s.pendingInt := rfl
@[simp] theorem State.setSp_pendingDb (s : State) (v : Word) : (s.setSp v).pendingDb = s.pendingDb := rfl
@[simp] theorem State.setSp_shadow (s : State) (v : Word) : (s.setSp v).shadow = s.shadow := rfl
@[simp] theorem State.setSp_heldShadow (s : State) (v : Word) : (s.setSp v).heldShadow = s.heldShadow := rfl
@[simp] theorem State.setSp_activity (s : State) (v : Word) : (s.setSp v).activity = s.activity := rfl
@[simp] theorem State.setSp_freeCount (s : State) (v : Word) : (s.setSp v).freeCount = s.freeCount := rfl
@[simp] theorem State.setSp_ioLog (s : State) (v : Word) : (s.setSp v).ioLog = s.ioLog := rfl

/-! ### storeAt -/

@[simp] theorem State.storeAt_gpr (s : State) (sp : Span) (n v : Nat) : (s.storeAt sp n v).gpr = s.gpr := rfl
@[simp] theorem State.storeAt_rip (s : State) (sp : Span) (n v : Nat) : (s.storeAt sp n v).rip = s.rip := rfl
@[simp] theorem State.storeAt_nextPc (s : State) (sp : Span) (n v : Nat) : (s.storeAt sp n v).nextPc = s.nextPc := rfl
@[simp] theorem State.storeAt_rflags (s : State) (sp : Span) (n v : Nat) : (s.storeAt sp n v).rflags = s.rflags := rfl
@[simp] theorem State.storeAt_es (s : State) (sp : Span) (n v : Nat) : (s.storeAt sp n v).es = s.es := rfl
@[simp] theorem State.storeAt_cs (s : State) (sp : Span) (n v : Nat) : (s.storeAt sp n v).cs = s.cs := rfl
@[simp] theorem State.storeAt_ss (s : State) (sp : Span) (n v : Nat) : (s.storeAt sp n v).ss = s.ss := rfl
@[simp] theorem State.storeAt_ds (s : State) (sp : Span) (n v : Nat) : (s.storeAt sp n v).ds = s.ds := rfl
@[simp] theorem State.storeAt_fs (s : State) (sp : Span) (n v : Nat) : (s.storeAt sp n v).fs = s.fs := rfl
@[simp] theorem State.storeAt_gs (s : State) (sp : Span) (n v : Nat) : (s.storeAt sp n v).gs = s.gs := rfl
@[simp] theorem State.storeAt_ldtr (s : State) (sp : Span) (n v : Nat) : (s.storeAt sp n v).ldtr = s.ldtr := rfl
@[simp] theorem State.storeAt_tr (s : State) (sp : Span) (n v : Nat) : (s.storeAt sp n v).tr = s.tr := rfl
@[simp] theorem State.storeAt_gdtr (s : State) (sp : Span) (n v : Nat) : (s.storeAt sp n v).gdtr = s.gdtr := rfl
@[simp] theorem State.storeAt_idtr (s : State) (sp : Span) (n v : Nat) : (s.storeAt sp n v).idtr = s.idtr := rfl
@[simp] theorem State.storeAt_cr0 (s : State) (sp : Span) (n v : Nat) : (s.storeAt sp n v).cr0 = s.cr0 := rfl
@[simp] theorem State.storeAt_cr2 (s : State) (sp : Span) (n v : Nat) : (s.storeAt sp n v).cr2 = s.cr2 := rfl
@[simp] theorem State.storeAt_cr3 (s : State) (sp : Span) (n v : Nat) : (s.storeAt sp n v).cr3 = s.cr3 := rfl
@[simp] theorem State.storeAt_cr4 (s : State) (sp : Span) (n v : Nat) : (s.storeAt sp n v).cr4 = s.cr4 := rfl
@[simp] theorem State.storeAt_tpr (s : State) (sp : Span) (n v : Nat) : (s.storeAt sp n v).tpr = s.tpr := rfl
@[simp] theorem State.storeAt_apicEnabled (s : State) (sp : Span) (n v : Nat) : (s.storeAt sp n v).apicEnabled = s.apicEnabled := rfl
@[simp] theorem State.storeAt_dr0 (s : State) (sp : Span) (n v : Nat) : (s.storeAt sp n v).dr0 = s.dr0 := rfl
@[simp] theorem State.storeAt_dr1 (s : State) (sp : Span) (n v : Nat) : (s.storeAt sp n v).dr1 = s.dr1 := rfl
@[simp] theorem State.storeAt_dr2 (s : State) (sp : Span) (n v : Nat) : (s.storeAt sp n v).dr2 = s.dr2 := rfl
@[simp] theorem State.storeAt_dr3 (s : State) (sp : Span) (n v : Nat) : (s.storeAt sp n v).dr3 = s.dr3 := rfl
@[simp] theorem State.storeAt_dr6 (s : State) (sp : Span) (n v : Nat) : (s.storeAt sp n v).dr6 = s.dr6 := rfl
@[simp] theorem State.storeAt_dr7 (s : State) (sp : Span) (n v : Nat) : (s.storeAt sp n v).dr7 = s.dr7 := rfl
@[simp] theorem State.storeAt_efer (s : State) (sp : Span) (n v : Nat) : (s.storeAt sp n v).efer = s.efer := rfl
@[simp] theorem State.storeAt_star (s : State) (sp : Span) (n v : Nat) : (s.storeAt sp n v).star = s.star := rfl
@[simp] theorem State.storeAt_lstar (s : State) (sp : Span) (n v : Nat) : (s.storeAt sp n v).lstar = s.lstar := rfl
@[simp] theorem State.storeAt_cstar (s : State) (sp : Span) (n v : Nat) : (s.storeAt sp n v).cstar = s.cstar := rfl
@[simp] theorem State.storeAt_fmask (s : State) (sp : Span) (n v : Nat) : (s.storeAt sp n v).fmask = s.fmask := rfl
@[simp] theorem State.storeAt_kernelGsBase (s : State) (sp : Span) (n v : Nat) : (s.storeAt sp n v).kernelGsBase = s.kernelGsBase := rfl
@[simp] theorem State.storeAt_bootNt4 (s : State) (sp : Span) (n v : Nat) : (s.storeAt sp n v).bootNt4 = s.bootNt4 := rfl
@[simp] theorem State.storeAt_fpu (s : State) (sp : Span) (n v : Nat) : (s.storeAt sp n v).fpu = s.fpu := rfl
@[simp] theorem State.storeAt_xmm (s : State) (sp : Span) (n v : Nat) : (s.storeAt sp n v).xmm = s.xmm := rfl
@[simp] theorem State.storeAt_mxcsr (s : State) (sp : Span) (n v : Nat) : (s.storeAt sp n v).mxcsr = s.mxcsr := rfl
@[simp] theorem State.storeAt_tsc (s : State) (sp : Span) (n v : Nat) : (s.storeAt sp n v).tsc = s.tsc := rfl
@[simp] theorem State.storeAt_mem (s : State) (sp : Span) (n v : Nat) :
    (s.storeAt sp n v).mem = spanSet s.mem sp 0 n v := rfl
@[simp] theorem State.storeAt_pendingNmi (s : State) (sp : Span) (n v : Nat) : (s.storeAt sp n v).pendingNmi = s.pendingNmi := rfl
@[simp] theorem State.storeAt_nmiBlocked (s : State) (sp : Span) (n v : Nat) : (s.storeAt sp n v).nmiBlocked = s.nmiBlocked := rfl
@[simp] theorem State.storeAt_pendingInt (s : State) (sp : Span) (n v : Nat) : (s.storeAt sp n v).pendingInt = s.pendingInt := rfl
@[simp] theorem State.storeAt_pendingDb (s : State) (sp : Span) (n v : Nat) : (s.storeAt sp n v).pendingDb = s.pendingDb := rfl
@[simp] theorem State.storeAt_shadow (s : State) (sp : Span) (n v : Nat) : (s.storeAt sp n v).shadow = s.shadow := rfl
@[simp] theorem State.storeAt_heldShadow (s : State) (sp : Span) (n v : Nat) : (s.storeAt sp n v).heldShadow = s.heldShadow := rfl
@[simp] theorem State.storeAt_activity (s : State) (sp : Span) (n v : Nat) : (s.storeAt sp n v).activity = s.activity := rfl
@[simp] theorem State.storeAt_freeCount (s : State) (sp : Span) (n v : Nat) : (s.storeAt sp n v).freeCount = s.freeCount := rfl
@[simp] theorem State.storeAt_ioLog (s : State) (sp : Span) (n v : Nat) : (s.storeAt sp n v).ioLog = s.ioLog := rfl

/-! ### setXmm -/

@[simp] theorem State.setXmm_gpr (s : State) (r : Reg) (v : BitVec 128) : (s.setXmm r v).gpr = s.gpr := rfl
@[simp] theorem State.setXmm_rip (s : State) (r : Reg) (v : BitVec 128) : (s.setXmm r v).rip = s.rip := rfl
@[simp] theorem State.setXmm_nextPc (s : State) (r : Reg) (v : BitVec 128) : (s.setXmm r v).nextPc = s.nextPc := rfl
@[simp] theorem State.setXmm_rflags (s : State) (r : Reg) (v : BitVec 128) : (s.setXmm r v).rflags = s.rflags := rfl
@[simp] theorem State.setXmm_es (s : State) (r : Reg) (v : BitVec 128) : (s.setXmm r v).es = s.es := rfl
@[simp] theorem State.setXmm_cs (s : State) (r : Reg) (v : BitVec 128) : (s.setXmm r v).cs = s.cs := rfl
@[simp] theorem State.setXmm_ss (s : State) (r : Reg) (v : BitVec 128) : (s.setXmm r v).ss = s.ss := rfl
@[simp] theorem State.setXmm_ds (s : State) (r : Reg) (v : BitVec 128) : (s.setXmm r v).ds = s.ds := rfl
@[simp] theorem State.setXmm_fs (s : State) (r : Reg) (v : BitVec 128) : (s.setXmm r v).fs = s.fs := rfl
@[simp] theorem State.setXmm_gs (s : State) (r : Reg) (v : BitVec 128) : (s.setXmm r v).gs = s.gs := rfl
@[simp] theorem State.setXmm_ldtr (s : State) (r : Reg) (v : BitVec 128) : (s.setXmm r v).ldtr = s.ldtr := rfl
@[simp] theorem State.setXmm_tr (s : State) (r : Reg) (v : BitVec 128) : (s.setXmm r v).tr = s.tr := rfl
@[simp] theorem State.setXmm_gdtr (s : State) (r : Reg) (v : BitVec 128) : (s.setXmm r v).gdtr = s.gdtr := rfl
@[simp] theorem State.setXmm_idtr (s : State) (r : Reg) (v : BitVec 128) : (s.setXmm r v).idtr = s.idtr := rfl
@[simp] theorem State.setXmm_cr0 (s : State) (r : Reg) (v : BitVec 128) : (s.setXmm r v).cr0 = s.cr0 := rfl
@[simp] theorem State.setXmm_cr2 (s : State) (r : Reg) (v : BitVec 128) : (s.setXmm r v).cr2 = s.cr2 := rfl
@[simp] theorem State.setXmm_cr3 (s : State) (r : Reg) (v : BitVec 128) : (s.setXmm r v).cr3 = s.cr3 := rfl
@[simp] theorem State.setXmm_cr4 (s : State) (r : Reg) (v : BitVec 128) : (s.setXmm r v).cr4 = s.cr4 := rfl
@[simp] theorem State.setXmm_tpr (s : State) (r : Reg) (v : BitVec 128) : (s.setXmm r v).tpr = s.tpr := rfl
@[simp] theorem State.setXmm_apicEnabled (s : State) (r : Reg) (v : BitVec 128) : (s.setXmm r v).apicEnabled = s.apicEnabled := rfl
@[simp] theorem State.setXmm_dr0 (s : State) (r : Reg) (v : BitVec 128) : (s.setXmm r v).dr0 = s.dr0 := rfl
@[simp] theorem State.setXmm_dr1 (s : State) (r : Reg) (v : BitVec 128) : (s.setXmm r v).dr1 = s.dr1 := rfl
@[simp] theorem State.setXmm_dr2 (s : State) (r : Reg) (v : BitVec 128) : (s.setXmm r v).dr2 = s.dr2 := rfl
@[simp] theorem State.setXmm_dr3 (s : State) (r : Reg) (v : BitVec 128) : (s.setXmm r v).dr3 = s.dr3 := rfl
@[simp] theorem State.setXmm_dr6 (s : State) (r : Reg) (v : BitVec 128) : (s.setXmm r v).dr6 = s.dr6 := rfl
@[simp] theorem State.setXmm_dr7 (s : State) (r : Reg) (v : BitVec 128) : (s.setXmm r v).dr7 = s.dr7 := rfl
@[simp] theorem State.setXmm_efer (s : State) (r : Reg) (v : BitVec 128) : (s.setXmm r v).efer = s.efer := rfl
@[simp] theorem State.setXmm_star (s : State) (r : Reg) (v : BitVec 128) : (s.setXmm r v).star = s.star := rfl
@[simp] theorem State.setXmm_lstar (s : State) (r : Reg) (v : BitVec 128) : (s.setXmm r v).lstar = s.lstar := rfl
@[simp] theorem State.setXmm_cstar (s : State) (r : Reg) (v : BitVec 128) : (s.setXmm r v).cstar = s.cstar := rfl
@[simp] theorem State.setXmm_fmask (s : State) (r : Reg) (v : BitVec 128) : (s.setXmm r v).fmask = s.fmask := rfl
@[simp] theorem State.setXmm_kernelGsBase (s : State) (r : Reg) (v : BitVec 128) : (s.setXmm r v).kernelGsBase = s.kernelGsBase := rfl
@[simp] theorem State.setXmm_bootNt4 (s : State) (r : Reg) (v : BitVec 128) : (s.setXmm r v).bootNt4 = s.bootNt4 := rfl
@[simp] theorem State.setXmm_fpu (s : State) (r : Reg) (v : BitVec 128) : (s.setXmm r v).fpu = s.fpu := rfl
@[simp] theorem State.setXmm_xmm (s : State) (r : Reg) (v : BitVec 128) :
    (s.setXmm r v).xmm = s.xmm.set r.toNat v r.isLt := rfl
@[simp] theorem State.setXmm_mxcsr (s : State) (r : Reg) (v : BitVec 128) : (s.setXmm r v).mxcsr = s.mxcsr := rfl
@[simp] theorem State.setXmm_tsc (s : State) (r : Reg) (v : BitVec 128) : (s.setXmm r v).tsc = s.tsc := rfl
@[simp] theorem State.setXmm_mem (s : State) (r : Reg) (v : BitVec 128) : (s.setXmm r v).mem = s.mem := rfl
@[simp] theorem State.setXmm_pendingNmi (s : State) (r : Reg) (v : BitVec 128) : (s.setXmm r v).pendingNmi = s.pendingNmi := rfl
@[simp] theorem State.setXmm_nmiBlocked (s : State) (r : Reg) (v : BitVec 128) : (s.setXmm r v).nmiBlocked = s.nmiBlocked := rfl
@[simp] theorem State.setXmm_pendingInt (s : State) (r : Reg) (v : BitVec 128) : (s.setXmm r v).pendingInt = s.pendingInt := rfl
@[simp] theorem State.setXmm_pendingDb (s : State) (r : Reg) (v : BitVec 128) : (s.setXmm r v).pendingDb = s.pendingDb := rfl
@[simp] theorem State.setXmm_shadow (s : State) (r : Reg) (v : BitVec 128) : (s.setXmm r v).shadow = s.shadow := rfl
@[simp] theorem State.setXmm_heldShadow (s : State) (r : Reg) (v : BitVec 128) : (s.setXmm r v).heldShadow = s.heldShadow := rfl
@[simp] theorem State.setXmm_activity (s : State) (r : Reg) (v : BitVec 128) : (s.setXmm r v).activity = s.activity := rfl
@[simp] theorem State.setXmm_freeCount (s : State) (r : Reg) (v : BitVec 128) : (s.setXmm r v).freeCount = s.freeCount := rfl
@[simp] theorem State.setXmm_ioLog (s : State) (r : Reg) (v : BitVec 128) : (s.setXmm r v).ioLog = s.ioLog := rfl

/-! ### setMxFlags -/

@[simp] theorem State.setMxFlags_gpr (s : State) (x : BitVec 6) : (s.setMxFlags x).gpr = s.gpr := rfl
@[simp] theorem State.setMxFlags_rip (s : State) (x : BitVec 6) : (s.setMxFlags x).rip = s.rip := rfl
@[simp] theorem State.setMxFlags_nextPc (s : State) (x : BitVec 6) : (s.setMxFlags x).nextPc = s.nextPc := rfl
@[simp] theorem State.setMxFlags_rflags (s : State) (x : BitVec 6) : (s.setMxFlags x).rflags = s.rflags := rfl
@[simp] theorem State.setMxFlags_es (s : State) (x : BitVec 6) : (s.setMxFlags x).es = s.es := rfl
@[simp] theorem State.setMxFlags_cs (s : State) (x : BitVec 6) : (s.setMxFlags x).cs = s.cs := rfl
@[simp] theorem State.setMxFlags_ss (s : State) (x : BitVec 6) : (s.setMxFlags x).ss = s.ss := rfl
@[simp] theorem State.setMxFlags_ds (s : State) (x : BitVec 6) : (s.setMxFlags x).ds = s.ds := rfl
@[simp] theorem State.setMxFlags_fs (s : State) (x : BitVec 6) : (s.setMxFlags x).fs = s.fs := rfl
@[simp] theorem State.setMxFlags_gs (s : State) (x : BitVec 6) : (s.setMxFlags x).gs = s.gs := rfl
@[simp] theorem State.setMxFlags_ldtr (s : State) (x : BitVec 6) : (s.setMxFlags x).ldtr = s.ldtr := rfl
@[simp] theorem State.setMxFlags_tr (s : State) (x : BitVec 6) : (s.setMxFlags x).tr = s.tr := rfl
@[simp] theorem State.setMxFlags_gdtr (s : State) (x : BitVec 6) : (s.setMxFlags x).gdtr = s.gdtr := rfl
@[simp] theorem State.setMxFlags_idtr (s : State) (x : BitVec 6) : (s.setMxFlags x).idtr = s.idtr := rfl
@[simp] theorem State.setMxFlags_cr0 (s : State) (x : BitVec 6) : (s.setMxFlags x).cr0 = s.cr0 := rfl
@[simp] theorem State.setMxFlags_cr2 (s : State) (x : BitVec 6) : (s.setMxFlags x).cr2 = s.cr2 := rfl
@[simp] theorem State.setMxFlags_cr3 (s : State) (x : BitVec 6) : (s.setMxFlags x).cr3 = s.cr3 := rfl
@[simp] theorem State.setMxFlags_cr4 (s : State) (x : BitVec 6) : (s.setMxFlags x).cr4 = s.cr4 := rfl
@[simp] theorem State.setMxFlags_tpr (s : State) (x : BitVec 6) : (s.setMxFlags x).tpr = s.tpr := rfl
@[simp] theorem State.setMxFlags_apicEnabled (s : State) (x : BitVec 6) : (s.setMxFlags x).apicEnabled = s.apicEnabled := rfl
@[simp] theorem State.setMxFlags_dr0 (s : State) (x : BitVec 6) : (s.setMxFlags x).dr0 = s.dr0 := rfl
@[simp] theorem State.setMxFlags_dr1 (s : State) (x : BitVec 6) : (s.setMxFlags x).dr1 = s.dr1 := rfl
@[simp] theorem State.setMxFlags_dr2 (s : State) (x : BitVec 6) : (s.setMxFlags x).dr2 = s.dr2 := rfl
@[simp] theorem State.setMxFlags_dr3 (s : State) (x : BitVec 6) : (s.setMxFlags x).dr3 = s.dr3 := rfl
@[simp] theorem State.setMxFlags_dr6 (s : State) (x : BitVec 6) : (s.setMxFlags x).dr6 = s.dr6 := rfl
@[simp] theorem State.setMxFlags_dr7 (s : State) (x : BitVec 6) : (s.setMxFlags x).dr7 = s.dr7 := rfl
@[simp] theorem State.setMxFlags_efer (s : State) (x : BitVec 6) : (s.setMxFlags x).efer = s.efer := rfl
@[simp] theorem State.setMxFlags_star (s : State) (x : BitVec 6) : (s.setMxFlags x).star = s.star := rfl
@[simp] theorem State.setMxFlags_lstar (s : State) (x : BitVec 6) : (s.setMxFlags x).lstar = s.lstar := rfl
@[simp] theorem State.setMxFlags_cstar (s : State) (x : BitVec 6) : (s.setMxFlags x).cstar = s.cstar := rfl
@[simp] theorem State.setMxFlags_fmask (s : State) (x : BitVec 6) : (s.setMxFlags x).fmask = s.fmask := rfl
@[simp] theorem State.setMxFlags_kernelGsBase (s : State) (x : BitVec 6) : (s.setMxFlags x).kernelGsBase = s.kernelGsBase := rfl
@[simp] theorem State.setMxFlags_bootNt4 (s : State) (x : BitVec 6) : (s.setMxFlags x).bootNt4 = s.bootNt4 := rfl
@[simp] theorem State.setMxFlags_fpu (s : State) (x : BitVec 6) : (s.setMxFlags x).fpu = s.fpu := rfl
@[simp] theorem State.setMxFlags_xmm (s : State) (x : BitVec 6) : (s.setMxFlags x).xmm = s.xmm := rfl
@[simp] theorem State.setMxFlags_mxcsr (s : State) (x : BitVec 6) :
    (s.setMxFlags x).mxcsr = s.mxcsr ||| x.setWidth 32 := rfl
@[simp] theorem State.setMxFlags_tsc (s : State) (x : BitVec 6) : (s.setMxFlags x).tsc = s.tsc := rfl
@[simp] theorem State.setMxFlags_mem (s : State) (x : BitVec 6) : (s.setMxFlags x).mem = s.mem := rfl
@[simp] theorem State.setMxFlags_pendingNmi (s : State) (x : BitVec 6) : (s.setMxFlags x).pendingNmi = s.pendingNmi := rfl
@[simp] theorem State.setMxFlags_nmiBlocked (s : State) (x : BitVec 6) : (s.setMxFlags x).nmiBlocked = s.nmiBlocked := rfl
@[simp] theorem State.setMxFlags_pendingInt (s : State) (x : BitVec 6) : (s.setMxFlags x).pendingInt = s.pendingInt := rfl
@[simp] theorem State.setMxFlags_pendingDb (s : State) (x : BitVec 6) : (s.setMxFlags x).pendingDb = s.pendingDb := rfl
@[simp] theorem State.setMxFlags_shadow (s : State) (x : BitVec 6) : (s.setMxFlags x).shadow = s.shadow := rfl
@[simp] theorem State.setMxFlags_heldShadow (s : State) (x : BitVec 6) : (s.setMxFlags x).heldShadow = s.heldShadow := rfl
@[simp] theorem State.setMxFlags_activity (s : State) (x : BitVec 6) : (s.setMxFlags x).activity = s.activity := rfl
@[simp] theorem State.setMxFlags_freeCount (s : State) (x : BitVec 6) : (s.setMxFlags x).freeCount = s.freeCount := rfl
@[simp] theorem State.setMxFlags_ioLog (s : State) (x : BitVec 6) : (s.setMxFlags x).ioLog = s.ioLog := rfl

end Sys2Proof.Machine
end

