-- ==== Sys2Proof/Laws/Regs.lean ====
section
/-! SUPPORT. Reading back what was written: bits, flags, general registers, XMM registers, x87 registers. -/

namespace Sys2Proof.Machine

/-! ### Bits and flags -/

/-- The bits after one was set. -/
theorem putBit_getLsbD {n : Nat} (v : BitVec n) (i j : Nat) (b : Bool) :
    (putBit v i b).getLsbD j = if i = j ∧ j < n then b else v.getLsbD j := by
  unfold putBit
  by_cases hn : j < n
  · by_cases h : i = j
    · subst h
      cases b <;> simp [BitVec.getLsbD_twoPow, hn, -BitVec.getLsbD_eq_getElem]
    · cases b <;> simp [BitVec.getLsbD_twoPow, hn, h, -BitVec.getLsbD_eq_getElem]
  · have := BitVec.getLsbD_of_ge v j (by omega)
    cases b <;> simp [BitVec.getLsbD_twoPow, hn, this]
    omega

/-- The bits of EFLAGS under a mask. -/
theorem maskFlags_getLsbD (f m v : BitVec 32) (i : Nat) :
    (maskFlags f m v).getLsbD i = if m.getLsbD i then v.getLsbD i else f.getLsbD i := by
  unfold maskFlags
  by_cases hi : i < 32
  · cases h : m.getLsbD i <;> simp [h, hi, -BitVec.getLsbD_eq_getElem]
  · have h1 := BitVec.getLsbD_of_ge f i (by omega)
    have h2 := BitVec.getLsbD_of_ge v i (by omega)
    simp [h1, h2]

/-- The flags outside a mask keep their values. -/
theorem maskFlags_outside (f m v : BitVec 32) : maskFlags f m v &&& ~~~m = f &&& ~~~m := by
  apply BitVec.eq_of_getLsbD_eq
  intro i hi
  simp only [BitVec.getLsbD_and, maskFlags_getLsbD]
  cases h : m.getLsbD i <;> simp [h]

/-- The state's flag after one flag was set. -/
theorem State.flag_setFlag (s : State) (i j : Nat) (b : Bool) (hj : j < 32) :
    (s.setFlag i b).flag j = if i = j then b else s.flag j := by
  simp [State.flag, putBit_getLsbD, hj, -BitVec.getLsbD_eq_getElem]

@[simp] theorem State.put_flag (s : State) (r : Reg) (v : Word) (i : Nat) : (s.put r v).flag i = s.flag i := rfl
@[simp] theorem State.writeReg_flag (s : State) (w : Width) (r : Reg) (v : BitVec w.bits) (i : Nat) :
    (s.writeReg w r v).flag i = s.flag i := rfl
@[simp] theorem State.setRip_flag (s : State) (v : Word) (i : Nat) : (s.setRip v).flag i = s.flag i := rfl

/-- One bit of a flag placed in EFLAGS. -/
theorem bitAt_getLsbD (b : Bool) (i j : Nat) : (bitAt b i).getLsbD j = (b && decide (i = j ∧ j < 32)) := by
  unfold bitAt
  cases b
  · simp
  · by_cases h : j < 32 <;> simp [BitVec.getLsbD_twoPow, h] <;> omega

/-- The six flags in their places, and nothing elsewhere. -/
theorem Status.bits_getLsbD (f : Status) (i : Nat) :
    f.bits.getLsbD i = (f.cf && decide (i = 0) || f.pf && decide (i = 2) || f.af && decide (i = 4) ||
      f.zf && decide (i = 6) || f.sf && decide (i = 7) || f.of && decide (i = 11)) := by
  unfold Status.bits
  simp only [BitVec.getLsbD_or, bitAt_getLsbD]
  by_cases h0 : i = 0
  · subst h0; simp
  by_cases h2 : i = 2
  · subst h2; simp
  by_cases h4 : i = 4
  · subst h4; simp
  by_cases h6 : i = 6
  · subst h6; simp
  by_cases h7 : i = 7
  · subst h7; simp
  by_cases h11 : i = 11
  · subst h11; simp
  simp [h0, h2, h4, h6, h7, h11, Ne.symm h0, Ne.symm h2, Ne.symm h4, Ne.symm h6, Ne.symm h7, Ne.symm h11]

/-- The state's flag after the status flags of a mask were set. -/
theorem State.flag_setStatus (s : State) (m : BitVec 32) (f : Status) (i : Nat) :
    (s.setStatus m f).flag i = if m.getLsbD i then f.bits.getLsbD i else s.flag i := by
  simp [State.flag, maskFlags_getLsbD]

/-! ### General registers -/

@[simp] theorem State.get_put_self (s : State) (r : Reg) (v : Word) : (s.put r v).get r = v := by
  simp [State.get]

theorem State.get_put_ne (s : State) {r q : Reg} (v : Word) (h : q ≠ r) : (s.put r v).get q = s.get q := by
  have h' : r.toNat ≠ q.toNat := fun e => h (BitVec.eq_of_toNat_eq e.symm)
  simp [State.get, h']

theorem State.get_writeReg_ne (s : State) (w : Width) {r q : Reg} (v : BitVec w.bits) (h : q ≠ r) :
    (s.writeReg w r v).get q = s.get q := State.get_put_ne s _ h

@[simp] theorem State.get_writeReg_self (s : State) (w : Width) (r : Reg) (v : BitVec w.bits) :
    (s.writeReg w r v).get r = mergeReg w (s.get r) v := State.get_put_self s r _

/-- The written part of a register reads back. -/
theorem mergeReg_low (w : Width) (old : Word) (v : BitVec w.bits) : (mergeReg w old v).setWidth w.bits = v := by
  cases w <;> apply BitVec.eq_of_getLsbD_eq <;> intro i hi <;>
    simp only [Width.bits] at hi v ⊢ <;> simp [mergeReg, BitVec.getLsbD_append, hi]

/-- The number two adjacent bit fields make. -/
theorem append_toNat {m n : Nat} (a : BitVec m) (b : BitVec n) : (a ++ b).toNat = a.toNat * 2 ^ n + b.toNat := by
  rw [BitVec.toNat_append, ← Nat.shiftLeft_add_eq_or_of_lt b.isLt, Nat.shiftLeft_eq]
/-- What a register holds after a write of width `w`: the value, with zeros above 32 bits, or the value under the old
upper part (R34). -/
theorem mergeReg_toNat (w : Width) (old : Word) (v : BitVec w.bits) : (mergeReg w old v).toNat =
    (if w.bits < 32 then old.toNat / 2 ^ w.bits * 2 ^ w.bits else 0) + v.toNat := by
  have := old.isLt
  cases w <;> simp only [Width.bits] at v ⊢ <;> have := v.isLt <;>
    simp only [mergeReg, append_toNat, BitVec.extractLsb'_toNat, BitVec.toNat_setWidth, Nat.shiftRight_eq_div_pow] <;> 
    simp <;> omega
/-- What a register holds after a write of its second byte (R31, R34). -/
theorem State.get_writeHigh_toNat (s : State) (h : BitVec 2) (v : Byte) :
    ((s.writeGReg .b8 (.high h) v).get (highReg h)).toNat =
      (s.get (highReg h)).toNat / 2 ^ 16 * 2 ^ 16 + v.toNat * 256 + (s.get (highReg h)).toNat % 256 := by
  have := (s.get (highReg h)).isLt
  have := v.isLt
  simp only [State.writeGReg, State.get_put_self]
  show ((_ ++ _ : BitVec (48 + 8)) ++ _ : BitVec (48 + 8 + 8)).toNat = _
  simp only [append_toNat, BitVec.extractLsb'_toNat, BitVec.toNat_setWidth, Nat.shiftRight_eq_div_pow, Width.bits]
  simp; omega

/-- A register reads back what was written to it at the same width. -/
@[simp] theorem State.readReg_writeReg_self (s : State) (w : Width) (r : Reg) (v : BitVec w.bits) :
    (s.writeReg w r v).readReg w r = v := by
  simp [State.readReg, mergeReg_low]

/-- The second byte of a register reads back. -/
theorem highByte_read (a : BitVec 48) (v b : BitVec 8) :
    (((a ++ v.setWidth 8 ++ b : BitVec 64).extractLsb' 8 8).setWidth 8 : BitVec 8) = v := by
  apply BitVec.eq_of_getLsbD_eq
  intro i hi
  have h : (a ++ v ++ b : BitVec (48 + 8 + 8)).getLsbD (8 + i) = v.getLsbD i := by
    rw [BitVec.getLsbD_append, BitVec.getLsbD_append]
    simp [hi]
  simpa [hi] using h

/-- A register operand of any form reads back what was written to it. -/
@[simp] theorem State.readGReg_writeGReg_self (s : State) (w : Width) (g : GReg) (v : BitVec w.bits)
    (h : w = .b8 ∨ ∃ r, g = .full r) : (s.writeGReg w g v).readGReg w g = v := by
  cases g with
  | full r => exact State.readReg_writeReg_self s w r v
  | high q =>
    obtain rfl | ⟨r, hr⟩ := h
    · show ((((s.put (highReg q) _).get (highReg q)).extractLsb' 8 8).setWidth 8 : BitVec 8) = v
      rw [State.get_put_self]
      exact highByte_read _ _ _
    · cases hr

/-- A register other than the one that holds a register operand keeps its value. -/
theorem State.get_writeGReg_ne (s : State) (w : Width) (g : GReg) (v : BitVec w.bits) (q : Reg)
    (h : q ≠ (match g with | .full r => r | .high k => highReg k)) : (s.writeGReg w g v).get q = s.get q := by
  cases g with
  | full r => exact State.get_writeReg_ne s w v h
  | high k => exact State.get_put_ne s _ h

/-! ### XMM and x87 registers -/

@[simp] theorem State.xmmReg_setXmm_self (s : State) (r : Reg) (v : BitVec 128) : (s.setXmm r v).xmmReg r = v := by
  simp [State.xmmReg]

theorem State.xmmReg_setXmm_ne (s : State) {r q : Reg} (v : BitVec 128) (h : q ≠ r) :
    (s.setXmm r v).xmmReg q = s.xmmReg q := by
  have h' : r.toNat ≠ q.toNat := fun e => h (BitVec.eq_of_toNat_eq e.symm)
  simp [State.xmmReg, h']

@[simp] theorem Fpu.reg_setReg_self (f : Fpu) (k : BitVec 3) (v : BitVec 80) : (f.setReg k v).reg k = v := by
  simp [Fpu.reg, Fpu.setReg]

theorem Fpu.reg_setReg_ne (f : Fpu) {k j : BitVec 3} (v : BitVec 80) (h : j ≠ k) : (f.setReg k v).reg j = f.reg j := by
  have h' : k.toNat ≠ j.toNat := fun e => h (BitVec.eq_of_toNat_eq e.symm)
  simp [Fpu.reg, Fpu.setReg, h']

end Sys2Proof.Machine
end

