-- ==== Sys2Proof/Laws/Memory.lean ====
section
/-! SUPPORT. The laws of memory: reading after writing, and the canonical form that every memory operation keeps. -/

namespace Sys2Proof.Machine

/-! ### One byte -/

/-- Every listed address is at least the bound of the canonical form. -/
theorem memGet_below {lo : Nat} {m : List Host.Cell} (h : memWfFrom lo m = true) {a : Nat} (ha : a < lo) :
    memGet m a = unlistedByte := by
  cases m with
  | nil => rfl
  | cons c t =>
    obtain ⟨k, b⟩ := c
    simp [memWfFrom] at h
    have : a < k := by omega
    simp [memGet, this]

/-- A byte reads back, and every other byte reads as before. -/
theorem memGet_memSet {lo : Nat} {m : List Host.Cell} (h : memWfFrom lo m = true) (a b : Nat) (v : Byte) :
    memGet (memSet m a v) b = if b = a then v else memGet m b := by
  induction m generalizing lo with
  | nil =>
    by_cases hv : v = unlistedByte <;> by_cases hb : b = a <;>
      simp [memSet, memGet, hv, hb]
    omega
  | cons c t ih =>
    obtain ⟨k, x⟩ := c
    simp only [memWfFrom, Bool.and_eq_true, decide_eq_true_eq] at h
    by_cases h1 : a < k
    · by_cases hv : v = unlistedByte
      · by_cases hb : b = a
        · subst hb; simp [memSet, h1, hv, memGet]
        · simp [memSet, h1, hv, hb]
      · by_cases hb : b = a
        · subst hb; simp [memSet, h1, hv, memGet]
        · by_cases hba : b < a
          · have : b < k := by omega
            simp [memSet, h1, hv, memGet, hb, hba, this]
          · have : ¬a = b := fun e => hb e.symm
            simp [memSet, h1, hv, memGet, hb, hba, this]
    · by_cases h2 : k = a
      · subst h2
        by_cases hv : v = unlistedByte
        · by_cases hb : b = k
          · subst hb; simp [memSet, hv, memGet_below h.2 (Nat.lt_succ_self _)]
          · by_cases hbk : b < k
            · simp [memSet, hv, hb, memGet, hbk, memGet_below h.2 (show b < k + 1 by omega)]
            · have : ¬k = b := fun e => hb e.symm
              simp [memSet, hv, hb, memGet, hbk, this]
        · by_cases hb : b = k
          · subst hb; simp [memSet, hv, memGet]
          · have : ¬k = b := fun e => hb e.symm
            simp [memSet, hv, hb, memGet, this]
      · by_cases hbk : b < k
        · have : ¬b = a := by omega
          simp [memSet, h1, h2, memGet, hbk, this]
        · by_cases hkb : k = b
          · subst hkb
            simp [memSet, h1, h2, memGet]
          · simp [memSet, h1, h2, memGet, hbk, hkb, ih h.2]

/-- Writing a byte keeps the canonical form. -/
theorem memWfFrom_memSet {lo : Nat} {m : List Host.Cell} (h : memWfFrom lo m = true) {a : Nat} (ha : lo ≤ a)
    (v : Byte) : memWfFrom lo (memSet m a v) = true := by
  induction m generalizing lo with
  | nil => by_cases hv : v = unlistedByte <;> simp [memSet, memWfFrom, hv, ha]
  | cons c t ih =>
    obtain ⟨k, x⟩ := c
    have h' := h
    simp only [memWfFrom, Bool.and_eq_true, decide_eq_true_eq] at h
    obtain ⟨⟨h0, hx⟩, ht⟩ := h
    by_cases h1 : a < k
    · by_cases hv : v = unlistedByte
      · simpa [memSet, h1, hv] using h'
      · simp only [memSet, h1, hv, if_true, if_false, memWfFrom, Bool.and_eq_true, decide_eq_true_eq]
        exact ⟨⟨ha, by simpa using hv⟩, ⟨⟨h1, hx⟩, ht⟩⟩
    · by_cases h2 : k = a
      · subst h2
        have mono : ∀ {l : List Host.Cell}, memWfFrom (k + 1) l = true → memWfFrom lo l = true := by
          intro l hl
          cases l with
          | nil => rfl
          | cons d u =>
            simp only [memWfFrom, Bool.and_eq_true, decide_eq_true_eq] at hl ⊢
            exact ⟨⟨by omega, hl.1.2⟩, hl.2⟩
        by_cases hv : v = unlistedByte
        · simpa [memSet, hv] using mono ht
        · simp only [memSet, h1, hv, if_true, if_false, memWfFrom, Bool.and_eq_true, decide_eq_true_eq]
          exact ⟨⟨h0, by simpa using hv⟩, ht⟩
      · simp only [memSet, h1, h2, if_false, memWfFrom, Bool.and_eq_true, decide_eq_true_eq]
        exact ⟨⟨h0, hx⟩, ih ht (by omega)⟩

/-- Writing a byte keeps the canonical form of memory. -/
theorem Memory.wf_memSet {m : List Host.Cell} (h : Memory.wf m = true) (a : Nat) (v : Byte) :
    Memory.wf (memSet m a v) = true := memWfFrom_memSet h (Nat.zero_le a) v

/-- A byte written reads back. -/
theorem memGet_memSet_self {m : List Host.Cell} (h : Memory.wf m = true) (a : Nat) (v : Byte) :
    memGet (memSet m a v) a = v := by
  rw [memGet_memSet h]; simp

/-- A write leaves every other byte alone. -/
theorem memGet_memSet_ne {m : List Host.Cell} (h : Memory.wf m = true) {a b : Nat} (v : Byte) (hb : b ≠ a) :
    memGet (memSet m a v) b = memGet m b := by
  rw [memGet_memSet h]; simp [hb]

/-! ### Several bytes -/

/-- Writing a number by physical address keeps the canonical form. -/
theorem Memory.wf_writePhysLE {m : List Host.Cell} (h : Memory.wf m = true) (a n v : Nat) :
    Memory.wf (writePhysLE m a n v) = true := by
  induction n generalizing m a v with
  | zero => exact h
  | succ n ih => exact ih (Memory.wf_memSet h a _) (a + 1) (v / 256)

/-- Storing a number in a span keeps the canonical form. -/
theorem Memory.wf_spanSet {m : List Host.Cell} (h : Memory.wf m = true) (sp : Span) (k n v : Nat) :
    Memory.wf (spanSet m sp k n v) = true := by
  induction n generalizing m k v with
  | zero => exact h
  | succ n ih => exact ih (Memory.wf_memSet h _ _) (k + 1) (v / 256)

/-- A write by physical address leaves the bytes outside it alone. -/
theorem memGet_writePhysLE_outside {m : List Host.Cell} (h : Memory.wf m = true) {a n v b : Nat}
    (hb : b < a ∨ a + n ≤ b) : memGet (writePhysLE m a n v) b = memGet m b := by
  induction n generalizing m a v with
  | zero => rfl
  | succ n ih =>
    show memGet (writePhysLE (memSet m a _) (a + 1) n (v / 256)) b = _
    rw [ih (Memory.wf_memSet h a _) (by omega), memGet_memSet_ne h _ (by omega)]

/-- A store in a span leaves the bytes outside the span alone. -/
theorem memGet_spanSet_outside {m : List Host.Cell} (h : Memory.wf m = true) {sp : Span} {k n v b : Nat}
    (hb : ∀ j, k ≤ j → j < k + n → sp.addr j ≠ b) : memGet (spanSet m sp k n v) b = memGet m b := by
  induction n generalizing m k v with
  | zero => rfl
  | succ n ih =>
    show memGet (spanSet (memSet m (sp.addr k) _) sp (k + 1) n (v / 256)) b = _
    rw [ih (Memory.wf_memSet h _ _) (fun j h1 h2 => hb j (by omega) (by omega)),
      memGet_memSet_ne h _ (fun e => hb k (Nat.le_refl k) (by omega) e.symm)]

/-- A number stored in a span reads back, if the bytes of the span are distinct. -/
theorem spanGet_spanSet {m : List Host.Cell} (h : Memory.wf m = true) {sp : Span} {k n v : Nat}
    (inj : ∀ i j, k ≤ i → i < j → j < k + n → sp.addr i ≠ sp.addr j) :
    spanGet (spanSet m sp k n v) sp k n = v % 256 ^ n := by
  induction n generalizing m k v with
  | zero => simp [spanGet, Nat.mod_one]
  | succ n ih =>
    show (memGet (spanSet (memSet m (sp.addr k) (BitVec.ofNat 8 v)) sp (k + 1) n (v / 256)) (sp.addr k)).toNat +
      256 * spanGet (spanSet (memSet m (sp.addr k) (BitVec.ofNat 8 v)) sp (k + 1) n (v / 256)) sp (k + 1) n = _
    rw [ih (Memory.wf_memSet h _ _) (fun i j h1 h2 h3 => inj i j (by omega) h2 (by omega)),
      memGet_spanSet_outside (Memory.wf_memSet h _ _)
        (fun j h1 h2 => fun e => inj k j (Nat.le_refl k) (by omega) (by omega) e.symm),
      memGet_memSet_self h, BitVec.toNat_ofNat, Nat.pow_succ 256 n, Nat.mul_comm (256 ^ n) 256, Nat.mod_mul]

/-- Two memories in canonical form that read alike everywhere are the same list. -/
theorem memWfFrom_ext {lo : Nat} {m n : List Host.Cell} (hm : memWfFrom lo m = true) (hn : memWfFrom lo n = true)
    (h : ∀ a, memGet m a = memGet n a) : m = n := by
  induction m generalizing lo n with
  | nil =>
    cases n with
    | nil => rfl
    | cons c t =>
      obtain ⟨k, x⟩ := c
      have := h k
      simp [memGet] at this
      simp [memWfFrom] at hn
      exact absurd this.symm hn.1.2
  | cons c t ih =>
    obtain ⟨k, x⟩ := c
    simp only [memWfFrom, Bool.and_eq_true, decide_eq_true_eq] at hm
    cases n with
    | nil =>
      have := h k
      simp [memGet] at this
      simp at hm
      exact absurd this hm.1.2
    | cons d u =>
      obtain ⟨l, y⟩ := d
      simp only [memWfFrom, Bool.and_eq_true, decide_eq_true_eq] at hn
      have hk := h k
      have hl := h l
      simp only [memGet, Nat.lt_irrefl, if_false, if_true] at hk hl
      have hkl : k = l := by
        by_contra hne
        obtain hlt | hgt := Nat.lt_or_gt_of_ne hne
        · simp [hlt] at hk
          exact absurd hk (by simpa using hm.1.2)
        · simp [hgt] at hl
          exact absurd hl.symm (by simpa using hn.1.2)
      subst hkl
      simp only [Nat.lt_irrefl, if_false, if_true] at hk
      subst hk
      rw [ih hm.2 hn.2 fun a => ?_]
      by_cases ha : a < k + 1
      · rw [memGet_below hm.2 ha, memGet_below hn.2 ha]
      · have := h a
        have h1 : ¬a < k := by omega
        have h2 : ¬k = a := by omega
        simpa [memGet, h1, h2] using this

/-! ### The canonical form along the memory operations -/

/-- A change of the state that leaves memory alone keeps the canonical form. -/
theorem Keeps.upd_memOk {f : State → State} (h : ∀ s, (f s).mem = s.mem) : Keeps (fun s => s.memOk = true) (Machine.upd f) :=
  Keeps.upd fun s hs => by
    show Memory.wf (f s).mem = true
    rw [h]
    exact hs

/-- The state after reset has its memory in canonical form. -/
theorem State.reset_memOk : State.reset.memOk = true := rfl

/-- Drawing an open value keeps the canonical form. -/
theorem draw_memOk : Keeps (fun s => s.memOk = true) draw := Keeps.draw fun _ _ h => h

/-- A write by physical address keeps the canonical form. -/
theorem physWrite_memOk (a n v : Nat) : Keeps (fun s => s.memOk = true) (physWrite a n v) :=
  Keeps.upd fun _ h => Memory.wf_writePhysLE h a n v

/-- A store in a span keeps the canonical form. -/
theorem storeSpan_memOk (sp : Span) (n v : Nat) : Keeps (fun s => s.memOk = true) (storeSpan sp n v) :=
  Keeps.upd fun _ h => Memory.wf_spanSet h sp 0 n v

end Sys2Proof.Machine
end

