-- ==== Sys2Proof/Laws/Keeps.lean ====
section
/-! SUPPORT. What the shared operations can change: a property that does not look at memory (or that every store keeps)
is kept by the access pipeline, and one that does not look at the general registers either by the stack operations. -/

namespace Sys2Proof.Machine

variable {p : State → Prop} {α β : Type}

/-- Every store keeps the property. -/
structure MemStable (p : State → Prop) : Prop where
  phys : ∀ s a n v, p s → p { s with mem := writePhysLE s.mem a n v }
  span : ∀ s sp n v, p s → p (s.storeAt sp n v)

/-- Every store, and every write of a general register or of the instruction pointer, keeps the property. -/
structure RegStable (p : State → Prop) : Prop extends MemStable p where
  put : ∀ s r v, p s → p (s.put r v)
  rip : ∀ s v, p s → p (s.setRip v)
  free : ∀ s n, p s → p { s with freeCount := n }

/-- The canonical form of memory is such a property. -/
theorem memOk_regStable : RegStable fun s => s.memOk = true where
  phys _ a n v h := Memory.wf_writePhysLE h a n v
  span _ sp n v h := Memory.wf_spanSet h sp 0 n v
  put _ _ _ h := h
  rip _ _ h := h
  free _ _ h := h

/-- So is equality in all fields but memory with a given state. -/
theorem onlyMem_memStable (s : State) : MemStable fun t => t = { s with mem := t.mem } where
  phys t a n v h := by rw [h]
  span t sp n v h := by rw [h]; rfl

/-! ### The access pipeline -/

theorem readEntry_keeps (la : Word) (pu : Purpose) (a n : Nat) (r : Word → Word) :
    Keeps p (readEntry la pu a n r) :=
  Keeps.bind (Keeps.readS _) fun _ => Keeps.bind (Keeps.raiseIf _ _) fun _ => Keeps.bind (Keeps.raiseIf _ _) fun _ =>
    Keeps.pure _

theorem markEntry_keeps (h : MemStable p) (a n : Nat) (f : Word) : Keeps p (markEntry a n f) :=
  Keeps.bind (Keeps.readS _) fun _ => Keeps.ite (Keeps.pure _) (Keeps.upd fun s => h.phys s a n _)

theorem checkPage_keeps (la : Word) (pu : Purpose) (us rw : Bool) : Keeps p (checkPage la pu us rw) :=
  Keeps.bind (Keeps.readS _) fun _ => Keeps.raiseIf _ _

theorem walkDirectory_keeps (h : MemStable p) (la : Word) (pu : Purpose) (r1 r2 : Word → Word) (d : Nat)
    (us rw : Bool) : Keeps p (walkDirectory la pu r1 r2 d us rw) := by
  refine Keeps.bind (readEntry_keeps ..) fun _ => Keeps.ite ?_ ?_
  · exact Keeps.bind (checkPage_keeps ..) fun _ => Keeps.bind (markEntry_keeps h ..) fun _ => Keeps.pure _
  · exact Keeps.bind (readEntry_keeps ..) fun _ => Keeps.bind (checkPage_keeps ..) fun _ =>
      Keeps.bind (markEntry_keeps h ..) fun _ => Keeps.bind (markEntry_keeps h ..) fun _ => Keeps.pure _

theorem walk64_keeps (h : MemStable p) (la : Word) (pu : Purpose) : Keeps p (walk64 la pu) :=
  Keeps.bind (Keeps.readS _) fun _ => Keeps.bind (readEntry_keeps ..) fun _ => Keeps.bind (readEntry_keeps ..) fun _ =>
    Keeps.bind (walkDirectory_keeps h ..) fun _ => Keeps.bind (markEntry_keeps h ..) fun _ =>
      Keeps.bind (markEntry_keeps h ..) fun _ => Keeps.pure _

theorem walkPae_keeps (h : MemStable p) (la : Word) (pu : Purpose) : Keeps p (walkPae la pu) :=
  Keeps.bind (Keeps.readS _) fun _ => Keeps.bind (readEntry_keeps ..) fun _ => walkDirectory_keeps h ..

theorem walkLegacy_keeps (h : MemStable p) (la : Word) (pu : Purpose) : Keeps p (walkLegacy la pu) := by
  refine Keeps.bind (Keeps.readS _) fun _ => Keeps.bind (Keeps.readS _) fun _ =>
    Keeps.bind (readEntry_keeps ..) fun _ => Keeps.ite ?_ ?_
  · exact Keeps.bind (checkPage_keeps ..) fun _ => Keeps.bind (markEntry_keeps h ..) fun _ => Keeps.pure _
  · exact Keeps.bind (readEntry_keeps ..) fun _ => Keeps.bind (checkPage_keeps ..) fun _ =>
      Keeps.bind (markEntry_keeps h ..) fun _ => Keeps.bind (markEntry_keeps h ..) fun _ => Keeps.pure _

theorem translate_keeps (h : MemStable p) (la : Word) (pu : Purpose) : Keeps p (translate la pu) :=
  Keeps.bind (Keeps.readS _) fun _ => Keeps.ite (Keeps.pure _) <| Keeps.ite (walk64_keeps h ..) <|
    Keeps.ite (walkPae_keeps h ..) (walkLegacy_keeps h ..)

theorem spanOf_keeps (h : MemStable p) (wide : Bool) (la : Word) (n : Nat) (pu : Purpose) :
    Keeps p (spanOf wide la n pu) :=
  Keeps.bind (translate_keeps h ..) fun _ => Keeps.ite (Keeps.pure _) <|
    Keeps.bind (translate_keeps h ..) fun _ => Keeps.pure _

theorem segCheck_keeps (sr : SReg) (ea : Word) (n : Nat) (w : Bool) : Keeps p (segCheck sr ea n w) := by
  refine Keeps.bind (Keeps.readS _) fun s => ?_
  dsimp only
  split
  · exact Keeps.pure _
  · exact Keeps.raiseIf _ _
  · exact Keeps.raiseIf _ _
  · exact Keeps.bind (Keeps.raiseIf _ _) fun _ => Keeps.bind (Keeps.raiseIf _ _) fun _ => Keeps.raiseIf _ _

theorem resolve_keeps (h : MemStable p) (sr : SReg) (ea : Word) (n : Nat) (w : Bool) (al : Align) :
    Keeps p (resolve sr ea n w al) := by
  refine Keeps.bind (segCheck_keeps ..) fun _ => Keeps.bind (Keeps.readS _) fun s =>
    Keeps.bind (Keeps.raiseIf _ _) fun _ => Keeps.bind (Keeps.raiseIf _ _) fun _ =>
      Keeps.bind (spanOf_keeps h ..) fun _ => ?_
  cases al
  · exact Keeps.pure _
  · exact Keeps.bind (Keeps.raiseIf _ _) fun _ => Keeps.pure _
  · exact Keeps.pure _

theorem resolveMem_keeps (h : MemStable p) (m : Mem) (n : Nat) (w : Bool) (al : Align) :
    Keeps p (resolveMem m n w al) := Keeps.bind (Keeps.readS _) fun _ => resolve_keeps h ..

theorem loadSpan_keeps (sp : Span) (n : Nat) : Keeps p (loadSpan sp n) := Keeps.readS _

theorem storeSpan_keeps (h : MemStable p) (sp : Span) (n v : Nat) : Keeps p (storeSpan sp n v) :=
  Keeps.upd fun s => h.span s sp n v

theorem readMem_keeps (h : MemStable p) (sr : SReg) (ea : Word) (n : Nat) : Keeps p (readMem sr ea n) :=
  Keeps.bind (resolve_keeps h ..) fun _ => loadSpan_keeps ..

theorem writeMem_keeps (h : MemStable p) (sr : SReg) (ea : Word) (n v : Nat) : Keeps p (writeMem sr ea n v) :=
  Keeps.bind (resolve_keeps h ..) fun _ => storeSpan_keeps h ..

theorem loadMem_keeps (h : MemStable p) (w : Width) (m : Mem) : Keeps p (loadMem w m) :=
  Keeps.bind (resolveMem_keeps h ..) fun _ => Keeps.bind (loadSpan_keeps ..) fun _ => Keeps.pure _

theorem storeMem_keeps (h : MemStable p) (w : Width) (m : Mem) (v : BitVec w.bits) : Keeps p (storeMem w m v) :=
  Keeps.bind (resolveMem_keeps h ..) fun _ => storeSpan_keeps h ..

theorem loadBytes_keeps (h : MemStable p) (m : Mem) (n : Nat) (al : Align) : Keeps p (loadBytes m n al) :=
  Keeps.bind (resolveMem_keeps h ..) fun _ => loadSpan_keeps ..

theorem storeBytes_keeps (h : MemStable p) (m : Mem) (n : Nat) (al : Align) (v : Nat) :
    Keeps p (storeBytes m n al v) := Keeps.bind (resolveMem_keeps h ..) fun _ => storeSpan_keeps h ..

theorem resolveLow_keeps (h : MemStable p) (m : Mem) (n : Nat) (w : Bool) (al : Align) :
    Keeps p (resolveLow m n w al) :=
  Keeps.bind (Keeps.bind (Keeps.readS _) fun _ => Keeps.raiseIf _ _) fun _ => resolveMem_keeps h ..

theorem loadLow_keeps (h : MemStable p) (m : Mem) (n : Nat) (al : Align) : Keeps p (loadLow m n al) :=
  Keeps.bind (resolveLow_keeps h ..) fun _ => loadSpan_keeps ..

theorem storeLow_keeps (h : MemStable p) (m : Mem) (n : Nat) (al : Align) (v : Nat) : Keeps p (storeLow m n al v) :=
  Keeps.bind (resolveLow_keeps h ..) fun _ => storeSpan_keeps h ..

theorem sysRead_keeps (h : MemStable p) (la : Word) (n : Nat) : Keeps p (sysRead la n) :=
  Keeps.bind (Keeps.readS _) fun _ => Keeps.bind (spanOf_keeps h ..) fun _ => loadSpan_keeps ..

theorem sysWrite_keeps (h : MemStable p) (la : Word) (n v : Nat) (u : Bool) : Keeps p (sysWrite la n v u) :=
  Keeps.bind (Keeps.readS _) fun _ => Keeps.bind (spanOf_keeps h ..) fun _ => storeSpan_keeps h ..

theorem sysUpdate_keeps (h : MemStable p) (la : Word) (n : Nat) (f : Nat → Nat) : Keeps p (sysUpdate la n f) :=
  Keeps.bind (Keeps.readS _) fun _ => Keeps.bind (spanOf_keeps h ..) fun _ =>
    Keeps.bind (loadSpan_keeps ..) fun _ => storeSpan_keeps h ..

/-! ### Operands, stack, branches, descriptors -/

theorem RegStable.writeGReg (h : RegStable p) {s : State} (w : Width) (g : GReg) (v : BitVec w.bits) (hs : p s) :
    p (s.writeGReg w g v) := by
  cases g
  · exact h.put s _ _ hs
  · exact h.put s _ _ hs

theorem draw_keeps (h : RegStable p) : Keeps p draw := Keeps.draw fun s n => h.free s n

theorem readRmb_keeps (h : MemStable p) (w : Width) (rm : RMB) : Keeps p (readRmb w rm) := by
  cases rm
  · exact Keeps.readS _
  · exact loadMem_keeps h ..

theorem writeRmb_keeps (h : RegStable p) (w : Width) (rm : RMB) (v : BitVec w.bits) : Keeps p (writeRmb w rm v) := by
  cases rm
  · exact Keeps.upd fun s => h.writeGReg w _ v
  · exact storeMem_keeps h.toMemStable ..

theorem readRm_keeps (h : MemStable p) (w : Width) (rm : RM) : Keeps p (readRm w rm) := readRmb_keeps h ..

theorem writeRm_keeps (h : RegStable p) (w : Width) (rm : RM) (v : BitVec w.bits) : Keeps p (writeRm w rm v) :=
  writeRmb_keeps h ..

/-- An update of an operand keeps what its computation keeps. -/
theorem updateRmb_keeps (h : RegStable p) (w : Width) (rm : RMB) {f : BitVec w.bits → M (BitVec w.bits)}
    (hf : ∀ a, Keeps p (f a)) : Keeps p (updateRmb w rm f) := by
  cases rm
  · exact Keeps.bind (Keeps.readS _) fun _ => Keeps.bind (hf _) fun _ => Keeps.upd fun s => h.writeGReg w _ _
  · exact Keeps.bind (resolveMem_keeps h.toMemStable ..) fun _ => Keeps.bind (loadSpan_keeps ..) fun _ =>
      Keeps.bind (hf _) fun _ => storeSpan_keeps h.toMemStable ..

/-- A two-operand instruction keeps what its operation keeps. -/
theorem aluUpdate_keeps (h : RegStable p) {op : BinOp} (hop : ∀ w a b, Keeps p (op w a b)) (a : AluArgs) :
    Keeps p (aluUpdate op a) := by
  cases a
  · exact Keeps.bind (Keeps.readS _) fun _ => updateRmb_keeps h _ _ fun _ => hop _ _ _
  · exact Keeps.bind (readRmb_keeps h.toMemStable ..) fun _ => updateRmb_keeps h _ _ fun _ => hop _ _ _
  · next w i => exact updateRmb_keeps (f := fun a => op w a (immOf w i)) h w (.reg accReg) fun _ => hop _ _ _
  · next w rm i => exact updateRmb_keeps (f := fun a => op w a (immOf w i)) h w rm fun _ => hop _ _ _
  · next w rm i => exact updateRmb_keeps (f := fun a => op w a (imm8Of w i)) h w (asRmb rm) fun _ => hop _ _ _

theorem aluRead_keeps (h : MemStable p) {op : BinOp} (hop : ∀ w a b, Keeps p (op w a b)) (a : AluArgs) :
    Keeps p (aluRead op a) := by
  cases a
  · exact Keeps.bind (readRmb_keeps h ..) fun _ => Keeps.bind (Keeps.readS _) fun _ =>
      Keeps.bind (hop _ _ _) fun _ => Keeps.pure _
  · exact Keeps.bind (readRmb_keeps h ..) fun _ => Keeps.bind (Keeps.readS _) fun _ =>
      Keeps.bind (hop _ _ _) fun _ => Keeps.pure _
  · exact Keeps.bind (Keeps.readS _) fun _ => Keeps.bind (hop _ _ _) fun _ => Keeps.pure _
  · exact Keeps.bind (readRmb_keeps h ..) fun _ => Keeps.bind (hop _ _ _) fun _ => Keeps.pure _
  · exact Keeps.bind (readRm_keeps h ..) fun _ => Keeps.bind (hop _ _ _) fun _ => Keeps.pure _

theorem memOnly_keeps (rm : RM) : Keeps p (memOnly rm) := by
  cases rm
  · exact Keeps.raise _
  · exact Keeps.pure _

theorem advance_keeps (h : RegStable p) : Keeps p advance := Keeps.upd fun s => h.rip s _

theorem push_keeps (h : RegStable p) (n v : Nat) : Keeps p (push n v) :=
  Keeps.bind (Keeps.readS _) fun _ => Keeps.bind (writeMem_keeps h.toMemStable ..) fun _ =>
    Keeps.upd fun s => h.put s _ _

theorem pop_keeps (h : RegStable p) (n : Nat) : Keeps p (pop n) :=
  Keeps.bind (Keeps.readS _) fun _ => Keeps.bind (readMem_keeps h.toMemStable ..) fun _ =>
    Keeps.bind (Keeps.upd fun s => h.put s _ _) fun _ => Keeps.pure _

theorem jumpTo_keeps (h : RegStable p) (osz : Width) (t : Word) : Keeps p (jumpTo osz t) := by
  refine Keeps.bind (Keeps.readS _) fun s => ?_
  dsimp only
  split
  · exact Keeps.bind (Keeps.raiseIf _ _) fun _ => Keeps.upd fun s => h.rip s _
  · exact Keeps.bind (Keeps.raiseIf _ _) fun _ => Keeps.upd fun s => h.rip s _

theorem readDescPart_keeps (h : MemStable p) (sel : BitVec 16) (ext : Bool) (n k : Nat) :
    Keeps p (readDescPart sel ext n k) :=
  Keeps.bind (Keeps.readS _) fun _ => Keeps.bind (Keeps.raiseIf _ _) fun _ => Keeps.bind (Keeps.raiseIf _ _) fun _ =>
    Keeps.bind (sysRead_keeps h ..) fun _ => Keeps.pure _

theorem readDesc_keeps (h : MemStable p) (sel : BitVec 16) (ext : Bool) : Keeps p (readDesc sel ext) :=
  readDescPart_keeps h ..

theorem pushItems_keeps (h : MemStable p) (bad : Event) (user : Bool) (q : Word) (l : List Word) :
    Keeps p (pushItems bad user q l) := by
  induction l generalizing q with
  | nil => exact Keeps.pure _
  | cons v t ih =>
    exact Keeps.bind (Keeps.raiseIf _ _) fun _ => Keeps.bind (sysWrite_keeps h ..) fun _ => ih _

theorem pushAll_keeps (h : RegStable p) (n : Nat) (l : List Word) : Keeps p (pushAll n l) := by
  induction l with
  | nil => exact Keeps.pure _
  | cons v t ih => exact Keeps.bind (push_keeps h ..) fun _ => ih

theorem ioPermission_keeps (h : MemStable p) (port : BitVec 16) (n : Nat) : Keeps p (ioPermission port n) :=
  Keeps.bind (Keeps.readS _) fun _ => Keeps.ite (Keeps.pure _) <| Keeps.bind (Keeps.raiseIf _ _) fun _ =>
    Keeps.bind (sysRead_keeps h ..) fun _ => Keeps.bind (Keeps.raiseIf _ _) fun _ =>
      Keeps.bind (Keeps.raiseIf _ _) fun _ => Keeps.bind (sysRead_keeps h ..) fun _ => Keeps.raiseIf _ _

/-! ### What an access leaves -/

/-- Resolving an access changes nothing but memory (the accessed and dirty flags of paging, R146). -/
theorem resolve_onlyMem {sr : SReg} {ea : Word} {n : Nat} {w : Bool} {al : Align} {s t : State} {sp : Span}
    (h : resolve sr ea n w al s = .ok (sp, t)) : t = { s with mem := t.mem } :=
  (resolve_keeps (onlyMem_memStable s) sr ea n w al).of_ok rfl h

/-- Reading an operand changes nothing but memory (R146). -/
theorem readRmb_onlyMem {w : Width} {rm : RMB} {s t : State} {v : BitVec w.bits}
    (h : readRmb w rm s = .ok (v, t)) : t = { s with mem := t.mem } :=
  (readRmb_keeps (onlyMem_memStable s) w rm).of_ok rfl h

/-- Without paging a linear address is the physical address, and nothing changes (R130 step 4). -/
theorem translate_flat {s : State} (h : s.pg = false) (la : Word) (pu : Purpose) :
    translate la pu s = .ok ((la.extractLsb' 0 32).toNat, s) := by
  simp [translate, h]

/-- Without paging a span is found without a change of state. -/
theorem spanOf_flat {s : State} (h : s.pg = false) (wide : Bool) (la : Word) (n : Nat) (pu : Purpose) :
    ∃ sp, spanOf wide la n pu s = .ok (sp, s) := by
  unfold spanOf
  rw [M.bind_of_ok (translate_flat h la pu)]
  split
  · exact ⟨_, rfl⟩
  · rw [M.bind_of_ok (translate_flat h _ pu)]
    exact ⟨_, rfl⟩

end Sys2Proof.Machine
end

