-- ==== Sys2Proof/Laws/Ops.lean ====
section
/-! SUPPORT. What the shared operations do, said once: running a meaning, the access pipeline, reading,
writing and updating operands, the stack, branch targets, repeated string instructions, SIMD exceptions, and the flags in the statements' vocabulary. -/

namespace Sys2Proof.Machine

/-! ### Running a meaning -/

/-- A meaning that completes leads to its state. -/
theorem runInstr_ok {m : M Unit} {s t : State} (h : m s = .ok ((), t)) : runInstr m s = .next t := by
  simp [runInstr, h]

/-- A meaning that raises delivers the event from the state before it. -/
theorem runInstr_raise {m : M Unit} {s : State} {e : Event} (h : m s = .error (.raised e)) :
    runInstr m s = deliver e s := by
  simp [runInstr, h]

/-- A sequential meaning that completes ends at the next instruction. -/
theorem runSeq_ok {m : M Unit} {s t : State} (h : m s = .ok ((), t)) : runSeq m s = .next (t.setRip t.nextPc) := by
  simp [runSeq, runInstr, M.bind_apply, h, advance]

/-- A sequential meaning that raises delivers the event from the state before it. -/
theorem runSeq_raise {m : M Unit} {s : State} {e : Event} (h : m s = .error (.raised e)) : runSeq m s = deliver e s := by
  simp [runSeq, runInstr, M.bind_apply, h]

/-- A sequential meaning that raises from a later state delivers the event from there. -/
theorem runSeq_raiseHere {m : M Unit} {s t : State} {e : Event} (h : m s = .error (.raisedAfter e t)) :
    runSeq m s = deliver e t := by
  simp [runSeq, runInstr, M.bind_apply, h]

/-- A delivery that succeeds leads to its state (R690, R698). -/
theorem deliverChain_ok {n : Nat} {ev : Event} {s t : State}
    (h : deliverOnce ev ev.ext (savedRip ev (s.withCr2 ev))
      (if ev.kind = .abort then { s.withCr2 ev with freeCount := (s.withCr2 ev).freeCount + 1 } else s.withCr2 ev) =
        .ok ((), t)) : deliverChain (n + 1) ev s = .next t := by
  unfold deliverChain
  dsimp only
  rw [h]

/-- What follows an exception that a delivery raises: shutdown, a double fault, or its own delivery (R698). -/
theorem deliverChain_raised {n : Nat} {ev e : Event} {s u : State}
    (hu : u = if ev.kind = .abort then { s.withCr2 ev with freeCount := (s.withCr2 ev).freeCount + 1 } else s.withCr2 ev)
    (h : deliverOnce ev ev.ext (savedRip ev (s.withCr2 ev)) u = .error (.raised e)) : deliverChain (n + 1) ev s =
      if ev.kind = .abort ∧ (contributory e.vector || e.vector == 14) = true then .next { u with activity := .shutdown }
      else if makesDouble ev e then deliverChain n dfAbort (u.withCr2 e)
      else deliverChain n e u := by
  subst hu
  rw [deliverChain]
  dsimp only
  rw [h]

/-! ### The access pipeline -/

/-- Where `segCheck` stops, first to last; it changes nothing (R119, R130 step 1). -/
theorem segCheck_eq (sr : SReg) (ea : Word) (n : Nat) (write : Bool) (s : State) : segCheck sr ea n write s =
    let g := s.seg sr
    if s.is64 then .ok ((), s)
    else if !s.paragraphs && g.unusable then .error (.raised (segEvent sr))
    else if !s.paragraphs && !g.permits write then .error (.raised gp0)
    else if !g.inLimit ea n then .error (.raised (segEvent sr))
    else .ok ((), s) := by
  unfold segCheck State.is64 State.paragraphs
  rw [readS_bind]
  cases hm : s.mode <;> cases hu : (s.seg sr).unusable <;> cases hp : (s.seg sr).permits write <;>
    cases hl : (s.seg sr).inLimit ea n <;> simp [M.bind_apply, hm, hu, hp, hl]

/-- What `resolve` answers after the segment checks, in the order of its checks (R130 steps 2 to 5). -/
theorem resolve_eq {sr : SReg} {ea : Word} {n : Nat} {write : Bool} {al : Align} {s : State}
    (h : segCheck sr ea n write s = .ok ((), s)) : resolve sr ea n write al s =
    let la := s.linear sr ea
    if s.is64 && !canonicalRange la n then .error (.raised (segEvent sr))
    else if al == .para && la.extractLsb' 0 4 != 0 then .error (.raised gp0)
    else match spanOf s.is64 la n (s.purpose write) s with
      | .error e => .error e
      | .ok (sp, t) =>
        match al with
        | .natural k => if s.alignChecked && la.toNat % k != 0 then .error (.raised ac0) else .ok (sp, t)
        | _ => .ok (sp, t) := by
  unfold resolve
  rw [M.bind_of_ok h, M.bind_of_ok (show readS id s = .ok (s, s) from rfl)]
  cases hb : (s.is64 && !canonicalRange (s.linear sr ea) n)
  swap
  · simp only [raiseIf_true_bind, hb, if_true]
  cases hc : (al == .para && (s.linear sr ea).extractLsb' 0 4 != 0)
  swap
  · simp only [raiseIf_false_bind, raiseIf_true_bind, hb, hc, if_true, Bool.false_eq_true, if_false]
  cases hs : spanOf s.is64 (s.linear sr ea) n (s.purpose write) s with
  | error e => simp only [M.bind_apply, raiseIf_false, hb, hc, hs, Bool.false_eq_true, if_false]
  | ok r =>
    cases al with
    | natural k =>
      cases hd : (s.alignChecked && (s.linear sr ea).toNat % k != 0) <;>
        simp only [M.bind_apply, raiseIf_false, raiseIf_true, M.pure_apply, hb, hc, hs, hd,
          Bool.false_eq_true, if_false, if_true]
    | _ => simp only [M.bind_apply, raiseIf_false, M.pure_apply, hb, hc, hs, Bool.false_eq_true, if_false]

/-! ### Operands -/

/-- Outside real-address and virtual-8086 mode the low operands are located as all others. -/
theorem resolveLow_of_selectors {s : State} (h : s.paragraphs = false) (m : Mem) (n : Nat) (w : Bool) (al : Align) :
    resolveLow m n w al s = resolveMem m n w al s := by
  simp [resolveLow, needLow, M.bind_apply, h]

/-- Resolving an operand changes memory only. -/
theorem resolveMem_onlyMem {m : Mem} {n : Nat} {w : Bool} {al : Align} {s u : State} {sp : Span}
    (h : resolveMem m n w al s = .ok (sp, u)) : u = { s with mem := u.mem } :=
  (resolveMem_keeps (onlyMem_memStable s) m n w al).of_ok rfl h

/-- Resolving an operand keeps the memory canonical. -/
theorem resolveMem_memOk {m : Mem} {n : Nat} {w : Bool} {al : Align} {s u : State} {sp : Span}
    (h : resolveMem m n w al s = .ok (sp, u)) (hs : s.memOk = true) : u.memOk = true :=
  (resolveMem_keeps memOk_regStable.toMemStable m n w al).of_ok hs h

/-- Reading a memory operand changes memory only. -/
theorem readMem_onlyMem {sr : SReg} {ea : Word} {n v : Nat} {s u : State} (h : readMem sr ea n s = .ok (v, u)) :
    u = { s with mem := u.mem } :=
  (readMem_keeps (onlyMem_memStable s) sr ea n).of_ok rfl h

/-- An update of a register operand. -/
theorem updateRmb_reg {w : Width} {g : GReg} {f : BitVec w.bits → M (BitVec w.bits)} {s t : State} {r : BitVec w.bits}
    (h : f (s.readGReg w g) s = .ok (r, t)) : updateRmb w (.reg g) f s = .ok ((), t.writeGReg w g r) := by
  simp [updateRmb, M.bind_apply, h]

/-- An update of a memory operand. -/
theorem updateRmb_mem {w : Width} {m : Mem} {f : BitVec w.bits → M (BitVec w.bits)} {s u v : State} {sp : Span}
    {r : BitVec w.bits} (h : resolveMem m w.bytes true (.natural w.bytes) s = .ok (sp, u))
    (hf : f (BitVec.ofNat w.bits (spanGet u.mem sp 0 w.bytes)) u = .ok (r, v)) :
    updateRmb w (.mem m) f s = .ok ((), v.storeAt sp w.bytes r.toNat) := by
  simp [updateRmb, M.bind_apply, h, loadSpan, hf, storeSpan]

/-- A write of a memory operand. -/
theorem storeMem_ok {w : Width} {m : Mem} {v : BitVec w.bits} {s u : State} {sp : Span}
    (h : resolveMem m w.bytes true (.natural w.bytes) s = .ok (sp, u)) :
    storeMem w m v s = .ok ((), u.storeAt sp w.bytes v.toNat) := by
  simp [storeMem, M.bind_apply, h, storeSpan]

/-- A write of a destination operand. -/
theorem writeRmb_ok {s : State} {w : Width} {rm : RMB} {x : BitVec w.bits} {put : BitVec w.bits → State}
    (h : Destination s w rm x put) (v : BitVec w.bits) : writeRmb w rm v s = .ok ((), put v) := by
  cases h with
  | reg g => rfl
  | mem m sp u h => exact storeMem_ok h

/-- A destination's bytes are all of memory that a write to it changes. -/
theorem Destination.onlyOperand {s : State} {w : Width} {rm : RMB} {x : BitVec w.bits} {put : BitVec w.bits → State}
    (h : Destination s w rm x put) (hm : s.memOk = true) (v : BitVec w.bits) : OnlyOperand s w rm (put v) := by
  cases h with
  | reg g => cases g <;> rfl
  | mem m sp u h =>
    intro sp' u' h' a ha
    rw [h] at h'
    cases h'
    exact memGet_spanSet_outside (resolveMem_memOk h hm) fun i _ hi h3 => ha _ (by omega) h3.symm

/-! ### The stack and branch targets -/

/-- Truncating twice to the low bits is truncating once, before a subtraction. -/
theorem sub_and_mask (x y : Word) (k : Nat) (hk : k ≤ 64) :
    (x &&& BitVec.ofNat 64 (2 ^ k - 1)) - y &&& BitVec.ofNat 64 (2 ^ k - 1) = x - y &&& BitVec.ofNat 64 (2 ^ k - 1) := by
  have hp : 2 ^ k ≤ 2 ^ 64 := Nat.pow_le_pow_right (by decide) hk
  have hm : (BitVec.ofNat 64 (2 ^ k - 1)).toNat = 2 ^ k - 1 := by
    rw [BitVec.toNat_ofNat]; exact Nat.mod_eq_of_lt (by have := Nat.two_pow_pos k; omega)
  have hd : (2 : Nat) ^ k ∣ 2 ^ 64 := Nat.pow_dvd_pow 2 hk
  apply BitVec.eq_of_toNat_eq
  simp only [BitVec.toNat_and, BitVec.toNat_sub, hm, Nat.and_two_pow_sub_one_eq_mod, Nat.mod_mod_of_dvd _ hd]
  exact Nat.ModEq.add_left _ (Nat.mod_modEq _ _)

/-- The stack pointer less `n`, at the stack address size. -/
theorem sp_sub (s : State) (n : Nat) :
    asizeTrunc s.stackSize (s.sp - BitVec.ofNat 64 n) = s.pushAddr n := by
  unfold State.pushAddr State.sp
  cases s.stackSize with
  | a64 => rfl
  | a32 => exact sub_and_mask _ _ 32 (by decide)
  | a16 => exact sub_and_mask _ _ 16 (by decide)

/-- A push that succeeds. -/
theorem push_ok {n v : Nat} {s t : State} (h : Pushed n v s t) : push n v s = .ok ((), t) := by
  obtain ⟨sp, u, h, rfl⟩ := h
  rw [push, readS_bind]
  simp only [id, sp_sub, writeMem, M.bind_apply, h, storeSpan, upd_apply]

/-- A pop that succeeds. -/
theorem pop_ok {n v : Nat} {s t : State} (h : Popped n v s t) : pop n s = .ok (v, t) := by
  obtain ⟨sp, u, h, rfl, rfl⟩ := h
  simp only [pop, id, readMem, M.bind_apply, h, loadSpan, readS_apply, upd_apply, M.pure_apply]

/-- A list of pushes that succeed. -/
theorem pushAll_ok {n : Nat} {l : List Word} {s t : State} (h : PushedAll n (l.map BitVec.toNat) s t) :
    pushAll n l s = .ok ((), t) := by
  induction l generalizing s with
  | nil => cases h; rfl
  | cons v l ih =>
    obtain ⟨u, h1, h2⟩ := h
    simp only [pushAll, M.bind_apply, push_ok h1, ih h2]

/-- A near branch to an allowed target. -/
theorem jumpTo_ok {osz : Width} {a : Word} {s : State} (h : s.codeAt (truncTo osz a) = true) :
    jumpTo osz a s = .ok ((), s.setRip (truncTo osz a)) := by
  unfold State.codeAt at h
  simp only [jumpTo, readS_bind, id]
  split at h
  · rename_i h64
    simp [h64, h, M.bind_apply]
  · rename_i h64
    have : decide (s.cs.limit.toNat < (truncTo osz a).toNat) = false := by simpa using h
    simp [h64, this, M.bind_apply]

/-- A conditional branch that is taken to an allowed target. -/
theorem branchIf_ok {osz : Width} {rel : Rel} {s : State} (h : s.codeAt (truncTo osz (s.nextPc + relDisp rel)) = true)
    (low : s.paragraphs = true → (truncTo osz (s.nextPc + relDisp rel)).toNat ≤ 0xFFFF) :
    branchIf true osz rel s = .ok ((), s.setRip (truncTo osz (s.nextPc + relDisp rel))) := by
  have hb : (s.paragraphs && decide (0xFFFF < (truncTo osz (s.nextPc + relDisp rel)).toNat)) = false := by
    cases hp : s.paragraphs
    · rfl
    · simpa using low hp
  simp only [branchIf, if_true, id, jumpRel, M.bind_apply, hb, raiseIf_false, readS_apply]
  exact jumpTo_ok h

/-- A near branch to a target that is not allowed. -/
theorem jumpTo_raise {osz : Width} {a : Word} {s : State} (h : s.codeAt (truncTo osz a) = false) :
    jumpTo osz a s = .error (.raised gp0) := by
  unfold State.codeAt at h
  simp only [jumpTo, readS_bind, id]
  split at h
  · rename_i h64
    simp [h64, h, M.bind_apply]
  · rename_i h64
    have : decide (s.cs.limit.toNat < (truncTo osz a).toNat) = true := by simpa using h
    simp [h64, this, M.bind_apply]

/-! ### Repeated string instructions -/

/-- Counting down in 64 bits and keeping `n` of them is counting down in `n` bits. -/
theorem setWidth_sub_one {n : Nat} (hn : n ≤ 64) (v : BitVec n) : (v.setWidth 64 - 1#64).setWidth n = v - 1#n := by
  rw [BitVec.sub_eq_add_neg, BitVec.setWidth_add _ _ hn, BitVec.setWidth_neg_of_le hn, ← BitVec.sub_eq_add_neg,
    BitVec.setWidth_setWidth_of_le _ hn, BitVec.setWidth_eq, BitVec.setWidth_ofNat_of_le hn]

/-- Extension with zeros leaves 0 and nothing else 0. -/
theorem setWidth_beq_zero {n : Nat} (hn : n ≤ 64) (v : BitVec n) : (v.setWidth 64 == 0#64) = decide (v = 0#n) := by
  have h : v.setWidth 64 = 0#64 ↔ v = 0#n := by
    constructor <;> intro h <;> apply BitVec.eq_of_toNat_eq
    · have := congrArg BitVec.toNat h
      have := v.isLt
      have : 2 ^ n ≤ 2 ^ 64 := Nat.pow_le_pow_right (by omega) hn
      simp at *
      omega
    · simp [h]
  by_cases hv : v = 0#n <;> simp [h, hv]

theorem asizeWidth_bits (asz : ASize) : (asizeWidth asz).bits ≤ 64 := by cases asz <;> decide

/-- The count is 0 exactly if the count register is, at its width. -/
theorem count_beq_zero (s : State) (asz : ASize) :
    (s.count asz == 0) = decide (s.readReg (asizeWidth asz) rCX = 0) := setWidth_beq_zero (asizeWidth_bits asz) _

/-- Counting down is writing the count register, at its width, less 1. -/
theorem setCount_eq (s : State) (asz : ASize) : s.setCount asz (s.count asz - 1) =
    s.writeReg (asizeWidth asz) rCX (s.readReg (asizeWidth asz) rCX - 1) :=
  congrArg (s.writeReg (asizeWidth asz) rCX) (setWidth_sub_one (asizeWidth_bits asz) _)

/-- A string instruction whose iteration completes: the state after it is that of `Iterated`. -/
theorem repeated_ok {p : Rep} {asz : ASize} {done : State → Bool} {body : M Unit} {s t : State} {b : Bool}
    (h : body s = .ok ((), t)) (hc : p = .none ∨ s.readReg (asizeWidth asz) rCX ≠ 0)
    (hd : done (t.setCount asz (t.count asz - 1)) = b) : repeated p asz done body s = .ok ((), Iterated p asz b t) := by
  rw [setCount_eq] at hd
  cases p with
  | none => simp [repeated, Iterated, M.bind_apply, h, advance, State.setRip, State.endWith]
  | rep | repne =>
    have hn : (s.count asz == 0) = false := by rw [count_beq_zero]; simpa using hc
    have he : ((t.writeReg (asizeWidth asz) rCX (t.readReg (asizeWidth asz) rCX - 1)).count asz == 0) =
        decide (t.readReg (asizeWidth asz) rCX = 1) := by
      rw [count_beq_zero, State.readReg_writeReg_self]
      exact decide_eq_decide.mpr (by rw [BitVec.sub_eq_iff_eq_add]; simp)
    simp only [repeated, id, hn, M.bind_apply, readS_apply, h, upd_apply, setCount_eq, he, hd, Iterated, reduceCtorEq, if_false,
      Bool.false_eq_true]
    by_cases h1 : t.readReg (asizeWidth asz) rCX = 1 <;> cases b <;>
      simp only [h1, decide_true, decide_false, Bool.true_or, Bool.or_true, Bool.or_self, if_true, if_false, true_or, or_true,
        or_self, Bool.false_eq_true] <;> rfl

/-- A repeated string instruction with a count of 0 does nothing but end. -/
theorem repeated_zero {p : Rep} {asz : ASize} {done : State → Bool} {body : M Unit} {s : State}
    (hp : p ≠ .none) (hc : s.readReg (asizeWidth asz) rCX = 0) :
    repeated p asz done body s = .ok ((), s.setRip s.nextPc) := by
  have hz : (s.count asz == 0) = true := by rw [count_beq_zero]; simpa using hc
  cases p with
  | none => exact absurd rfl hp
  | rep | repne => simp only [repeated, id, hz, M.bind_apply, readS_apply, if_true, advance, upd_apply]

/-! ### Flags -/

/-- PF counts the set bits of the low byte. -/
theorem parity_countP {n : Nat} (r : BitVec n) :
    parity r = decide ((List.range 8).countP (fun i => r.getLsbD i) % 2 = 0) := by
  simp only [parity, List.range, List.range.loop, List.countP_cons, List.countP_nil]
  cases r.getLsbD 0 <;> cases r.getLsbD 1 <;> cases r.getLsbD 2 <;> cases r.getLsbD 3 <;> cases r.getLsbD 4 <;>
    cases r.getLsbD 5 <;> cases r.getLsbD 6 <;> cases r.getLsbD 7 <;> rfl

/-- ZF says that the number is 0. -/
theorem beq_zero_toNat {n : Nat} (r : BitVec n) : (r == 0) = decide (r.toNat = 0) := by
  rw [Bool.eq_iff_iff]; simp [BitVec.toNat_eq]

/-- The flags a replacement of the bits of `m` leaves. -/
theorem maskFlags_sameOutside (m old v : BitVec 32) : SameOutside m old (maskFlags old m v) := maskFlags_outside ..

/-- SF, ZF and PF where they have been replaced by those of a result. -/
theorem resultFlags_maskFlags {n : Nat} {r : BitVec n} {st : Status} {m old : BitVec 32} (h7 : m.getLsbD 7 = true)
    (h6 : m.getLsbD 6 = true) (h2 : m.getLsbD 2 = true) (sf : st.sf = r.msb) (zf : st.zf = (r == 0))
    (pf : st.pf = parity r) : ResultFlags r (maskFlags old m st.bits) := by
  constructor <;> rw [maskFlags_getLsbD, Status.bits_getLsbD]
  · simp [h7, sf, BitVec.msb_eq_getLsbD_last]
  · simp [h6, zf]; exact beq_zero_toNat r
  · simp [h2, pf, parity_countP]

/-- The flags of an addition. -/
theorem sumFlags_maskFlags {n : Nat} (x y : BitVec n) (c : Bool) (old : BitVec 32) :
    SumFlags x y c (maskFlags old 0x8D5 (addStatus x y c).bits) where
  of := by
    rw [maskFlags_getLsbD, Status.bits_getLsbD]
    simp only [addStatus, addRes]
    cases x.msb <;> cases y.msb <;> cases (x + y + BitVec.ofNat n c.toNat).msb <;> simp
  af := by rw [maskFlags_getLsbD, Status.bits_getLsbD]; simp [addStatus, lowNibble]; rfl
  result := resultFlags_maskFlags rfl rfl rfl rfl rfl rfl
  cf := by rw [maskFlags_getLsbD, Status.bits_getLsbD]; simp [addStatus]

/-- The flags of a subtraction. -/
theorem differenceFlags_maskFlags {n : Nat} (x y : BitVec n) (c : Bool) (old : BitVec 32) :
    DifferenceFlags x y c (maskFlags old 0x8D5 (subStatus x y c).bits) where
  of := by
    rw [maskFlags_getLsbD, Status.bits_getLsbD]
    simp only [subStatus, subRes]
    cases x.msb <;> cases y.msb <;> cases (x - y - BitVec.ofNat n c.toNat).msb <;> simp
  af := by rw [maskFlags_getLsbD, Status.bits_getLsbD]; simp [subStatus, lowNibble]; rfl
  result := resultFlags_maskFlags rfl rfl rfl rfl rfl rfl
  cf := by rw [maskFlags_getLsbD, Status.bits_getLsbD]; simp [subStatus]

/-- The flags of a logical operation, with AF replaced by an open value. -/
theorem logicFlags_maskFlags {n : Nat} (r : BitVec n) (old v : BitVec 32) :
    LogicFlags r (maskFlags (maskFlags old 0x8D5 (logicStatus r).bits) 0x10 v) where
  cf := by rw [maskFlags_getLsbD, maskFlags_getLsbD, Status.bits_getLsbD]; simp [logicStatus]
  of := by rw [maskFlags_getLsbD, maskFlags_getLsbD, Status.bits_getLsbD]; simp [logicStatus]
  result := by
    constructor <;> rw [maskFlags_getLsbD, maskFlags_getLsbD, Status.bits_getLsbD]
    · simp [logicStatus, BitVec.msb_eq_getLsbD_last]
    · simp [logicStatus]; exact beq_zero_toNat r
    · simp [logicStatus, parity_countP]

/-! ### SIMD exceptions -/

/-- Exceptions that are all masked are recorded, and the instruction goes on. -/
theorem signalSimd_masked {x : BitVec 6} {t : State} (h : t.mxUnmasked x = 0) :
    signalSimd x t = .ok ((), t.setMxFlags (t.mxReported x)) := by
  rw [signalSimd, readS_bind, id, h]; rfl

/-- The unmasked exceptions are recorded, and one exception is raised. -/
theorem signalSimd_unmasked {x : BitVec 6} {t : State} (h : t.mxUnmasked x ≠ 0) :
    signalSimd x t =
      .error (.raisedAfter (if t.cr4.getLsbD 10 then xmFault else udFault) (t.setMxFlags (t.mxUnmasked x))) := by
  rw [signalSimd, readS_bind, id, if_pos (bne_iff_ne.2 h)]; rfl

end Sys2Proof.Machine
end

