-- ==== Sys2Proof/Laws/System.lean ====
section
/-! SUPPORT. What reading a descriptor by linear address does, said once, and what reading and updating a system
descriptor does, said once for LLDT and LTR. -/

namespace Sys2Proof.Machine

/-- A read by linear address gives the bytes where it is translated to (R380). -/
theorem sysRead_ok {s t : State} {la : Word} {n : Nat} {sp : Span}
    (h : spanOf s.lma (if s.lma then la else la &&& 0xFFFFFFFF) n ⟨false, false⟩ s = .ok (sp, t)) :
    sysRead la n s = .ok (spanGet t.mem sp 0 n, t) := by
  unfold sysRead
  rw [readS_bind, M.bind_of_ok h]
  rfl

/-- What `readDescPart` answers: #GP(selector) outside the table and at an address that is not canonical, else what the
read gives (R380). -/
theorem readDescPart_eq (sel : BitVec 16) (ext : Bool) (n k : Nat) (s : State) : readDescPart sel ext n k s =
    if s.descInTable sel n = false ∨ (s.lma = true ∧ canonicalRange (s.descAddr sel) n = false) then
      .error (.raised (gpSel sel ext))
    else match sysRead (s.descAddr sel + BitVec.ofNat 64 k) 8 s with
      | .error e => .error e
      | .ok (v, t) => .ok (BitVec.ofNat 64 v, t) := by
  unfold readDescPart
  rw [readS_bind]
  cases h : s.descInTable sel n <;> cases h' : s.lma <;> cases h'' : canonicalRange (s.descAddr sel) n <;>
    simp [-bind_pure_comp, M.bind_apply, h, h', h''] <;>
    cases sysRead (s.descAddr sel + BitVec.ofNat 64 k) 8 s <;> rfl

/-- The bytes of a system descriptor: both halves in 64-bit mode, one and zeros elsewhere (R427). -/
theorem readSystemDesc_ok {s t u : State} {sel : BitVec 16} {lo hi : BitVec 64}
    (h : readDescPart sel false (if s.is64 then 16 else 8) 0 s = .ok (lo, t))
    (h' : if s.is64 then readDescPart sel false 16 8 t = .ok (hi, u) else hi = 0 ∧ u = t) :
    readSystemDesc sel s = .ok ((lo, hi), u) := by
  unfold readSystemDesc
  rw [readS_bind]
  cases h6 : s.is64 <;> simp only [h6, if_true, if_false, Bool.false_eq_true] at h h' <;>
    simp [-bind_pure_comp, M.bind_apply, readDesc16_eq, h, h', h6]

/-- A selector beyond the GDT raises #GP(selector) (R427, R432, R380). -/
theorem systemDesc_outside {s : State} {sel : BitVec 16} (ok : SegReg → Bool) (ht : sel.getLsbD 2 = false)
    (h : s.descInTable sel (if s.is64 then 16 else 8) = false) :
    systemDesc ok sel s = .error (.raised (gpSel sel)) := by
  have : readSystemDesc sel s = .error (.raised (gpSel sel)) := by
    unfold readSystemDesc
    rw [readS_bind]
    cases h6 : s.is64 <;> simp [h6] at h <;>
      simp [-bind_pure_comp, M.bind_apply, readDesc16_eq, readDescPart, h, h6]
  unfold systemDesc
  simp only [M.bind_apply, ht, this, raiseIf_false]

/-- What `systemDesc` answers for a descriptor that was read: the stops in their order, else the segment (R427, R432). -/
theorem systemDesc_eq {s t u : State} {sel : BitVec 16} {lo hi : BitVec 64} (ok : SegReg → Bool)
    (ht : sel.getLsbD 2 = false) (h : readDescPart sel false (if s.is64 then 16 else 8) 0 s = .ok (lo, t))
    (h' : if s.is64 then readDescPart sel false 16 8 t = .ok (hi, u) else hi = 0 ∧ u = t) :
    systemDesc ok sel s =
      let g := descSeg lo sel
      let base := hi.extractLsb' 0 32 ++ g.base.extractLsb' 0 32
      if g.s || !ok g || hi.extractLsb' 40 5 != 0 then .error (.raised (gpSel sel))
      else if !g.p then .error (.raised (npSel sel))
      else if !canonical base then .error (.raised (gpSel sel))
      else .ok (({ g with base := base }, lo), u) := by
  unfold systemDesc
  simp only [M.bind_apply, ht, readSystemDesc_ok h h', raiseIf_false]
  cases (descSeg lo sel).s <;> cases ok (descSeg lo sel) <;> cases hi.extractLsb' 40 5 != 0 <;>
    cases (descSeg lo sel).p <;> cases canonical (hi.extractLsb' 0 32 ++ (descSeg lo sel).base.extractLsb' 0 32) <;>
    simp

/-- A read-modify-write of `n` bytes stores what `f` makes of them, where the access is translated to (R432). -/
theorem sysUpdate_ok {s t : State} {la : Word} {n : Nat} {sp : Span} (f : Nat → Nat)
    (h : spanOf s.lma (if s.lma then la else la &&& 0xFFFFFFFF) n ⟨true, false⟩ s = .ok (sp, t)) :
    sysUpdate la n f s = .ok ((), t.storeAt sp n (f (spanGet t.mem sp 0 n))) := by
  unfold sysUpdate
  rw [readS_bind, M.bind_of_ok h]
  rfl

end Sys2Proof.Machine
end

