-- ==== Sys2Proof/Tests/Slice0.lean ====
section
/-! SUPPORT. The tests: ill-formed terms that the well-formedness checks refuse, instruction words written out from the
spec's encodings, single steps with the results of spec/95_test_vectors.md, and for every statement with hypotheses a
concrete state and operands that meet them. -/

namespace Sys2Proof.Tests

open Sys2Proof Sys2Proof.Machine

set_option Elab.async false

/-! ### Well-formedness -/

/-- The memory operand at a displacement. -/
def at_ (asz : ASize) (disp : Word) : Mem := { seg := .ds, base := .none, index := none, disp := disp, asz := asz }

/-- A memory operand with an index register. -/
def indexed (r : Reg) : Mem := { at_ .a32 0 with index := some { reg := r, scale := 0 } }

/-- An x87 memory operand with the ModR/M byte its encoding has. -/
def fat (m : Mem) : FMem := { mem := m, form := formOf m }

/-- R8 outside 64-bit mode (R183). -/
theorem test_wf_register : (Instr.bswap .b32 8).wf .c32 = false := by decide
/-- A 64-bit operand outside 64-bit mode (R178). -/
theorem test_wf_operand_size : (Instr.bswap .b64 0).wf .c32 = false := by decide
/-- A byte operand size where there is none (R178). -/
theorem test_wf_no_byte_form : (Instr.imul (.two .b8 0 (.reg 1))).wf .c64 = false := by decide
/-- A 64-bit byte-or-operand-size width outside 64-bit mode (R179). -/
theorem test_wf_width : (Instr.mul .b64 (.reg (.full 0))).wf .c32 = false := by decide
/-- A 32-bit push in 64-bit mode (R198). -/
theorem test_wf_stack_size : (Instr.pushf .b32).wf .c64 = false := by decide
/-- A 16-bit near branch in 64-bit mode (R199). -/
theorem test_wf_near_size : (Instr.ret .b16 none).wf .c64 = false := by decide
/-- A 64-bit CWD, whose form is CQO (R269). -/
theorem test_wf_half : (Instr.cwd .b64).wf .c64 = false := by decide
/-- A 64-bit port access (R372). -/
theorem test_wf_port : (Instr.inp .b64 none).wf .c64 = false := by decide
/-- 16-bit addressing in 64-bit mode (R177). -/
theorem test_wf_address_size : (Instr.not .b8 (.mem (at_ .a16 0))).wf .c64 = false := by decide
/-- A 16-bit address form with CX as its base (R112). -/
theorem test_wf_form16 : (Instr.not .b8 (.mem { at_ .a16 0 with base := .reg 1 })).wf .c32 = false := by decide
/-- A displacement that is no sign extension of 32 bits (R191). -/
theorem test_wf_displacement : (Instr.not .b8 (.mem (at_ .a64 0x80000000))).wf .c64 = false := by decide
/-- An index register 4 (R187). -/
theorem test_wf_index : (Instr.not .b8 (.mem (indexed 4))).wf .c32 = false := by decide
/-- An address relative to RIP outside 64-bit mode (R189). -/
theorem test_wf_rip_base : (Instr.not .b8 (.mem { at_ .a32 0 with base := .rip })).wf .c32 = false := by decide
/-- An ill-formed memory operand where a 16- to 64-bit or MMX operand stands. -/
theorem test_wf_operand_kinds : (Instr.lldt (.mem (indexed 4))).wf .c32 = false ∧
    (Instr.cvtpi2ps 0 (.mem (indexed 4))).wf .c32 = false := by decide
/-- SPL outside 64-bit mode (R31, R184). -/
theorem test_wf_byte_register : (Instr.not .b8 (.reg (.full 4))).wf .c32 = false := by decide
/-- AH as a 32-bit operand (R31). -/
theorem test_wf_high_byte_width : (Instr.not .b32 (.reg (.high 0))).wf .c32 = false := by decide
/-- AH beside R8B, whose REX prefix AH excludes (R184). -/
theorem test_wf_high_byte_rex : (Instr.add (.rmR .b8 (.reg (.high 0)) (.full 8))).wf .c64 = false ∧
    (Instr.movzx .b64 .b8 0 (.reg (.high 0))).wf .c64 = false := by decide
/-- An x87 operand whose recorded ModR/M byte is not that of its encoding (R457). -/
theorem test_wf_x87_form : (Instr.fadd (.m32 { mem := at_ .a32 0, form := 0 })).wf .c32 = false ∧
    (Instr.fnstsw (.mem { mem := at_ .a32 0, form := 0 })).wf .c32 = false ∧
    (Instr.fild (.m64 { mem := at_ .a32 0, form := 0 })).wf .c32 = false ∧
    (Instr.fiadd (.m16 { mem := at_ .a32 0, form := 0 })).wf .c32 = false ∧
    (Instr.fcom (.m64 { mem := at_ .a32 0, form := 0 })).wf .c32 = false ∧
    (Instr.fld (.m80 { mem := at_ .a32 0, form := 0 })).wf .c32 = false := by decide
/-- A 64-bit x87 environment image. -/
theorem test_wf_x87_image : (Instr.fnsave .b64 (fat (at_ .a32 0))).wf .c64 = false := by decide
/-- A sign-extended byte immediate with a byte operand (R242). -/
theorem test_wf_alu : (Instr.add (.rmImm8 .b8 (.reg 0) 0)).wf .c64 = false := by decide
/-- TEST of AH and R8B (R184). -/
theorem test_wf_test : (Instr.test (.rmR .b8 (.reg (.high 0)) (.full 8))).wf .c64 = false := by decide
/-- The short INC in 64-bit mode (R206). -/
theorem test_wf_inc : (Instr.inc (.short .b32 0)).wf .c64 = false := by decide
/-- XCHG of the accumulator with itself, which is NOP (R799). -/
theorem test_wf_xchg : (Instr.xchg (.acc .b32 0)).wf .c64 = false := by decide
/-- A bit test of bytes (R305). -/
theorem test_wf_bit : (Instr.bt .b8 (.reg 0) (.imm 0)).wf .c64 = false := by decide
/-- A 16-bit displacement with a 32-bit operand size (R321). -/
theorem test_wf_branch : (Instr.jmpRel .b32 (.r16 0)).wf .c32 = false ∧ (Instr.callRel .b32 (.r8 0)).wf .c32 = false := by
  decide
/-- A count register of 16 bits in 64-bit mode (R340). -/
theorem test_wf_loop : (Instr.loop .b64 .a16 0).wf .c64 = false := by decide
/-- A far pointer of 16 bits with a longer offset (R194). -/
theorem test_wf_far_pointer : (Instr.jmpFarPtr .b16 0x10000 0).wf .c32 = false := by decide
/-- A near indirect branch and a far one at sizes they do not have (R323, R324). -/
theorem test_wf_indirect : (Instr.jmpInd .b32 (.reg 0)).wf .c64 = false ∧
    (Instr.jmpFarMem .b8 (.mem (at_ .a64 0))).wf .c64 = false := by decide
/-- MOV with an ill-formed operand, and a memory offset longer than its address size (R781, R782). -/
theorem test_wf_mov : (Instr.mov (.regImm .b64 (.full 0) 0)).wf .c32 = false ∧
    (Instr.movMoffs false .b32 .ds .a16 0x10000).wf .c32 = false := by decide
/-- MOVZX from 32 bits (R784). -/
theorem test_wf_movzx : (Instr.movzx .b64 .b32 0 (.reg (.full 0))).wf .c64 = false := by decide
/-- PUSH of R8 outside 64-bit mode, and a POP of CS (R787, R788). -/
theorem test_wf_push_pop : (Instr.push (.reg .b32 8)).wf .c32 = false ∧ (Instr.pop (.sreg .b32 .cs)).wf .c32 = false := by
  decide
/-- XMM8 outside 64-bit mode, and a conversion to a 16-bit integer (R183, R636). -/
theorem test_wf_sse : (Instr.addps 8 (.reg 0)).wf .c32 = false ∧ (Instr.cvtsd2si .b16 0 (.reg 0)).wf .c64 = false := by
  decide
/-- A string instruction with 64-bit addresses outside 64-bit mode (R177). -/
theorem test_wf_string : (Instr.lodsb { asz := .a64, seg := .ds, rep := .none }).wf .c32 = false ∧
    (Instr.stosb { asz := .a64, rep := .none }).wf .c32 = false := by decide
/-- An ill-formed instruction under LOCK. -/
theorem test_wf_lock : (Instr.lock (.inc (.short .b32 0))).wf .c64 = false := by decide
/-- Instructions of 64-bit mode outside it. -/
theorem test_wf_only64 : ∀ i ∈ [Instr.cqo, .cdqe, .iretq, .cmpxchg16b (.mem (at_ .a32 0)), .sysret true,
    .movsxd .b32 0 (.reg 0), .fxsave true (at_ .a32 0)], i.wf .c32 = false := by decide
/-- INVLPG of the register form that is SWAPGS, and BOUND and ARPL in sizes and modes they do not have. -/
theorem test_wf_system : (Instr.invlpg (.reg 0)).wf .c64 = false ∧ (Instr.bound .b64 0 (.mem (at_ .a64 0))).wf .c64 = false ∧
    (Instr.arpl (.reg 0) 0).wf .c64 = false := by decide

/-! ### Decoding: words written out from the encodings of the spec -/

/-- What a word of `len` bytes decodes to, the rest of the 15 bytes being 0. -/
def Decodes (c : CodeSize) (bytes : List Byte) (i : Instr) : Prop := decode c bytes = .ok (i, bytes.length)

/-- ADD r/m32, r32 is `01 /r` (R240, R242); ModR/M 11 011 000 names EBX's number in reg and EAX in r/m. -/
theorem test_decode_add : Decodes .c64 [0x01, 0xD8] (.add (.rmR .b32 (.reg (.full 0)) (.full 3))) := by
  unfold Decodes; decide +kernel
/-- SUB AL, imm8 is `2C ib` (R242). -/
theorem test_decode_sub : Decodes .c32 [0x2C, 0x05] (.sub (.accImm .b8 5)) := by unfold Decodes; decide +kernel
/-- CMPXCHG8B m64 is `0F C7 /1` (R281). -/
theorem test_decode_cmpxchg8b : Decodes .c64 [0x0F, 0xC7, 0x0F] (.cmpxchg8b (.mem { at_ .a64 0 with base := .reg 7 })) := by
  unfold Decodes; decide +kernel
/-- BT r/m32, imm8 is `0F BA /4 ib` (R305). -/
theorem test_decode_bt : Decodes .c32 [0x0F, 0xBA, 0xE0, 0x1F] (.bt .b32 (.reg 0) (.imm 0x1F)) := by
  unfold Decodes; decide +kernel
/-- JMP rel8 is `EB cb` (R334). -/
theorem test_decode_jmp : Decodes .c64 [0xEB, 0xFE] (.jmpRel .b64 (.r8 0xFE)) := by unfold Decodes; decide +kernel
/-- ENTER is `C8 iw ib` (R342). -/
theorem test_decode_enter : Decodes .c64 [0xC8, 0x20, 0x00, 0x01] (.enter .b64 0x20 1) := by unfold Decodes; decide +kernel
/-- REP MOVSB is `F3 A4` (R366). -/
theorem test_decode_movs : Decodes .c64 [0xF3, 0xA4] (.movsb { asz := .a64, seg := .ds, rep := .rep }) := by
  unfold Decodes; decide +kernel
/-- OUT imm8, AL is `E6 ib` (R373). -/
theorem test_decode_out : Decodes .c16 [0xE6, 0x80] (.outp .b8 (some 0x80)) := by unfold Decodes; decide +kernel
/-- LGDT is `0F 01 /2`, with SS the default segment of RSP (R425, R118, R187). -/
theorem test_decode_lgdt : Decodes .c64 [0x0F, 0x01, 0x14, 0x24]
    (.lgdt .b32 (.mem { at_ .a64 0 with seg := .ss, base := .reg 4 })) := by unfold Decodes; decide +kernel
/-- MOV CR8, RAX is `REX.R 0F 22 /0` (R785). -/
theorem test_decode_cr8 : Decodes .c64 [0x44, 0x0F, 0x22, 0xC0] (.movToCr 8 0) := by unfold Decodes; decide +kernel
/-- FADD m64fp is `DC /0` (R463). -/
theorem test_decode_fadd : Decodes .c64 [0xDC, 0x00] (.fadd (.m64 { mem := { at_ .a64 0 with base := .reg 0 }, form := 0 })) := by
  unfold Decodes; decide +kernel
/-- CVTSI2SD xmm, r/m64 is `F2 REX.W 0F 2A /r` (R638). -/
theorem test_decode_cvtsi2sd : Decodes .c64 [0xF2, 0x48, 0x0F, 0x2A, 0xC8] (.cvtsi2sd .b64 1 (.reg 0)) := by
  unfold Decodes; decide +kernel
/-- PUSH r64 is `50+rd` with REX.B for R9 (R788, R183). -/
theorem test_decode_push : Decodes .c64 [0x41, 0x51] (.push (.reg .b64 9)) := by unfold Decodes; decide +kernel
/-- SHL r/m32, imm8 is `C1 /4 ib` (R797). -/
theorem test_decode_shl : Decodes .c32 [0xC1, 0xE0, 0x04] (.shl .b32 (.reg (.full 0)) (.imm 4)) := by
  unfold Decodes; decide +kernel
/-- `66 48 D9 30`: 66H selects the 14-byte image, whatever REX.W is (R450). -/
theorem test_decode_fnstenv : Decodes .c64 [0x66, 0x48, 0xD9, 0x30]
    (.fnstenv .b16 { mem := { at_ .a64 0 with base := .reg 0 }, form := 0 }) := by unfold Decodes; decide +kernel
/-- LFENCE is `0F AE E8` (R424). -/
theorem test_decode_lfence : Decodes .c64 [0x0F, 0xAE, 0xE8] .lfence := by unfold Decodes; decide +kernel
/-- An opcode without a row is refused, not read as a neighbour: `0F 0B` is UD2, `0F 0A` nothing (R208). -/
theorem test_decode_no_row : decode .c64 [0x0F, 0x0A, 0, 0, 0, 0, 0, 0, 0, 0, 0, 0, 0, 0, 0] = .error .noSuchRow := by
  decide +kernel
/-- A row of the table by its number: `0F A2`, CPUID, read as the host numbers bits. -/
theorem test_decode_table_word : decodeTableWord 16 0xA20F = some .cpuid := by decide +kernel

/-! ### Concrete states -/

/-- Bytes of memory written into a state. -/
def poke (a n v : Nat) (s : State) : State := { s with mem := writePhysLE s.mem a n v }

/-- A general register written. -/
def reg (r : Reg) (v : Word) (s : State) : State := s.put r v

/-- A GDT at 10000H: 08H a 64-bit code segment, 10H a data segment, 20H a compatibility-mode code segment, 28H and 30H
the data and the 64-bit code segment of level 3, 38H a data segment of level 3 not yet accessed, 40H a data segment not
present, 48H a 64-bit TSS, 58H an LDT, 68H and 78H call gates of level 3 to 08H and 30H. -/
def gdt : List Host.Cell :=
  [(0x1000D, 0x9B), (0x1000E, 0x20), (0x10010, 0xFF), (0x10011, 0xFF), (0x10015, 0x93), (0x10016, 0xCF), (0x10020, 0xFF),
   (0x10021, 0xFF), (0x10025, 0x9B), (0x10026, 0xCF), (0x1002D, 0xF3), (0x10035, 0xFB), (0x10036, 0x20), (0x10038, 0xFF),
   (0x10039, 0xFF), (0x1003D, 0xF2), (0x1003E, 0xCF), (0x10040, 0xFF), (0x10041, 0xFF), (0x10045, 0x13), (0x10046, 0xCF),
   (0x10048, 0x67), (0x10049, 0x1), (0x1004C, 0x2), (0x1004D, 0x89), (0x10058, 0xFF), (0x10059, 0xF), (0x1005C, 0x3),
   (0x1005D, 0x82), (0x10069, 0x10), (0x1006A, 0x8), (0x1006D, 0xEC), (0x1006E, 0x5), (0x10079, 0x10), (0x1007A, 0x30),
   (0x1007D, 0xEC), (0x1007E, 0x5)]

/-- A TSS at 20000H with RSP0 = 9000H and its I/O map at 68H. -/
def tss : List Host.Cell :=
  [(0x20005, 0x90), (0x20066, 0x68)]

/-- An IDT at 30000H with interrupt gates of level 3 at vectors 3, 4 and 80H and a trap gate at vector 6. -/
def idt : List Host.Cell :=
  [(0x30030, 0x30), (0x30032, 0x8), (0x30035, 0xEE), (0x30036, 0x5), (0x30040, 0x40), (0x30042, 0x8), (0x30045, 0xEE),
   (0x30046, 0x5), (0x30060, 0x60), (0x30062, 0x8), (0x30065, 0x8F), (0x30066, 0x5), (0x30801, 0x8), (0x30802, 0x8),
   (0x30805, 0xEE), (0x30806, 0x5)]

/-- Page tables at 70000H that map the first two megabytes to themselves. -/
def pages : List Host.Cell :=
  [(0x70000, 0x27), (0x70001, 0x10), (0x70002, 0x7), (0x71000, 0x27), (0x71001, 0x20), (0x71002, 0x7), (0x72000, 0xE7)]

/-- 64-bit mode at level 0 with paging, the units on, RSP = 8000H and code at 1000H. -/
def long : State :=
  { State.reset with
    mem := gdt ++ (tss ++ (idt ++ pages))
    rip := 0x1000, nextPc := 0x1000, rflags := 0x202, efer := 0x501, cr0 := 0x80000033, cr4 := 0x620, cr3 := 0x70000
    cs := descSeg 0x00209B0000000000 8, ss := descSeg 0x0000930000000000 0x10
    gdtr := { base := 0x10000, limit := 0xFF }, idtr := { base := 0x30000, limit := 0xFFF }
    tr := { State.reset.tr with base := 0x20000, limit := 0x167, sel := 0x48 }
    fpu := State.reset.fpu.init
    gpr := #v[0, 0, 0, 0, 0x8000, 0, 0, 0, 0, 0, 0, 0, 0, 0, 0, 0] }

/-- 64-bit mode at level 3. -/
def user (s : State) : State :=
  { s with cs := descSeg 0x0020FB0000000000 0x33, ss := descSeg 0x0000F30000000000 0x2B }

/-- Compatibility mode at level 0. -/
def compat : State :=
  let g := descSeg 0x00CF93000000FFFF 0x10
  { long with cs := descSeg 0x00CF9B000000FFFF 0x20, ss := g, ds := g, es := g, fs := g, gs := g }

/-- Protected mode without paging, level 0. -/
def prot : State := { compat with cr0 := 0x33, efer := 0 }

/-- Real-address mode, RSP = 8000H. -/
def real : State := { reg 4 0x8000 State.reset with rip := 0x1000, nextPc := 0x1000, cs := { State.reset.cs with base := 0 } }

/-- The memory operand that most of the tests use. -/
def m0 : Mem := at_ .a32 0x2000

/-- The x87 memory operand that most of the tests use. -/
def f0 : FMem := fat m0

/-- The frame of an interrupt from level 3, and the one of an interrupt from compatibility mode at level 0. -/
def frame : State := poke 0x8000 8 0x1000 <| poke 0x8008 8 0x33 <| poke 0x8010 8 0x202 <| poke 0x8018 8 0x9000 <|
  poke 0x8020 8 0x2B long

def frame32 : State := poke 0x8000 4 0x1000 <| poke 0x8004 4 0x20 <| poke 0x8008 4 0x202 compat

/-- A state whose FPU holds two values, ST(0) first. -/
def holding (a b : BitVec 80) : State :=
  { long with fpu := ((long.fpu.setTop 6).write 0 a).write 1 b }

/-- 3.0, 2.0 and -8.0 in double extended precision. -/
def three : BitVec 80 := 0x4000C000000000000000
def two : BitVec 80 := 0x40008000000000000000
def minusEight : BitVec 80 := 0xC0028000000000000000

/-! ### Runs that complete -/

/-- The state a run leads to. -/
def after {α : Type} (m : M α) (s : State) : State :=
  match m s with
  | .ok (_, t) => t
  | .error _ => s

/-- The value of a run, `d` if there is none. -/
def value {α : Type} (d : α) (m : M α) (s : State) : α :=
  match m s with
  | .ok (a, _) => a
  | .error _ => d

/-- A run that does not stop has its value and its state. -/
theorem run_ok {α : Type} {m : M α} {s : State} (d : α) (h : (m s).toBool = true) : m s = .ok (value d m s, after m s) := by
  unfold value after
  cases e : m s with
  | ok p => rfl
  | error x => rw [e] at h; cases h

/-- A run that does not stop ends. -/
theorem run_ends {α : Type} {m : M α} {s : State} (h : (m s).toBool = true) : ∃ a t, m s = .ok (a, t) := by
  cases e : m s with
  | ok p => exact ⟨p.1, p.2, rfl⟩
  | error x => rw [e] at h; cases h

/-- A run without a value that does not stop. -/
theorem run_unit {m : M Unit} {s : State} (h : (m s).toBool = true) : m s = .ok ((), after m s) := run_ok () h

/-- A span that an access resolves to. -/
def span0 : Span := { first := 0, split := 0, rest := 0 }

/-- Whether a list of values can be pushed. -/
def canPush (n : Nat) : List Nat → State → Bool
  | [], _ => true
  | v :: l, s =>
    match resolve .ss (s.pushAddr n) n true (.natural n) s with
    | .ok (sp, u) => canPush n l ((u.storeAt sp n v).setSp (s.pushAddr n))
    | .error _ => false

theorem pushedAll_of {n : Nat} {l : List Nat} {s : State} (h : canPush n l s = true) : ∃ t, PushedAll n l s t := by
  induction l generalizing s with
  | nil => exact ⟨s, rfl⟩
  | cons v l ih =>
    unfold canPush at h
    split at h
    · next sp u e =>
      obtain ⟨t, ht⟩ := ih h
      exact ⟨t, _, ⟨sp, u, e, rfl⟩, ht⟩
    · cases h

theorem pushed_of {n v : Nat} {s : State} (h : canPush n [v] s = true) : ∃ t, Pushed n v s t := by
  obtain ⟨_, t, ht, -⟩ := pushedAll_of h
  exact ⟨t, ht⟩

/-- The state after a push. -/
def pushed (n v : Nat) (s : State) : State :=
  let r := resolve .ss (s.pushAddr n) n true (.natural n)
  ((after r s).storeAt (value span0 r s) n v).setSp (s.pushAddr n)

theorem pushed_at {n v : Nat} {s : State} (h : (resolve .ss (s.pushAddr n) n true (.natural n) s).toBool = true) :
    Pushed n v s (pushed n v s) := ⟨_, _, run_ok span0 h, rfl⟩

/-- Whether a list of values is what pops give. -/
def canPop (n : Nat) : List Nat → State → Bool
  | [], _ => true
  | v :: l, s =>
    match resolve .ss s.sp n false (.natural n) s with
    | .ok (sp, u) => decide (v = spanGet u.mem sp 0 n) && canPop n l (u.setSp (s.sp + BitVec.ofNat 64 n))
    | .error _ => false

/-- The state after the pops. -/
def popped (n : Nat) : List Nat → State → State
  | [], s => s
  | _ :: l, s => popped n l ((after (resolve .ss s.sp n false (.natural n)) s).setSp (s.sp + BitVec.ofNat 64 n))

theorem poppedAll_of {n : Nat} {l : List Nat} {s : State} (h : canPop n l s = true) : PoppedAll n l s (popped n l s) := by
  induction l generalizing s with
  | nil => rfl
  | cons v l ih =>
    unfold canPop at h
    split at h
    · next sp u e =>
      rw [Bool.and_eq_true, decide_eq_true_eq] at h
      have : after (resolve .ss s.sp n false (.natural n)) s = u := by unfold after; rw [e]
      refine ⟨_, ⟨sp, u, e, h.1, rfl⟩, ?_⟩
      unfold popped
      rw [this]
      exact ih h.2
    · cases h

/-- Whether a list of items can be stored downward. -/
def canStack (user : Bool) : Word → List Word → State → Bool
  | _, [], _ => true
  | p, v :: l, s => canonicalRange (p - 8) 8 &&
    match spanOf true (p - 8) 8 { write := true, user := user } s with
    | .ok (sp, u) => canStack user (p - 8) l (u.storeAt sp 8 v.toNat)
    | .error _ => false

theorem stacked_of {user : Bool} {p : Word} {l : List Word} {s : State} (h : canStack user p l s = true) :
    ∃ t, Stacked user p l s t := by
  induction l generalizing p s with
  | nil => exact ⟨s, rfl⟩
  | cons v l ih =>
    unfold canStack at h
    rw [Bool.and_eq_true] at h
    obtain ⟨h1, h⟩ := h
    split at h
    · next sp u e =>
      obtain ⟨t, ht⟩ := ih h
      exact ⟨t, sp, u, h1, e, ht⟩
    · cases h

/-- The step ends in a next state with a property. -/
noncomputable def steps (s : State) (p : State → Bool) : Bool :=
  match step s with
  | .next t => p t
  | _ => false

theorem step_of {s : State} {p : State → Bool} (h : steps s p = true) : ∃ t, step s = .next t := by
  unfold steps at h
  split at h
  · next t e => exact ⟨t, e⟩
  · cases h

/-! ### The statements' hypotheses can be met -/

/-- The operand resolves in every size the statements ask for. -/
theorem test_witness_store :
    ([1, 2, 4, 8, 10, 14, 28, 94, 108].all fun n => (resolveMem m0 n true (.natural n) long).toBool) = true ∧
    ([16, 512].all fun n => (resolveMem m0 n true .para long).toBool && (resolveMem m0 n false .para long).toBool) = true ∧
    long.memOk = true := by decide +kernel

theorem test_witness_AluRegister : ∃ y t, AluForm long .b32 (.reg (.full rBX)) (.rRm .b32 (.full rBX) (.mem m0)) y t :=
  ⟨_, _, .rRm _ _ _ _ _ (run_ok 0 (by decide +kernel))⟩

theorem test_witness_AluMemory : AluForm long .b64 (.mem m0) (.rmImm .b64 (.mem m0) 0x80000000#32)
      ((0x80000000#32).signExtend 64) long ∧
    (∃ sp u, resolveMem m0 8 true (.natural 8) long = .ok (sp, u)) ∧ long.memOk = true :=
  ⟨.rmImm _ _ _, run_ends (by decide +kernel), test_witness_store.2.2⟩

theorem test_witness_CompareTest : AluForm long .b8 (.reg (.high 0)) (.rmR .b8 (.reg (.high 0)) (.full rBX))
      (long.readGReg .b8 (.full rBX)) long ∧
    ∃ x u, readRmb .b8 (.mem m0) long = .ok (x, u) := ⟨.rmR _ _ _, run_ends (by decide +kernel)⟩

theorem test_witness_UnaryArithmetic : (∃ sp u, resolveMem m0 Width.b16.bytes true (.natural 2) long = .ok (sp, u)) ∧
    long.memOk = true := ⟨run_ends (by decide +kernel), test_witness_store.2.2⟩

theorem test_witness_MultiplyDivide : (∃ b t, readRmb .b8 (.mem m0) long = .ok (b, t)) ∧
    (∃ b t, readRm .b64 (.mem m0) long = .ok (b, t)) := ⟨run_ends (by decide +kernel), run_ends (by decide +kernel)⟩

theorem test_witness_DecimalAdjust : compat.is64 = false ∧ (1 : Byte) ≠ 0 ∧ (255 : Byte) ≠ 0 := by decide +kernel

theorem test_witness_UndefinedInstructions : long.is64 = true ∧ aluToMemory (.rRm .b8 (.full 0) (.mem m0)) = false := by
  decide +kernel

theorem test_witness_ConvertAndMove : real.is64 = false ∧ compat.is64 = false := by decide +kernel

theorem test_witness_ConditionalMoves : (∃ v t, readRm .b32 (.mem m0) long = .ok (v, t)) ∧
    (∃ x put, Destination long .b8 (.mem m0) x put) ∧ long.memOk = true := by
  refine ⟨run_ends (by decide +kernel), ?_, test_witness_store.2.2⟩
  obtain ⟨sp, u, h⟩ := run_ends (m := resolveMem m0 Width.b8.bytes true (.natural 1)) (s := long) (by decide +kernel)
  exact ⟨_, _, .mem m0 sp u h⟩

theorem test_witness_Exchange : (∃ sp u, resolveMem m0 Width.b32.bytes true (.natural 4) long = .ok (sp, u)) ∧
    (∃ sp u, resolveMem m0 8 true (.natural 8) long = .ok (sp, u)) ∧
    (∃ sp u, resolveMem m0 16 true .para long = .ok (sp, u)) ∧ long.memOk = true :=
  ⟨run_ends (by decide +kernel), run_ends (by decide +kernel), run_ends (by decide +kernel), test_witness_store.2.2⟩

/-- The source of BSF and BSR is 0, or has its lowest and its highest set bit at the ends of its range; the offset of a
memory operand is negative. -/
theorem test_witness_BitScanTest : (∃ t, readRm .b16 (.reg 0) long = .ok (0#16, t)) ∧
    (∃ t, readRm .b16 (.reg 0) (reg 0 0x8000 long) = .ok (0x8000#16, t)) ∧ (0x8000#16).getLsbD 15 = true ∧
    (∀ j, j < 15 → (0x8000#16).getLsbD j = false) ∧ (∀ j, 15 < j → (0x8000#16).getLsbD j = false) ∧
    (∃ v t, readMem .ds ((reg 1 (-1) long).bitAddr .b64 m0 (.reg 1)) 8 (reg 1 (-1) long) = .ok (v, t)) ∧
    (∃ sp u, resolve .ds ((reg 1 (-1) long).bitAddr .b64 m0 (.reg 1)) 8 true (.natural 8) (reg 1 (-1) long) = .ok (sp, u)) :=
  ⟨⟨_, rfl⟩, ⟨_, by rfl⟩, by decide, by decide, fun j h => BitVec.getLsbD_of_ge _ _ (by omega), run_ends (by decide +kernel),
    run_ends (by decide +kernel)⟩

/-- Counts of 0, of 1, of the width, above the width; in a register and in memory. -/
theorem test_witness_Shift : (∃ x put, Destination long .b16 (.mem m0) x put) ∧
    Destination long .b16 (asRmb (.reg 3)) (long.readGReg .b16 (.full 3)) (long.writeGReg .b16 (.full 3)) ∧
    (32 : Byte).toNat % 32 = 0 ∧ 0 < (1 : Byte).toNat % 32 ∧ (16 : Byte).toNat % 32 ≤ Width.b16.bits ∧
    Width.b16.bits < (17 : Byte).toNat % 32 := by
  refine ⟨?_, .reg _, by decide⟩
  obtain ⟨sp, u, h⟩ := run_ends (m := resolveMem m0 Width.b16.bytes true (.natural 2)) (s := long) (by decide +kernel)
  exact ⟨_, _, .mem m0 sp u h⟩

theorem test_witness_Rotate : Destination long .b8 (.reg (.high 3)) (long.readGReg .b8 (.high 3))
      (long.writeGReg .b8 (.high 3)) ∧
    (64 : Byte).toNat % 32 = 0 ∧ 0 < (31 : Byte).toNat % 32 ∧ long.memOk = true := ⟨.reg _, by decide, by decide, test_witness_store.2.2⟩

/-- Targets that are allowed and not, at the ends of the canonical range and of the CS limit. -/
theorem test_witness_NearTransfers : (∃ v u, readRm .b64 (.reg 0) long = .ok (v, u)) ∧
    long.codeAt 0x00007FFFFFFFFFFF = true ∧ long.codeAt 0x0000800000000000 = false ∧
    real.codeAt 0xFFFF = true ∧ real.codeAt 0x10000 = false ∧
    (∃ t, Pushed 8 long.nextPc.toNat { long with rip := 0x3000 } t) ∧
    (∃ t, Pushed Width.b16.bytes real.nextPc.toNat { real with rip := 0xFFFF } t) ∧
    (∃ v t, Popped 8 v (poke 0x8000 8 0x3000 long) t) ∧ long.codeAt (truncTo .b64 (long.nextPc + relDisp (.r8 0xFE))) = true ∧
    real.codeAt (truncTo .b32 (real.nextPc + relDisp (.r32 0xFFFF))) = false :=
  ⟨⟨_, _, rfl⟩, by decide +kernel, by decide +kernel, by decide +kernel, by decide +kernel,
    pushed_of (by decide +kernel), pushed_of (by decide +kernel),
    (poppedAll_of (l := [0x3000]) (by decide +kernel)).elim fun _ h => ⟨_, _, h.1⟩, by decide +kernel, by decide +kernel⟩

/-- Real mode: a target at the CS limit. -/
theorem test_witness_FarTransfers_real : FarForm real .b16 (.jmpFarPtr .b16 0xFFFF 0x1234) (.callFarPtr .b16 0xFFFF 0x1234)
      0x1234 ((0xFFFF#32).setWidth 64) real ∧
    real.paragraphs = true ∧ ((0xFFFF#32).setWidth 64).toNat ≤ real.cs.limit.toNat ∧
    ∃ u, PushedAll 2 [real.cs.sel.toNat, (truncTo .b16 real.nextPc).toNat] real u :=
  ⟨.ptr _ _ _ (by decide +kernel), by decide +kernel, by decide +kernel, pushedAll_of (by decide +kernel)⟩

/-- 64-bit mode, through memory, to the 64-bit code segment. -/
theorem test_witness_FarTransfers_long :
    let s := poke 0x2008 2 8 long
    ∃ t raw u, FarForm s .b64 (.jmpFarMem .b64 (.mem m0)) (.callFarMem .b64 (.mem m0)) 8 0 t ∧ s.paragraphs = false ∧
      (8 : BitVec 16).extractLsb' 2 14 ≠ 0 ∧ readDesc 8 false t = .ok (raw, u) ∧ codeDescriptor raw = true ∧
      targetOk s.lma raw 0 = true ∧
      (if raw.getLsbD 42 then descLevel raw ≤ s.cpl else descLevel raw = s.cpl ∧ ((8 : BitVec 16).extractLsb' 0 2).toNat ≤ s.cpl) ∧
      ∃ v, PushedAll 8 [s.cs.sel.toNat, (truncTo .b64 s.nextPc).toNat] u v := by
  intro s
  let r1 := readMem m0.seg (s.effAddr m0) 8
  let t := after r1 s
  let r2 := readMem m0.seg (s.effAddr m0 + BitVec.ofNat 64 8) 2
  let u := after r2 t
  have h1 : r1 s = .ok (0, t) := by
    have := run_ok (m := r1) (s := s) 0 (by decide +kernel)
    rwa [show value 0 r1 s = 0 by decide +kernel] at this
  have h2 : r2 t = .ok (8, u) := by
    have := run_ok (m := r2) (s := t) 0 (by decide +kernel)
    rwa [show value 0 r2 t = 8 by decide +kernel] at this
  exact ⟨u, _, _, .mem .b64 m0 0 8 t u h1 h2, by decide +kernel, by decide,
    run_ok 0 (by decide +kernel), by decide +kernel, by decide +kernel, by decide +kernel, pushedAll_of (by decide +kernel)⟩

/-- A load of CS that enters 64-bit mode, and one that stays in compatibility mode. -/
theorem test_witness_FarTransfers_load : compat.is64 = false ∧
    ({ compat with cs := descSeg 0x00209B0000000000 8 } : State).is64 = true ∧
    ({ compat with cs := descSeg 0x00CF9B000000FFFF 0x20 } : State).is64 = false := by decide +kernel

/-- Protected mode, through a pointer: to the flat code segment, and to the null selector. -/
theorem test_witness_FarTransfers_prot :
    FarForm prot .b32 (.jmpFarPtr .b32 0 0x20) (.callFarPtr .b32 0 0x20) 0x20 0 prot ∧
    FarForm prot .b32 (.jmpFarPtr .b32 0 3) (.callFarPtr .b32 0 3) 3 0 prot ∧ prot.paragraphs = false ∧
    (3 : BitVec 16).extractLsb' 2 14 = 0 ∧
    ∃ raw u, readDesc 0x20 false prot = .ok (raw, u) ∧ codeDescriptor raw = true ∧ targetOk prot.lma raw 0 = true ∧
      descLevel raw = prot.cpl :=
  ⟨.ptr _ 0 _ (by decide +kernel), .ptr _ 0 _ (by decide +kernel), by decide +kernel, by decide, _, _,
    run_ok 0 (by decide +kernel), by decide +kernel, by decide +kernel, by decide +kernel⟩

/-- What a call gate at `sel` needs, in `s` after the operand has been read. -/
def gateOk (s : State) (sel : BitVec 16) : Bool :=
  let gate := value 0 (readDesc sel false) s
  let a := after (readDesc sel false) s
  let hi := value 0 (readDescHigh sel) a
  let b := after (readDescHigh sel) a
  let raw := value 0 (readDesc (gate.extractLsb' 16 16) false) b
  (readDesc sel false s).toBool && gate.extractLsb' 40 5 == 0xC && (readDescHigh sel a).toBool &&
    decide (s.cpl ≤ descLevel gate) && decide ((sel.extractLsb' 0 2).toNat ≤ descLevel gate) && hi.extractLsb' 40 5 == 0 &&
    gate.getLsbD 47 && gate.extractLsb' 18 14 != 0 && (readDesc (gate.extractLsb' 16 16) false b).toBool &&
    codeDescriptor raw && raw.getLsbD 53 && !raw.getLsbD 54 && decide (descLevel raw ≤ s.cpl) && s.lma &&
    canonical (hi.extractLsb' 0 32 ++ gate.extractLsb' 48 16 ++ gate.extractLsb' 0 16)

/-- The far operand is in memory, and the gate leads to the same level. -/
theorem test_witness_CallGate_same : gateOk compat 0x68 = true ∧ compat.lma = true ∧ compat.cpl = 0 ∧
    canPush 8 [compat.cs.sel.toNat, compat.nextPc.toNat] compat = true ∧
    FarForm compat .b32 (.jmpFarPtr .b32 0 0x68) (.callFarPtr .b32 0 0x68) 0x68 0 compat :=
  ⟨by decide +kernel, by decide +kernel, by decide +kernel, by decide +kernel, .ptr _ 0 _ (by decide +kernel)⟩

/-- Level 3 in compatibility mode. -/
def compat3 : State := { compat with cs := descSeg 0x00CFFB000000FFFF 0x23, ss := descSeg 0x00CFF3000000FFFF 0x2B }

/-- The gate leads from level 3 to level 0, whose stack pointer the TSS has. -/
theorem test_witness_CallGate_inner : gateOk compat3 0x6B = true ∧ compat3.cpl = 3 ∧
    (tssStack 4 false compat3).toBool = true ∧
    canStack false (value 0 (tssStack 4 false) compat3) [compat3.ss.sel.setWidth 64, truncTo .b32 (compat3.get rSP),
      compat3.cs.sel.setWidth 64, compat3.nextPc] compat3 = true ∧
    FarForm compat3 .b32 (.jmpFarPtr .b32 0 0x6B) (.callFarPtr .b32 0 0x6B) 0x6B 0 compat3 :=
  ⟨by decide +kernel, by decide +kernel, by decide +kernel, by decide +kernel, .ptr _ 0 _ (by decide +kernel)⟩

/-- The last stack pointer inside the TSS, the first one outside it, and one at an address that is not canonical. -/
theorem test_witness_CallGate_stack : let far : State := { long with tr := { long.tr with base := 0x7FFFFFFFFFFC } }
    0x160 + 7 ≤ long.tr.limit.toNat ∧ canonicalRange (long.tr.base + BitVec.ofNat 64 0x160) 8 = true ∧
    (sysRead (long.tr.base + BitVec.ofNat 64 0x160) 8 long).toBool = true ∧ long.tr.limit.toNat < 0x161 + 7 ∧
    canonicalRange (far.tr.base + BitVec.ofNat 64 4) 8 = false := by decide +kernel

/-- A stack that a far return to level 3 finds: RIP, CS, RSP, SS. -/
def outer : State := poke 0x8000 8 0x1000 <| poke 0x8008 8 0x33 <| poke 0x8010 8 0x9000 <| poke 0x8018 8 0x2B long

/-- Real mode; a return within level 0; a return to level 3 with a stack segment there. -/
theorem test_witness_FarReturn : ((readMem .ss 0x8000 2 real).toBool && (readMem .ss 0x8002 2 real).toBool) = true ∧
    real.paragraphs = true ∧
    (let s := poke 0x8008 8 8 long;
      value 0 (readMem .ss 0x8000 8) s = 0 ∧ value 0 (readMem .ss 0x8008 8) s = 8 ∧ (readDesc 8 false s).toBool = true ∧
      codeDescriptor (value 0 (readDesc 8 false) s) = true ∧ targetOk s.lma (value 0 (readDesc 8 false) s) 0 = true ∧
      descLevel (value 0 (readDesc 8 false) s) = 8 % 4 ∧ 8 % 4 = s.cpl) ∧
    value 0 (readMem .ss 0x8000 8) outer = 0x1000 ∧ value 0 (readMem .ss 0x8008 8) outer = 0x33 ∧
    codeDescriptor (value 0 (readDesc 0x33 false) outer) = true ∧
    targetOk outer.lma (value 0 (readDesc 0x33 false) outer) 0x1000 = true ∧
    descLevel (value 0 (readDesc 0x33 false) outer) = 0x33 % 4 ∧ outer.cpl < 0x33 % 4 ∧
    (readMem .ss 0x8010 8 outer).toBool = true ∧ value 0 (readMem .ss 0x8018 8) outer = 0x2B ∧
    (loadStackAt 0x2B 3 outer).toBool = true := by decide +kernel

/-- A far return to 64-bit code of level 1 that finds a null SS there. -/
theorem test_witness_FarReturn_null :
    let s := poke 0x10088 8 0x0020BB0000000000 (poke 0x8000 8 0x1000 (poke 0x8008 8 0x89 (poke 0x8010 8 0x9000 long)))
    let raw := value 0 (readDesc 0x89 false) s
    value 0 (readMem .ss 0x8000 8) s = 0x1000 ∧ value 0 (readMem .ss 0x8008 8) s = 0x89 ∧ (readDesc 0x89 false s).toBool = true ∧
    codeDescriptor raw = true ∧ targetOk s.lma raw 0x1000 = true ∧ descLevel raw = 0x89 % 4 ∧ s.cpl < 0x89 % 4 ∧
    (readMem .ss 0x8010 8 s).toBool = true ∧ (readMem .ss 0x8018 8 s).toBool = true ∧
    (BitVec.ofNat 16 (value 1 (readMem .ss 0x8018 8) s)).extractLsb' 2 14 = 0 ∧ raw.getLsbD 53 = true ∧ 0x89 % 4 ≠ 3 := by
  decide +kernel

/-- A frame pointer just above FFFFH in real-address mode with a 32-bit stack, and the last one below it. -/
theorem test_witness_Frames_leave : let s := fun v => reg 5 v { real with ss := { real.ss with db := true } }
    (s 0x10000).paragraphs = true ∧ 0xFFFF < (s 0x10000).bp.toNat ∧ ¬ 0xFFFF < (s 0xFFFC).bp.toNat ∧
    (∃ v t, Popped 2 v ((s 0xFFFC).setSp (s 0xFFFC).bp) t) := by
  intro s
  refine ⟨by decide +kernel, by decide +kernel, by decide +kernel, ?_⟩
  exact (poppedAll_of (n := 2) (l := [0]) (by decide +kernel)).elim fun _ h => ⟨_, _, h.1⟩

/-- ENTER at level 0, 1 and 2, LEAVE, BOUND. -/
theorem test_witness_Frames :
    let s := reg 5 0x9000 long
    let t := pushed 8 (s.readReg .b64 rBP).toNat s
    Pushed 8 (s.readReg .b64 rBP).toNat s t ∧ (1 : Byte).toNat % 32 - 1 = 0 ∧ FrameCopies 8 0 t t ∧
    (∃ v, Pushed 8 t.sp.toNat t v) ∧ (2 : Byte).toNat % 32 - 1 = 1 ∧
    (∃ u v, FrameCopies 8 1 t u ∧ Pushed 8 t.sp.toNat u v) ∧ (∃ v w, Popped 8 v (s.setSp s.bp) w) ∧
    (∃ lo hi u v, readMem .ds 0x2000 4 compat = .ok (lo, u) ∧ readMem .ds 0x2004 4 u = .ok (hi, v)) ∧
    compat.is64 = false := by
  intro s t
  refine ⟨pushed_at (by decide +kernel), by decide, rfl, pushed_of (by decide +kernel), by decide, ?_, ?_, ?_, by decide +kernel⟩
  · let a := t.setBp (t.bp - 8)
    let r := readMem .ss a.bp 8
    exact ⟨_, pushed 8 t.sp.toNat (pushed 8 (value 0 r a) (after r a)), ⟨_, _, _, run_ok 0 (by decide +kernel),
      pushed_at (by decide +kernel), rfl⟩, pushed_at (by decide +kernel)⟩
  · exact (poppedAll_of (n := 8) (l := [0]) (by decide +kernel)).elim fun _ h => ⟨_, _, h.1⟩
  · exact ⟨_, _, _, _, run_ok 0 (by decide +kernel), run_ok 0 (by decide +kernel)⟩

/-- The new stack of a delivery: the TSS has it, or it is the old one. -/
def entryStack (ev : Event) (s : State) (ist newCpl : Nat) : M Word :=
  if ist = 0 ∧ newCpl = s.cpl then readS fun t => if t.is64 then s.get rSP else truncTo .b32 (s.get rSP)
  else tssStack (if ist = 0 then 4 + newCpl * 8 else 0x24 + (ist - 1) * 8)
    (decide (ev.kind ≠ .software))

/-- The parts of a gate and of its code segment that a delivery reads. -/
structure Entry where
  lo : Nat
  hi : Nat
  raw : BitVec 64
  after : State

/-- What a delivery reads. -/
def entry (ev : Event) (s : State) : Entry :=
  let a := s.idtr.base + BitVec.ofNat 64 (ev.vector.toNat * 16)
  let t := after (sysRead a 8) s
  let lo := value 0 (sysRead a 8) s
  let u := after (sysRead (a + 8) 8) t
  let d := readDesc ((BitVec.ofNat 64 lo).extractLsb' 16 16) (decide (ev.kind ≠ .software))
  { lo := lo, hi := value 0 (sysRead (a + 8) 8) t, raw := value 0 d u, after := after d u }

/-- What makes the delivery succeed, in a form that can be evaluated, where the stack does not change. -/
def entryOk (ev : Event) (s : State) : Prop :=
  let a := s.idtr.base + BitVec.ofNat 64 (ev.vector.toNat * 16)
  let e := entry ev s
  let lo := BitVec.ofNat 64 e.lo
  let hi := BitVec.ofNat 64 e.hi
  let t := after (sysRead a 8) s
  let u := after (sysRead (a + 8) 8) t
  let off : Word := hi.extractLsb' 0 32 ++ lo.extractLsb' 48 16 ++ lo.extractLsb' 0 16
  s.lma = true ∧ ev.vector.toNat * 16 + 15 ≤ s.idtr.limit.toNat ∧ canonicalRange a 16 = true ∧
  (sysRead a 8 s).toBool = true ∧ (sysRead (a + 8) 8 t).toBool = true ∧
  (readDesc (lo.extractLsb' 16 16) (decide (ev.kind ≠ .software)) u).toBool = true ∧
  (lo.extractLsb' 40 5 = 0xE ∨ lo.extractLsb' 40 5 = 0xF) ∧ lo.getLsbD 47 = true ∧
  (ev.kind = .software → s.cpl ≤ (lo.extractLsb' 45 2).toNat) ∧ selNull (lo.extractLsb' 16 16) = false ∧
  (e.raw.getLsbD 44 = true ∧ e.raw.getLsbD 43 = true) ∧ (e.raw.getLsbD 53 = true ∧ e.raw.getLsbD 54 = false) ∧
  (e.raw.extractLsb' 45 2).toNat ≤ s.cpl ∧ e.raw.getLsbD 47 = true ∧ e.raw.getLsbD 42 = false ∧
  lo.extractLsb' 32 3 = 0 ∧ canonical off = true

theorem gate64_same {ev : Event} {s : State} (h : entryOk ev s) (hc : (entry ev s).raw.extractLsb' 45 2 = BitVec.ofNat 2 s.cpl)
    (hl : s.cpl < 4) :
    Gate64 ev s (BitVec.ofNat 64 (entry ev s).lo) (BitVec.ofNat 64 (entry ev s).hi) (entry ev s).raw s.cpl
      (if s.is64 then s.get rSP else truncTo .b32 (s.get rSP))
      ((BitVec.ofNat 64 (entry ev s).hi).extractLsb' 0 32 ++ (BitVec.ofNat 64 (entry ev s).lo).extractLsb' 48 16 ++
        (BitVec.ofNat 64 (entry ev s).lo).extractLsb' 0 16) (entry ev s).after := by
  obtain ⟨h1, h2, h3, h4, h5, h6, h7, h8, h9, h10, h11, h12, h13, h14, h15, h16, h17⟩ := h
  refine ⟨h1, h2, h3, ⟨_, _, _, _, _, _, run_ok 0 h4, run_ok 0 h5, run_ok 0 h6, rfl, rfl, rfl, ?_⟩, h7, h8, h9, h10, h11, h12,
    h13, h14, ?_, rfl, h17⟩
  · rw [if_pos ⟨h16, rfl⟩]; exact ⟨rfl, rfl⟩
  · rw [h15, if_neg (by decide), hc, BitVec.toNat_ofNat, Nat.mod_eq_of_lt hl]

theorem gate64_inner {ev : Event} {s : State} (h : entryOk ev s)
    (hc : (entry ev s).raw.extractLsb' 45 2 = 0 ∧ s.cpl ≠ 0)
    (ht : (tssStack 4 (decide (ev.kind ≠ .software)) (entry ev s).after).toBool = true) :
    Gate64 ev s (BitVec.ofNat 64 (entry ev s).lo) (BitVec.ofNat 64 (entry ev s).hi) (entry ev s).raw 0
      (value 0 (tssStack 4 (decide (ev.kind ≠ .software))) (entry ev s).after)
      ((BitVec.ofNat 64 (entry ev s).hi).extractLsb' 0 32 ++ (BitVec.ofNat 64 (entry ev s).lo).extractLsb' 48 16 ++
        (BitVec.ofNat 64 (entry ev s).lo).extractLsb' 0 16)
      (after (tssStack 4 (decide (ev.kind ≠ .software))) (entry ev s).after) := by
  obtain ⟨h1, h2, h3, h4, h5, h6, h7, h8, h9, h10, h11, h12, h13, h14, h15, h16, h17⟩ := h
  refine ⟨h1, h2, h3, ⟨_, _, _, _, _, _, run_ok 0 h4, run_ok 0 h5, run_ok 0 h6, rfl, rfl, rfl, ?_⟩, h7, h8, h9, h10, h11, h12,
    h13, h14, ?_, rfl, h17⟩
  · rw [if_neg fun e => hc.2 e.2.symm, if_pos h16]; exact run_ok 0 ht
  · rw [h15, if_neg (by decide), hc.1]; rfl

/-- Events taken at level 0: INT 80H, INT 3 and #UD in 64-bit mode, INTO with OF set in compatibility mode. -/
theorem test_witness_EntryLong_same : ∀ p ∈ [(softInt 0x80, long), (softInt 3, long), (udFault, long),
    (softInt 4, { compat with rflags := 0x802 })], ∃ lo hi raw sp off u v, Gate64 p.1 p.2 lo hi raw p.2.cpl sp off u ∧
      Stacked false (sp &&& ~~~15) (frameItems p.1 p.2 (if p.1.kind = .software then p.2.nextPc else p.2.rip)) u v ∧
      p.1.kind ≠ .abort ∧ p.1.cr2 = none := by
  intro p hp
  simp only [List.mem_cons, List.not_mem_nil, or_false] at hp
  obtain rfl | rfl | rfl | rfl := hp <;>
    exact (stacked_of (by decide +kernel)).elim fun v h => ⟨_, _, _, _, _, _, v,
      gate64_same (by unfold entryOk; decide +kernel) (by decide +kernel) (by decide +kernel), h, by decide, rfl⟩

/-- INT 80H at level 3, to level 0 on the stack of the TSS. -/
theorem test_witness_EntryLong_inner : ∃ lo hi raw sp off u v, Gate64 (softInt 0x80) (user long) lo hi raw 0 sp off u ∧
    Stacked false (sp &&& ~~~15) (frameItems (softInt 0x80) (user long) (user long).nextPc) u v :=
  (stacked_of (by decide +kernel)).elim fun v h => ⟨_, _, _, _, _, _, v,
    gate64_inner (by unfold entryOk; decide +kernel) (by decide +kernel) (by decide +kernel), h⟩

/-- Reading a run's outcome: whether it raises the event. -/
def raises (m : M Unit) (s : State) (e : Event) : Bool :=
  match m s with
  | .error (.raised x) => decide (x = e)
  | _ => false

theorem raises_ok {m : M Unit} {s : State} {e : Event} (h : raises m s e = true) : m s = .error (.raised e) := by
  unfold raises at h
  split at h
  · next x hx => rw [hx, of_decide_eq_true h]
  · cases h

/-- 64-bit mode with gates at the vectors 8, 13 and 14 and a stack above the page tables, which a byte ends. -/
def gates : State :=
  let g := 0x58E00000800F0
  reg 4 0x100000 (poke 0x30080 8 g (poke 0x300D0 8 g (poke 0x300E0 8 g (poke 0x80000 1 1 long))))

/-- A page fault: its address is in CR2 when the gate is read. -/
theorem test_witness_EntryLong_page : let ev : Event := { vector := 14, kind := .fault, code := some 2, cr2 := some 0x5000 }
    ∃ t, EnteredLong ev gates.rip { gates with cr2 := 0x5000 } t := by
  intro ev
  let s : State := { gates with cr2 := 0x5000 }
  have g := gate64_same (ev := ev) (s := s) (by unfold entryOk; decide +kernel) (by decide +kernel) (by decide +kernel)
  exact (stacked_of (by decide +kernel)).elim fun v h => ⟨_, _, _, _, _, _, _, _, v, g, h, rfl⟩

/-- An absent #NM gate: the #GP of it is delivered in its turn. -/
theorem test_witness_EntryLong_serial : deliverOnce nmFault true gates.rip gates = .error (.raised (.coded 13 0x3B)) ∧
    ∃ t, EnteredLong (.coded 13 0x3B) gates.rip gates t := by
  refine ⟨raises_ok (by decide +kernel), ?_⟩
  have g := gate64_same (ev := .coded 13 0x3B) (s := gates) (by unfold entryOk; decide +kernel) (by decide +kernel) (by decide +kernel)
  exact (stacked_of (by decide +kernel)).elim fun v h => ⟨_, _, _, _, _, _, _, _, v, g, h, rfl⟩

/-- The error code of an absent gate: EXT is 0 for a software interrupt and 1 for an external one (V351). -/
theorem test_witness_EntryLong_ext : deliverOnce (softInt 0x81) false gates.nextPc gates = .error (.raised (.coded 13 0x40A)) ∧
    deliverOnce { softInt 0x81 with kind := .external } true gates.rip gates = .error (.raised (.coded 13 0x40B)) ∧
    (.coded 13 0x40A : Event).kind = .fault := ⟨raises_ok (by decide +kernel), raises_ok (by decide +kernel), rfl⟩

/-- A #GP whose gate is absent: a double fault, which saves an open RIP; without a gate of its own, shutdown. -/
theorem test_witness_EntryLong_double :
    let s : State := { gates with idtr := { gates.idtr with limit := 0xCF } }
    let s3 : State := { s with freeCount := s.freeCount + 1 }
    let saved := Config.freeValue s.freeCount
    let none : State := { s3 with idtr := { gates.idtr with limit := 0x7F } }
    deliverOnce gp0 true s.rip s = .error (.raised (.coded 13 0x6B)) ∧ (∃ t, EnteredLong dfAbort saved s3 t) ∧
    deliverOnce dfAbort true saved none = .error (.raised (.coded 13 0x43)) := by
  intro s s3 saved none
  refine ⟨raises_ok (by decide +kernel), ?_, raises_ok (by decide +kernel)⟩
  have g := gate64_same (ev := dfAbort) (s := s3) (by unfold entryOk; decide +kernel) (by decide +kernel) (by decide +kernel)
  exact (stacked_of (by decide +kernel)).elim fun v h => ⟨_, _, _, _, _, _, _, _, v, g, h, rfl⟩

theorem test_witness_EntryReal : real.mode = .real ∧ (softInt 255).vector.toNat * 4 + 3 ≤ real.idtr.limit.toNat ∧
    (∃ v t, sysRead (real.idtr.base + BitVec.ofNat 64 ((softInt 255).vector.toNat * 4)) 4 real = .ok (v, t) ∧
      ∃ u, PushedAll 2 [real.rflags.toNat % 65536, real.cs.sel.toNat, real.nextPc.toNat % 65536] t u) :=
  ⟨by decide +kernel, by decide +kernel, _, _, run_ok 0 (by decide +kernel), pushedAll_of (by decide +kernel)⟩

/-- Protected mode with a 32-bit TSS, an interrupt gate at vector 20H and a trap gate of 16 bits at vector 21H. -/
def protGates : State :=
  let p : State := { prot with tr := { prot.tr with typ := 0xB } }
  poke 0x20004 4 0x9000 (poke 0x20008 2 0x10 (poke 0x30100 8 0x0000EE0000201234 (poke 0x30108 8 0x0000E70000205678 p)))

/-- The same at level 3. -/
def protUser : State :=
  { protGates with cs := descSeg 0x00CFFB000000FFFF 0x23, ss := descSeg 0x00CFF3000000FFFF 0x2B }

/-- At level 3 with alignment checking and a stack at 8002H: no gate for #GP, a 32-bit gate for #DF, whose first item is not
aligned, and a 16-bit gate for #AC, whose items are: a double fault, and the #AC of its delivery in its place. -/
theorem test_witness_EntryLong_serial_double :
    let s : State := reg 4 0x8002 (poke 0x30040 8 0x00008E0000300000 (poke 0x30088 8 0x0000870000300000
      { protUser with cr0 := 0x40033, rflags := 0x40202 }))
    let s3 : State := { s with freeCount := s.freeCount + 1 }
    deliverOnce gp0 true s.rip s = .error (.raised (.coded 13 0x6B)) ∧
    deliverOnce dfAbort true (Config.freeValue s.freeCount) s3 = .error (.raised ac0) ∧
    ac0.vector.toNat = 17 ∧ ∃ t, deliverOnce ac0 true s.rip s3 = .ok ((), t) :=
  ⟨raises_ok (by decide +kernel), raises_ok (by decide +kernel), rfl, _, run_unit (by decide +kernel)⟩

/-- A gate of protected mode, in a form that can be evaluated. -/
theorem gateProt_of {ev : Event} {s : State} (d : State → BitVec 64 → M (BitVec 64))
    (hd : d = fun _ g => readDesc (g.extractLsb' 16 16) (decide (ev.kind ≠ .software))) :
    let r := sysRead (s.idtr.base + BitVec.ofNat 64 (ev.vector.toNat * 8)) 8
    let gate := BitVec.ofNat 64 (value 0 r s)
    let a := after r s
    let raw := value 0 (d s gate) a
    let newCpl := if raw.getLsbD 42 then s.cpl else descLevel raw
    let off : Word := ((if gate.getLsbD 43 then gate.extractLsb' 48 16 else 0#16) ++ gate.extractLsb' 0 16).setWidth 64
    (s.mode = .prot ∧ ev.vector.toNat * 8 + 7 ≤ s.idtr.limit.toNat ∧ (r s).toBool = true ∧ (d s gate a).toBool = true ∧
      (gate.extractLsb' 40 5).toNat ∈ [6, 7, 0xE, 0xF] ∧ gate.getLsbD 47 = true ∧
      (ev.kind = .software → s.cpl ≤ descLevel gate) ∧ selNull (gate.extractLsb' 16 16) = false ∧ codeDescriptor raw = true ∧
      descLevel raw ≤ s.cpl ∧ off.toNat ≤ (descSeg raw 0).limit.toNat) →
    GateProt ev s gate raw newCpl off (after (d s gate) a) := by
  subst hd
  intro r gate a raw newCpl off ⟨h1, h2, h3, h4, h5, h6, h7, h8, h9, h10, h11⟩
  exact ⟨h1, h2, ⟨_, _, run_ok 0 h3, rfl, run_ok 0 h4⟩, h5, h6, h7, h8, h9, h10, rfl, rfl, h11⟩

/-- INT 20H and INT 21H at level 0. -/
theorem test_witness_EntryReal_same : ∀ n ∈ [(0x20 : Byte), 0x21], ∃ gate raw off u,
    GateProt (softInt n) protGates gate raw protGates.cpl off u := by
  intro n hn
  simp only [List.mem_cons, List.not_mem_nil, or_false] at hn
  obtain rfl | rfl := hn <;> exact ⟨_, _, _, _, gateProt_of _ rfl (by decide +kernel)⟩

/-- INT 20H at level 3, onto the stack of the TSS. -/
theorem test_witness_EntryReal_inner : ∃ gate raw off u v, GateProt (softInt 0x20) protUser gate raw 0 off u ∧
    0 < protUser.cpl ∧ LegacyStack 0 false u v ∧
    ∃ w, PushedAll 4 [protUser.ss.sel.toNat, (protUser.get rSP).toNat, protUser.rflags.toNat, protUser.cs.sel.toNat,
      protUser.nextPc.toNat] { v with cs := { descSeg 0x00CF9B000000FFFF 0 with sel := 0x20 } } w := by
  refine ⟨_, _, _, _, _, gateProt_of _ rfl (by decide +kernel), by decide +kernel,
    ⟨by decide +kernel, _, _, _, _, _, _, run_ok 0 (by decide +kernel), run_ok 0 (by decide +kernel), by decide +kernel, by decide +kernel,
      run_ok 0 (by decide +kernel), by decide +kernel, by decide +kernel, by decide +kernel, by decide +kernel, by decide +kernel,
      by decide +kernel, rfl⟩, pushedAll_of (by decide +kernel)⟩

theorem test_witness_InterruptReturn_real : ∃ t, PoppedAll 2 [0xFFFF, 0x1234, 0] (poke 0x8000 2 0xFFFF <|
    poke 0x8002 2 0x1234 real) t ∧ real.mode = .real ∧ 0xFFFF ≤ real.cs.limit.toNat :=
  ⟨_, poppedAll_of (by decide +kernel), by decide +kernel, by decide +kernel⟩

theorem test_witness_InterruptReturn_same : ∃ t raw u, PoppedAll 4 [0x1000, 0x20, 0x202] frame32 t ∧
    frame32.paragraphs = false ∧ frame32.flag fNT = false ∧ frame32.lma = true ∧ readDesc 0x20 false t = .ok (raw, u) ∧
    codeDescriptor raw = true ∧ targetOk true raw 0x1000 = true ∧ descLevel raw = 0 ∧ frame32.cpl = 0 ∧
    frame32.is64 = false :=
  ⟨_, _, _, poppedAll_of (by decide +kernel), by decide +kernel, by decide +kernel, by decide +kernel,
    run_ok 0 (by decide +kernel), by decide +kernel, by decide +kernel, by decide +kernel, by decide +kernel, by decide +kernel⟩

theorem test_witness_InterruptReturn_outer : ∃ t raw u v w, PoppedAll 8 [0x1000, 0x33, 0x202] frame t ∧
    frame.paragraphs = false ∧ frame.flag fNT = false ∧ frame.lma = true ∧ readDesc 0x33 false t = .ok (raw, u) ∧
    codeDescriptor raw = true ∧ targetOk true raw 0x1000 = true ∧ descLevel raw = 0x33 % 4 ∧ frame.cpl < 0x33 % 4 ∧
    frame.is64 = true ∧ PoppedAll 8 [0x9000, 0x2B] u v ∧ iretStack (descSeg raw 0x33) 0x2B 0x33 v = .ok ((), w) :=
  ⟨_, _, _, _, _, poppedAll_of (by decide +kernel), by decide +kernel, by decide +kernel, by decide +kernel,
    run_ok 0 (by decide +kernel), by decide +kernel, by decide +kernel, by decide +kernel, by decide +kernel, by decide +kernel,
    poppedAll_of (by decide +kernel), run_unit (by decide +kernel)⟩

theorem test_witness_InterruptReturn_nested : ({ long with rflags := 0x4202 } : State).flag fNT = true ∧ long.lma = true ∧
    long.paragraphs = false ∧ (0 : BitVec 16).extractLsb' 2 14 = 0 ∧ (0x2B : BitVec 16).extractLsb' 2 14 ≠ 0 ∧
    (readDesc 0x2B false long).toBool = true := by decide +kernel

/-- The returns that are refused: to a nested task, and to virtual-8086 mode. -/
theorem test_witness_InterruptReturn_refused : let s := poke 0x8000 4 0x1000 (poke 0x8004 4 0x20 (poke 0x8008 4 0x20202 prot))
    s.paragraphs = false ∧ s.lma = false ∧ s.flag fNT = false ∧ s.cpl = 0 ∧ (0x20202 : Nat).testBit 17 = true ∧
    (∃ t, PoppedAll 4 [0x1000, 0x20, 0x20202] s t) ∧ ({ s with rflags := 0x4202 } : State).flag fNT = true :=
  ⟨by decide +kernel, by decide +kernel, by decide +kernel, by decide +kernel, by decide +kernel,
    ⟨_, poppedAll_of (by decide +kernel)⟩, by decide +kernel⟩

/-- A count of 1 under REP, the last iteration; one of 0; no prefix. -/
theorem test_witness_StringMove : (reg 1 1 long).readReg .b64 rCX ≠ 0 ∧ long.readReg .b32 rCX = 0 ∧
    (∃ x t sp u, readMem .ds (asizeTrunc .a64 (long.get rSI)) 4 long = .ok (x, t) ∧
      resolve .es (asizeTrunc .a64 (long.get rDI)) 4 true (.natural 4) t = .ok (sp, u)) ∧ long.memOk = true :=
  ⟨by decide +kernel, by decide +kernel, ⟨_, _, _, _, run_ok 0 (by decide +kernel), run_ok span0 (by decide +kernel)⟩,
    (by decide +kernel)⟩

theorem test_witness_StringCompareAndCount : (∃ x t y u, readMem .ds (asizeTrunc .a16 (real.get rSI)) 1 real = .ok (x, t) ∧
      readMem .es (asizeTrunc .a16 (real.get rDI)) 1 t = .ok (y, u)) ∧ Rep.repne ≠ .none ∧ real.readReg .b16 rCX = 0 :=
  ⟨⟨_, _, _, _, run_ok 0 (by decide +kernel), run_ok 0 (by decide +kernel)⟩, by decide, by decide +kernel⟩

/-- A TSS whose I/O map is reached through a canonical address, and one whose map base is at an address that is not. -/
theorem test_witness_PortIo_canonical : let s := user long
    let far : State := { s with tr := { s.tr with base := 0x7FFFFFFFFF99 } }
    s.lma = true ∧ canonicalRange (s.tr.base + 0x66) 2 = true ∧
    canonicalRange (s.tr.base + BitVec.ofNat 64 (0x68 + 0x7F7 / 8)) 2 = true ∧ far.iopl < far.cpl ∧
    canonicalRange (far.tr.base + 0x66) 2 = false := by decide +kernel

/-- At level 0, and at level 3 where the ports' bits are the last ones inside the TSS and just outside it. -/
theorem test_witness_PortIo : long.cpl ≤ long.iopl ∧ (ioPermission 0x80 4 long).toBool = true ∧ (user long).iopl < (user long).cpl ∧
    (ioPermission 0x7F7 1 (user long)).toBool = true ∧ value 0 (sysRead ((user long).tr.base + 0x66) 2) (user long) = 0x68 ∧
    (sysRead ((user long).tr.base + BitVec.ofNat 64 (0x68 + 0x7F7 / 8)) 2 (user long)).toBool = true ∧
    0x68 + 0x7F7 / 8 + 1 ≤ (user long).tr.limit.toNat ∧ (user long).tr.limit.toNat < 0x68 + 0x7F8 / 8 + 1 ∧
    (user long).mode ≠ .real ∧ (readMem .ds 0 1 long).toBool = true ∧ (resolve .es 0 4 true (.natural 4) long).toBool = true ∧
    real.mode = .real := by
  decide +kernel

/-- A 16-bit and a 32-bit write, and one of AH, in a register of ones (R34). -/
theorem test_register_writes : let s := reg rAX 0xFFFFFFFFFFFFFFFF long
    ((s.writeReg .b16 rAX 0x1234).get rAX, (s.writeReg .b32 rAX 0x12345678).get rAX,
      (s.writeGReg .b8 (.high 0) 0x12).get rAX, (s.writeGReg .b8 (.high 0) 0x12).readGReg .b8 (.high 0)) =
      (0xFFFFFFFFFFFF1234, 0x12345678, 0xFFFFFFFFFFFF12FF, 0x12) := by decide +kernel

theorem test_witness_Moves : (∃ x put, Destination long .b64 (.mem m0) x put) ∧ long.memOk = true ∧
    (∃ v t, readRmb .b8 (.reg (.high 3)) long = .ok (v, t)) ∧ (∃ v t, readRm .b32 (.mem m0) long = .ok (v, t)) ∧
    (∃ v u, readMem .ds (asizeTrunc .a32 0x2000) 8 long = .ok (v, u)) ∧
    (∃ sp u, resolve .ds (asizeTrunc .a32 0x2000) 8 true (.natural 8) long = .ok (sp, u)) ∧
    (∃ v t, readMem .ds (asizeTrunc .a64 (long.get rBX + BitVec.ofNat 64 (long.readReg .b8 rAX).toNat)) 1 long = .ok (v, t)) := by
  refine ⟨?_, (by decide +kernel), ⟨_, _, rfl⟩, run_ends (by decide +kernel), run_ends (by decide +kernel),
    run_ends (by decide +kernel), run_ends (by decide +kernel)⟩
  obtain ⟨sp, u, h⟩ := run_ends (m := resolveMem m0 Width.b64.bytes true (.natural 8)) (s := long) (by decide +kernel)
  exact ⟨_, _, .mem m0 sp u h⟩

/-- A memory source that reads, and one whose page is not present. -/
theorem test_witness_Moves_source : (readMem .ds (long.effAddr m0) 8 long).toBool = true ∧
    (readMem .ds (long.effAddr (at_ .a32 0x200000)) 8 long).toBool = false := by decide +kernel

theorem test_witness_SegmentMoves : (∃ u, loadSegment .ss 0x10 long = .ok ((), u)) ∧
    (reg 3 0x10 long).readReg .b16 3 = 0x10 ∧
    (∃ off t sel u, readMem .ds 0x2000 8 long = .ok (off, t) ∧ readMem .ds 0x2008 2 t = .ok (sel, u)) ∧
    (∃ u, loadSegment .ds 0x10 compat = .ok ((), u)) ∧ long.is64 = true ∧ compat.is64 = false :=
  ⟨⟨_, run_unit (by decide +kernel)⟩, by decide +kernel, ⟨_, _, _, _, run_ok 0 (by decide +kernel), run_ok 0 (by decide +kernel)⟩,
    ⟨_, run_unit (by decide +kernel)⟩, by decide +kernel, by decide +kernel⟩

/-- Descriptors in IA-32e mode: one at the limit of the GDT and one beyond it, one of the LDT, which is unusable, and a
table whose last byte of the entry is the first that is not canonical. -/
theorem test_witness_SegmentLoad_table : long.lma = true ∧ 0xF8 + 8 - 1 ≤ long.gdtr.limit.toNat ∧
    long.gdtr.limit.toNat < 0x100 + 8 - 1 ∧ (0x14 : BitVec 16).getLsbD 2 = true ∧ long.ldtr.unusable = true ∧
    ([0, 7].map fun j => canonical (0x00007FFFFFFFFFF9 + BitVec.ofNat 64 j)) = [true, false] ∧
    (sysRead (long.gdtr.base + BitVec.ofNat 64 0xF8) 8 long).toBool = true ∧
    (spanOf long.lma (long.gdtr.base + 0xF8) 8 ⟨false, false⟩ long).toBool = true := by decide +kernel

/-- The fields of a descriptor with base 12345678H, limit ABCDEH in units of 4096 bytes, type AH, DPL 2, P, AVL and
D/B (R125). -/
theorem test_descriptor_fields : descSeg 0x12DADA345678BCDE 0x2B =
    { sel := 0x2B, base := 0x12345678, limit := 0xABCDEFFF, typ := 0xA, s := true, dpl := 2, p := true, avl := true,
      l := false, db := true, g := true, unusable := false } := by decide +kernel

/-- A paragraph selector, a null one, and descriptors that load as they are, with the accessed bit written, that are not
present, and that are not segments; a stack segment. -/
theorem test_witness_SegmentLoad : real.paragraphs = true ∧ long.paragraphs = false ∧ (3 : BitVec 16).extractLsb' 2 14 = 0 ∧
    (let d := fun sel => value 0 (readDesc sel false) long;
      ([0x10, 0x38, 0x40, 0x48].all fun sel => (readDesc sel false long).toBool) = true ∧
      ([0x10, 0x38, 0x40].all fun sel => (d sel).getLsbD 44 && !(d sel).getLsbD 43 && decide (long.cpl ≤ descLevel (d sel))) =
        true ∧
      (d 0x10).getLsbD 47 = true ∧ (d 0x10).getLsbD 40 = true ∧ (d 0x10).getLsbD 41 = true ∧ descLevel (d 0x10) = long.cpl ∧
      (d 0x38).getLsbD 47 = true ∧ (d 0x38).getLsbD 40 = false ∧
      (sysWrite (long.descAddr 0x38 + 5) 1 (((d 0x38).extractLsb' 40 8).toNat + 1) false long).toBool = true ∧
      (d 0x40).getLsbD 47 = false ∧ (d 0x48).getLsbD 44 = false) := by decide +kernel

theorem test_witness_PushPop : (∃ t, Pushed 8 (long.readReg .b64 rSP).toNat long t) ∧
    (∃ v t u, readRm .b64 (.mem m0) long = .ok (v, t) ∧ Pushed 8 v.toNat t u) ∧ (∃ t, Popped 8 0 long t) ∧
    (∃ t, PushedAll 4 ([rAX, rCX, rDX, rBX, rSP, rBP, rSI, rDI].map (fun r => (compat.readReg .b32 r).toNat)) compat t) ∧
    (∃ u, loadSegment .fs 0 long = .ok ((), u)) ∧ (∃ u, loadSegment .ss 0x10 compat = .ok ((), u)) ∧
    (∃ x put, Destination long .b64 (asRmb (.mem m0)) x put) ∧ long.is64 = true ∧ compat.is64 = false ∧ long.memOk = true := by
  refine ⟨pushed_of (by decide +kernel), ?_, ?_, pushedAll_of (by decide +kernel), ⟨_, run_unit (by decide +kernel)⟩,
    ⟨_, run_unit (by decide +kernel)⟩, test_witness_Moves.1, by decide +kernel, by decide +kernel, (by decide +kernel)⟩
  · exact (pushed_of (by decide +kernel)).elim fun u h => ⟨_, _, u, run_ok 0 (by decide +kernel), h⟩
  · exact (poppedAll_of (n := 8) (l := [0]) (by decide +kernel)).elim fun _ h => ⟨_, h.1⟩

/-- The eight pops of POPA, over a stack of zeros. -/
theorem test_witness_PushPop_popa : let p := fun (u : State) (r : Reg) => (popped 4 [0] u).writeReg .b32 r (BitVec.ofNat _ 0)
    let u2 := p (p compat rDI) rSI
    let u4 := popped 4 [0] (p u2 rBP)
    let u6 := p (p u4 rBX) rDX
    ∀ u ∈ [compat, p compat rDI, u2, p u2 rBP, u4, p u4 rBX, u6, p u6 rCX], canPop 4 [0] u = true := by
  decide +kernel

theorem test_witness_SystemSimple : long.cpl = 0 ∧ (user long).cpl ≠ 0 ∧ long.cpl ≤ long.iopl ∧ (user long).iopl < (user long).cpl ∧
    long.cr4.getLsbD 2 = false ∧
    ({ user long with cr4 := 0x624 } : State).cr4.getLsbD 2 = true ∧ canonical (long.linear m0.seg (long.effAddr m0)) = true ∧
    (resolveMem m0 1 false .any long).toBool = true ∧ (readRm .b16 (.mem m0) long).toBool = true ∧
    long.readReg .b32 rAX = 0 ∧ (reg 0 0x80000000 long).readReg .b32 rAX = 0x80000000 ∧
    (reg 0 0x80000001 long).readReg .b32 rAX = 0x80000001 := by decide +kernel

/-- Leaves of CPUID at the ends of their ranges, with BOOT_NT4 and without. -/
theorem test_witness_SystemSimple_leaves : ([1, 2, 3, 4, 5, 6, 0x7FFFFFFF, 0x80000002, 0x80000004, 0x80000005, 0x80000006,
    0x80000007, 0x80000008, 0x80000009, 0xFFFFFFFF].all fun n => ((reg 0 (BitVec.ofNat 64 n) long).readReg .b32 rAX).toNat == n) = true ∧
    long.bootNt4 = false ∧ ({ long with bootNt4 := true } : State).bootNt4 = true := by decide +kernel

/-- CPUID 80000006H and 80000008H, and a leaf above the maximum (R411, R412, decision D19). -/
theorem test_cpuid_leaves : (cpuidTable false 0x80000006 0).c = 0x04008040 ∧ (cpuidTable false 0x80000008 0).a = 0x3028 ∧
    cpuidTable false 6 0 = { a := 64, b := 64, c := 0, d := 0 } := by decide +kernel

/-- INVLPG at the first address that is not canonical, through DS and through SS. -/
theorem test_witness_SystemSimple_canonical : long.is64 = true ∧
    ([SReg.ds, .ss].all fun sr => let m : Mem := { at_ .a64 0x800000000000 with seg := sr };
      !canonical (long.linear m.seg (long.effAddr m))) = true := by decide +kernel

/-- CLFLUSH just above FFFFH in real-address mode, and at the last byte below it. -/
theorem test_witness_SystemSimple_high : real.paragraphs = true ∧ 0xFFFF < (real.effAddr (at_ .a32 0x10000)).toNat ∧
    ¬ 0xFFFF < (real.effAddr (at_ .a32 0xFFFF)).toNat ∧ (resolveMem (at_ .a32 0xFFFF) 1 false .any real).toBool = true := by
  decide +kernel

/-- A null selector, one beyond the GDT, one at an address that is not canonical, and one at a descriptor. -/
theorem test_witness_SegmentInspection :
    canonicalRange (({ long with gdtr := { base := 0x800000000000, limit := 0xFF } } : State).descAddr 8) 8 = false ∧ long.paragraphs = false ∧ real.paragraphs = true ∧
    (readRm .b16 (.mem m0) long).toBool = true ∧ (3 : BitVec 16).extractLsb' 2 14 = 0 ∧ long.descInTable 0x100 8 = false ∧
    long.descInTable 0xF8 8 = true ∧ canonicalRange (long.descAddr 0xF8) 8 = true ∧ (0xF8 : BitVec 16).extractLsb' 2 14 ≠ 0 ∧
    (sysRead (long.descAddr 0xF8) 8 long).toBool = true ∧ (resolveMem m0 2 true (.natural 2) compat).toBool = true := by
  decide +kernel

/-- A table base that is canonical and one that is not; an LDT and a TSS; a null selector and one of the LDT. -/
theorem test_witness_TableRegisters : long.cpl = 0 ∧ long.paragraphs = false ∧
    (readMem .ds 0x2000 2 long).toBool = true ∧ (readMem .ds 0x2002 8 long).toBool = true ∧
    canonical (BitVec.ofNat 64 (value 0 (readMem .ds 0x2002 8) (poke 0x2002 8 0x7FFFFFFFFFFF long))) = true ∧
    canonical (BitVec.ofNat 64 (value 0 (readMem .ds 0x2002 8) (poke 0x2002 8 0x800000000000 long))) = false ∧
    (resolve .ds 0x2000 2 true (.natural 2) long).toBool = true ∧ (resolve .ds 0x2002 8 true (.natural 8) long).toBool = true ∧
    (resolveMem m0 2 true (.natural 2) long).toBool = true ∧ (3 : BitVec 16).extractLsb' 2 14 = 0 ∧
    (4 : BitVec 16).getLsbD 2 = true ∧ (0x48 : BitVec 16).getLsbD 2 = false ∧
    ([(0x48, 9), (0x58, 2)].all fun p => let lo := value 0 (readDescPart p.1 false 16 0) long;
      let hi := value 0 (readDescPart p.1 false 16 8) long;
      (readDescPart p.1 false 16 0 long).toBool && (readDescPart p.1 false 16 8 long).toBool && !lo.getLsbD 44 &&
      lo.getLsbD 47 && hi.extractLsb' 40 5 == 0 && lo.extractLsb' 40 4 == p.2 &&
      canonical (hi.extractLsb' 0 32 ++ lo.extractLsb' 56 8 ++ lo.extractLsb' 16 24) &&
      (spanOf true (long.descAddr p.1 + 4) 4 ⟨true, false⟩ long).toBool) = true := by decide +kernel

/-- Level 3; a selector past the last that the GDT holds whole; a code segment, the other type, a second type field, a
descriptor that is not present and one whose base is not canonical. -/
theorem test_witness_TableRegisters_stops : (user long).cpl ≠ 0 ∧ (user long).paragraphs = false ∧
    (0xF8 : BitVec 16).getLsbD 2 = false ∧ long.descInTable 0xF8 16 = false ∧ long.descInTable 0xF0 16 = true ∧
    ([(8, long), (0x48, long), (0x58, long), (0x58, poke 0x10065 1 0x01 long), (0x58, poke 0x1005D 1 0x02 long),
      (0x58, poke 0x10060 4 0x8000 long), (0x48, poke 0x10055 1 0x10 long), (0x48, poke 0x1004D 1 0x09 long),
      (0x48, poke 0x10050 4 0x8000 long)].map fun p =>
      let lo := value 0 (readDescPart p.1 false 16 0) p.2
      let hi := value 0 (readDescPart p.1 false 16 8) p.2
      ((readDescPart p.1 false 16 0 p.2).toBool && (readDescPart p.1 false 16 8 p.2).toBool, lo.getLsbD 44,
        (lo.extractLsb' 40 4).toNat, (hi.extractLsb' 40 5).toNat, lo.getLsbD 47,
        canonical (hi.extractLsb' 0 32 ++ lo.extractLsb' 56 8 ++ lo.extractLsb' 16 24))) =
      [(true, true, 11, 19, true, false), (true, false, 9, 0, true, true), (true, false, 2, 0, true, true),
        (true, false, 2, 1, true, true), (true, false, 2, 0, false, true), (true, false, 2, 0, true, false),
        (true, false, 9, 16, true, true), (true, false, 9, 0, false, true), (true, false, 9, 0, true, false)] := by
  decide +kernel

/-- The values at the ends of what the registers accept, and the first ones they do not. -/
theorem test_witness_ControlRegisters : long.cpl = 0 ∧ (user long).cpl ≠ 0 ∧ long.is64 = true ∧ compat.is64 = false ∧
    (1 : Reg) ∉ [(0 : Reg), 2, 3, 4, 8] ∧ (0xFFFFFFFFFF : Word).extractLsb' 40 12 = 0 ∧ prot.lma = false ∧
    (0x10000000000 : Word).extractLsb' 40 12 ≠ 0 ∧ (0x8000000000000 : Word).extractLsb' 40 12 ≠ 0 ∧
    (0x10000000000000 : Word).extractLsb' 40 12 = 0 ∧ (user long).is64 = true ∧ (user long).cr4.getLsbD 3 = false ∧
    (0x7FF : Word).extractLsb' 11 53 = 0 ∧ (0x7FF : Word).getLsbD 5 = true ∧ (0x800 : Word).extractLsb' 11 53 ≠ 0 ∧
    (0x7DF : Word).getLsbD 5 = false ∧ long.lma = true ∧ long.cr4.getLsbD 5 = true ∧
    (0x100000000 : Word).extractLsb' 32 32 ≠ 0 ∧ (0x80000010 : Word).getLsbD 31 = true ∧ (0x80000010 : Word).getLsbD 0 = false ∧
    (0x20000011 : Word).getLsbD 29 = true ∧ (0x20000011 : Word).getLsbD 30 = false ∧ (0x11 : Word).getLsbD 31 = false ∧
    long.cr0.getLsbD 31 = true ∧ ({ prot with efer := 0x100, cr4 := 0 } : State).cr4.getLsbD 5 = false ∧
    prot.cr0.getLsbD 31 = false ∧ (0x80000033 : Word).extractLsb' 32 32 = 0 ∧ (0x80000033 : Word).getLsbD 29 = false ∧
    (15 : Word).toNat < 16 ∧ 16 ≤ (16 : Word).toNat ∧ 8 ≤ (8 : Reg).toNat ∧
    ({ long with cr4 := 0x628 } : State).cr4.getLsbD 3 = true ∧ long.cr4.getLsbD 3 = false ∧
    (0xFFFFFFFF : Word).toNat < 2 ^ 32 ∧ 2 ^ 32 ≤ (0x100000000 : Word).toNat := by decide +kernel

theorem test_witness_ModelSpecificRegisters : long.cpl = 0 ∧ long.pg = true ∧ prot.pg = false ∧
    ([0xC0000080, 0xC0000081, 0xC0000084, 0xC0000100, 0xC0000102, 0xC000007F, 0xC0000085, 0xC00000FF, 0xC0000103].all fun a =>
      ((reg 1 (BitVec.ofNat 64 a) long).readReg .b32 rCX).toNat == a) = true ∧
    (0x501 : Word) &&& ~~~0x501 = 0 ∧ (0x501 : Word).getLsbD 8 = long.efer.getLsbD 8 ∧ (0x400 : Word).getLsbD 8 ≠ long.efer.getLsbD 8 ∧
    (0x502 : Word) &&& ~~~0x501 ≠ 0 ∧ canonical 0xFFFF800000000000 = true ∧ canonical 0x800000000000 = false := by decide +kernel

theorem test_witness_SystemCalls : long.is64 = true ∧ long.efer.getLsbD 0 = true ∧ long.cpl = 0 ∧ (user long).cpl ≠ 0 ∧
    (user long).is64 = true ∧ compat.is64 = false ∧ ({ long with efer := 0x500 } : State).efer.getLsbD 0 = false := by
  decide +kernel

/-! The x87 FPU and SSE. -/

theorem test_witness_fpuFree : long.fpuFree ∧ long.sseOn := by
  unfold State.fpuFree State.sseOn; decide +kernel

/-- An x87 operand that has been read. -/
theorem fpuReads_of {m : FMem} {n al : Nat} {s : State} (h : (resolveMem m.mem n false (.natural al) s).toBool = true) :
    ∃ v t, FpuReads m n al s v t := ⟨_, _, _, run_ok span0 h, rfl⟩

theorem test_witness_X87Arithmetic : long.fpuFree ∧ (∃ v t, FpuReads f0 4 4 long v t) ∧ (∃ v t, FpuReads f0 8 8 long v t) ∧
    (∃ v t, FpuReads f0 2 2 long v t) := ⟨test_witness_fpuFree.1, fpuReads_of (by decide +kernel), fpuReads_of (by decide +kernel),
  fpuReads_of (by decide +kernel)⟩

/-- The three precisions, and numbers with a fraction and without. -/
theorem test_witness_X87Arithmetic_env : ([(0x07F, 24), (0x27F, 53), (0x37F, 64)].all fun p =>
    ({ long.fpu with fcw := p.1 } : Fpu).env.p == p.2) = true ∧ (0 : Int) ≤ 0 ∧ (-1 : Int) < 0 := by decide +kernel

/-- The examples of FRNDINT (2.5 and 3.5), FSCALE (3.0 by 2.9), FIST (2.5) and FISTTP (-2.9, here -2.875). -/
theorem test_x87_values : let n := long.fpu.envAt 64
    ((integralCore 0 (.fin false 5 (-1) false)).val, (integralCore 0 (.fin false 7 (-1) false)).up) = (.fin false 2 0 false, true) ∧
    pack80 (scaleCore n (.fin false 3 0 false) (.fin false 29 (-3) false)).val = pack80 (.fin false 24 0 false) ∧
    toSigned 32 0 (.fin false 5 (-1) false) = (2, 32, false) ∧ (toSigned 32 3 (.fin true 23 (-3) false)).1 = 0xFFFFFFFE := by
  decide +kernel

/-- FSUB and FSUBR of 5.0 and 1.0, FDIV and FDIVR of 1.0 and 4.0, 1.0 by 0, infinity less itself (the examples of R463,
R473, R474, R503, R504). -/
theorem test_x87_operations : let n := long.fpu.env
    let v := fun k : Nat => FVal.fin false k 0 false
    ([fSub n (v 5) (v 1), fSubr n (v 5) (v 1), fDiv n (v 1) (v 4), fDivr n (v 1) (v 4)].map fun o => (pack80 o.val, o.flags)) =
      [(0x40018000000000000000, 0), (0xC0018000000000000000, 0), (0x3FFD8000000000000000, 0), (0x40018000000000000000, 0)] ∧
    fDiv n (v 1) (.zero true) = ⟨.inf true, 4, false⟩ ∧ fSub n (.inf false) (.inf false) = .invalid := by decide +kernel

theorem test_witness_X87Stack : long.fpuFree := test_witness_fpuFree.1

theorem test_witness_X87Compare : long.fpuFree ∧ (∃ v t, FpuReads f0 4 4 long v t) ∧ (∃ v t, FpuReads f0 8 8 long v t) ∧
    (∃ v t, FpuReads f0 2 2 long v t) := test_witness_X87Arithmetic

/-- 1.0 and 2.0, zeros of both signs, and NaNs of both kinds compared (the examples of R469 and R470). -/
theorem test_comparisons : let v := fun k : Nat => FVal.fin false k 0 false
    let q := FVal.nan false 0x4000000000000000
    [compareVal (v 1) (v 2), compareVal (.fin true 3 0 false) (.zero false), compareVal (.zero true) (.zero false),
      compareVal (.inf false) (v 1), compareVal q (v 1)] = [.lt, .lt, .eq, .gt, .un] ∧
    [compareFlags true true q (v 1), compareFlags false true q (v 1), compareFlags false true (.nan false 1) q,
      compareFlags true true (.fin false 1 (-16445) true) (v 1)] = [1, 0, 1, 2] := by decide +kernel

/-- The loads' operands; the largest decimal, and its digits in memory. -/
theorem test_witness_X87Load : long.fpuFree ∧ (∃ v t, FpuReads f0 2 2 long v t) ∧ (∃ v t, FpuReads f0 10 8 long v t) ∧
    (10 ^ 18 - 1 < 10 ^ 18) ∧
    spanGet (poke 0x2000 9 0x999999999999999999 long).mem (value span0 (resolveMem m0 10 false (.natural 8)) long) 0 10 %
      2 ^ 72 = bcdBytes 9 (10 ^ 18 - 1) :=
  ⟨test_witness_fpuFree.1, fpuReads_of (by decide +kernel), fpuReads_of (by decide +kernel), by decide, by decide +kernel⟩

/-- The destinations; a negative integer of one decimal digit, as FBSTP stores it. -/
theorem test_witness_X87Store : (holding minusEight 0).fpuFree ∧
    ([2, 4, 8].all fun n => (resolveMem m0 n true (.natural n) (holding minusEight 0)).toBool) = true ∧
    (resolveMem m0 10 true (.natural 8) (holding minusEight 0)).toBool = true ∧ (holding minusEight 0).memOk = true ∧
    (holding minusEight 0).fpu.emptyAt 0 = false ∧
    (holding minusEight 0).fpu.val 0 = .fin true (8 * 2 ^ 60) (-60) false ∧ 8 < 10 ^ 18 := by
  unfold State.fpuFree; decide +kernel

/-- The values of FBSTP beside an integer: a fraction, one of more than 18 digits, an infinity. -/
theorem test_witness_X87Store_decimal : (holding 0x3FFEC000000000000000 0).fpu.val 0 = .fin false (3 * 2 ^ 62) (-64) false ∧
    (holding 0x403EDE0B6B3A76400000 0).fpu.val 0 = .fin false (0xDE0B6B3A76400000) 0 false ∧ 10 ^ 18 < 0xDE0B6B3A76400000 ∧
    (holding 0xFFFF8000000000000000 0).fpu.val 0 = .inf true := by decide +kernel

/-- The ends of the range of 16-bit integers. -/
theorem test_witness_X87Store_range : 0 < 16 ∧ (toSigned 16 0 (.fin true 0x8000 0 false), toSigned 16 0 (.fin false 0x7FFF 0 false),
    toSigned 16 0 (.fin false 0x8000 0 false)) = ((0x8000, 0, false), (0x7FFF, 0, false), (0x8000, 1, false)) := by decide +kernel

/-- The other cases of the remainders: an infinite dividend, a divisor of zero, a denormal operand, an exponent difference
of 63 and of 64; an operand at the end of the trigonometric range and the last one inside it. -/
theorem test_witness_X87Functions_cases : (holding 0x7FFF8000000000000000 two).fpu.val 0 = .inf false ∧
    (holding three 0).fpu.val 1 = .zero false ∧ (holding 1 two).fpu.val 0 = .fin false 1 (-16445) true ∧
    (holding 0x403E8000000000000000 0x3FFF8000000000000000).fpu.val 0 = .fin false (2 ^ 63) 0 false ∧
    (holding 0x403F8000000000000000 0x3FFF8000000000000000).fpu.val 0 = .fin false (2 ^ 63) 1 false ∧
    ((0 + (2 ^ 63).log2 : Int) - (-63 + (2 ^ 63).log2) < 64) ∧ ¬ ((1 + (2 ^ 63).log2 : Int) - (-63 + (2 ^ 63).log2) < 64) ∧
    ({ holding 0x00018000000000000001 0x00018000000000000000 with fpu := { (holding 0x00018000000000000001
        0x00018000000000000000).fpu with fcw := 0x36F } } : State).fpu.fcw.getLsbD 4 = false ∧
    (-16445 + ((1 : Nat).log2 : Int) < -16382) ∧ ¬ (-16445 + ((2 ^ 63 : Nat).log2 : Int) < -16382) ∧
    (FVal.fin false (2 ^ 63) 0 false).beyondTrig = true ∧ (FVal.fin false (2 ^ 64 - 1) (-1) false).beyondTrig = false ∧
    (holding 0x3FFF8000000000000000 two).fpu.val 0 = .fin false (2 ^ 63) (-63) false := by decide +kernel

/-- FPREM of 3 by 2; operands out of the range of FSIN, zeros, a negative operand of FYL2X. -/
theorem test_witness_X87Functions : (holding three two).fpuFree ∧
    ((holding three two).fpu.emptyAt 0 || (holding three two).fpu.emptyAt 1) = false ∧
    (holding three two).fpu.val 0 = .fin false (3 * 2 ^ 62) (-62) false ∧
    (holding three two).fpu.val 1 = .fin false (2 ^ 63) (-62) false ∧
    ((-62 + (3 * 2 ^ 62).log2 : Int) - (-62 + (2 ^ 63).log2) < 64) ∧ (holding three two).fpu.fcw &&& 0x3F = 0x3F ∧
    (holding three two).fpu.emptyAt 7 = true ∧ (holding 0 two).fpu.val 0 = .zero false ∧
    (holding minusEight two).fpu.val 0 = .fin true (2 ^ 63) (-60) false ∧ (holding minusEight two).fpu.val 1 ≠ .unsupported ∧
    ((holding minusEight two).fpu.val 1).isNan = false := by
  unfold State.fpuFree; decide +kernel

theorem test_witness_X87Control : long.cr0.getLsbD 2 = false ∧ long.cr0.getLsbD 3 = false ∧ long.fpuFree ∧
    (∃ v t, FpuReads f0 2 2 long v t) ∧ (∃ v t, FpuReads f0 14 2 long v t) ∧ (∃ v t, FpuReads f0 28 4 long v t) ∧
    (∃ v t, FpuReads f0 94 2 long v t) ∧ (∃ v t, FpuReads f0 108 4 long v t) ∧
    ([14, 94].all fun n => (resolveMem m0 n true (.natural 2) long).toBool) = true ∧
    ([28, 108].all fun n => (resolveMem m0 n true (.natural 4) long).toBool) = true ∧
    (resolveMem m0 2 true (.natural 2) long).toBool = true :=
  ⟨by decide +kernel, by decide +kernel, test_witness_fpuFree.1, fpuReads_of (by decide +kernel), fpuReads_of (by decide +kernel),
    fpuReads_of (by decide +kernel), fpuReads_of (by decide +kernel), fpuReads_of (by decide +kernel), by decide +kernel,
    by decide +kernel, by decide +kernel⟩

/-- The images in real-address mode, whose pointers are linear. -/
theorem test_witness_X87Control_real : real.paragraphs = true ∧ real.cr0.getLsbD 2 = false ∧ real.cr0.getLsbD 3 = false ∧
    real.fpuFree ∧ (∃ v t, FpuReads f0 14 2 real v t) ∧ (∃ v t, FpuReads f0 28 4 real v t) ∧
    (∃ v t, FpuReads f0 94 2 real v t) ∧ (∃ v t, FpuReads f0 108 4 real v t) ∧
    ([14, 94].all fun n => (resolveMem m0 n true (.natural 2) real).toBool) = true ∧
    ([28, 108].all fun n => (resolveMem m0 n true (.natural 4) real).toBool) = true :=
  ⟨by decide +kernel, by decide +kernel, by decide +kernel, by unfold State.fpuFree; decide +kernel,
    fpuReads_of (by decide +kernel), fpuReads_of (by decide +kernel), fpuReads_of (by decide +kernel),
    fpuReads_of (by decide +kernel), by decide +kernel, by decide +kernel⟩

/-- An image whose MXCSR has every defined bit, and one with DAZ, the first reserved one. -/
theorem test_witness_FxImage : long.cr0.getLsbD 2 = false ∧ long.cr0.getLsbD 3 = false ∧
    (resolveMem m0 512 true .para long).toBool = true ∧ (resolveMem m0 512 false .para long).toBool = true ∧
    (let v := fun n => BitVec.ofNat 32 (spanGet (poke 0x2018 4 n long).mem (value span0 (resolveMem m0 512 false .para) long) 0 512 /
        256 ^ 24);
      v 0xFFBF &&& 0xFFFF0040 = 0 ∧ v 0x40 &&& 0xFFFF0040 ≠ 0) := by decide +kernel

/-- An image that reaches FFFFH and one that reaches beyond it. -/
theorem test_witness_FxImage_high : real.paragraphs = true ∧ 0xFFFF < (real.effAddr (at_ .a32 0xFE01)).toNat + 511 ∧
    ¬ 0xFFFF < (real.effAddr (at_ .a32 0xFE00)).toNat + 511 ∧ real.cr0.getLsbD 2 = false ∧ real.cr0.getLsbD 3 = false ∧
    (resolveMem (at_ .a32 0xFE00) 512 true .para real).toBool = true := by decide +kernel

/-- An operand of every size, from a register and from memory. -/
theorem test_witness_SseArithmetic : long.sseOn ∧ (readXm 16 .para (.reg 1) long = .ok (long.xmmReg 1, long)) ∧
    (∃ b t, readXm 16 .para (.mem m0) long = .ok (b, t)) ∧ (∃ b t, readXm 8 (.natural 8) (.mem m0) long = .ok (b, t)) ∧
    (∃ b t, readXm 4 (.natural 4) (.mem m0) long = .ok (b, t)) :=
  ⟨test_witness_fpuFree.2, rfl, run_ends (by decide +kernel), run_ends (by decide +kernel), run_ends (by decide +kernel)⟩

theorem test_witness_SseCompare : long.sseOn ∧ (∃ b t, readXm 16 .para (.mem m0) long = .ok (b, t)) ∧
    (∃ sp t, resolveMem m0 16 false .any long = .ok (sp, t)) ∧ (∃ sp t, resolveMem m0 4 false (.natural 4) long = .ok (sp, t)) :=
  ⟨test_witness_fpuFree.2, run_ends (by decide +kernel), run_ends (by decide +kernel), run_ends (by decide +kernel)⟩

theorem test_witness_SseConvert : long.sseOn ∧ (∃ b t, readXm 8 (.natural 8) (.mem m0) long = .ok (b, t)) ∧
    (∃ v t, readRmLow .b64 (.mem m0) long = .ok (v, t)) ∧ (∃ v t, readMm (.mem m0) long = .ok (v, t)) ∧
    (readMm (.reg 7) long = .ok (long.fpu.mmx 7, long)) ∧ long.fpu.fsw.getLsbD 7 = false :=
  ⟨test_witness_fpuFree.2, run_ends (by decide +kernel), run_ends (by decide +kernel), run_ends (by decide +kernel), rfl,
    by decide +kernel⟩

/-- SSE operands of real-address mode: the last byte at FFFFH, and one beyond it. -/
theorem test_witness_SseCompare_high : let s : State := { real with cr4 := 0x600 }
    s.sseOn ∧ s.paragraphs = true ∧ s.fpu.fsw.getLsbD 7 = false ∧
    (∀ n ∈ [4, 8, 16], 0xFFFF < (s.effAddr (at_ .a32 (BitVec.ofNat 64 (0x10001 - n)))).toNat + (n - 1) ∧
      ¬ 0xFFFF < (s.effAddr (at_ .a32 (BitVec.ofNat 64 (0x10000 - n)))).toNat + (n - 1) ∧
      (resolveMem (at_ .a32 (BitVec.ofNat 64 (0x10000 - n))) n false .any s).toBool = true) := by
  unfold State.sseOn; decide +kernel

/-- A result inside the range of doubles, one above it and one below it, with the exceptions masked and not. -/
theorem test_witness_FloatRounding_range : let n := long.env64
    0 < n.p ∧ (roundAt n.rc false 3 0 (0 + (3 : Nat).log2 + 1 - n.p)).e = 0 ∧ n.masks.getLsbD 3 = true ∧
    ({ long with mxcsr := 0 } : State).env64.masks.getLsbD 4 = false ∧ (n.bias : Int) < 1023 + (3 : Nat).log2 ∧
    -1024 + ((3 : Nat).log2 : Int) < 1 - n.bias := by decide +kernel

/-- Values at the ends of the normal range of single precision, and the largest below it. -/
theorem test_witness_FloatRounding_formats : 0 < (1 : Nat) ∧ (1 - (127 : Nat) ≤ (-126 + (1 : Nat).log2 : Int)) ∧
    (104 + (2 ^ 24 - 1 : Nat).log2 ≤ ((127 : Nat) : Int)) ∧ (-149 + (2 ^ 23 - 1 : Nat).log2 < (1 - (127 : Nat) : Int)) := by
  decide +kernel

/-- 3.0, the least denormal, the largest value, infinity and a NaN in the three formats (IEEE 754; R70, R574). -/
theorem test_formats : (pack32 (.fin false 3 0 false), pack64 (.fin true 3 0 false), pack80 (.fin false 3 0 false)) =
      (0x40400000, 0xC008000000000000, three) ∧
    (unpack32 0x7F7FFFFF, unpack64 1, unpack80 0xFFFF8000000000000000, unpack80 0x3FFF7FFFFFFFFFFFFFFF) =
      (.fin false (2 ^ 24 - 1) 104 false, .fin false 1 (-1074) true, .inf true, .unsupported) ∧
    (pack32 (.inf true), pack64 .indef, unpack32 0x7FA00000) =
      (0xFF800000, 0xFFF8000000000000, .nan false 0x2000000000000000) ∧
    ([0, 1, three, 0x7FFF8000000000000000, 0x40000000000000000001].map tagOf) = [1, 2, 0, 2, 2] := by decide +kernel

theorem test_witness_FloatRounding : (3 : BitVec 2) = 3 ∧ (2 * 3 = 2 * (1 * 2 ^ 1) + 2 ^ 1) ∧ 0 < (1 : Nat) := by decide

/-- The units off by EM, by TS, by OSFXSR; an exception pending. -/
theorem test_witness_UnitUnavailable : let em : State := { long with cr0 := 0x80000037 }
    let ts : State := { long with cr0 := 0x8000003B }
    let pending : State := { long with fpu := { long.fpu with fsw := 0x8081 } }
    let off : State := { long with cr4 := 0x420 }
    em.cr0.getLsbD 2 = true ∧ ts.cr0.getLsbD 2 = false ∧ ts.cr0.getLsbD 3 = true ∧ ts.cr0.getLsbD 1 = true ∧
    ts.cr4.getLsbD 9 = true ∧ pending.cr0.getLsbD 2 = false ∧ pending.cr0.getLsbD 3 = false ∧
    (pending.fpu.fsw.getLsbD 7 && pending.cr0.getLsbD 5) = true ∧ pending.cr4.getLsbD 9 = true ∧
    (off.cr0.getLsbD 2 || !off.cr4.getLsbD 9) = true := by decide +kernel

/-! The machine. -/

theorem test_witness_StepKeepsMemory : long.memOk = true ∧ ∃ t, step long = .next t :=
  ⟨by decide +kernel, step_of (p := fun _ => true) (by decide +kernel)⟩

theorem test_witness_StepKeepsLegal : long.Legal ∧ ∃ t, step long = .next t :=
  ⟨by constructor <;> decide +kernel, test_witness_StepKeepsMemory.2⟩

/-- The bytes at 1000H are zeros, ADD [RAX], AL; at FFFH the first of them is the last byte of its page. -/
theorem test_witness_StepRunsDecoded :
    let i := Instr.add (.rmR .b8 (.mem { at_ .a64 0 with base := .reg 0 }) (.full 0))
    long.activity = .active ∧ long.boundary.isNone = true ∧ long.codeRoom = 15 ∧
    (∃ b t, fetchBytes (long.linear .cs long.rip) 15 long = .ok (b, t) ∧ decode long.codeSize b = .ok (i, 2)) ∧
    (let s := { long with rip := 0xFFF };
      s.codeRoom = 15 ∧ min s.codeRoom (4096 - (s.linear .cs s.rip).toNat % 4096) = 1 ∧
      ∃ b t c v, fetchBytes (s.linear .cs s.rip) 1 s = .ok (b, t) ∧ decode s.codeSize b = .error .short ∧
        fetchBytes (laStep s.is64 (s.linear .cs s.rip) 1) 14 t = .ok (c, v) ∧ decode s.codeSize (b ++ c) = .ok (i, 2)) :=
  ⟨by decide +kernel, by decide +kernel, by decide +kernel, ⟨_, _, run_ok [] (by decide +kernel), by decide +kernel⟩,
    by decide +kernel, by decide +kernel, _, _, _, _, run_ok [] (by decide +kernel), by decide +kernel,
    run_ok [] (by decide +kernel), by decide +kernel⟩

/-- No room at an address that is not canonical; a fetch from a page that is not present, as the first and as the second
one; code that ends with the segment and inside an instruction. -/
theorem test_witness_StepRunsDecoded_stops : ({ long with rip := 0x800000000000 } : State).codeRoom = 0 ∧
    (let s : State := { long with rip := 0x200000 };
      s.boundary.isNone = true ∧ s.codeRoom ≠ 0 ∧ (fetchBytes (s.linear .cs s.rip) 15 s).toBool = false) ∧
    (let s : State := { long with rip := 0x1FFFFF };
      min s.codeRoom (4096 - (s.linear .cs s.rip).toNat % 4096) = 1 ∧
      (decode s.codeSize (value [] (fetchBytes (s.linear .cs s.rip) 1) s)) = .error .short ∧
      (fetchBytes (laStep s.is64 (s.linear .cs s.rip) 1) 14 (after (fetchBytes (s.linear .cs s.rip) 1) s)).toBool = false) ∧
    (let s : State := { real with rip := 0xFFFF };
      s.codeRoom = 1 ∧ (fetchBytes (s.linear .cs s.rip) 1 s).toBool = true ∧ decode s.codeSize [0] = .error .short) := by
  decide +kernel

/-- V52: fourteen bytes 66H before `01 D8` are too long, thirteen run; with the sixteenth byte on a page that is not
present, its fault comes first (R210, R681); nothing more is fetched where the segment ends. -/
theorem test_witness_StepRunsDecoded_overlong :
    let at_ := fun (n a : Nat) (s : State) =>
      poke (a + n) 2 0xD801 <| poke a n ((256 ^ n - 1) / 255 * 0x66) { s with rip := BitVec.ofNat 64 a }
    fetch (at_ 14 0x3000 long) = .error (.raised gp0) ∧
    value (.cpuid, 0) fetch (at_ 13 0x3000 long) = (.add (.rmR .b16 (.reg (.full 0)) (.full 3)), 15) ∧
    fetch (at_ 15 0x1FFFF1 long) = .error (.raised (pageFault 0x200000 ⟨false, false⟩ false false)) ∧
    fetch (at_ 15 0xFFF1 real) = .error (.raised gp0) := by
  decide +kernel

/-- A trap, an NMI, an interrupt of a class just above TPR's; shutdown and a halt. -/
theorem test_witness_PendingEvents : let s : State := { long with pendingNmi := true, pendingInt := some 0x10, tpr := 0x0F }
    s.shadow ≠ .movss ∧ s.nmiBlocked = false ∧ s.pendingDb = false ∧ s.flag fIF = true ∧ s.shadow = .none ∧
    s.tpr.toNat / 16 < (0x10 : Byte).toNat / 16 ∧ s.activity ≠ .shutdown ∧
    ({ s with activity := .halted } : State).activity = .halted := by decide +kernel

theorem test_witness_StoreThenLoad : (∃ sp u, resolve .ds 0x2000 2048 true (.natural 1) prot = .ok (sp, u)) ∧ prot.memOk = true ∧
    prot.pg = false := ⟨run_ends (by decide +kernel), by decide +kernel, by decide +kernel⟩

/-- Where an access stops, check by check, and where it goes through: a null selector; a write to a read-only and a read
of an execute-only segment; the limit of a segment and both ends of one that expands down; the ends of the two canonical
halves; 16-byte alignment; alignment checking on and off. -/
theorem test_witness_StoreThenLoad_checks :
    let data := descSeg 0x00CF93000000FFFF 0x10
    let down (db : Bool) : SegReg := { data with typ := 7, limit := 0xFFF, db := db }
    let inside (g : SegReg) (ea : Word) (n : Nat) : Bool := let last := ea.toNat + n - 1
      if g.s = true ∧ g.typ.getLsbD 3 = false ∧ g.typ.getLsbD 2 = true
      then decide (g.limit.toNat < ea.toNat ∧ last < (if g.db then 2 ^ 32 else 2 ^ 16)) else decide (last ≤ g.limit.toNat)
    let strict : State := { compat3 with cr0 := compat3.cr0 ||| 0x40000, rflags := 0x40202 }
    compat.mode = .compat ∧ prot.mode = .prot ∧ compat.is64 = false ∧ real.is64 = false ∧ long.is64 = true ∧
    (data.nulled 0).unusable = true ∧ compat.ds.unusable = false ∧
    (1 : BitVec 4).getLsbD 1 = false ∧ (9 : BitVec 4).getLsbD 3 = true ∧ (9 : BitVec 4).getLsbD 1 = false ∧
    data.typ.getLsbD 3 = false ∧ data.typ.getLsbD 1 = true ∧
    inside data 0xFFFFFFF8 8 = true ∧ inside data 0xFFFFFFF9 8 = false ∧ inside real.ds 0xFFF8 8 = true ∧
    inside real.ds 0xFFF9 8 = false ∧ inside (down true) 0xFFF 8 = false ∧ inside (down true) 0x1000 8 = true ∧
    inside (down true) 0xFFFFFFF8 8 = true ∧ inside (down true) 0xFFFFFFF9 8 = false ∧
    inside (down false) 0xFFF8 8 = true ∧ inside (down false) 0xFFF9 8 = false ∧
    ([0x7FFFFFFFFFF8, 0xFFFF800000000000].all fun la => (List.range 8).all fun k =>
      canonical (long.linear .ds la + BitVec.ofNat 64 k)) = true ∧
    ([0x7FFFFFFFFFF9, 0xFFFF7FFFFFFFFFF9].all fun la => (List.range 8).any fun k =>
      !canonical (long.linear .ds la + BitVec.ofNat 64 k)) = true ∧
    (long.linear .ds 0x2008).toNat % 16 ≠ 0 ∧ (long.linear .ds 0x2010).toNat % 16 = 0 ∧
    strict.cr0.getLsbD 18 = true ∧ strict.flag fAC = true ∧ strict.cpl = 3 ∧ (strict.linear .ds 0x2001).toNat % 8 ≠ 0 ∧
    (spanOf strict.is64 (strict.linear .ds 0x2001) 8 ⟨false, strict.cpl == 3⟩ strict).toBool = true ∧
    compat3.cr0.getLsbD 18 = false ∧ (resolve .ds 0x2010 16 true .para long).toBool = true ∧
    (spanOf true 0x200000 8 ⟨false, false⟩ long).toBool = false := by decide +kernel

/-- An access within a page, up to its last byte; one over a page's end; ones whose first and whose second page is not
present. -/
theorem test_witness_StoreThenLoad_pages :
    ([0x2000, 0x2FF8].all fun la => (translate la ⟨true, false⟩ long).toBool && decide (8 ≤ 4096 - la.toNat % 4096)) = true ∧
    4096 - (0x2FF9 : Word).toNat % 4096 < 8 ∧ (translate 0x2FF9 ⟨true, false⟩ long).toBool = true ∧
    (translate 0x3000 ⟨true, false⟩ (after (translate 0x2FF9 ⟨true, false⟩) long)).toBool = true ∧
    (translate 0x200000 ⟨true, false⟩ long).toBool = false ∧ (translate 0x1FFFF9 ⟨true, false⟩ long).toBool = true ∧
    (translate 0x200000 ⟨true, false⟩ (after (translate 0x1FFFF9 ⟨true, false⟩) long)).toBool = false ∧
    (resolve .ds 0x2000 8 false (.natural 8) long).toBool = true ∧
    (resolve .ds 0x200000 8 false (.natural 8) long).toBool = false := by decide +kernel

/-- Paging: a span that comes back, and walks that succeed, that meet an entry that is not present, and that the
protection ends. -/
theorem test_witness_StoreThenLoad_paging : let far : Word := 0x200000
    let q := long.pagePath 0x2000
    let guarded : State := { poke 0x72000 1 0xE5 long with cr0 := 0x80010033 }
    long.pg = true ∧ (resolve .ds 0x2000 8 true (.natural 8) long).toBool = true ∧ q.2 = 0x2000 ∧ q.1.length = 3 ∧
    q.1.find? (fun p => !p.value.getLsbD 0 || p.value &&& p.checked != 0) = none ∧
    ((long.pagePath far).1.find? (fun p => !p.value.getLsbD 0 || p.value &&& p.checked != 0)).isSome = true ∧
    guarded.cr0.getLsbD 16 = true ∧ ((guarded.pagePath 0x2000).1.all fun p => !p.guards || p.value.getLsbD 1) = false ∧
    (guarded.pagePath 0x2000).1.find? (fun p => !p.value.getLsbD 0 || p.value &&& p.checked != 0) = none := by
  decide +kernel

theorem test_witness_DecodeEncodeArithmetic : [Instr.add (.rmR .b8 (.reg (.high 0)) (.full 3)), .test (.accImm .b64 0),
    .inc (.short .b32 0), .not .b16 (.mem (at_ .a16 0)), .imul (.two .b64 0 (.reg 1)), .aam 10, .cmpxchg .b32 (.reg (.full 0)) (.full 1),
    .setg (.reg (.full 0)), .rcl .b8 (.reg (.full 0)) .cl, .shld .b32 (.reg 0) 1 none, .push (.reg .b64 8), .bt .b32 (.reg 0) (.imm 31),
    .scasq { asz := .a64, rep := .repne }, .inp .b16 (some 255), .movToCr 8 15].all (fun i => i.wf .c32 || i.wf .c64) = true := by decide

theorem test_witness_DecodeEncodeBranches : [Instr.jo .b16 (.r16 0), .jcxz .b32 .a16 0, .jmpRel .b32 (.r8 0), .callInd .b32 (.reg 0),
    .ret .b16 (some 0), .retFar .b32 none, .jmpFarPtr .b32 0xFFFFFFFF 8, .callFarMem .b16 (.mem (at_ .a16 0)), .enter .b32 0 31,
    .lar .b32 0 (.reg 1), .lgdt .b32 (.mem (at_ .a32 0)), .fadd (.m64 f0), .fnsave .b32 f0, .fxsave false m0,
    .cmpps 0 (.reg 7) 255, .cvtpi2ps 0 (.reg 7)].all (Instr.wf .c32) = true := by decide

/-! ### Single steps, with the results of spec/95_test_vectors.md (the vector's number in the name) -/

/-- A state with code at 1000H. -/
def code (n v : Nat) (s : State) : State := poke 0x1000 n v s

/-- A state with XMM0 and XMM1. -/
def xmm01 (a b : BitVec 128) (s : State) : State := (s.setXmm 0 a).setXmm 1 b

/-- `48 01 D8`, ADD RAX, RBX: a carry out of bit 63. -/
theorem test_step_V60 : steps (code 3 0xD80148 (reg 0 (-1) (reg 3 1 long))) (fun t =>
    t.get 0 == 0 && t.rflags &&& 0x8D5 == 0x55 && t.rip == 0x1003) = true := by decide +kernel

/-- `48 39 D8`, CMP RAX, RBX. -/
theorem test_step_V63 : steps (code 3 0xD83948 (reg 0 1 (reg 3 2 long))) (fun t =>
    t.get 0 == 1 && t.rflags &&& 0x8D5 == 0x95) = true := by decide +kernel

/-- `48 F7 F3`, DIV RBX. -/
theorem test_step_V66 : steps (code 3 0xF3F748 (reg 0 100 (reg 2 0 (reg 3 7 long)))) (fun t =>
    t.get 0 == 14 && t.get 2 == 2) = true := by decide +kernel

/-- `F7 FB`, IDIV EBX: the quotient is truncated toward 0. -/
theorem test_step_V67 : steps (code 2 0xFBF7 (reg 2 0xFFFFFFFF (reg 0 0xFFFFFFF9 (reg 3 2 long)))) (fun t =>
    t.get 0 == 0xFFFFFFFD && t.get 2 == 0xFFFFFFFF) = true := by decide +kernel

/-- `48 0F BC C3`, BSF RAX, RBX. -/
theorem test_step_V100 : steps (code 4 0xC3BC0F48 (reg 3 0x1000 long)) (fun t => t.get 0 == 12) = true := by decide +kernel

/-- `E8 0B 00 00 00`, CALL rel32. -/
theorem test_step_V125 : steps (code 5 0xBE8 long) (fun t =>
    t.rip == 0x1010 && t.get 4 == 0x7FF8 && readPhysLE t.mem 0x7FF8 8 == 0x1005) = true := by decide +kernel

/-- `66 0F 83 00 00 01 00`, JAE past FFFFH in real-address mode with a larger CS limit: #GP, through vector 13. -/
theorem test_step_jae_high : steps (code 7 0x10000830F66 (poke 52 4 0x20001234 { real with
      cs := { real.cs with limit := 0xFFFFFFFF } })) (fun t => t.rip == 0x1234 && t.cs.sel == 0x2000) = true := by decide +kernel

/-- `F0 F3 90`: REP after LOCK takes its group, so this is PAUSE. -/
theorem test_step_pause : steps (code 3 0x90F3F0 long) (fun t => t.rip == 0x1003) = true := by decide +kernel

/-- `FF 2E FE FF`, JMP m16:16 in real-address mode: the selector is read after the offset, at 10000H, beyond the limit. -/
theorem test_step_far_pointer : steps (code 4 0xFFFE2EFF (poke 52 4 0x20001234 real)) (fun t =>
    t.rip == 0x1234 && t.cs.sel == 0x2000) = true := by decide +kernel

/-- `C8 20 00 00`, ENTER 20H, 0. -/
theorem test_step_V132 : steps (code 4 0x20C8 (reg 5 0x1234 long)) (fun t =>
    t.get 5 == 0x7FF8 && t.get 4 == 0x7FD8 && readPhysLE t.mem 0x7FF8 8 == 0x1234) = true := by decide +kernel

/-- `CD 80`, INT 80H at level 3: the frame on the stack of the TSS, SS null. -/
theorem test_step_V135 : steps (code 2 0x80CD (user long)) (fun t =>
    t.rip == 0x50800 && t.get 4 == 0x8FD8 && readPhysLE t.mem 0x8FD8 8 == 0x1002 && readPhysLE t.mem 0x8FE0 8 == 0x33 &&
    t.ss.sel == 0 && t.cs.sel == 8) = true := by decide +kernel

/-- `48 CF`, IRETQ to level 3. -/
theorem test_step_V138 : steps (code 2 0xCF48 frame) (fun t =>
    t.rip == 0x1000 && t.cs.sel == 0x33 && t.get 4 == 0x9000 && t.ss.sel == 0x2B && t.cpl == 3 && t.rflags == 0x202) = true := by
  decide +kernel

/-- `48 A7`, CMPSQ. -/
theorem test_step_V150 : steps (code 2 0xA748 (reg 6 0x2000 (reg 7 0x3000 (poke 0x2000 1 5 (poke 0x3000 1 5 long))))) (fun t =>
    t.rflags &&& 0x41 == 0x40 && t.get 6 == 0x2008 && t.get 7 == 0x3008) = true := by decide +kernel

/-- `F3 AA`, REP STOSB after STI: the shadow lasts until the last iteration has completed (R762, R801). -/
theorem test_step_shadow_kept : steps (code 2 0xAAF3 (reg 1 2 (reg 7 0x3000 { long with shadow := .sti, pendingInt := some 0x80 })))
    (fun t => t.rip == 0x1000 && t.get 1 == 1 && t.shadow == .sti && t.pendingInt == some 0x80) = true := by decide +kernel
/-- The last iteration of the same ends the shadow. -/
theorem test_step_shadow_ends : steps (code 2 0xAAF3 (reg 1 1 (reg 7 0x3000 { long with shadow := .sti, pendingInt := some 0x80 })))
    (fun t => t.rip == 0x1002 && t.shadow == .none && t.pendingInt == some 0x80) = true := by decide +kernel

/-- `F8`, CLC, at RFLAGS = 203H. -/
theorem test_step_V160 : steps (code 1 0xF8 { long with rflags := 0x203 }) (fun t => t.rflags == 0x202) = true := by
  decide +kernel

/-- `0F A2`, CPUID leaf 0. -/
theorem test_step_V171 : steps (code 2 0xA20F (reg 0 0xFFFFFFFF00000000 long)) (fun t =>
    t.get 0 == 5 && t.get 3 == 0x756E6547 && t.get 2 == 0x49656E69 && t.get 1 == 0x6C65746E) = true := by decide +kernel

/-- `44 0F 22 C0`, MOV CR8, RAX. -/
theorem test_step_V324 : steps (code 4 0xC0220F44 (reg 0 8 long)) (fun t => t.tpr == 0x80) = true := by decide +kernel

/-- `0F 32`, RDMSR of IA32_EFER. -/
theorem test_step_V333 : steps (code 2 0x320F (reg 1 0xC0000080 long)) (fun t => t.get 0 == 0x501 && t.get 2 == 0) = true := by
  decide +kernel

/-- `0F 05`, SYSCALL from level 3. -/
theorem test_step_V331 : steps (code 2 0x050F { user long with
      star := 0x0013000800000000, lstar := 0xFFFFFFFF80001000, fmask := 0x200, rflags := 0x246 }) (fun t =>
    t.get 1 == 0x1002 && t.get 11 == 0x246 && t.rip == 0xFFFFFFFF80001000 && t.rflags == 0x46 && t.cs.sel == 8 &&
    t.ss.sel == 0x10 && t.cpl == 0) = true := by decide +kernel

/-- `48 C1 E0 20`, SHL RAX, 20H. -/
theorem test_step_V335 : steps (code 4 0x20E0C148 (reg 0 1 long)) (fun t => t.get 0 == 0x100000000) = true := by decide +kernel

/-- `DE C1`, FADDP: 1 + 2, in the register that ST(1) was. -/
theorem test_step_V203 : steps (code 2 0xC1DE (holding 0x3FFF8000000000000000 two)) (fun t =>
    t.fpu.r[7] == three) = true := by decide +kernel

/-- `D9 F8`, FPREM: 3 mod 2 is 1, with quotient 1 in C1. -/
theorem test_step_V229 : steps (code 2 0xF8D9 (holding three two)) (fun t =>
    t.fpu.st 0 == 0x3FFF8000000000000000 && t.fpu.fsw &&& 0x4700 == 0x200) = true := by decide +kernel

/-- `D9 C9`, FXCH: the tags go with the values. -/
theorem test_step_fxch_tags : steps (code 2 0xC9D9 { holding three two with
      fpu := { (holding three two).fpu with ftw := 0x1FFF } }) (fun t => t.fpu.ftw == 0x4FFF) = true := by decide +kernel

/-- FPREM of the value after the least normal one by that one, with the underflow unmasked: the remainder 2^-16445 is
delivered as 2^8131, and UE and ES are set (R453, R489). -/
theorem test_step_fprem_underflow : steps (code 2 0xF8D9 (let s := holding 0x00018000000000000001 0x00018000000000000000
    { s with fpu := { s.fpu with fcw := 0x36F } })) (fun t =>
      t.fpu.st 0 == 0x5FC28000000000000000 && t.fpu.fsw &&& 0x80FF == 0x8090) = true := by decide +kernel

/-- `D9 FA`, FSQRT of 2. -/
theorem test_step_fsqrt : steps (code 2 0xFAD9 (holding two 0)) (fun t =>
    t.fpu.r[6] == 0x3FFFB504F333F9DE6484) = true := by decide +kernel

/-- `F2 0F 5E C1`, DIVSD: 1 / 3. -/
theorem test_step_V272 : steps (code 4 0xC15E0FF2 (xmm01 0x3FF0000000000000 0x4008000000000000 long)) (fun t =>
    t.xmmReg 0 == 0x3FD5555555555555 && t.mxcsr == 0x1FA0) = true := by decide +kernel

/-- `0F 2F C1`, COMISS of a quiet NaN: unordered, and invalid. -/
theorem test_step_V283 : steps (code 3 0xC12F0F (xmm01 0x7FC00000 0 long)) (fun t =>
    t.rflags &&& 0x8D5 == 0x45 && t.mxcsr == 0x1F81) = true := by decide +kernel

/-- `F2 48 0F 2D C1`, CVTSD2SI RAX, XMM1 of 10^10. -/
theorem test_step_V304 : steps (code 5 0xC12D0F48F2 (xmm01 0 0x4202A05F20000000 long)) (fun t =>
    t.get 0 == 0x00000002540BE400) = true := by decide +kernel

/-- The first instruction after reset, placed where the machine fetches it: `F8`, CLC. -/
theorem test_step_fetch_word : steps (State.reset.withFetchWord 8 0xF8) (fun t => t.rip == 0xFFF1) = true := by decide +kernel

end Sys2Proof.Tests
end

