-- ==== Sys2Proof/Proofs/Stable.lean ====
section
/-! SUPPORT. What every step can do to the state, said once: a property is stable if the stores of memory keep it and so
does every change of the registers that leaves memory alone and keeps the state legal. Here the laws of such a property for
single updates of the state and for the monad. -/

namespace Sys2Proof.Machine

variable {p : State → Prop} {α β : Type}

/-! ### The registers that a legal state constrains -/

/-- The EFLAGS bits with fixed values (R45). -/
abbrev reservedFlags : BitVec 32 := 0xFFC0802A

/-- Memory and the registers that `State.Legal` reads. -/
def State.watched (s : State) : List Host.Cell × BitVec 32 × BitVec 32 × List Word :=
  (s.mem, s.rflags, s.mxcsr,
    [s.cr0, s.cr4, s.efer, s.fmask, s.lstar, s.cstar, s.kernelGsBase, s.fs.base, s.gs.base])

/-- Legality depends on the watched registers only. -/
theorem State.Legal.of_watched {s t : State} (hs : s.Legal) (e : t.watched = s.watched) : t.Legal := by
  simp only [State.watched, Prod.mk.injEq, List.cons.injEq, and_true] at e
  obtain ⟨-, hf, hmx, h0, h4, he, hfm, hl, hc, hk, hfs, hgs⟩ := e
  have hpg : t.pg = s.pg := by rw [State.pg, State.pg, h0]
  have hpe : t.pe = s.pe := by rw [State.pe, State.pe, h0]
  have hlma : t.lma = s.lma := by rw [State.lma, State.lma, he]
  have hlme : t.lme = s.lme := by rw [State.lme, State.lme, he]
  have hpae : t.pae = s.pae := by rw [State.pae, State.pae, h4]
  exact
    { flags := by rw [State.flagsOk, hf]; exact hs.flags
      cr0Fixed := h0 ▸ hs.cr0Fixed
      paging := by rw [hpg, hpe]; exact hs.paging
      caching := by rw [h0]; exact hs.caching
      cr4Defined := h4 ▸ hs.cr4Defined
      eferDefined := he ▸ hs.eferDefined
      active := by rw [hlma, hlme, hpg]; exact hs.active
      activePae := by rw [hlma, hpae]; exact hs.activePae
      mxcsrDefined := hmx ▸ hs.mxcsrDefined
      fmaskLow := hfm ▸ hs.fmaskLow
      lstar := hl ▸ hs.lstar
      cstar := hc ▸ hs.cstar
      kernelGs := hk ▸ hs.kernelGs
      fsBase := hfs ▸ hs.fsBase
      gsBase := hgs ▸ hs.gsBase }

/-- Setting a bit outside a mask leaves the bits of the mask alone. -/
theorem putBit_outside {n : Nat} (v : BitVec n) {m : BitVec n} {i : Nat} (b : Bool) (hi : m.getLsbD i = false) :
    putBit v i b &&& m = v &&& m := by
  apply BitVec.eq_of_getLsbD_eq
  intro j _
  rw [BitVec.getLsbD_and, BitVec.getLsbD_and, putBit_getLsbD]
  split
  · next h => rw [← h.1, hi, Bool.and_false, Bool.and_false]
  · rfl

/-- Setting a flag that is not reserved leaves the reserved ones alone. -/
theorem putBit_reserved (f : BitVec 32) {i : Nat} (b : Bool) (hi : reservedFlags.getLsbD i = false) :
    putBit f i b &&& reservedFlags = f &&& reservedFlags := putBit_outside f b hi

/-- Replacing flags that are not reserved leaves the reserved ones alone. -/
theorem maskFlags_reserved (f : BitVec 32) {m : BitVec 32} (v : BitVec 32) (hm : m &&& reservedFlags = 0) :
    maskFlags f m v &&& reservedFlags = f &&& reservedFlags := by
  apply BitVec.eq_of_getLsbD_eq
  intro j _
  have hj : (m.getLsbD j && reservedFlags.getLsbD j) = false := by
    rw [← BitVec.getLsbD_and, hm]; exact BitVec.getLsbD_zero
  rw [BitVec.getLsbD_and, BitVec.getLsbD_and, maskFlags_getLsbD]
  cases hmj : m.getLsbD j
  · rfl
  · rw [hmj, Bool.true_and] at hj
    rw [hj, Bool.and_false, Bool.and_false]

/-- IRET and POPF write no reserved flag (R348, R789). -/
theorem mergeFlags_reserved (s : State) (osz : Width) (new : BitVec 32) (rf : Bool) :
    mergeFlags s osz new rf &&& reservedFlags = s.rflags &&& reservedFlags := by
  refine maskFlags_reserved s.rflags new ?_
  have part {c : Prop} [Decidable c] {x y : BitVec 32} (hx : x &&& reservedFlags = 0) (hy : y &&& reservedFlags = 0) :
      (if c then x else y) &&& reservedFlags = 0 := by split <;> assumption
  rw [BitVec.and_or_distrib_right, BitVec.and_or_distrib_right, BitVec.and_or_distrib_right,
    part (by decide) (part (by decide) (by decide)), part (by decide) (by decide), part (by decide) (by decide)]
  decide

/-- A delivery writes no reserved flag (R690). -/
theorem deliveredFlags_reserved (f : BitVec 32) (ig : Bool) :
    deliveredFlags f ig &&& reservedFlags = f &&& reservedFlags := by
  have h : putBit (putBit (putBit (putBit f fTF false) fNT false) fRF false) fVM false &&& reservedFlags =
      f &&& reservedFlags := by
    rw [putBit_reserved (i := fVM) _ _ (by decide), putBit_reserved (i := fRF) _ _ (by decide),
      putBit_reserved (i := fNT) _ _ (by decide), putBit_reserved (i := fTF) _ _ (by decide)]
  cases ig
  · exact h
  · exact (putBit_reserved (i := fIF) _ false (by decide)).trans h

/-- Addresses below 2^47 are canonical (R120). -/
theorem canonical_of_lt {a : Word} (h : a.toNat < 2 ^ 47) : canonical a = true := by
  have : a.extractLsb' (Config.vaBits - 1) (65 - Config.vaBits) = 0 := by
    apply BitVec.eq_of_toNat_eq
    rw [BitVec.extractLsb'_toNat, Nat.shiftRight_eq_div_pow]
    show a.toNat / 2 ^ 47 % 2 ^ 17 = 0
    omega
  rw [canonical, this]
  rfl

/-- The base of a code or data descriptor has 32 bits (R125). -/
theorem descSeg_canonical (d : BitVec 64) (sel : BitVec 16) : canonical (descSeg d sel).base = true := by
  apply canonical_of_lt
  show ((d.extractLsb' 56 8 ++ d.extractLsb' 16 24).setWidth 64).toNat < _
  have := (d.extractLsb' 56 8 ++ d.extractLsb' 16 24).isLt
  rw [BitVec.toNat_setWidth]
  omega

/-- The base of a paragraph has 20 bits (R421). -/
theorem paragraph_canonical (g : SegReg) (sel : BitVec 16) : canonical (g.paragraph sel).base = true := by
  apply canonical_of_lt
  show (sel.setWidth 64 <<< 4).toNat < _
  have := sel.isLt
  rw [BitVec.toNat_shiftLeft, BitVec.toNat_setWidth, Nat.shiftLeft_eq]
  omega

/-! ### What leaves the watched registers alone -/

@[simp] theorem State.writeGReg_watched (s : State) (w : Width) (g : GReg) (v : BitVec w.bits) :
    (s.writeGReg w g v).watched = s.watched := by cases g <;> rfl

@[simp] theorem State.writePair_watched (s : State) (w : Width) (a b : BitVec w.bits) :
    (s.writePair w a b).watched = s.watched := by cases w <;> rfl

@[simp] theorem State.convert_watched (s : State) (w : Width) : (s.convert w).watched = s.watched := by
  cases w <;> rfl

@[simp] theorem State.putSpecial_watched (s : State) (r : Reg) (v : Word) : (s.putSpecial r v).watched = s.watched := by
  unfold State.putSpecial; split <;> rfl

@[simp] theorem State.putDr_watched (s : State) (dr : Reg) (v : Word) : (s.putDr dr v).watched = s.watched := by
  unfold State.putDr; split <;> rfl

@[simp] theorem State.loadCs_watched (s : State) (c : SegReg) : (s.loadCs c).watched = s.watched := by
  unfold State.loadCs; dsimp only; split <;> rfl

@[simp] theorem State.setReturnSp_watched (s : State) (v : Word) : (s.setReturnSp v).watched = s.watched := by
  unfold State.setReturnSp; split <;> rfl

@[simp] theorem State.withCr2_watched (s : State) (ev : Event) : (s.withCr2 ev).watched = s.watched := by
  unfold State.withCr2; split <;> rfl

/-- A segment register that a return makes null keeps its base (R790). -/
theorem SegReg.afterReturn_base (g : SegReg) (cpl : Nat) : (g.afterReturn cpl).base = g.base := by
  unfold SegReg.afterReturn; split <;> rfl

@[simp] theorem State.dropDataSegs_watched (s : State) (cpl : Nat) : (s.dropDataSegs cpl).watched = s.watched := by
  simp only [State.watched, State.dropDataSegs, SegReg.afterReturn_base]

/-! ### Stable properties -/

/-- A property that no step can break: every store keeps it, and every change of the registers that keeps a legal state
legal. -/
structure StepStable (p : State → Prop) : Prop extends MemStable p where
  regs : ∀ s t : State, t.mem = s.mem → (s.Legal → t.Legal) → p s → p t

/-- Legality is such a property. -/
theorem legal_stepStable : StepStable State.Legal where
  phys _ _ _ _ h := { h with }
  span _ _ _ _ h := { h with }
  regs _ _ _ h := h

namespace StepStable

variable (h : StepStable p) {s t : State}
include h

theorem mem : MemStable p := h.toMemStable

/-- What changes none of the watched registers. -/
theorem frame (hs : p s) (e : t.watched = s.watched) : p t :=
  h.regs s t (congrArg Prod.fst e) (fun l => l.of_watched e) hs

theorem reg : RegStable p where
  toMemStable := h.mem
  put _ _ _ hs := h.frame hs rfl
  rip _ _ hs := h.frame hs rfl
  free _ _ hs := h.frame hs rfl

theorem setRflags {v : BitVec 32} (hs : p s) (e : v &&& reservedFlags = s.rflags &&& reservedFlags) :
    p (s.setRflags v) :=
  h.regs s _ rfl (fun l => { l with flags := (congrArg (· == 2) e).trans l.flags }) hs

theorem setFlag {i : Nat} {b : Bool} (hs : p s) (hi : reservedFlags.getLsbD i = false := by decide) :
    p (s.setFlag i b) := h.setRflags hs (putBit_reserved _ _ hi)

theorem setStatus {m : BitVec 32} {f : Status} (hs : p s) (hm : m &&& reservedFlags = 0 := by decide) :
    p (s.setStatus m f) := h.setRflags hs (maskFlags_reserved _ _ hm)

theorem setMxFlags {x : BitVec 6} (hs : p s) : p (s.setMxFlags x) :=
  h.regs s _ rfl (fun l => { l with
    mxcsrDefined := by
      show (s.mxcsr ||| x.setWidth 32) &&& ~~~Config.mxcsrMask = 0
      have hx : x.setWidth 32 &&& ~~~Config.mxcsrMask = 0 := by revert x; decide
      rw [BitVec.and_or_distrib_right, l.mxcsrDefined, hx]; rfl }) hs

/-- A load of a segment register with a canonical base, or with the base it had. -/
theorem setSeg {r : SReg} {g : SegReg} (hs : p s) (hg : canonical g.base = true ∨ g.base = (s.seg r).base) :
    p (s.setSeg r g) := by
  have base {b : Word} (hb : canonical b = true) (hg : canonical g.base = true ∨ g.base = b) :
      canonical g.base = true := by
    obtain hg | hg := hg
    · exact hg
    · rw [hg, hb]
  cases r
  case fs => exact h.regs s _ rfl (fun l => { l with fsBase := base l.fsBase hg }) hs
  case gs => exact h.regs s _ rfl (fun l => { l with gsBase := base l.gsBase hg }) hs
  all_goals exact h.frame hs rfl

end StepStable

/-! ### Properties that fix the reserved flags -/

/-- A property that changes of unwatched registers and of flags that are not reserved keep, and that fixes the reserved
ones. IRET writes flags that it has merged with those of the state in which it started. -/
structure FlagStable (q : State → Prop) : Prop extends RegStable q where
  frame : ∀ s t : State, q s → t.watched = s.watched → q t
  flags : ∀ (s : State) (v : BitVec 32), q s → v &&& reservedFlags = s.rflags &&& reservedFlags → q (s.setRflags v)
  fixed : ∀ s t : State, q s → q t → s.rflags &&& reservedFlags = t.rflags &&& reservedFlags

/-- A stable property together with the reserved flags. -/
theorem StepStable.withReserved (h : StepStable p) (c : BitVec 32) :
    FlagStable fun u => p u ∧ u.rflags &&& reservedFlags = c where
  phys s a n v hs := ⟨h.phys s a n v hs.1, hs.2⟩
  span s sp n v hs := ⟨h.span s sp n v hs.1, hs.2⟩
  put _ _ _ hs := ⟨h.frame hs.1 rfl, hs.2⟩
  rip _ _ hs := ⟨h.frame hs.1 rfl, hs.2⟩
  free _ _ hs := ⟨h.frame hs.1 rfl, hs.2⟩
  frame _ _ hs e := ⟨h.frame hs.1 e, (congrArg (·.2.1 &&& reservedFlags) e).trans hs.2⟩
  flags _ _ hs e := ⟨h.setRflags hs.1 e, e.trans hs.2⟩
  fixed _ _ hs ht := hs.2.trans ht.2.symm

/-- A meaning that keeps the property with the reserved flags keeps the property. -/
theorem Keeps.of_withReserved {m : M α} (hm : ∀ c, Keeps (fun u => p u ∧ u.rflags &&& reservedFlags = c) m) :
    Keeps p m := by
  refine ⟨fun s hs => ?_⟩
  have run := (hm (s.rflags &&& reservedFlags)).run s ⟨hs, rfl⟩
  split at run
  · exact run.1
  · next x _ =>
    cases x with
    | raisedAfter e t => exact run.1
    | _ => trivial

/-! ### The monad -/

namespace Keeps

/-- A check before the rest, which may use that the check has passed. -/
theorem afterPassed {c : Bool} {e : Event} {f : Unit → M β} (hf : c = false → Keeps p (f ())) :
    Keeps p (Machine.raiseIf c e >>= f) := by
  cases c
  · exact ⟨fun s hs => (hf rfl).run s hs⟩
  · exact ⟨fun _ _ => trivial⟩

/-- A check before the rest. -/
theorem afterCheck {c : Bool} {e : Event} {f : Unit → M β} (hf : Keeps p (f ())) : Keeps p (Machine.raiseIf c e >>= f) :=
  .bind (.raiseIf ..) fun _ => hf

/-- A reading of the state before the rest. -/
theorem afterRead {g : State → α} {f : α → M β} (hf : ∀ a, Keeps p (f a)) : Keeps p (Machine.readS g >>= f) :=
  .bind (.readS _) hf

/-- An update that leaves the watched registers alone. -/
theorem frame (h : StepStable p) {g : State → State} (e : ∀ s, (g s).watched = s.watched) : Keeps p (Machine.upd g) :=
  .upd fun s hs => h.frame hs (e s)

/-- Such an update before the rest. -/
theorem afterFrame (h : StepStable p) {g : State → State} {f : Unit → M β} (e : ∀ s, (g s).watched = s.watched)
    (hf : Keeps p (f ())) : Keeps p (Machine.upd g >>= f) := .bind (.frame h e) fun _ => hf

/-- A part that is left out where a condition fails, before the rest. -/
theorem thenOrSkip {c : Prop} [Decidable c] {m : M Unit} {f : Unit → M β} (hm : Keeps p m) (hf : Keeps p (f ())) :
    Keeps p (if c then m >>= f else f ()) := .ite (.bind hm fun _ => hf) hf

/-- A part that is left out where a condition holds, before the rest. -/
theorem skipOrThen {c : Prop} [Decidable c] {m : M Unit} {f : Unit → M β} (hm : Keeps p m) (hf : Keeps p (f ())) :
    Keeps p (if c then f () else m >>= f) := .ite hf (.bind hm fun _ => hf)

end Keeps

section
variable (h : StepStable p)
include h

theorem setFlags_keeps {m : BitVec 32} (f : Status) (hm : m &&& reservedFlags = 0 := by decide) :
    Keeps p (setFlags m f) := .upd fun _ hs => h.setStatus hs hm

theorem openFlags_keeps {m : BitVec 32} (hm : m &&& reservedFlags = 0 := by decide) : Keeps p (openFlags m) :=
  .bind (draw_keeps h.reg) fun _ => .upd fun _ hs => h.setRflags hs (maskFlags_reserved _ _ hm)

theorem setLogic_keeps {n : Nat} (r : BitVec n) : Keeps p (setLogic r) :=
  .bind (setFlags_keeps h _) fun _ => openFlags_keeps h

theorem setFlag_keeps {i : Nat} (f : State → Bool) (hi : reservedFlags.getLsbD i = false := by decide) :
    Keeps p (upd fun s => s.setFlag i (f s)) := .upd fun _ hs => h.setFlag hs hi

theorem updFpu_keeps (g : Fpu → Fpu) : Keeps p (updFpu g) := .frame h fun _ => rfl

end

end Sys2Proof.Machine
end

