-- ==== Sys2Proof/Proofs/StableOps.lean ====
section
/-! SUPPORT. The shared operations keep every stable property: segment loads, far transfers, the delivery of exceptions and
interrupts and the return from them. -/

namespace Sys2Proof.Machine

variable {p : State → Prop} (h : StepStable p)
include h

/-! ### Segment loads -/

theorem setSs_keeps (f : State → SegReg) : Keeps p (upd fun s => { s with ss := f s }) := .frame h fun _ => rfl

theorem loadCs_keeps (f : State → SegReg) : Keeps p (upd fun s => s.loadCs (f s)) :=
  .frame h fun s => s.loadCs_watched _

theorem loadData_keeps (r : SReg) (sel : BitVec 16) : Keeps p (loadData r sel) := by
  have load {g : SegReg} (hg : canonical g.base = true) : Keeps p (upd fun t => t.setSeg r g) :=
    .upd fun _ hs => h.setSeg hs (.inl hg)
  refine .afterRead fun s => .ite (.upd fun _ hs => h.setSeg hs (.inr rfl)) ?_
  exact .bind (readDesc_keeps h.mem ..) fun d => .afterCheck <| .afterCheck <| .afterCheck <|
    .skipOrThen (sysWrite_keeps h.mem ..) <| load (descSeg_canonical d sel)

theorem loadStackAt_keeps (sel : BitVec 16) (cpl : Nat) : Keeps p (loadStackAt sel cpl) :=
  .bind (readDesc_keeps h.mem ..) fun _ => .afterCheck <| .afterCheck <| setSs_keeps h _

theorem loadStack_keeps (sel : BitVec 16) : Keeps p (loadStack sel) :=
  .afterRead fun _ => .ite (.afterCheck <| setSs_keeps h _) (loadStackAt_keeps h ..)

theorem loadSegment_keeps (r : SReg) (sel : BitVec 16) : Keeps p (loadSegment r sel) :=
  .afterRead fun _ => .ite (.upd fun _ hs => h.setSeg hs (.inl (paragraph_canonical ..))) <|
    .ite (loadStack_keeps h _) (loadData_keeps h ..)

theorem shadowSs_keeps (g : SReg) : Keeps p (shadowSs g) := .ite (.frame h fun _ => rfl) (.pure _)

/-! ### Far transfers -/

omit h in
theorem checkTarget_keeps (d : SegReg) (is64 : Bool) (off : Word) : Keeps p (checkTarget d is64 off) :=
  .ite (.raiseIf ..) (.raiseIf ..)

theorem tssStack_keeps (off : Nat) (ext : Bool) : Keeps p (tssStack off ext) :=
  .afterRead fun _ => .afterCheck <| .afterCheck <| .bind (sysRead_keeps h.mem ..) fun _ => .pure _

theorem pushTwo_keeps (n v n' v' : Nat) : Keeps p (do push n v; push n' v') :=
  .bind (push_keeps h.reg ..) fun _ => push_keeps h.reg ..

theorem callGate_keeps (call : Bool) (sel : BitVec 16) (lo : BitVec 64) : Keeps p (callGate call sel lo) := by
  refine .afterRead fun s => .bind (readDescPart_keeps h.mem ..) fun hi => .afterCheck <| .afterCheck <| .afterCheck <|
    .afterCheck <| .bind (readDesc_keeps h.mem ..) fun d => .afterCheck <| .afterCheck <| .afterCheck <| .afterCheck <|
    .afterCheck <| .afterCheck <| .ite ?_ ?_
  · exact .bind (tssStack_keeps h ..) fun _ => .bind (pushItems_keeps h.mem ..) fun _ => .bind (setSs_keeps h _) fun _ =>
      .bind (loadCs_keeps h _) fun _ => .frame h fun _ => rfl
  · have load : Keeps p (upd fun u => (u.loadCs { descSeg d (lo.extractLsb' 16 16) with
        sel := selWithRpl (lo.extractLsb' 16 16) s.cpl }).setRip (gateOffset lo hi)) :=
      .frame h fun u => u.loadCs_watched _
    exact .ite (.bind (push_keeps h.reg ..) fun _ => .bind (push_keeps h.reg ..) fun _ => load) load

/-- A push of two items or nothing, before the rest. -/
theorem pushTwoOrSkip_keeps {c : Prop} [Decidable c] {n v n' v' : Nat} {f : Unit → M Unit} (hf : Keeps p (f ())) :
    Keeps p (if c then (do push n v; let r ← push n' v'; f r) else f ()) :=
  .ite (.bind (push_keeps h.reg ..) fun _ => .bind (push_keeps h.reg ..) fun _ => hf) hf

theorem farTransfer_keeps (call : Bool) (osz : Width) (sel : BitVec 16) (off : Word) :
    Keeps p (farTransfer call osz sel off) := by
  have load (f : State → SegReg) : Keeps p (upd fun u => (u.loadCs (f u)).setRip off) :=
    .frame h fun u => u.loadCs_watched _
  refine .afterRead fun s => .ite ?paragraphs <| .afterCheck <| .bind (readDesc_keeps h.mem ..) fun raw =>
    .ite ?code <| .ite (.ite (callGate_keeps h ..) (.raise _)) <| .ite (.refuse _) (.raise _)
  case paragraphs => exact .afterCheck <| pushTwoOrSkip_keeps h <| load _
  case code =>
    exact .afterCheck <| .afterCheck <| .afterCheck <| .bind (checkTarget_keeps ..) fun _ => pushTwoOrSkip_keeps h <| load _

omit h in
theorem returnCode_keeps (hm : MemStable p) (iret : Bool) (sel : BitVec 16) : Keeps p (returnCode iret sel) :=
  .afterRead fun _ => .afterCheck <| .bind (readDesc_keeps hm ..) fun _ => .afterCheck <| .afterCheck <| .afterCheck <|
    .afterCheck <| .afterCheck <| .afterCheck <| .pure _

theorem farReturn_keeps (osz : Width) (imm : Word) : Keeps p (farReturn osz imm) := by
  have ret (a : Word) (f : State → SegReg) (ip : Word) : Keeps p (upd fun u => ((u.setSp a).loadCs (f u)).setRip ip) :=
    .frame h fun u => (u.setSp a).loadCs_watched _
  refine .afterRead fun s => .bind (readMem_keeps h.mem ..) fun ip => .bind (readMem_keeps h.mem ..) fun cs =>
    .ite (.afterCheck <| ret _ _ _) <| .bind (returnCode_keeps h.mem ..) fun d => .ite ?same ?outer
  case same => exact .bind (checkTarget_keeps ..) fun _ => ret _ _ _
  case outer =>
    have rest (d : SegReg) (is64 : Bool) (ip sp : Word) (cpl : Nat) : Keeps p (do
        checkTarget d is64 ip
        upd fun u => ((u.loadCs d).setReturnSp sp).setRip ip
        upd (·.dropDataSegs cpl)) :=
      .bind (checkTarget_keeps ..) fun _ =>
        .afterFrame h (fun u => ((u.loadCs d).setReturnSp_watched sp).trans (u.loadCs_watched d)) <|
        .frame h fun u => u.dropDataSegs_watched cpl
    exact .bind (readMem_keeps h.mem ..) fun sp => .bind (readMem_keeps h.mem ..) fun ss => .ite
      (.afterCheck <| .bind (setSs_keeps h _) fun _ => rest ..) (.bind (loadStackAt_keeps h ..) fun _ => rest ..)

/-! ### The return from an exception or interrupt -/

section Iret
variable {q : State → Prop} (hq : FlagStable q)
include hq

omit h in
theorem iretParagraphs_keeps (osz : Width) : Keeps q (iretParagraphs osz) :=
  .bind_readS fun s hs => .afterCheck <| .bind (pop_keeps hq.toRegStable _) fun _ =>
    .bind (pop_keeps hq.toRegStable _) fun cs => .bind (pop_keeps hq.toRegStable _) fun _ => .afterCheck <|
    .bind (.upd fun u hu => hq.flags _ _ (hq.frame u _ hu (u.loadCs_watched (u.cs.paragraph (BitVec.ofNat 16 cs)))) <|
      (mergeFlags_reserved ..).trans (hq.fixed s _ hs (hq.frame u _ hu (u.loadCs_watched _)))) fun _ =>
    .upd fun u hu => hq.frame u _ hu rfl

omit h in
theorem iretStack_keeps (d : SegReg) (ss cs : BitVec 16) : Keeps q (iretStack d ss cs) :=
  .afterRead fun _ => .ite
    (.afterCheck <| .afterCheck <| .afterCheck <| .upd fun u hu => hq.frame u _ hu rfl)
    (.bind (readDesc_keeps hq.toMemStable ..) fun _ => .afterCheck <| .afterCheck <| .upd fun u hu => hq.frame u _ hu rfl)

omit h in
theorem interruptReturn_keeps_fixed (osz : Width) : Keeps q (interruptReturn osz) := by
  refine .bind_readS fun s hs => .ite (iretParagraphs_keeps hq _) ?_
  have load (f : State → State) (e : ∀ u, (f u).watched = u.watched) : Keeps q (upd f) :=
    .upd fun u hu => hq.frame u _ hu (e u)
  have flags (new : BitVec 32) (n : Nat) : Keeps q (do
      upd (·.setRflags (mergeFlags s osz new true))
      if s.cpl < n then do
        let r ← upd (·.dropDataSegs n)
        (fun _ => upd State.nmiUnblocked) r
      else upd State.nmiUnblocked) :=
    .bind (.upd fun u hu => hq.flags _ _ hu ((mergeFlags_reserved ..).trans (hq.fixed _ _ hs hu))) fun _ =>
      .thenOrSkip (load _ fun u => u.dropDataSegs_watched n) <| load _ fun _ => rfl
  refine .thenOrSkip (.ite (.raise _) (.refuse _)) <| .bind (pop_keeps hq.toRegStable _) fun ip =>
    .bind (pop_keeps hq.toRegStable _) fun cs => .bind (pop_keeps hq.toRegStable _) fun fl =>
    .thenOrSkip (.refuse _) <| .bind (returnCode_keeps hq.toMemStable ..) fun d => .ite ?outer ?same
  case same =>
    exact .bind (checkTarget_keeps ..) fun _ => .bind (load _ fun u => u.loadCs_watched d) fun _ => flags _ _
  case outer =>
    exact .bind (pop_keeps hq.toRegStable _) fun sp => .bind (pop_keeps hq.toRegStable _) fun ss =>
      .bind (iretStack_keeps hq ..) fun _ => .bind (checkTarget_keeps ..) fun _ =>
      .bind (load _ fun u => ((u.loadCs d).setReturnSp_watched _).trans (u.loadCs_watched d)) fun _ => flags _ _

end Iret

theorem interruptReturn_keeps (osz : Width) : Keeps p (interruptReturn osz) :=
  .of_withReserved fun c => interruptReturn_keeps_fixed (h.withReserved c) osz

/-! ### Delivery -/

theorem deliver64_keeps (ev : Event) (ext : Bool) (saved : Word) : Keeps p (deliver64 ev ext saved) := by
  refine .afterRead fun s => .afterCheck <| .afterCheck <| .bind (sysRead_keeps h.mem ..) fun lo =>
    .bind (sysRead_keeps h.mem ..) fun hi => .afterCheck <| .afterCheck <| .afterCheck <| .afterCheck <|
    .bind (readDesc_keeps h.mem ..) fun d => .afterCheck <| .afterCheck <| .afterCheck <| .afterCheck ?_
  extract_lets newCpl ist oldSp switched frame enter
  have enters (newSp : Word) : Keeps p (enter newSp) :=
    .afterCheck <| .bind (pushItems_keeps h.mem ..) fun sp => .thenOrSkip (setSs_keeps h _) <|
      .bind (loadCs_keeps h _) fun _ =>
      .bind (.upd fun u hu => h.setRflags (s := (u.put rSP sp).setRip _) (h.frame hu rfl) (deliveredFlags_reserved ..)) fun _ =>
      .frame h fun _ => rfl
  exact .ite (.bind (tssStack_keeps h ..) enters) <| .ite (.bind (tssStack_keeps h ..) enters) (enters _)

theorem deliverReal_keeps (ev : Event) (saved : Word) : Keeps p (deliverReal ev saved) :=
  .afterRead fun s => .afterCheck <| .bind (sysRead_keeps h.mem ..) fun e => .bind (push_keeps h.reg ..) fun _ =>
    .bind (push_keeps h.reg ..) fun _ => .bind (push_keeps h.reg ..) fun _ => .bind (loadCs_keeps h _) fun _ =>
    .bind (.upd fun u hu => h.setRflags (s := u.setRip _) (h.frame hu rfl) <|
      (putBit_reserved (i := fIF) _ _ (by decide)).trans (putBit_reserved (i := fTF) _ _ (by decide))) fun _ =>
    .frame h fun _ => rfl

theorem legacyStackSwitch_keeps (newCpl : Nat) (ext : Bool) : Keeps p (legacyStackSwitch newCpl ext) :=
  .afterRead fun _ => .afterCheck <| .bind (sysRead_keeps h.mem ..) fun _ => .bind (sysRead_keeps h.mem ..) fun _ =>
    .afterCheck <| .afterCheck <| .bind (readDesc_keeps h.mem ..) fun _ => .afterCheck <| .afterCheck <|
    .bind (setSs_keeps h _) fun _ => .frame h fun _ => rfl

theorem deliverProt_keeps (ev : Event) (ext : Bool) (saved : Word) : Keeps p (deliverProt ev ext saved) :=
  .afterRead fun _ => .afterCheck <| .bind (sysRead_keeps h.mem ..) fun _ => .thenOrSkip (.refuse _) <|
    .afterCheck <| .afterCheck <| .afterCheck <| .afterCheck <| .bind (readDesc_keeps h.mem ..) fun _ => .afterCheck <|
    .afterCheck <| .thenOrSkip (legacyStackSwitch_keeps h ..) <| .afterCheck <| .bind (loadCs_keeps h _) fun _ =>
    .bind (pushAll_keeps h.reg ..) fun _ =>
    .bind (.upd fun u hu => h.setRflags (s := u.setRip _) (h.frame hu rfl) (deliveredFlags_reserved ..)) fun _ =>
    .frame h fun _ => rfl

theorem deliverOnce_keeps (ev : Event) (ext : Bool) (saved : Word) : Keeps p (deliverOnce ev ext saved) := by
  refine .afterRead fun m => ?_
  cases m with
  | long64 | compat => exact deliver64_keeps h ..
  | real => exact deliverReal_keeps h ..
  | prot => exact deliverProt_keeps h ..
  | v86 => exact .refuse _

/-- The delivery of an event, and of the exceptions that it raises, leads to a state with the property. -/
theorem deliverChain_holds (n : Nat) (ev : Event) {s : State} (hs : p s) : Holds p (deliverChain n ev s) := by
  induction n generalizing ev s with
  | zero => exact h.frame hs rfl
  | succ n ih =>
    have h1 : p (s.withCr2 ev) := h.frame hs (s.withCr2_watched ev)
    unfold deliverChain
    extract_lets s1 s2
    have h2 : p s2 := by
      show p (if ev.kind = .abort then { s1 with freeCount := s1.freeCount + 1 } else s1)
      split
      · exact h.frame h1 rfl
      · exact h1
    have run := (deliverOnce_keeps h ev ev.ext (savedRip ev s1)).run s2 h2
    split
    · next e => rw [e] at run; exact run
    · next e _ =>
      split
      · exact h.frame h2 rfl
      · split
        · exact ih dfAbort (h.frame h2 (s2.withCr2_watched e))
        · exact ih e h2
    · exact h.frame h2 rfl
    · trivial

theorem deliver_holds (ev : Event) {s : State} (hs : p s) : Holds p (deliver ev s) := deliverChain_holds h 6 ev hs

/-- A meaning that keeps the property leads to a state with the property, whether it completes or raises. -/
theorem runInstr_holds {m : M Unit} (hm : Keeps p m) {s : State} (hs : p s) : Holds p (runInstr m s) := by
  have run := hm.run s hs
  unfold runInstr
  split
  · next e => rw [e] at run; exact run
  · exact deliver_holds h _ hs
  · next e => rw [e] at run; exact deliver_holds h _ run
  · trivial

theorem runSeq_holds {m : M Unit} (hm : Keeps p m) {s : State} (hs : p s) : Holds p (runSeq m s) :=
  runInstr_holds h (.bind hm fun _ => advance_keeps h.reg) hs

end Sys2Proof.Machine
end

