-- ==== Sys2Proof/Proofs/StableInteger.lean ====
section
/-! SUPPORT. The meanings of the general-purpose instructions keep every stable property: moves, the stack, arithmetic and
logic, bits, control transfers, strings and ports. -/

namespace Sys2Proof.Machine

variable {p : State → Prop} (h : StepStable p)
include h

omit h in
theorem invalid64_keeps : Keeps p invalid64 := .afterRead fun _ => .raiseIf ..

/-! ### Moves and the stack -/

theorem writeGReg_keeps (w : Width) (g : GReg) (f : State → BitVec w.bits) :
    Keeps p (upd fun s => s.writeGReg w g (f s)) := .frame h fun s => s.writeGReg_watched w g _

theorem writeReg_keeps (w : Width) (r : Reg) (f : State → BitVec w.bits) :
    Keeps p (upd fun s => s.writeReg w r (f s)) := .frame h fun _ => rfl

theorem movForm_keeps (a : MovArgs) : Keeps p (movForm a) := by
  cases a with
  | rmR w rm r => exact .afterRead fun _ => writeRmb_keeps h.reg ..
  | rRm w r rm => exact .bind (readRmb_keeps h.mem ..) fun _ => writeGReg_keeps h ..
  | regImm w r imm => exact writeGReg_keeps h ..
  | rmImm w rm imm => exact writeRmb_keeps h.reg ..

theorem moffsForm_keeps (store : Bool) (w : Width) (seg : SReg) (off : Word) : Keeps p (moffsForm store w seg off) :=
  .ite (.afterRead fun _ => writeMem_keeps h.mem ..) (.bind (readMem_keeps h.mem ..) fun _ => writeReg_keeps h ..)

theorem movsxdForm_keeps (w : Width) (r : Reg) (src : RM) : Keeps p (movsxdForm w r src) :=
  .bind (readRm_keeps h.mem ..) fun _ => writeReg_keeps h ..

theorem movxForm_keeps (w sw : Width) (r : Reg) (src : RMB) (ext : BitVec sw.bits → BitVec w.bits) :
    Keeps p (movxForm w sw r src ext) := .bind (readRmb_keeps h.mem ..) fun _ => writeReg_keeps h ..

theorem movFromSregForm_keeps (osz : Width) (dst : RM) (sr : Reg3) : Keeps p (movFromSregForm osz dst sr) := by
  unfold movFromSregForm
  split
  · exact .raise _
  · refine .afterRead fun _ => ?_
    cases dst with
    | reg r => exact writeReg_keeps h ..
    | mem m => exact storeMem_keeps h.mem ..

theorem movToSregForm_keeps (sr : Reg3) (src : RM) : Keeps p (movToSregForm sr src) := by
  unfold movToSregForm
  split
  · exact .raise _
  · exact .raise _
  · exact .bind (readRm_keeps h.mem ..) fun _ => .bind (loadSegment_keeps h ..) fun _ => shadowSs_keeps h _

theorem pushForm_keeps (a : PushArgs) : Keeps p (pushForm a) := by
  cases a with
  | reg w r => exact .afterRead fun _ => push_keeps h.reg ..
  | rm w src => exact .bind (readRm_keeps h.mem ..) fun _ => push_keeps h.reg ..
  | imm8 | imm => exact push_keeps h.reg ..
  | sreg w g => exact .afterRead fun _ => .afterCheck <| push_keeps h.reg ..

theorem popForm_keeps (a : PopArgs) : Keeps p (popForm a) := by
  cases a with
  | reg w r => exact .bind (pop_keeps h.reg _) fun _ => writeReg_keeps h ..
  | rm w dst => exact .bind (pop_keeps h.reg _) fun _ => writeRm_keeps h.reg ..
  | sreg w g =>
    exact .afterRead fun _ => .afterCheck <| .bind (pop_keeps h.reg _) fun _ => .bind (loadSegment_keeps h ..) fun _ =>
      shadowSs_keeps h _

theorem pushfForm_keeps (osz : Width) : Keeps p (pushfForm osz) := .afterRead fun _ => push_keeps h.reg ..

theorem popfForm_keeps (osz : Width) : Keeps p (popfForm osz) :=
  .bind (pop_keeps h.reg _) fun _ => .upd fun _ hs => h.setRflags hs <|
    (putBit_reserved (i := fRF) _ _ (by decide)).trans (mergeFlags_reserved ..)

theorem pushRegs_keeps (osz : Width) (s : State) (l : List Reg) : Keeps p (pushRegs osz s l) := by
  induction l with
  | nil => exact .pure _
  | cons r l ih => exact .bind (push_keeps h.reg ..) fun _ => ih

theorem popRegs_keeps (osz : Width) (l : List Reg) : Keeps p (popRegs osz l) := by
  induction l with
  | nil => exact .pure _
  | cons r l ih => exact .bind (pop_keeps h.reg _) fun _ => .skipOrThen (writeReg_keeps h ..) ih

theorem pushaForm_keeps (osz : Width) : Keeps p (pushaForm osz) :=
  .bind invalid64_keeps fun _ => .afterRead fun _ => pushRegs_keeps h ..

theorem popaForm_keeps (osz : Width) : Keeps p (popaForm osz) := .bind invalid64_keeps fun _ => popRegs_keeps h ..

theorem xlatForm_keeps (asz : ASize) (seg : SReg) : Keeps p (xlatForm asz seg) :=
  .afterRead fun _ => .bind (readMem_keeps h.mem ..) fun _ => writeReg_keeps h ..

/-! ### Arithmetic and logic -/

/-- An operation that sets flags and answers a value. -/
theorem flagsThen_keeps {α : Type} {m : BitVec 32} {f : Status} {a : α} (hm : m &&& reservedFlags = 0 := by decide) :
    Keeps p (do setFlags m f; pure a) := .bind (setFlags_keeps h f hm) fun _ => .pure _

theorem addOp_keeps (w : Width) (a b : BitVec w.bits) : Keeps p (addOp w a b) := flagsThen_keeps h
theorem subOp_keeps (w : Width) (a b : BitVec w.bits) : Keeps p (subOp w a b) := flagsThen_keeps h
theorem adcOp_keeps (w : Width) (a b : BitVec w.bits) : Keeps p (adcOp w a b) := .afterRead fun _ => flagsThen_keeps h
theorem sbbOp_keeps (w : Width) (a b : BitVec w.bits) : Keeps p (sbbOp w a b) := .afterRead fun _ => flagsThen_keeps h
theorem incOp_keeps (w : Width) (a : BitVec w.bits) : Keeps p (incOp w a) := flagsThen_keeps h
theorem decOp_keeps (w : Width) (a : BitVec w.bits) : Keeps p (decOp w a) := flagsThen_keeps h
theorem negOp_keeps (w : Width) (a : BitVec w.bits) : Keeps p (negOp w a) := flagsThen_keeps h

/-- A logical operation. -/
theorem logicThen_keeps {n : Nat} (r : BitVec n) : Keeps p (do setLogic r; pure r) :=
  .bind (setLogic_keeps h r) fun _ => .pure _

theorem andOp_keeps (w : Width) (a b : BitVec w.bits) : Keeps p (andOp w a b) := logicThen_keeps h _
theorem orOp_keeps (w : Width) (a b : BitVec w.bits) : Keeps p (orOp w a b) := logicThen_keeps h _
theorem xorOp_keeps (w : Width) (a b : BitVec w.bits) : Keeps p (xorOp w a b) := logicThen_keeps h _

theorem testForm_keeps (a : TestArgs) : Keeps p (testForm a) := by
  cases a with
  | rmR w rm r => exact aluRead_keeps h.mem (andOp_keeps h) (.rmR w rm r)
  | accImm w imm => exact aluRead_keeps h.mem (andOp_keeps h) (.accImm w imm)
  | rmImm w rm imm => exact aluRead_keeps h.mem (andOp_keeps h) (.rmImm w rm imm)

theorem incForm_keeps {op : (w : Width) → BitVec w.bits → M (BitVec w.bits)} (hop : ∀ w a, Keeps p (op w a))
    (a : IncArgs) : Keeps p (incForm op a) := by
  cases a with
  | rm w rm => exact updateRmb_keeps h.reg w rm (hop w)
  | short w r => exact updateRmb_keeps h.reg w (.reg (.full (r.setWidth 4))) (hop w)

theorem mulFlags_keeps (c : Bool) : Keeps p (mulFlags c) := .bind (setFlags_keeps h _) fun _ => openFlags_keeps h

theorem putProduct_keeps (w : Width) (x : Int) : Keeps p (putProduct w x) :=
  .frame h fun s => s.writePair_watched w _ _

theorem mulForm_keeps (w : Width) (rm : RMB) : Keeps p (mulForm w rm) :=
  .bind (readRmb_keeps h.mem ..) fun _ => .afterRead fun _ => .bind (putProduct_keeps h ..) fun _ => mulFlags_keeps h _

theorem imulTo_keeps (w : Width) (r : Reg) (a b : BitVec w.bits) : Keeps p (imulTo w r a b) :=
  .bind (writeReg_keeps h ..) fun _ => mulFlags_keeps h _

theorem imulForm_keeps (a : ImulArgs) : Keeps p (imulForm a) := by
  cases a with
  | one w rm =>
    exact .bind (readRmb_keeps h.mem ..) fun _ => .afterRead fun _ => .bind (putProduct_keeps h ..) fun _ =>
      mulFlags_keeps h _
  | two => exact .bind (readRm_keeps h.mem ..) fun _ => .afterRead fun _ => imulTo_keeps h ..
  | three8 | three => exact .bind (readRm_keeps h.mem ..) fun _ => imulTo_keeps h ..

theorem divForm_keeps (w : Width) (rm : RMB) : Keeps p (divForm w rm) :=
  .bind (readRmb_keeps h.mem ..) fun _ => .afterRead fun _ => .afterCheck <| .afterCheck <|
    .afterFrame h (fun s => s.writePair_watched w _ _) <| openFlags_keeps h

theorem idivForm_keeps (w : Width) (rm : RMB) : Keeps p (idivForm w rm) :=
  .bind (readRmb_keeps h.mem ..) fun _ => .afterRead fun _ => .afterCheck <| .afterCheck <|
    .afterFrame h (fun s => s.writePair_watched w _ _) <| openFlags_keeps h

theorem asciiAdjust_keeps (low high : BitVec 8 → BitVec 8) : Keeps p (asciiAdjust low high) :=
  .bind invalid64_keeps fun _ => .afterRead fun _ => .afterFrame h (fun _ => by split <;> rfl) <|
    .bind (setFlags_keeps h _) fun _ => openFlags_keeps h

theorem byteFlags_keeps (al : BitVec 8) : Keeps p (byteFlags al) :=
  .bind (setFlags_keeps h _) fun _ => openFlags_keeps h

theorem aadForm_keeps (base : Byte) : Keeps p (aadForm base) :=
  .bind invalid64_keeps fun _ => .afterRead fun _ => .afterFrame h (fun _ => rfl) <| byteFlags_keeps h _

theorem aamForm_keeps (base : Byte) : Keeps p (aamForm base) :=
  .bind invalid64_keeps fun _ => .afterCheck <| .afterRead fun _ => .afterFrame h (fun _ => rfl) <| byteFlags_keeps h _

theorem putDecimal_keeps (r : BitVec 8) (cf af : Bool) : Keeps p (putDecimal r cf af) :=
  .afterFrame h (fun _ => rfl) <| .bind (setFlags_keeps h _) fun _ => openFlags_keeps h

theorem daaForm_keeps : Keeps p daaForm := .bind invalid64_keeps fun _ => .afterRead fun _ => putDecimal_keeps h ..
theorem dasForm_keeps : Keeps p dasForm := .bind invalid64_keeps fun _ => .afterRead fun _ => putDecimal_keeps h ..

theorem bswapForm_keeps (w : Width) (r : Reg) : Keeps p (bswapForm w r) := by
  cases w with
  | b32 | b64 => exact writeReg_keeps h ..
  | b8 | b16 => exact .bind (draw_keeps h.reg) fun _ => writeReg_keeps h ..

theorem lahfForm_keeps : Keeps p lahfForm := .bind invalid64_keeps fun _ => writeGReg_keeps h ..

theorem sahfForm_keeps : Keeps p sahfForm :=
  .bind invalid64_keeps fun _ => .upd fun _ hs => h.setRflags hs (maskFlags_reserved _ _ (by decide))

omit h in
theorem memOnlyThen_keeps {α : Type} {rm : RM} {f : Mem → M α} (hf : ∀ m, Keeps p (f m)) : Keeps p (memOnly rm >>= f) :=
  .bind (memOnly_keeps rm) hf

theorem leaForm_keeps (w : Width) (r : Reg) (src : RM) : Keeps p (leaForm w r src) :=
  memOnlyThen_keeps fun _ => writeReg_keeps h ..

theorem cmovForm_keeps (t : BitVec 4) (w : Width) (r : Reg) (src : RM) : Keeps p (cmovForm t w r src) :=
  .bind (readRm_keeps h.mem ..) fun _ => .frame h fun s => by
    split
    · rfl
    · split <;> rfl

theorem cmpxchgForm_keeps (w : Width) (dst : RMB) (src : GReg) : Keeps p (cmpxchgForm w dst src) := by
  refine .afterRead fun acc => .afterRead fun new => ?_
  cases dst with
  | reg g =>
    refine .afterRead fun d => .bind (setFlags_keeps h _) fun _ => .frame h fun s => ?_
    split
    · exact s.writeGReg_watched w g _
    · rfl
  | mem m =>
    refine .bind (resolveMem_keeps h.mem ..) fun _ => .afterRead fun _ => .bind (setFlags_keeps h _) fun _ =>
      .bind (storeSpan_keeps h.mem ..) fun _ => .frame h fun s => ?_
    split <;> rfl

theorem cmpxchgPair_keeps (w : Width) (al : Align) (dst : RM) : Keeps p (cmpxchgPair w al dst) :=
  memOnlyThen_keeps fun _ => .afterRead fun _ => .bind (resolveMem_keeps h.mem ..) fun _ => .afterRead fun _ => .ite
    (.bind (storeSpan_keeps h.mem ..) fun _ => setFlag_keeps h _)
    (.bind (storeSpan_keeps h.mem ..) fun _ => .upd fun _ hs => h.setFlag (h.frame hs rfl))

theorem xchgForm_keeps (a : XchgArgs) : Keeps p (xchgForm a) := by
  cases a with
  | rm w rm r =>
    exact .afterRead fun _ => updateRmb_keeps h.reg w rm fun _ => .bind (writeGReg_keeps h ..) fun _ => .pure _
  | acc w r => exact .afterRead fun _ => .afterRead fun _ => .frame h fun _ => rfl

theorem xaddForm_keeps (w : Width) (dst : RMB) (src : GReg) : Keeps p (xaddForm w dst src) :=
  .afterRead fun _ => updateRmb_keeps h.reg w dst fun _ => .bind (setFlags_keeps h _) fun _ =>
    .bind (writeGReg_keeps h ..) fun _ => .pure _

/-! ### Bits -/

theorem scanForm_keeps (find : (w : Width) → BitVec w.bits → Option Nat) (w : Width) (r : Reg) (src : RM) :
    Keeps p (scanForm find w r src) := by
  refine .bind (readRm_keeps h.mem ..) fun v => ?_
  split
  · exact .bind (.upd fun _ hs => h.setFlag (h.frame hs rfl)) fun _ => openFlags_keeps h
  · exact .bind (draw_keeps h.reg) fun _ => .bind (.upd fun _ hs => h.setFlag (h.frame hs rfl)) fun _ => openFlags_keeps h

theorem bitFlags_keeps (c : Bool) : Keeps p (bitFlags c) := .bind (setFlag_keeps h _) fun _ => openFlags_keeps h

theorem btForm_keeps (w : Width) (dst : RM) (b : BitSel) : Keeps p (btForm w dst b) := by
  refine .afterRead fun s => ?_
  cases dst with
  | reg r => exact bitFlags_keeps h _
  | mem m => exact .bind (readMem_keeps h.mem ..) fun _ => bitFlags_keeps h _

theorem btxForm_keeps (f : Bool → Bool) (w : Width) (dst : RM) (b : BitSel) : Keeps p (btxForm f w dst b) := by
  refine .afterRead fun s => ?_
  cases dst with
  | reg r => exact .bind (writeReg_keeps h ..) fun _ => bitFlags_keeps h _
  | mem m =>
    exact .bind (resolve_keeps h.mem ..) fun _ => .afterRead fun _ => .bind (storeSpan_keeps h.mem ..) fun _ =>
      bitFlags_keeps h _

theorem setOrOpen_keeps {i : Nat} (b : Option Bool) (hi : reservedFlags.getLsbD i = false)
    (hm : BitVec.twoPow 32 i &&& reservedFlags = 0) : Keeps p (setOrOpen i b) := by
  cases b with
  | none => exact openFlags_keeps h hm
  | some b => exact setFlag_keeps h (fun _ => b) hi

theorem shiftFlags_keeps {n : Nat} (o : ShiftOut n) : Keeps p (shiftFlags o) :=
  .bind (setOrOpen_keeps h _ (by decide) (by decide)) fun _ => .bind (setOrOpen_keeps h _ (by decide) (by decide)) fun _ =>
    .thenOrSkip (setFlags_keeps h _) <| openFlags_keeps h

theorem shiftForm_keeps (f : ShiftFn) (w : Width) (rm : RMB) (cnt : ShiftCount) : Keeps p (shiftForm f w rm cnt) :=
  .afterRead fun _ => updateRmb_keeps h.reg w rm fun _ => .ite (.pure _) <|
    .bind (shiftFlags_keeps h _) fun _ => .pure _

theorem doubleForm_keeps (f : {n : Nat} → BitVec n → BitVec n → Nat → ShiftOut n) (w : Width) (dst : RM) (src : Reg)
    (cnt : Option Byte) : Keeps p (doubleForm f w dst src cnt) :=
  .afterRead fun _ => updateRmb_keeps h.reg w _ fun _ => .ite (.pure _) <|
    .ite (.bind (shiftFlags_keeps h _) fun _ => .pure _) <|
    .bind (draw_keeps h.reg) fun _ => .bind (shiftFlags_keeps h _) fun _ => .pure _

theorem setForm_keeps (t : BitVec 4) (dst : RMB) : Keeps p (setForm t dst) := .afterRead fun _ => writeRmb_keeps h.reg ..

theorem lockForm_keeps (l : LockOp) : Keeps p (lockForm l) := by
  have locked {c : Bool} {m : M Unit} (hm : Keeps p m) : Keeps p (lockedIf c m) := .ite hm (.raise _)
  cases l with
  | add a => exact locked (aluUpdate_keeps h.reg (addOp_keeps h) a)
  | adc a => exact locked (aluUpdate_keeps h.reg (adcOp_keeps h) a)
  | and a => exact locked (aluUpdate_keeps h.reg (andOp_keeps h) a)
  | or a => exact locked (aluUpdate_keeps h.reg (orOp_keeps h) a)
  | sbb a => exact locked (aluUpdate_keeps h.reg (sbbOp_keeps h) a)
  | sub a => exact locked (aluUpdate_keeps h.reg (subOp_keeps h) a)
  | xor a => exact locked (aluUpdate_keeps h.reg (xorOp_keeps h) a)
  | inc a => exact locked (incForm_keeps h (incOp_keeps h) a)
  | dec a => exact locked (incForm_keeps h (decOp_keeps h) a)
  | not w rm => exact locked (updateRmb_keeps h.reg w rm fun _ => .pure _)
  | neg w rm => exact locked (updateRmb_keeps h.reg w rm (negOp_keeps h w))
  | btc w d b | btr w d b | bts w d b => exact locked (btxForm_keeps h _ w d b)
  | cmpxchg w d r => exact locked (cmpxchgForm_keeps h w d r)
  | cmpxchg8b d | cmpxchg16b d => exact locked (cmpxchgPair_keeps h _ _ d)
  | xadd w d r => exact locked (xaddForm_keeps h w d r)
  | xchg a => exact locked (xchgForm_keeps h a)
  | other => exact .raise _

/-! ### Control transfers -/

theorem jumpRel_keeps (osz : Width) (rel : Rel) : Keeps p (jumpRel osz rel) := .afterRead fun _ => jumpTo_keeps h.reg ..

theorem branchIf_keeps (c : Bool) (osz : Width) (rel : Rel) : Keeps p (branchIf c osz rel) :=
  .ite (.afterRead fun _ => .afterCheck <| jumpRel_keeps h ..) (advance_keeps h.reg)

theorem jccForm_keeps (t : BitVec 4) (osz : Width) (rel : Rel) : Keeps p (jccForm t osz rel) :=
  .afterRead fun _ => branchIf_keeps h ..

theorem loopForm_keeps (c : State → Bool) (osz : Width) (asz : ASize) (rel : Byte) : Keeps p (loopForm c osz asz rel) :=
  .bind_readS fun _ hs => .bind (.upd fun _ _ => h.frame hs rfl) fun _ => branchIf_keeps h ..

theorem jcxzForm_keeps (osz : Width) (asz : ASize) (rel : Byte) : Keeps p (jcxzForm osz asz rel) :=
  .afterRead fun _ => branchIf_keeps h ..

theorem jmpIndForm_keeps (osz : Width) (src : RM) : Keeps p (jmpIndForm osz src) :=
  .bind (readRm_keeps h.mem ..) fun _ => jumpTo_keeps h.reg ..

theorem farPtrForm_keeps (call : Bool) (osz : Width) (off : BitVec 32) (sel : BitVec 16) :
    Keeps p (farPtrForm call osz off sel) := .bind invalid64_keeps fun _ => farTransfer_keeps h ..

theorem farMemForm_keeps (call : Bool) (osz : Width) (src : RM) : Keeps p (farMemForm call osz src) :=
  memOnlyThen_keeps fun _ => .afterRead fun _ => .bind (readMem_keeps h.mem ..) fun _ =>
    .bind (readMem_keeps h.mem ..) fun _ => farTransfer_keeps h ..

theorem callTo_keeps (osz : Width) (t : Word) : Keeps p (callTo osz t) :=
  .bind (jumpTo_keeps h.reg ..) fun _ => .afterRead fun _ => push_keeps h.reg ..

theorem callRelForm_keeps (osz : Width) (rel : Rel) : Keeps p (callRelForm osz rel) := .afterRead fun _ => callTo_keeps h ..

theorem callIndForm_keeps (osz : Width) (src : RM) : Keeps p (callIndForm osz src) :=
  .bind (readRm_keeps h.mem ..) fun _ => callTo_keeps h ..

theorem retForm_keeps (osz : Width) (n : Option (BitVec 16)) : Keeps p (retForm osz n) :=
  .bind (pop_keeps h.reg _) fun _ => .bind (jumpTo_keeps h.reg ..) fun _ => .frame h fun _ => rfl

theorem enterCopies_keeps (n k : Nat) : Keeps p (enterCopies n k) := by
  induction k with
  | zero => exact .pure _
  | succ k ih =>
    exact .afterFrame h (fun _ => rfl) <| .afterRead fun _ => .bind (readMem_keeps h.mem ..) fun _ =>
      .bind (push_keeps h.reg ..) fun _ => ih

theorem enterForm_keeps (osz : Width) (size : BitVec 16) (level : Byte) : Keeps p (enterForm osz size level) := by
  have frame (sp : Word) : Keeps p (do
      upd fun s => s.writeReg osz rBP (sp.setWidth osz.bits)
      upd fun s => s.setSp (s.sp - size.setWidth 64)
      let s ← readS id
      raiseIf (!s.is64 && !s.ss.inLimit s.sp 1) ss0) :=
    .bind (writeReg_keeps h ..) fun _ => .afterFrame h (fun _ => rfl) <| .afterRead fun _ => .raiseIf ..
  exact .afterRead fun _ => .bind (push_keeps h.reg ..) fun _ => .afterRead fun sp =>
    .ite (.bind (enterCopies_keeps h ..) fun _ => .bind (push_keeps h.reg ..) fun _ => frame sp) (frame sp)

theorem leaveForm_keeps (osz : Width) : Keeps p (leaveForm osz) :=
  .afterRead fun _ => .afterCheck <| .afterFrame h (fun _ => rfl) <| .bind (pop_keeps h.reg _) fun _ => writeReg_keeps h ..

theorem boundForm_keeps (w : Width) (r : Reg) (src : RM) : Keeps p (boundForm w r src) :=
  .bind invalid64_keeps fun _ => memOnlyThen_keeps fun _ => .afterRead fun _ => .bind (readMem_keeps h.mem ..) fun _ =>
    .bind (readMem_keeps h.mem ..) fun _ => .afterRead fun _ => .raiseIf ..

omit h in
theorem intoForm_keeps : Keeps p intoForm := .bind invalid64_keeps fun _ => .afterRead fun _ => .raiseIf ..

/-! ### Strings and ports -/

theorem repeated_keeps {r : Rep} {asz : ASize} {done : State → Bool} {body : M Unit} (hb : Keeps p body) :
    Keeps p (repeated r asz done body) := by
  have again : Keeps p (do
      let s ← readS id
      if s.count asz == 0 then advance
      else
        body
        upd fun t => t.setCount asz (t.count asz - 1)
        let t ← readS id
        if t.count asz == 0 || done t then advance else upd fun t => { t with shadow := t.heldShadow }) :=
    .afterRead fun _ => .ite (advance_keeps h.reg) <| .bind hb fun _ => .afterFrame h (fun _ => rfl) <|
      .afterRead fun _ => .ite (advance_keeps h.reg) (.frame h fun _ => rfl)
  cases r with
  | none => exact .bind hb fun _ => advance_keeps h.reg
  | rep | repne => exact again

theorem cmpsForm_keeps (w : Width) (a : StrSrc) : Keeps p (cmpsForm w a) :=
  repeated_keeps h <| .afterRead fun _ => .bind (readMem_keeps h.mem ..) fun _ => .bind (readMem_keeps h.mem ..) fun _ =>
    .bind (setFlags_keeps h _) fun _ => .frame h fun _ => rfl

theorem lodsForm_keeps (w : Width) (a : StrSrc) : Keeps p (lodsForm w a) :=
  repeated_keeps h <| .afterRead fun _ => .bind (readMem_keeps h.mem ..) fun _ => .frame h fun _ => rfl

theorem movsForm_keeps (w : Width) (a : StrSrc) : Keeps p (movsForm w a) :=
  repeated_keeps h <| .afterRead fun _ => .bind (readMem_keeps h.mem ..) fun _ => .bind (writeMem_keeps h.mem ..) fun _ =>
    .frame h fun _ => rfl

theorem stosForm_keeps (w : Width) (a : StrDst) : Keeps p (stosForm w a) :=
  repeated_keeps h <| .afterRead fun _ => .bind (writeMem_keeps h.mem ..) fun _ => .frame h fun _ => rfl

theorem scasForm_keeps (w : Width) (a : StrDst) : Keeps p (scasForm w a) :=
  repeated_keeps h <| .afterRead fun _ => .bind (readMem_keeps h.mem ..) fun _ => .bind (setFlags_keeps h _) fun _ =>
    .frame h fun _ => rfl

theorem ioRead_keeps (port : BitVec 16) (n : Nat) : Keeps p (ioRead port n) := ⟨fun _ hs => h.frame hs rfl⟩

theorem ioWrite_keeps (port : BitVec 16) (n : Nat) (v : BitVec 32) : Keeps p (ioWrite port n v) := .frame h fun _ => rfl

theorem inForm_keeps (w : Width) (port : Option Byte) : Keeps p (inForm w port) :=
  .afterRead fun _ => .bind (ioPermission_keeps h.mem ..) fun _ => .bind (ioRead_keeps h ..) fun _ => writeReg_keeps h ..

theorem outForm_keeps (w : Width) (port : Option Byte) : Keeps p (outForm w port) :=
  .afterRead fun _ => .bind (ioPermission_keeps h.mem ..) fun _ => .afterRead fun _ => ioWrite_keeps h ..

theorem insForm_keeps (w : Width) (a : StrDst) : Keeps p (insForm w a) :=
  repeated_keeps h <| .afterRead fun _ => .bind (ioPermission_keeps h.mem ..) fun _ => .bind (resolve_keeps h.mem ..) fun _ =>
    .bind (ioRead_keeps h ..) fun _ => .bind (storeSpan_keeps h.mem ..) fun _ => .frame h fun _ => rfl

theorem outsForm_keeps (w : Width) (a : StrSrc) : Keeps p (outsForm w a) :=
  repeated_keeps h <| .afterRead fun _ => .bind (ioPermission_keeps h.mem ..) fun _ => .bind (readMem_keeps h.mem ..) fun _ =>
    .bind (ioWrite_keeps h ..) fun _ => .frame h fun _ => rfl

end Sys2Proof.Machine
end

