-- ==== Sys2Proof/Proofs/StableFloat.lean ====
section
/-! SUPPORT. The meanings of the x87 FPU and SSE instructions keep every stable property. -/

namespace Sys2Proof.Machine

variable {p : State → Prop} (h : StepStable p)
include h

/-! ### The x87 FPU -/

omit h in
theorem fpuEnabled_keeps : Keeps p fpuEnabled := .afterRead fun _ => .raiseIf ..

omit h in
theorem fpuPending_keeps : Keeps p fpuPending := .afterRead fun _ => .ite (.ite (.raise _) (.refuse _)) (.pure _)

omit h in
theorem fpuReady_keeps : Keeps p fpuReady := .bind fpuEnabled_keeps fun _ => fpuPending_keeps

theorem fpuReg_keeps (esc : BitVec 3) (b : Byte) {body : M Unit} (hb : Keeps p body) : Keeps p (fpuReg esc b body) :=
  .bind fpuReady_keeps fun _ => .bind hb fun _ => .frame h fun _ => rfl

theorem fpuLoad_keeps (esc digit : BitVec 3) (m : FMem) (n al : Nat) {body : Nat → M Unit} (hb : ∀ v, Keeps p (body v)) :
    Keeps p (fpuLoad esc digit m n al body) :=
  .bind fpuReady_keeps fun _ => .bind (loadBytes_keeps h.mem ..) fun v => .bind (hb v) fun _ => .frame h fun _ => rfl

theorem fpuStore_keeps (esc digit : BitVec 3) (m : FMem) (n al : Nat) {body : Span → M Unit}
    (hb : ∀ sp, Keeps p (body sp)) : Keeps p (fpuStore esc digit m n al body) :=
  .bind fpuReady_keeps fun _ => .bind (resolveMem_keeps h.mem ..) fun sp => .bind (hb sp) fun _ => .frame h fun _ => rfl

theorem openCodes_keeps (mask : BitVec 16) : Keeps p (openCodes mask) :=
  .bind (draw_keeps h.reg) fun _ => updFpu_keeps h _

/-- A change of the FPU with open condition codes. -/
theorem fpuCodes_keeps (g : Fpu → Fpu) (mask : BitVec 16) : Keeps p (do updFpu g; openCodes mask) :=
  .bind (updFpu_keeps h g) fun _ => openCodes_keeps h mask

theorem arith_keeps (need : List Reg3) (i : Reg3) (pops : Nat) (op : Fpu → FpOut) : Keeps p (arith need i pops op) :=
  fpuCodes_keeps h ..

theorem pushForm87_keeps (op : Fpu → BitVec 80 × BitVec 6) : Keeps p (pushForm87 op) := fpuCodes_keeps h ..

theorem compare_keeps (need : List Reg3) (quiet : Bool) (pops : Nat) (b : Fpu → FVal) :
    Keeps p (compare need quiet pops b) := updFpu_keeps h _

theorem openBytes_keeps (n : Nat) : Keeps p (openBytes n) := by
  induction n with
  | zero => exact .pure _
  | succ n ih => exact .bind (draw_keeps h.reg) fun _ => .bind ih fun _ => .pure _

theorem finishStore_keeps (sp : Span) (n pops : Nat) (o : StoreOut) : Keeps p (finishStore sp n pops o) := by
  refine .bind (updFpu_keeps h _) fun _ => ?_
  split
  · exact .pure _
  · exact .bind (storeSpan_keeps h.mem ..) fun _ => updFpu_keeps h _

theorem storeForm_keeps (sp : Span) (n pops : Nat) {bad : M Nat} {op : Fpu → M StoreOut} (hbad : Keeps p bad)
    (hop : ∀ f, Keeps p (op f)) : Keeps p (storeForm sp n pops bad op) :=
  .afterRead fun f => .ite
    (.bind (updFpu_keeps h _) fun _ => .ite (openCodes_keeps h _) <|
      .bind hbad fun _ => .bind (storeSpan_keeps h.mem ..) fun _ => fpuCodes_keeps h ..)
    (.bind (hop f) fun _ => .bind (finishStore_keeps h ..) fun _ => openCodes_keeps h _)

theorem arithForm_keeps (op : FOp) (digit digitI : BitVec 3) (a : FArith) : Keeps p (arithForm op digit digitI a) := by
  cases a with
  | m32 m | m64 m => exact fpuLoad_keeps h _ _ m _ _ fun _ => arith_keeps h ..
  | st0 i | sti i => exact fpuReg_keeps h _ _ (arith_keeps h ..)

theorem arithPop_keeps (op : FOp) (digitI : BitVec 3) (i : Reg3) : Keeps p (arithPop op digitI i) :=
  fpuReg_keeps h _ _ (arith_keeps h ..)

theorem arithInt_keeps (op : FOp) (digit : BitVec 3) (a : FInt) : Keeps p (arithInt op digit a) := by
  cases a <;> exact fpuLoad_keeps h _ _ _ _ _ fun _ => arith_keeps h ..

theorem signForm_keeps (b : Byte) (g : BitVec 80 → BitVec 80) : Keeps p (signForm b g) :=
  fpuReg_keeps h _ _ (fpuCodes_keeps h ..)

theorem remForm_keeps (b : Byte) (near : Bool) : Keeps p (remForm b near) :=
  fpuReg_keeps h _ _ <| .bind (draw_keeps h.reg) fun _ => .afterRead fun _ => .bind (updFpu_keeps h _) fun _ =>
    .ite (openCodes_keeps h _) <| .ite (updFpu_keeps h _) <| .bind (openCodes_keeps h _) fun _ => updFpu_keeps h _

theorem fcomForm_keeps (digit : BitVec 3) (pops : Nat) (a : FCmp) : Keeps p (fcomForm digit pops a) := by
  cases a with
  | m32 m | m64 m => exact fpuLoad_keeps h _ _ m _ _ fun _ => compare_keeps h ..
  | sti i => exact fpuReg_keeps h _ _ (compare_keeps h ..)

theorem ficomForm_keeps (digit : BitVec 3) (pops : Nat) (a : FInt) : Keeps p (ficomForm digit pops a) := by
  cases a <;> exact fpuLoad_keeps h _ _ _ _ _ fun _ => compare_keeps h ..

theorem comiForm_keeps (esc digit : BitVec 3) (quiet : Bool) (pops : Nat) (i : Reg3) :
    Keeps p (comiForm esc digit quiet pops i) := by
  have set (g : Fpu → Fpu) (c : Prop) [Decidable c] (f : Status) : Keeps p (do
      updFpu g
      if c then pure ()
      else
        setFlags statusMask f
        updFpu (·.popN pops)) :=
    .bind (updFpu_keeps h g) fun _ => .ite (.pure _) <| .bind (setFlags_keeps h f) fun _ => updFpu_keeps h _
  exact fpuReg_keeps h _ _ <| .afterRead fun _ => .ite (set ..) (set ..)

theorem fldForm_keeps (a : FLong) : Keeps p (fldForm a) := by
  cases a with
  | m32 m | m64 m | m80 m => exact fpuLoad_keeps h _ _ m _ _ fun _ => pushForm87_keeps h _
  | sti i => exact fpuReg_keeps h _ _ <| .afterRead fun _ => .ite (fpuCodes_keeps h ..) (pushForm87_keeps h _)

theorem fildForm_keeps (a : FIntL) : Keeps p (fildForm a) := by
  cases a <;> exact fpuLoad_keeps h _ _ _ _ _ fun _ => pushForm87_keeps h _

theorem fbldForm_keeps (m : FMem) : Keeps p (fbldForm m) :=
  fpuLoad_keeps h _ _ m _ _ fun _ => .bind (draw_keeps h.reg) fun _ => .bind (draw_keeps h.reg) fun _ => pushForm87_keeps h _

theorem constForm_keeps (b : Byte) (near : BitVec 80) (low high : Bool) : Keeps p (constForm b near low high) :=
  fpuReg_keeps h _ _ (pushForm87_keeps h _)

theorem store32_keeps (digit : BitVec 3) (pops : Nat) (m : FMem) : Keeps p (store32 digit pops m) :=
  fpuStore_keeps h _ _ m _ _ fun _ => storeForm_keeps h _ _ _ (.pure _) fun _ => .pure _

theorem store64_keeps (digit : BitVec 3) (pops : Nat) (m : FMem) : Keeps p (store64 digit pops m) :=
  fpuStore_keeps h _ _ m _ _ fun _ => storeForm_keeps h _ _ _ (.pure _) fun _ => .pure _

theorem storeSti_keeps (digit : BitVec 3) (pops : Nat) (i : Reg3) : Keeps p (storeSti digit pops i) :=
  fpuReg_keeps h _ _ (fpuCodes_keeps h ..)

theorem fstForm_keeps (a : FCmp) : Keeps p (fstForm a) := by
  cases a with
  | m32 m => exact store32_keeps h ..
  | m64 m => exact store64_keeps h ..
  | sti i => exact storeSti_keeps h ..

theorem fstpForm_keeps (a : FLong) : Keeps p (fstpForm a) := by
  cases a with
  | m32 m => exact store32_keeps h ..
  | m64 m => exact store64_keeps h ..
  | m80 m => exact fpuStore_keeps h _ _ m _ _ fun _ => storeForm_keeps h _ _ _ (.pure _) fun _ => .pure _
  | sti i => exact storeSti_keeps h ..

theorem storeInteger_keeps (esc digit : BitVec 3) (n pops : Nat) (chop : Bool) (m : FMem) :
    Keeps p (storeInteger esc digit n pops chop m) :=
  fpuStore_keeps h _ _ m _ _ fun _ => storeForm_keeps h _ _ _ (.pure _) fun _ => .pure _

theorem fistForm_keeps (a : FInt) : Keeps p (fistForm a) := by cases a <;> exact storeInteger_keeps h ..
theorem fistpForm_keeps (a : FIntL) : Keeps p (fistpForm a) := by cases a <;> exact storeInteger_keeps h ..
theorem fisttpForm_keeps (a : FIntL) : Keeps p (fisttpForm a) := by cases a <;> exact storeInteger_keeps h ..

theorem bcdIndefinite_keeps : Keeps p bcdIndefinite := .bind (openBytes_keeps h _) fun _ => .pure _

theorem storeBcd_keeps (f : Fpu) : Keeps p (storeBcd f) := by
  unfold storeBcd
  extract_lets t
  clear_value t
  cases t with
  | some r => exact .pure _
  | none => exact .ite (.pure _) <| .bind (bcdIndefinite_keeps h) fun _ => .pure _

theorem fbstpForm_keeps (m : FMem) :
    Keeps p (fpuStore 7 6 m 10 8 fun sp => storeForm sp 10 1 bcdIndefinite storeBcd) :=
  fpuStore_keeps h _ _ m _ _ fun _ => storeForm_keeps h _ _ _ (bcdIndefinite_keeps h) (storeBcd_keeps h)

theorem fcmovForm_keeps (esc digit : BitVec 3) (c : State → Bool) (i : Reg3) : Keeps p (fcmovForm esc digit c i) :=
  fpuReg_keeps h _ _ <| .afterRead fun _ => fpuCodes_keeps h ..

theorem stepForm_keeps (b : Byte) (d : BitVec 3) : Keeps p (stepForm b d) := fpuReg_keeps h _ _ (fpuCodes_keeps h ..)

theorem drawBits80_keeps : Keeps p drawBits80 :=
  .bind (draw_keeps h.reg) fun _ => .bind (draw_keeps h.reg) fun _ => .pure _

theorem trigCodes_keeps (mask : BitVec 16) (out : Bool) : Keeps p (trigCodes mask out) :=
  .bind (openCodes_keeps h _) fun _ => updFpu_keeps h _

theorem trigForm_keeps (b : Byte) (mask : BitVec 16) (range : Fpu → Fpu) (t : Config.Transcendental)
    (atZero : Bool → FVal) : Keeps p (trigForm b mask range t atZero) :=
  fpuReg_keeps h _ _ <| .afterRead fun _ => .bind (updFpu_keeps h _) fun _ => trigCodes_keeps h ..

theorem trigPairForm_keeps (b : Byte) (range : Fpu → Fpu) (first : Fpu → BitVec 80 × BitVec 6 × Bool)
    (second : Fpu → BitVec 80) : Keeps p (trigPairForm b range first second) :=
  fpuReg_keeps h _ _ <| .afterRead fun _ => .bind (updFpu_keeps h _) fun _ => trigCodes_keeps h ..

theorem trans2Form_keeps (b : Byte) (op : BitVec 80 → Fpu → BitVec 80 × BitVec 6 × Bool) : Keeps p (trans2Form b op) :=
  fpuReg_keeps h _ _ <| .bind (drawBits80_keeps h) fun _ => fpuCodes_keeps h ..

theorem fnclexForm_keeps : Keeps p fnclexForm := .bind fpuEnabled_keeps fun _ => fpuCodes_keeps h ..

theorem fninitForm_keeps : Keeps p fninitForm := .bind fpuEnabled_keeps fun _ => updFpu_keeps h _

theorem fldcwForm_keeps (m : FMem) : Keeps p (fldcwForm m) :=
  .bind fpuReady_keeps fun _ => .bind (loadBytes_keeps h.mem ..) fun _ => fpuCodes_keeps h ..

theorem fnstcwForm_keeps (m : FMem) : Keeps p (fnstcwForm m) :=
  .bind fpuEnabled_keeps fun _ => .afterRead fun _ => .bind (storeBytes_keeps h.mem ..) fun _ => openCodes_keeps h _

theorem fnstswForm_keeps (a : FSw) : Keeps p (fnstswForm a) := by
  refine .bind fpuEnabled_keeps fun _ => .afterRead fun _ => ?_
  cases a with
  | mem m => exact storeBytes_keeps h.mem ..
  | ax => exact .frame h fun _ => rfl

theorem fldenvForm_keeps (osz : Width) (m : FMem) : Keeps p (fldenvForm osz m) :=
  .bind fpuReady_keeps fun _ => .bind (loadBytes_keeps h.mem ..) fun _ => .frame h fun _ => rfl

theorem fnstenvForm_keeps (osz : Width) (m : FMem) : Keeps p (fnstenvForm osz m) :=
  .bind fpuEnabled_keeps fun _ => .bind (openBytes_keeps h _) fun _ => .afterRead fun _ =>
    .bind (storeBytes_keeps h.mem ..) fun _ => fpuCodes_keeps h ..

theorem frstorForm_keeps (osz : Width) (m : FMem) : Keeps p (frstorForm osz m) :=
  .bind fpuReady_keeps fun _ => .bind (loadBytes_keeps h.mem ..) fun _ => .frame h fun _ => rfl

theorem fnsaveForm_keeps (osz : Width) (m : FMem) : Keeps p (fnsaveForm osz m) :=
  .bind fpuEnabled_keeps fun _ => .bind (openBytes_keeps h _) fun _ => .afterRead fun _ =>
    .bind (storeBytes_keeps h.mem ..) fun _ => updFpu_keeps h _

omit h in
theorem waitForm_keeps : Keeps p waitForm := .afterRead fun _ => .afterCheck fpuPending_keeps

theorem emmsForm_keeps : Keeps p emmsForm :=
  .afterRead fun _ => .afterCheck <| .afterCheck <| .bind fpuPending_keeps fun _ => updFpu_keeps h _

omit h in
theorem fxReady_keeps : Keeps p fxReady := .afterRead fun _ => .afterCheck <| .raiseIf ..

theorem stackRows_keeps (f : Fpu) (n : Nat) : Keeps p (stackRows f n) := by
  induction n with
  | zero => exact .pure _
  | succ n ih => exact .bind (openBytes_keeps h _) fun _ => .bind ih fun _ => .pure _

theorem fxsaveForm_keeps (rexw : Bool) (m : Mem) : Keeps p (fxsaveForm rexw m) :=
  .bind fxReady_keeps fun _ => .afterRead fun _ => .bind (openBytes_keeps h _) fun _ => .bind (stackRows_keeps h ..) fun _ =>
    .bind (openBytes_keeps h _) fun _ => .bind (openBytes_keeps h _) fun _ =>
    .ite (.bind (.pure _) fun _ => storeLow_keeps h.mem ..) (.bind (openBytes_keeps h _) fun _ => storeLow_keeps h.mem ..)

/-- A load of MXCSR with a value that has no reserved bit (R441, R651). -/
theorem StepStable.loadMxcsr {s t : State} (hs : p s) (hm : t.mxcsr &&& ~~~Config.mxcsrMask = 0)
    (e : t.watched = { s with mxcsr := t.mxcsr }.watched) : p t :=
  h.frame (h.regs s { s with mxcsr := t.mxcsr } rfl (fun l => { l with mxcsrDefined := hm }) hs) e

theorem fxrstorForm_keeps (rexw : Bool) (m : Mem) : Keeps p (fxrstorForm rexw m) :=
  .bind fxReady_keeps fun _ => .bind (loadLow_keeps h.mem ..) fun v => .bind_readS fun s _ => .afterPassed fun hc =>
    .upd fun u hu => by
      rw [State.fxSimd_eq, Bool.true_and, bne_eq_false_iff_eq] at hc
      rw [State.loadSimd_eq]
      exact h.loadMxcsr hu hc rfl

/-! ### SSE -/

omit h in
theorem sseReady_keeps : Keeps p sseReady := .afterRead fun _ => .afterCheck <| .raiseIf ..

omit h in
theorem mmxReady_keeps : Keeps p mmxReady := .bind sseReady_keeps fun _ => fpuPending_keeps

theorem readXm_keeps (n : Nat) (al : Align) (src : XM) : Keeps p (readXm n al src) := by
  cases src with
  | reg r => exact .readS _
  | mem m => exact .bind (loadLow_keeps h.mem ..) fun _ => .pure _

theorem signalSimd_keeps (x : BitVec 6) : Keeps p (signalSimd x) :=
  .afterRead fun _ => .ite (.bind (.upd fun _ hs => h.setMxFlags hs) fun _ => .raiseHere _)
    (.upd fun _ hs => h.setMxFlags hs)

theorem commitXmm_keeps (dst : Reg) (r : Lane 128) : Keeps p (commitXmm dst r) :=
  .bind (signalSimd_keeps h _) fun _ => .frame h fun _ => rfl

theorem packedForm_keeps (dst : Reg) (src : XM) (g : State → BitVec 128 → BitVec 128 → Lane 128) :
    Keeps p (packedForm dst src g) :=
  .bind sseReady_keeps fun _ => .bind (readXm_keeps h ..) fun _ => .afterRead fun _ => commitXmm_keeps h ..

theorem scalarD_keeps (dst : Reg) (src : XM) (g : State → BitVec 128 → BitVec 128 → Lane 64) :
    Keeps p (scalarD dst src g) :=
  .bind sseReady_keeps fun _ => .bind (readXm_keeps h ..) fun _ => .afterRead fun _ => commitXmm_keeps h ..

theorem scalarS_keeps (dst : Reg) (src : XM) (g : State → BitVec 128 → BitVec 128 → Lane 32) :
    Keeps p (scalarS dst src g) :=
  .bind sseReady_keeps fun _ => .bind (readXm_keeps h ..) fun _ => .afterRead fun _ => commitXmm_keeps h ..

theorem logicForm_keeps (g : BitVec 128 → BitVec 128 → BitVec 128) (dst : Reg) (src : XM) :
    Keeps p (logicForm g dst src) :=
  .bind sseReady_keeps fun _ => .bind (readXm_keeps h ..) fun _ => .frame h fun _ => rfl

theorem comiCommit_keeps (a b : FVal) : Keeps p (comiCommit a b) :=
  .bind (signalSimd_keeps h _) fun _ => setFlags_keeps h _

theorem comisdForm_keeps (dst : Reg) (src : XM) : Keeps p (comisdForm dst src) :=
  .bind sseReady_keeps fun _ => .bind (readXm_keeps h ..) fun _ => .afterRead fun _ => comiCommit_keeps h ..

theorem comissForm_keeps (dst : Reg) (src : XM) : Keeps p (comissForm dst src) :=
  .bind sseReady_keeps fun _ => .bind (readXm_keeps h ..) fun _ => .afterRead fun _ => comiCommit_keeps h ..

theorem convert64_keeps (dst : Reg) (src : XM) (g : State → BitVec 128 → Lane 128) : Keeps p (convert64 dst src g) :=
  .bind sseReady_keeps fun _ => .bind (readXm_keeps h ..) fun _ => .afterRead fun _ => commitXmm_keeps h ..

/-- A conversion of one scalar into an XMM register. -/
theorem convertScalar_keeps (n : Nat) (al : Align) (dst : Reg) (src : XM) (g : State → BitVec 128 → Lane 128) :
    Keeps p (do
      sseReady
      let b ← readXm n al src
      let t ← readS id
      commitXmm dst (g t b)) :=
  .bind sseReady_keeps fun _ => .bind (readXm_keeps h ..) fun _ => .afterRead fun _ => commitXmm_keeps h ..

theorem toMmxForm_keeps (dst : Reg3) {read : XM → M (BitVec 128)} (hr : ∀ x, Keeps p (read x)) (src : XM)
    (g : State → BitVec 128 → Nat → Lane 32) : Keeps p (toMmxForm dst read src g) :=
  .bind mmxReady_keeps fun _ => .bind (hr src) fun _ => .afterRead fun _ => .bind (signalSimd_keeps h _) fun _ =>
    updFpu_keeps h _

theorem readMm_keeps (src : MM) : Keeps p (readMm src) := by
  cases src with
  | reg i => exact .readS _
  | mem m => exact .bind (loadLow_keeps h.mem ..) fun _ => .pure _

theorem cvtpi2pdForm_keeps (dst : Reg) (src : MM) : Keeps p (cvtpi2pdForm dst src) :=
  .bind mmxReady_keeps fun _ => .bind (readMm_keeps h _) fun _ => .afterRead fun _ => .bind (commitXmm_keeps h ..) fun _ =>
    .ite (.pure _) (updFpu_keeps h _)

theorem cvtpi2psForm_keeps (dst : Reg) (src : MM) : Keeps p (cvtpi2psForm dst src) :=
  .bind mmxReady_keeps fun _ => .bind (readMm_keeps h _) fun _ => .afterRead fun _ => .bind (commitXmm_keeps h ..) fun _ =>
    updFpu_keeps h _

theorem toGprForm_keeps (w : Width) (dst : Reg) {read : XM → M (BitVec 128)} (hr : ∀ x, Keeps p (read x)) (src : XM)
    (g : State → BitVec 128 → Lane w.bits) : Keeps p (toGprForm w dst read src g) :=
  .bind sseReady_keeps fun _ => .bind (hr src) fun _ => .afterRead fun _ => .bind (signalSimd_keeps h _) fun _ =>
    writeReg_keeps h ..

theorem readRmLow_keeps (w : Width) (src : RM) : Keeps p (readRmLow w src) := by
  cases src with
  | reg r => exact .readS _
  | mem m => exact .bind (loadLow_keeps h.mem ..) fun _ => .pure _

theorem cvtsi2sdForm_keeps (w : Width) (dst : Reg) (src : RM) : Keeps p (cvtsi2sdForm w dst src) :=
  .bind sseReady_keeps fun _ => .bind (readRmLow_keeps h ..) fun _ => .afterRead fun _ => commitXmm_keeps h ..

theorem cvtsi2ssForm_keeps (w : Width) (dst : Reg) (src : RM) : Keeps p (cvtsi2ssForm w dst src) :=
  .bind sseReady_keeps fun _ => .bind (readRmLow_keeps h ..) fun _ => .afterRead fun _ => commitXmm_keeps h ..

theorem lddquForm_keeps (dst : Reg) (src : XM) : Keeps p (lddquForm dst src) :=
  memOnlyThen_keeps fun _ => .bind sseReady_keeps fun _ => .bind (loadLow_keeps h.mem ..) fun _ => .frame h fun _ => rfl

theorem ldmxcsrForm_keeps (m : Mem) : Keeps p (ldmxcsrForm m) :=
  .bind sseReady_keeps fun _ => .bind (loadLow_keeps h.mem ..) fun _ => .afterPassed fun hc =>
    .upd fun _ hu => h.loadMxcsr hu (bne_eq_false_iff_eq.1 hc) rfl

end Sys2Proof.Machine
end

