-- ==== Sys2Proof/Proofs/StableSystem.lean ====
section
/-! SUPPORT. The meanings of the system instructions keep every stable property: the values that the control and
model-specific registers accept are legal ones. -/

namespace Sys2Proof.Machine

/-! ### Legal values of the system registers -/

/-- CR0 with other bits 3:0, of which PE is not cleared (R385, R428). -/
theorem State.Legal.withCr0Low {s : State} (l : s.Legal) {v : Word} (hv : ∀ i, 4 ≤ i → v.getLsbD i = s.cr0.getLsbD i)
    (hpe : s.pe = true → v.getLsbD 0 = true) : { s with cr0 := v }.Legal := by
  have hpg : v.getLsbD 31 = s.pg := hv 31 (by decide)
  have fixed : v &&& 0xFFFFFFFF00000010 = s.cr0 &&& 0xFFFFFFFF00000010 := by
    apply BitVec.eq_of_getLsbD_eq
    intro i _
    rw [BitVec.getLsbD_and, BitVec.getLsbD_and]
    by_cases hi : 4 ≤ i
    · rw [hv i hi]
    · have : (0xFFFFFFFF00000010 : Word).getLsbD i = false := by
        obtain rfl | rfl | rfl | rfl : i = 0 ∨ i = 1 ∨ i = 2 ∨ i = 3 := by omega
        all_goals decide
      rw [this, Bool.and_false, Bool.and_false]
  exact { l with
    cr0Fixed := fixed.trans l.cr0Fixed
    paging := fun h => hpe (l.paging (hpg ▸ h))
    caching := by
      show v.getLsbD 29 = true → v.getLsbD 30 = true
      rw [hv 29 (by decide), hv 30 (by decide)]; exact l.caching
    active := l.active.trans (congrArg (s.lme && ·) hpg.symm) }

/-- Bits 63:32 of a value that has none. -/
theorem getLsbD_of_high_zero {v : Word} (hv : v.extractLsb' 32 32 = 0) {i : Nat} (hi : 32 ≤ i) : v.getLsbD i = false := by
  have h := congrArg (·.getLsbD (i - 32)) hv
  simp only [BitVec.getLsbD_extractLsb'] at h
  rw [show 32 + (i - 32) = i by omega] at h
  by_cases h64 : i < 64
  · simpa [show i - 32 < 32 by omega] using h
  · exact BitVec.getLsbD_of_ge v i (by omega)

/-- With ET set and the upper half 0, the fixed bits of CR0 have their values (R54, R785). -/
theorem cr0Fixed_of_high_zero {v : Word} (hv : v.extractLsb' 32 32 = 0) :
    (v ||| 0x10) &&& 0xFFFFFFFF00000010 = (0x10 : Word) := by
  have low : ∀ i < 32, (0xFFFFFFFF00000010 : Word).getLsbD i = (0x10 : Word).getLsbD i := by decide
  apply BitVec.eq_of_getLsbD_eq
  intro i _
  rw [BitVec.getLsbD_and, BitVec.getLsbD_or]
  by_cases hi : 32 ≤ i
  · have : ∀ i < 64, 32 ≤ i → (0x10 : Word).getLsbD i = false := by decide
    rw [getLsbD_of_high_zero hv hi, this i ‹_› hi]; rfl
  · rw [low i (by omega)]; cases v.getLsbD i <;> cases (0x10 : Word).getLsbD i <;> rfl

/-- The values that MOV to CR0 accepts, with the LMA that follows (R751, R752, R785). -/
theorem State.Legal.putCr0 {s : State} (l : s.Legal) {v : Word} (hv : s.cr0Rejects v = false) : (s.putCr0 v).Legal := by
  simp only [State.cr0Rejects, Bool.or_eq_false_iff, Bool.and_eq_false_imp, bne_eq_false_iff_eq, Bool.not_eq_false',
    beq_eq_false_iff_ne] at hv
  obtain ⟨⟨⟨⟨hhigh, hpe⟩, hcd⟩, hact⟩, -⟩ := hv
  have bit (i : Nat) (hi : (0x10 : Word).getLsbD i = false) : (v ||| 0x10).getLsbD i = v.getLsbD i := by
    rw [BitVec.getLsbD_or, hi, Bool.or_false]
  have lma : (s.putCr0 v).lma = (s.lme && v.getLsbD 31) := by
    simp [State.lma, State.putCr0, putBit_getLsbD, -BitVec.getLsbD_eq_getElem]
  have lme : (s.putCr0 v).lme = s.lme := by
    simp [State.lme, State.putCr0, putBit_getLsbD, -BitVec.getLsbD_eq_getElem]
  have pg : (s.putCr0 v).pg = v.getLsbD 31 := bit 31 (by decide)
  exact { l with
    cr0Fixed := cr0Fixed_of_high_zero hhigh
    paging := by
      rw [pg]
      exact fun h => (bit 0 (by decide)).trans (hpe h)
    caching := by
      show (v ||| 0x10).getLsbD 29 = true → (v ||| 0x10).getLsbD 30 = true
      rw [bit 29 (by decide), bit 30 (by decide)]; exact hcd
    eferDefined := (putBit_outside _ _ (by decide)).trans l.eferDefined
    active := by rw [lma, lme, pg]
    activePae := by
      rw [lma, Bool.and_eq_true]
      rintro ⟨hlme, hv31⟩
      cases hpg : s.pg
      · exact (hact (by rw [hv31, hpg, hlme]; rfl)).1.1.1
      · exact l.activePae (by rw [l.active, hlme, hpg]; rfl) }

/-- The values that MOV to CR4 accepts (R57, R752, R785). -/
theorem State.Legal.withCr4 {s : State} (l : s.Legal) {v : Word} (hv : s.cr4Rejects v = false) :
    { s with cr4 := v }.Legal := by
  simp only [State.cr4Rejects, Bool.or_eq_false_iff, Bool.and_eq_false_imp, bne_eq_false_iff_eq, Bool.not_eq_false'] at hv
  exact { l with cr4Defined := hv.1, activePae := fun h => hv.2 (by rw [l.activePae h, Bool.and_true]; exact h) }

/-- WRMSR leaves memory alone. -/
theorem State.writeMsr_mem {s t : State} {a : BitVec 32} {v : Word} (ht : s.writeMsr a v = some t) : t.mem = s.mem := by
  unfold State.writeMsr at ht
  repeat' split at ht
  all_goals cases ht
  all_goals rfl

/-- What an update behind a check leaves, where the check lets it. -/
theorem State.Legal.of_guarded {c : Bool} {u t : State}
    (e : (if c then some u else none) = some t) (hu : c = true → u.Legal) : t.Legal := by
  cases c with
  | false => cases e
  | true => cases e; exact hu rfl

/-- The values of IA32_EFER that WRMSR accepts (R51, R752). -/
theorem State.Legal.withEfer {s : State} (l : s.Legal) {v : Word}
    (hv : (v &&& 0xFFFFFFFFFFFFFAFE != 0 || (s.pg && v.getLsbD 8 != s.lme)) = false) :
    { s with efer := s.eferAfter v }.Legal := by
  simp only [Bool.or_eq_false_iff, bne_eq_false_iff_eq, Bool.and_eq_false_imp] at hv
  obtain ⟨defined, kept⟩ := hv
  have lma : State.lma { s with efer := s.eferAfter v } = s.lma := by
    simp [State.lma, State.eferAfter, putBit_getLsbD, -BitVec.getLsbD_eq_getElem]
  have lme : State.lme { s with efer := s.eferAfter v } = v.getLsbD 8 := by
    simp [State.lme, State.eferAfter, putBit_getLsbD, -BitVec.getLsbD_eq_getElem]
  exact { l with
    eferDefined := (putBit_outside _ _ (by decide)).trans defined
    active := by
      rw [lma, lme]
      show s.lma = (v.getLsbD 8 && s.pg)
      rw [l.active]
      cases hpg : s.pg
      · rw [Bool.and_false, Bool.and_false]
      · rw [kept hpg]
    activePae := fun h => l.activePae (lma.symm.trans h) }

/-- A value of 32 bits has no upper half. -/
theorem truncTo_b32_high (v : Word) : (truncTo .b32 v).extractLsb' 32 32 = 0 := by
  apply BitVec.eq_of_toNat_eq
  rw [BitVec.extractLsb'_toNat, Nat.shiftRight_eq_div_pow, truncTo, BitVec.toNat_setWidth]
  have := (v.setWidth Width.b32.bits).isLt
  change _ < 2 ^ 32 at this
  show _ / 2 ^ 32 % 2 ^ 32 = 0
  omega

/-- WRMSR leaves a legal state, where it does not raise (R64 to R66, R752, R795). -/
theorem State.Legal.writeMsr {s t : State} (l : s.Legal) {a : BitVec 32} {v : Word} (ht : s.writeMsr a v = some t) :
    t.Legal := by
  unfold State.writeMsr at ht
  split at ht
  case h_1 =>
    cases hv : v &&& 0xFFFFFFFFFFFFFAFE != 0 || (s.pg && v.getLsbD 8 != s.lme) with
    | true => rw [hv] at ht; cases ht
    | false => rw [hv] at ht; cases ht; exact l.withEfer hv
  case h_2 => cases ht; exact { l with }
  case h_3 => exact .of_guarded ht fun hc => { l with lstar := hc }
  case h_4 => exact .of_guarded ht fun hc => { l with cstar := hc }
  case h_5 => cases ht; exact { l with fmaskLow := truncTo_b32_high v }
  case h_6 => exact .of_guarded ht fun hc => { l with fsBase := hc }
  case h_7 => exact .of_guarded ht fun hc => { l with gsBase := hc }
  case h_8 => exact .of_guarded ht fun hc => { l with kernelGs := hc }
  case h_9 => cases ht

/-- The fixed bit 1 of EFLAGS set in flags that have no other reserved one. -/
theorem reserved_or_two {v : BitVec 32} (hv : v &&& 0xFFC08028 = 0) : ((v ||| 2) &&& reservedFlags == 2) = true := by
  have : (v ||| 2) &&& reservedFlags = 2 := by
    have drop : v &&& 2 ||| 2 = 2 := by
      apply BitVec.eq_of_getLsbD_eq
      intro i _
      rw [BitVec.getLsbD_or, BitVec.getLsbD_and]
      cases v.getLsbD i <;> cases (2 : BitVec 32).getLsbD i <;> rfl
    rw [show reservedFlags = 0xFFC08028 ||| 2 from rfl, BitVec.and_or_distrib_right, BitVec.and_or_distrib_left, hv,
      show (0 : BitVec 32) ||| v &&& 2 = v &&& 2 from BitVec.zero_or, BitVec.and_or_distrib_left]
    exact drop
  rw [this]; rfl

/-- The flags that SYSCALL leaves (R792). -/
theorem State.Legal.syscallFlags {s : State} (l : s.Legal) : (s.syscallFlags &&& reservedFlags == 2) = true := by
  apply reserved_or_two
  have hl : s.rflags &&& reservedFlags = 2 := eq_of_beq l.flags
  have low : s.rflags &&& 0xFFC08028 = 0 := by
    rw [show (0xFFC08028 : BitVec 32) = reservedFlags &&& 0xFFC08028 from rfl, ← BitVec.and_assoc, hl]; rfl
  rw [putBit_outside _ _ (by decide), BitVec.and_assoc, BitVec.and_comm (~~~ _), ← BitVec.and_assoc, low,
    show (0 : BitVec 32) &&& _ = 0 from BitVec.zero_and]

/-- The flags that SYSRET leaves (R793). -/
theorem State.sysretFlags_reserved (s : State) : (s.sysretFlags &&& reservedFlags == 2) = true := by
  apply reserved_or_two
  rw [BitVec.and_assoc]
  exact BitVec.and_zero

/-- LMSW replaces bits 3:1 and can only set PE (R428). -/
theorem lmswValue_getLsbD (c : Word) (v : BitVec 16) (i : Nat) :
    (lmswValue c v).getLsbD i =
      if i = 0 then c.getLsbD 0 || v.getLsbD 0 else if i < 4 then v.getLsbD i else c.getLsbD i := by
  have keep : ∀ i < 64, (~~~(0xE : Word)).getLsbD i = (i == 0 || decide (4 ≤ i)) := by decide
  have take : ∀ i < 64, (0xF : Word).getLsbD i = decide (i < 4) := by decide
  by_cases hi : i < 64
  · rw [lmswValue, BitVec.getLsbD_or, BitVec.getLsbD_and, BitVec.getLsbD_and, BitVec.getLsbD_setWidth, keep i hi,
      take i hi]
    obtain rfl | ⟨h0, h4⟩ | ⟨h0, h4⟩ : i = 0 ∨ (i ≠ 0 ∧ i < 4) ∨ (i ≠ 0 ∧ 4 ≤ i) := by omega
    · simp
    · simp [h0, h4, hi, show ¬4 ≤ i by omega]
    · simp [h0, h4, show ¬i < 4 by omega]
  · have : ¬i < 4 := by omega
    rw [BitVec.getLsbD_of_ge _ _ (by omega), if_neg (by omega), if_neg this, BitVec.getLsbD_of_ge _ _ (by omega)]

section
variable {p : State → Prop}

/-! ### Checks -/

theorem needCpl0_keeps : Keeps p needCpl0 := .afterRead fun _ => .raiseIf ..
theorem needIopl_keeps : Keeps p needIopl := .afterRead fun _ => .raiseIf ..
theorem needSelectors_keeps : Keeps p needSelectors := .afterRead fun _ => .raiseIf ..
theorem needLong64_keeps : Keeps p needLong64 := .afterRead fun _ => .raiseIf ..
theorem needSyscall_keeps : Keeps p needSyscall := .afterRead fun _ => .raiseIf ..
theorem needCr_keeps (cr : Reg) : Keeps p (needCr cr) := .afterRead fun _ => .afterCheck needCpl0_keeps
theorem needDr_keeps (dr : Reg) : Keeps p (needDr dr) := .afterRead fun _ => .afterCheck needCpl0_keeps

theorem invlpgForm_keeps (src : RM) : Keeps p (invlpgForm src) :=
  memOnlyThen_keeps fun _ => .bind needCpl0_keeps fun _ => .afterRead fun _ => .raiseIf ..

variable (h : StepStable p)
include h

/-! ### Flags, fences and CPUID -/

theorem flagForm_keeps {i : Nat} (f : State → Bool) (hi : reservedFlags.getLsbD i = false := by decide) :
    Keeps p (flagForm i f) := setFlag_keeps h f hi

theorem cliForm_keeps : Keeps p cliForm := .bind needIopl_keeps fun _ => flagForm_keeps h _

theorem stiForm_keeps : Keeps p stiForm :=
  .bind needIopl_keeps fun _ => .bind (flagForm_keeps h _) fun _ => .frame h fun _ => rfl

theorem cltsForm_keeps : Keeps p cltsForm :=
  .bind needCpl0_keeps fun _ => .upd fun s hs => h.regs s _ rfl (fun l => l.withCr0Low
    (fun i hi => by rw [putBit_getLsbD, if_neg (by omega)])
    (fun hpe => by rw [putBit_getLsbD, if_neg (by decide)]; exact hpe)) hs

theorem arplForm_keeps (dst : RM) (src : Reg) : Keeps p (arplForm dst src) :=
  .bind needSelectors_keeps fun _ => .afterRead fun _ => updateRmb_keeps h.reg .b16 _ fun _ =>
    .bind (flagForm_keeps h _) fun _ => .pure _

theorem clflushForm_keeps (m : Mem) : Keeps p (clflushForm m) := .bind (resolveLow_keeps h.mem ..) fun _ => .pure _

theorem hltForm_keeps : Keeps p hltForm := .bind needCpl0_keeps fun _ => .frame h fun _ => rfl

theorem cpuidForm_keeps : Keeps p cpuidForm := .frame h fun _ => rfl

/-! ### Segments and descriptor tables -/

theorem probeDesc_keeps (sel : BitVec 16) : Keeps p (probeDesc sel) :=
  .afterRead fun _ => .ite (.pure _) <| .bind (sysRead_keeps h.mem ..) fun _ => .pure _

theorem inspectForm_keeps (types : Bool → BitVec 4 → Bool) (value : BitVec 64 → BitVec 64) (w : Width) (r : Reg)
    (src : RM) : Keeps p (inspectForm types value w r src) := by
  refine .bind needSelectors_keeps fun _ => .bind (readRm_keeps h.mem ..) fun sel => .bind (probeDesc_keeps h _) fun d => ?_
  cases d with
  | none => exact flagForm_keeps h _
  | some d =>
    exact .afterRead fun _ => .ite (.bind (flagForm_keeps h _) fun _ => writeReg_keeps h ..) (flagForm_keeps h _)

theorem verifyForm_keeps (ok : SegReg → Bool) (src : RM) : Keeps p (verifyForm ok src) := by
  refine .bind needSelectors_keeps fun _ => .bind (readRm_keeps h.mem ..) fun sel => .bind (probeDesc_keeps h _) fun d => ?_
  cases d with
  | none => exact flagForm_keeps h _
  | some d => exact .afterRead fun _ => flagForm_keeps h _

theorem farLoadForm_keeps (g : SReg) (w : Width) (r : Reg) (src : RM) : Keeps p (farLoadForm g w r src) :=
  memOnlyThen_keeps fun _ => .afterRead fun _ => .bind (readMem_keeps h.mem ..) fun _ =>
    .bind (readMem_keeps h.mem ..) fun _ => .bind (loadSegment_keeps h ..) fun _ => .bind (shadowSs_keeps h _) fun _ =>
    writeReg_keeps h ..

theorem farLoadLegacy_keeps (g : SReg) (w : Width) (r : Reg) (src : RM) : Keeps p (farLoadLegacy g w r src) :=
  .bind invalid64_keeps fun _ => farLoadForm_keeps h ..

theorem tableOperand_keeps (osz : Width) (src : RM) : Keeps p (tableOperand osz src) :=
  memOnlyThen_keeps fun _ => .bind needCpl0_keeps fun _ => .afterRead fun _ => .bind (readMem_keeps h.mem ..) fun _ =>
    .ite (.bind (readMem_keeps h.mem ..) fun _ => .afterCheck <| .pure _) (.bind (readMem_keeps h.mem ..) fun _ => .pure _)

theorem lgdtForm_keeps (osz : Width) (src : RM) : Keeps p (lgdtForm osz src) :=
  .bind (tableOperand_keeps h ..) fun _ => .frame h fun _ => rfl

theorem lidtForm_keeps (osz : Width) (src : RM) : Keeps p (lidtForm osz src) :=
  .bind (tableOperand_keeps h ..) fun _ => .frame h fun _ => rfl

theorem storeTable_keeps (m : Mem) (t : State → TableReg) : Keeps p (storeTable m t) :=
  .afterRead fun _ => .bind (writeMem_keeps h.mem ..) fun _ => writeMem_keeps h.mem ..

theorem readSystemDesc_keeps (sel : BitVec 16) : Keeps p (readSystemDesc sel) := by
  refine .afterRead fun _ => .ite ?_ (.bind (readDescPart_keeps h.mem ..) fun _ => .pure _)
  rw [readDesc16_eq]
  exact .bind (readDescPart_keeps h.mem ..) fun _ => .bind (readDescPart_keeps h.mem ..) fun _ => .pure _

theorem systemDesc_keeps (ok : SegReg → Bool) (sel : BitVec 16) : Keeps p (systemDesc ok sel) :=
  .afterCheck <| .bind (readSystemDesc_keeps h _) fun _ => .afterCheck <| .afterCheck <| .afterCheck <| .afterCheck <|
    .pure _

theorem lldtForm_keeps (src : RM) : Keeps p (lldtForm src) :=
  .bind needSelectors_keeps fun _ => .bind needCpl0_keeps fun _ => .bind (readRm_keeps h.mem ..) fun _ =>
    .ite (.frame h fun _ => rfl) <| .bind (systemDesc_keeps h ..) fun _ => .frame h fun _ => rfl

theorem ltrForm_keeps (src : RM) : Keeps p (ltrForm src) :=
  .bind needSelectors_keeps fun _ => .bind needCpl0_keeps fun _ => .bind (readRm_keeps h.mem ..) fun _ => .afterCheck <|
    .afterRead fun _ => .bind (systemDesc_keeps h ..) fun _ => .bind (sysUpdate_keeps h.mem ..) fun _ =>
    .frame h fun _ => rfl

theorem storeSystem_keeps (osz : Width) (dst : RM) (v : State → Word) : Keeps p (storeSystem osz dst v) := by
  refine .afterRead fun _ => ?_
  cases dst with
  | reg r => exact writeReg_keeps h ..
  | mem m => exact storeMem_keeps h.mem ..

theorem sldtForm_keeps (osz : Width) (dst : RM) : Keeps p (sldtForm osz dst) :=
  .bind needSelectors_keeps fun _ => storeSystem_keeps h ..

theorem strForm_keeps (osz : Width) (dst : RM) : Keeps p (strForm osz dst) :=
  .bind needSelectors_keeps fun _ => storeSystem_keeps h ..

theorem lmswForm_keeps (src : RM) : Keeps p (lmswForm src) := by
  refine .bind needCpl0_keeps fun _ => .bind (readRm_keeps h.mem ..) fun v => .upd fun s hs =>
    h.regs s _ rfl (fun l => l.withCr0Low (fun i hi => ?_) fun hpe => ?_) hs
  · rw [lmswValue_getLsbD, if_neg (by omega), if_neg (by omega)]
  · rw [lmswValue_getLsbD, if_pos rfl, show s.cr0.getLsbD 0 = true from hpe, Bool.true_or]

/-! ### Control, debug and model-specific registers -/

theorem putSpecial_keeps (r : Reg) (f : State → Word) : Keeps p (upd fun s => s.putSpecial r (f s)) :=
  .frame h fun s => s.putSpecial_watched r _

theorem movFromCrForm_keeps (cr r : Reg) : Keeps p (movFromCrForm cr r) :=
  .bind (needCr_keeps _) fun _ => .bind (putSpecial_keeps h ..) fun _ => openFlags_keeps h

theorem writeCr_keeps (cr : Reg) (v : Word) : Keeps p (writeCr cr v) := by
  refine ⟨fun s hs => ?_⟩
  unfold writeCr
  rw [readS_bind]
  generalize cr.toNat = n
  match n with
  | 0 =>
    cases hc : s.cr0Rejects v
    · rw [id, hc]; exact h.regs s _ rfl (fun l => l.putCr0 hc) hs
    · rw [id, hc]; trivial
  | 2 => exact h.frame hs rfl
  | 3 =>
    refine Keeps.run (.afterCheck ?_) s hs
    exact .frame h fun _ => rfl
  | 4 =>
    cases hc : s.cr4Rejects v
    · rw [id, hc]; exact h.regs s _ rfl (fun l => l.withCr4 hc) hs
    · rw [id, hc]; trivial
  | 1 | _ + 5 =>
    refine Keeps.run (.afterCheck ?_) s hs
    exact .frame h fun _ => rfl

theorem movToCrForm_keeps (cr r : Reg) : Keeps p (movToCrForm cr r) :=
  .bind (needCr_keeps _) fun _ => .afterRead fun _ => .bind (writeCr_keeps h ..) fun _ => openFlags_keeps h

theorem movFromDrForm_keeps (dr r : Reg) : Keeps p (movFromDrForm dr r) :=
  .bind (needDr_keeps _) fun _ => .bind (putSpecial_keeps h ..) fun _ => openFlags_keeps h

theorem movToDrForm_keeps (dr r : Reg) : Keeps p (movToDrForm dr r) :=
  .bind (needDr_keeps _) fun _ => .afterRead fun _ => .afterCheck <|
    .bind (.frame h fun s => s.putDr_watched dr _) fun _ => openFlags_keeps h

theorem rdmsrForm_keeps : Keeps p rdmsrForm := by
  refine .bind needCpl0_keeps fun _ => .afterRead fun s => ?_
  split
  · exact .raise _
  · exact .frame h fun _ => rfl

theorem wrmsrForm_keeps : Keeps p wrmsrForm := by
  refine .bind needCpl0_keeps fun _ => .bind_readS fun s hs => ?_
  split
  · exact .raise _
  · next t ht => exact .upd fun _ _ => h.regs s t (State.writeMsr_mem ht) (fun l => l.writeMsr ht) hs

theorem rdtscForm_keeps : Keeps p rdtscForm := .afterRead fun _ => .afterCheck <| .frame h fun _ => rfl

/-! ### System calls -/

theorem swapgsForm_keeps : Keeps p swapgsForm :=
  .bind needLong64_keeps fun _ => .bind needCpl0_keeps fun _ => .upd fun s hs =>
    h.regs s _ rfl (fun l => { l with gsBase := l.kernelGs, kernelGs := l.gsBase }) hs

theorem syscallForm_keeps : Keeps p syscallForm := by
  refine .bind needSyscall_keeps fun _ => .afterRead fun t => ?_
  cases t with
  | none => exact .raise _
  | some rip =>
    refine .upd fun s hs => h.regs s _ rfl (fun l => { l with flags := l.syscallFlags }) hs

theorem sysretForm_keeps (rexw : Bool) : Keeps p (sysretForm rexw) := by
  refine .bind needSyscall_keeps fun _ => .bind needCpl0_keeps fun _ => .afterRead fun _ => .afterCheck <|
    .upd fun s hs => h.regs s _ rfl (fun l => { l with flags := s.sysretFlags_reserved }) hs

end

end Sys2Proof.Machine
end

