-- ==== Sys2Proof/Proofs/StableStep.lean ====
section
/-! SUPPORT. Every instruction keeps every stable property, and so does every step; with it, every step keeps the state
legal. -/

namespace Sys2Proof.Machine

open Sys2Proof

section
variable {p : State → Prop} (h : StepStable p)
include h

/-! ### Every instruction -/

theorem convert_keeps (w : Width) : Keeps p (upd (·.convert w)) := .frame h fun s => s.convert_watched w

theorem spreadSign_keeps (w : Width) : Keeps p (upd (·.spreadSign w)) := .frame h fun _ => rfl

/-- The meaning of every instruction keeps a stable property: one lemma for each form, by the operands. -/
theorem exec_holds (i : Instr) {s : State} (hs : p s) : Holds p (exec i s) := by
  have seq {m : M Unit} (hm : Keeps p m) : Holds p (runSeq m s) := runSeq_holds h hm hs
  have ins {m : M Unit} (hm : Keeps p m) : Holds p (runInstr m s) := runInstr_holds h hm hs
  cases i with
  | add a => exact seq (aluUpdate_keeps h.reg (addOp_keeps h) a)
  | adc a => exact seq (aluUpdate_keeps h.reg (adcOp_keeps h) a)
  | and a => exact seq (aluUpdate_keeps h.reg (andOp_keeps h) a)
  | or a => exact seq (aluUpdate_keeps h.reg (orOp_keeps h) a)
  | sbb a => exact seq (aluUpdate_keeps h.reg (sbbOp_keeps h) a)
  | sub a => exact seq (aluUpdate_keeps h.reg (subOp_keeps h) a)
  | xor a => exact seq (aluUpdate_keeps h.reg (xorOp_keeps h) a)
  | cmp a => exact seq (aluRead_keeps h.mem (subOp_keeps h) a)
  | test a => exact seq (testForm_keeps h a)
  | inc a => exact seq (incForm_keeps h (incOp_keeps h) a)
  | dec a => exact seq (incForm_keeps h (decOp_keeps h) a)
  | not w rm => exact seq (updateRmb_keeps h.reg w rm fun _ => .pure _)
  | neg w rm => exact seq (updateRmb_keeps h.reg w rm (negOp_keeps h w))
  | mul w rm => exact seq (mulForm_keeps h w rm)
  | div w rm => exact seq (divForm_keeps h w rm)
  | idiv w rm => exact seq (idivForm_keeps h w rm)
  | imul a => exact seq (imulForm_keeps h a)
  | aaa | aas => exact seq (asciiAdjust_keeps h ..)
  | daa => exact seq (daaForm_keeps h)
  | das => exact seq (dasForm_keeps h)
  | aad base => exact seq (aadForm_keeps h base)
  | aam base => exact seq (aamForm_keeps h base)
  | cbw _ | cdqe => exact seq (convert_keeps h _)
  | cwd _ | cqo => exact seq (spreadSign_keeps h _)
  | bswap w r => exact seq (bswapForm_keeps h w r)
  | lahf => exact seq (lahfForm_keeps h)
  | sahf => exact seq (sahfForm_keeps h)
  | lea w r src => exact seq (leaForm_keeps h w r src)
  | cmovo w r src | cmovno w r src | cmovb w r src | cmovae w r src | cmove w r src | cmovne w r src | cmovbe w r src
  | cmova w r src | cmovs w r src | cmovns w r src | cmovp w r src | cmovnp w r src | cmovl w r src | cmovge w r src
  | cmovle w r src | cmovg w r src => exact seq (cmovForm_keeps h _ w r src)
  | cmpxchg w dst src => exact seq (cmpxchgForm_keeps h w dst src)
  | cmpxchg8b dst | cmpxchg16b dst => exact seq (cmpxchgPair_keeps h _ _ dst)
  | xchg a => exact seq (xchgForm_keeps h a)
  | xadd w dst src => exact seq (xaddForm_keeps h w dst src)
  | nop _ | lfence | mfence | sfence => exact seq (.pure ())
  | bsf w r src | bsr w r src => exact seq (scanForm_keeps h _ w r src)
  | bt w dst bit => exact seq (btForm_keeps h w dst bit)
  | btc w dst bit | btr w dst bit | bts w dst bit => exact seq (btxForm_keeps h _ w dst bit)
  | jo osz rel | jno osz rel | jb osz rel | jae osz rel | je osz rel | jne osz rel | jbe osz rel | ja osz rel
  | js osz rel | jns osz rel | jp osz rel | jnp osz rel | jl osz rel | jge osz rel | jle osz rel | jg osz rel =>
    exact ins (jccForm_keeps h _ osz rel)
  | jcxz osz asz rel => exact ins (jcxzForm_keeps h osz asz rel)
  | loop osz asz rel | loope osz asz rel | loopne osz asz rel => exact ins (loopForm_keeps h _ osz asz rel)
  | jmpRel osz rel => exact ins (jumpRel_keeps h osz rel)
  | jmpInd osz src => exact ins (jmpIndForm_keeps h osz src)
  | jmpFarPtr osz off sel | callFarPtr osz off sel => exact ins (farPtrForm_keeps h _ osz off sel)
  | jmpFarMem osz src | callFarMem osz src => exact ins (farMemForm_keeps h _ osz src)
  | callRel osz rel => exact ins (callRelForm_keeps h osz rel)
  | callInd osz src => exact ins (callIndForm_keeps h osz src)
  | ret osz pop => exact ins (retForm_keeps h osz pop)
  | retFar osz pop => exact ins (farReturn_keeps h osz _)
  | enter osz size level => exact seq (enterForm_keeps h osz size level)
  | leave osz => exact seq (leaveForm_keeps h osz)
  | bound w r src => exact seq (boundForm_keeps h w r src)
  | int v => exact ins (m := raise (softInt v)) (.raise _)
  | int3 => exact ins (m := raise (softInt 3)) (.raise _)
  | ud2 | rsm => exact ins (m := raise udFault) (.raise _)
  | into => exact seq intoForm_keeps
  | iret osz => exact ins (interruptReturn_keeps h osz)
  | iretq => exact ins (interruptReturn_keeps h .b64)
  | cmpsb a | cmpsw _ a | cmpsq a => exact ins (cmpsForm_keeps h _ a)
  | lodsb a | lodsw _ a | lodsq a => exact ins (lodsForm_keeps h _ a)
  | movsb a | movsw _ a | movsq a => exact ins (movsForm_keeps h _ a)
  | stosb a | stosw _ a | stosq a => exact ins (stosForm_keeps h _ a)
  | scasb a | scasw _ a | scasq a => exact ins (scasForm_keeps h _ a)
  | insb a | insw _ a => exact ins (insForm_keeps h _ a)
  | outsb a | outsw _ a => exact ins (outsForm_keeps h _ a)
  | inp w port => exact seq (inForm_keeps h w port)
  | outp w port => exact seq (outForm_keeps h w port)
  | arpl dst src => exact seq (arplForm_keeps h dst src)
  | clc => exact seq (flagForm_keeps (i := fCF) h fun _ => false)
  | cmc => exact seq (flagForm_keeps (i := fCF) h fun t => !t.flag fCF)
  | stc => exact seq (flagForm_keeps (i := fCF) h fun _ => true)
  | cld => exact seq (flagForm_keeps (i := fDF) h fun _ => false)
  | std => exact seq (flagForm_keeps (i := fDF) h fun _ => true)
  | cli => exact seq (cliForm_keeps h)
  | clts => exact seq (cltsForm_keeps h)
  | sti => exact seq (stiForm_keeps h)
  | clflush m => exact seq (clflushForm_keeps h m)
  | cpuid => exact seq (cpuidForm_keeps h)
  | hlt => exact seq (hltForm_keeps h)
  | invd | wbinvd => exact seq needCpl0_keeps
  | invlpg m => exact seq (invlpgForm_keeps m)
  | lar w r src | lsl w r src => exact seq (inspectForm_keeps h _ _ w r src)
  | lds w r src | les w r src => exact seq (farLoadLegacy_keeps h _ w r src)
  | lss w r src | lfs w r src | lgs w r src => exact seq (farLoadForm_keeps h _ w r src)
  | lgdt osz src => exact seq (lgdtForm_keeps h osz src)
  | lidt osz src => exact seq (lidtForm_keeps h osz src)
  | lldt src => exact seq (lldtForm_keeps h src)
  | ltr src => exact seq (ltrForm_keeps h src)
  | lmsw src => exact seq (lmswForm_keeps h src)
  | sgdt m | sidt m => exact seq (storeTable_keeps h m _)
  | sldt osz dst => exact seq (sldtForm_keeps h osz dst)
  | str osz dst => exact seq (strForm_keeps h osz dst)
  | smsw osz dst => exact seq (storeSystem_keeps h osz dst _)
  | verr src | verw src => exact seq (verifyForm_keeps h _ src)
  | lock t => exact seq (lockForm_keeps h t)
  | fxsave rexw m => exact seq (fxsaveForm_keeps h rexw m)
  | fxrstor rexw m => exact seq (fxrstorForm_keeps h rexw m)
  | emms => exact seq (emmsForm_keeps h)
  | f2xm1 => exact seq (fpuReg_keeps h _ _ <| .bind (drawBits80_keeps h) fun _ => fpuCodes_keeps h _ _)
  | fabs | fchs => exact seq (signForm_keeps h ..)
  | fadd a | fmul a | fsub a | fsubr a | fdiv a | fdivr a => exact seq (arithForm_keeps h _ _ _ a)
  | faddp k | fmulp k | fsubp k | fsubrp k | fdivp k | fdivrp k => exact seq (arithPop_keeps h _ _ k)
  | fiadd a | fimul a | fisub a | fisubr a | fidiv a | fidivr a => exact seq (arithInt_keeps h _ _ a)
  | fbld m => exact seq (fbldForm_keeps h m)
  | fbstp m => exact seq (fbstpForm_keeps h m)
  | fnclex => exact seq (fnclexForm_keeps h)
  | fcmovb k | fcmove k | fcmovbe k | fcmovu k | fcmovnb k | fcmovne k | fcmovnbe k | fcmovnu k =>
    exact seq (fcmovForm_keeps h _ _ _ k)
  | fcom a | fcomp a => exact seq (fcomForm_keeps h _ _ a)
  | fcompp | fucompp | ftst | fucom _ | fucomp _ => exact seq (fpuReg_keeps h _ _ (compare_keeps h ..))
  | fcomi k | fcomip k | fucomi k | fucomip k => exact seq (comiForm_keeps h _ _ _ _ k)
  | fcos | fsin => exact seq (trigForm_keeps h ..)
  | fptan | fsincos => exact seq (trigPairForm_keeps h ..)
  | fpatan | fyl2x | fyl2xp1 => exact seq (trans2Form_keeps h ..)
  | fdecstp | fincstp => exact seq (stepForm_keeps h ..)
  | ffree _ | fxch _ | fxtract => exact seq (fpuReg_keeps h _ _ (fpuCodes_keeps h ..))
  | fxam => exact seq (fpuReg_keeps h _ _ (updFpu_keeps h _))
  | fnop => exact seq (fpuReg_keeps h _ _ (openCodes_keeps h _))
  | ficom a | ficomp a => exact seq (ficomForm_keeps h _ _ a)
  | fild a => exact seq (fildForm_keeps h a)
  | fninit => exact seq (fninitForm_keeps h)
  | fist a => exact seq (fistForm_keeps h a)
  | fistp a => exact seq (fistpForm_keeps h a)
  | fisttp a => exact seq (fisttpForm_keeps h a)
  | fld a => exact seq (fldForm_keeps h a)
  | fld1 | fldl2t | fldl2e | fldpi | fldlg2 | fldln2 | fldz => exact seq (constForm_keeps h ..)
  | fldcw m => exact seq (fldcwForm_keeps h m)
  | fldenv osz m => exact seq (fldenvForm_keeps h osz m)
  | fprem | fprem1 => exact seq (remForm_keeps h ..)
  | frndint | fscale | fsqrt => exact seq (fpuReg_keeps h _ _ (arith_keeps h ..))
  | frstor osz m => exact seq (frstorForm_keeps h osz m)
  | fnsave osz m => exact seq (fnsaveForm_keeps h osz m)
  | fst a => exact seq (fstForm_keeps h a)
  | fstp a => exact seq (fstpForm_keeps h a)
  | fnstcw m => exact seq (fnstcwForm_keeps h m)
  | fnstenv osz m => exact seq (fnstenvForm_keeps h osz m)
  | fnstsw a => exact seq (fnstswForm_keeps h a)
  | wait => exact seq waitForm_keeps
  | addpd dst src | addps dst src | addsubpd dst src | addsubps dst src | haddpd dst src | haddps dst src | hsubpd dst src
  | hsubps dst src | divpd dst src | divps dst src | cmppd dst src _ | cmpps dst src _ =>
    exact seq (packedForm_keeps h dst src _)
  | addsd dst src | divsd dst src | cmpsd dst src _ => exact seq (scalarD_keeps h dst src _)
  | addss dst src | divss dst src | cmpss dst src _ => exact seq (scalarS_keeps h dst src _)
  | andpd dst src | andps dst src | andnpd dst src | andnps dst src => exact seq (logicForm_keeps h _ dst src)
  | comisd dst src => exact seq (comisdForm_keeps h dst src)
  | comiss dst src => exact seq (comissForm_keeps h dst src)
  | cvtdq2pd dst src | cvtps2pd dst src => exact seq (convert64_keeps h dst src _)
  | cvtdq2ps dst src | cvtpd2dq dst src | cvtpd2ps dst src | cvtps2dq dst src | cvttpd2dq dst src | cvttps2dq dst src =>
    exact seq (packedForm_keeps h dst src _)
  | cvtpd2pi dst src | cvttpd2pi dst src | cvtps2pi dst src | cvttps2pi dst src =>
    exact seq (toMmxForm_keeps h dst (readXm_keeps h _ _) src _)
  | cvtpi2pd dst src => exact seq (cvtpi2pdForm_keeps h dst src)
  | cvtpi2ps dst src => exact seq (cvtpi2psForm_keeps h dst src)
  | cvtsd2si w dst src | cvttsd2si w dst src | cvtss2si w dst src | cvttss2si w dst src =>
    exact seq (toGprForm_keeps h w dst (readXm_keeps h _ _) src _)
  | cvtsd2ss dst src => exact seq (convertScalar_keeps h _ _ dst src _)
  | cvtss2sd dst src => exact seq (convertScalar_keeps h _ _ dst src _)
  | cvtsi2sd w dst src => exact seq (cvtsi2sdForm_keeps h w dst src)
  | cvtsi2ss w dst src => exact seq (cvtsi2ssForm_keeps h w dst src)
  | lddqu dst src => exact seq (lddquForm_keeps h dst src)
  | ldmxcsr m => exact seq (ldmxcsrForm_keeps h m)
  | mov a => exact seq (movForm_keeps h a)
  | movMoffs store w seg _ off => exact seq (moffsForm_keeps h store w seg _)
  | movFromCr cr r => exact seq (movFromCrForm_keeps h cr r)
  | movToCr cr r => exact seq (movToCrForm_keeps h cr r)
  | movFromDr dr r => exact seq (movFromDrForm_keeps h dr r)
  | movToDr dr r => exact seq (movToDrForm_keeps h dr r)
  | movFromSreg osz dst sr => exact seq (movFromSregForm_keeps h osz dst sr)
  | movToSreg sr src => exact seq (movToSregForm_keeps h sr src)
  | movsxd w r src => exact seq (movsxdForm_keeps h w r src)
  | movzx w sw r src | movsx w sw r src => exact seq (movxForm_keeps h w sw r src _)
  | push a => exact seq (pushForm_keeps h a)
  | pop a => exact seq (popForm_keeps h a)
  | pushf osz => exact seq (pushfForm_keeps h osz)
  | popf osz => exact seq (popfForm_keeps h osz)
  | pusha osz => exact seq (pushaForm_keeps h osz)
  | popa osz => exact seq (popaForm_keeps h osz)
  | swapgs => exact seq (swapgsForm_keeps h)
  | syscall => exact ins (syscallForm_keeps h)
  | sysret rexw => exact ins (sysretForm_keeps h rexw)
  | sysenter | sysexit | rdpmc | monitor | mwait => exact ins (.refuse _)
  | wrmsr => exact seq (wrmsrForm_keeps h)
  | rdmsr => exact seq (rdmsrForm_keeps h)
  | rol w rm cnt | ror w rm cnt | rcl w rm cnt | rcr w rm cnt | shl w rm cnt | shr w rm cnt | sar w rm cnt =>
    exact seq (shiftForm_keeps h _ w rm cnt)
  | shld w dst src cnt | shrd w dst src cnt => exact seq (doubleForm_keeps h _ w dst src cnt)
  | seto dst | setno dst | setb dst | setae dst | sete dst | setne dst | setbe dst | seta dst | sets dst | setns dst
  | setp dst | setnp dst | setl dst | setge dst | setle dst | setg dst => exact seq (setForm_keeps h _ dst)
  | rdtsc => exact seq (rdtscForm_keeps h)
  | xlat asz seg => exact seq (xlatForm_keeps h asz seg)

/-! ### Fetching -/

omit h in
/-- The fetched bytes are read through the translation of their page (R171). -/
theorem fetchBytes_keeps (hm : MemStable p) (la : Word) (n : Nat) : Keeps p (fetchBytes la n) :=
  .afterRead fun _ => .bind (translate_keeps hm ..) fun _ => .readS _

omit h in
theorem fetchOverlong_keeps (hm : MemStable p) (left : Nat) (bs : List Byte) : Keeps p (fetchOverlong left bs) := by
  induction left generalizing bs with
  | zero => exact .raise _
  | succ left ih =>
    refine .afterRead fun _ => .bind (fetchBytes_keeps hm ..) fun b => ?_
    split
    · exact ih _
    · exact .raise _

omit h in
theorem fetch_keeps (hm : MemStable p) : Keeps p fetch := by
  refine .afterRead fun s => .afterCheck <| .bind (fetchBytes_keeps hm ..) fun b => ?_
  split
  · exact .pure _
  · exact .refuse _
  · refine .ite (fetchOverlong_keeps hm ..) <| .bind (fetchBytes_keeps hm ..) fun c => ?_
    split
    · exact .pure _
    · exact .refuse _
    · exact fetchOverlong_keeps hm ..

/-! ### The step -/

omit h in
/-- The boundary takes an event off what is pending, and changes nothing else (R681). -/
theorem State.boundary_watched {s t : State} {e : Event} (hb : s.boundary = some (e, t)) : t.watched = s.watched := by
  unfold State.boundary at hb
  repeat' split at hb
  all_goals cases hb
  all_goals rfl

theorem runNext_holds {s : State} (hs : p s) : Holds p (runNext s) := by
  have run := (fetch_keeps h.mem).run s hs
  unfold runNext
  split
  · next i len t e =>
    rw [e] at run
    exact exec_holds h i (h.frame run rfl)
  · exact deliver_holds h _ hs
  · next e t ht =>
    rw [ht] at run
    exact deliver_holds h e run
  · trivial

/-- Every step keeps every stable property. -/
theorem step_holds {s : State} (hs : p s) : Holds p (step s) := by
  have tick : p s.tick := h.frame hs rfl
  unfold step
  split
  · trivial
  · split
    · next e t hb => exact deliver_holds h e (h.frame tick (State.boundary_watched hb))
    · split
      · trivial
      · exact runNext_holds h tick

theorem step_keeps {s t : State} (hs : p s) (e : step s = .next t) : p t := by
  have run := step_holds h hs
  rw [e] at run
  exact run

end

end Sys2Proof.Machine

namespace Sys2Proof

open Sys2Proof.Machine

/-- Settles O53: legality is a stable property, and every step keeps those. -/
theorem stepKeepsLegal : Obligations.StepKeepsLegal := by
  unfold Obligations.StepKeepsLegal
  intro s t hs e
  exact step_keeps legal_stepStable hs e

end Sys2Proof
end

