-- ==== Sys2Proof/Proofs/Fetching.lean ====
section
/-! SUPPORT. The reset state, and what fetching answers case by case: which bytes the code segment holds, where a fetch
stops, and the step that an instruction fetched so makes. -/

namespace Sys2Proof.Machine

open Sys2Proof

/-! ### Runs that stop only by raising an exception -/

section
variable {α β : Type}

/-- The only stop of `m` is an exception. -/
structure Raises (m : M α) : Prop where
  stop : ∀ s x, m s = .error x → ∃ e, x = .raised e

namespace Raises

theorem pure (a : α) : Raises (pure a : M α) := ⟨fun _ _ h => by cases h⟩

theorem readS (f : State → α) : Raises (readS f) := ⟨fun _ _ h => by cases h⟩

theorem upd (f : State → State) : Raises (upd f) := ⟨fun _ _ h => by cases h⟩

theorem raiseIf (c : Bool) (e : Event) : Raises (raiseIf c e) := by
  refine ⟨fun s x h => ?_⟩
  cases c <;> cases h
  exact ⟨e, rfl⟩

theorem bind {m : M α} {f : α → M β} (hm : Raises m) (hf : ∀ a, Raises (f a)) : Raises (m >>= f) := by
  refine ⟨fun s x h => ?_⟩
  rw [M.bind_apply] at h
  split at h
  · exact (hf _).stop _ x h
  · next y hy => cases h; exact hm.stop s _ hy

theorem ite {c : Prop} [Decidable c] {m n : M α} (hm : Raises m) (hn : Raises n) : Raises (if c then m else n) := by
  split
  · exact hm
  · exact hn

theorem readEntry (la : Word) (pu : Purpose) (a n : Nat) (r : Word → Word) : Raises (readEntry la pu a n r) :=
  .bind (.readS _) fun _ => .bind (.raiseIf ..) fun _ => .bind (.raiseIf ..) fun _ => .pure _

theorem markEntry (a n : Nat) (f : Word) : Raises (markEntry a n f) :=
  .bind (.readS _) fun _ => .ite (.pure _) (.upd _)

theorem checkPage (la : Word) (pu : Purpose) (us rw : Bool) : Raises (checkPage la pu us rw) :=
  .bind (.readS _) fun _ => .raiseIf ..

theorem walkDirectory (la : Word) (pu : Purpose) (r1 r2 : Word → Word) (d : Nat) (us rw : Bool) :
    Raises (walkDirectory la pu r1 r2 d us rw) :=
  .bind (.readEntry ..) fun _ => .ite
    (.bind (.checkPage ..) fun _ => .bind (.markEntry ..) fun _ => .pure _)
    (.bind (.readEntry ..) fun _ => .bind (.checkPage ..) fun _ => .bind (.markEntry ..) fun _ =>
      .bind (.markEntry ..) fun _ => .pure _)

/-- A translation stops only with a page fault (R145). -/
theorem translate (la : Word) (pu : Purpose) : Raises (translate la pu) := by
  refine .bind (.readS _) fun _ => .ite (.pure _) <| .ite ?_ <| .ite ?_ ?_
  · exact .bind (.readS _) fun _ => .bind (.readEntry ..) fun _ => .bind (.readEntry ..) fun _ =>
      .bind (.walkDirectory ..) fun _ => .bind (.markEntry ..) fun _ => .bind (.markEntry ..) fun _ => .pure _
  · exact .bind (.readS _) fun _ => .bind (.readEntry ..) fun _ => .walkDirectory ..
  · exact .bind (.readS _) fun _ => .bind (.readS _) fun _ => .bind (.readEntry ..) fun _ => .ite
      (.bind (.checkPage ..) fun _ => .bind (.markEntry ..) fun _ => .pure _)
      (.bind (.readEntry ..) fun _ => .bind (.checkPage ..) fun _ => .bind (.markEntry ..) fun _ =>
        .bind (.markEntry ..) fun _ => .pure _)

theorem fetchBytes (la : Word) (n : Nat) : Raises (fetchBytes la n) :=
  .bind (.readS _) fun _ => .bind (.translate ..) fun _ => .readS _

end Raises

end

/-! ### The bytes of the code segment -/

/-- The canonical addresses are those below 2^47 and those from 2^64 - 2^47 on (R120). -/
theorem canonical_iff (a : Word) : canonical a = true ↔ a.toNat < 2 ^ 47 ∨ 2 ^ 64 - 2 ^ 47 ≤ a.toNat := by
  have top : (a.extractLsb' (Config.vaBits - 1) (65 - Config.vaBits)).toNat = a.toNat / 2 ^ 47 := by
    rw [BitVec.extractLsb'_toNat, Nat.shiftRight_eq_div_pow]
    show a.toNat / 2 ^ 47 % 2 ^ 17 = _
    omega
  have zero : (0 : BitVec (65 - Config.vaBits)).toNat = 0 := rfl
  have ones : (BitVec.allOnes (65 - Config.vaBits)).toNat = 2 ^ 17 - 1 := rfl
  simp only [canonical, Bool.or_eq_true, beq_iff_eq, ← BitVec.toNat_inj, top, zero, ones]
  omega

/-- Whether address RIP + `k` is canonical in 64-bit mode, inside the CS limit elsewhere (R42, R119). -/
def State.codeInside (s : State) (k : Nat) : Prop :=
  if s.is64 then canonical (s.rip + BitVec.ofNat 64 k) = true else s.rip.toNat + k ≤ s.cs.limit.toNat

theorem State.codeInside_iff (s : State) (k : Nat) (hk : k ≤ s.codeLeft) : s.codeInside k ↔ k < s.codeLeft := by
  have hlow : 2 ^ (Config.vaBits - 1) = 2 ^ 47 := rfl
  have := s.rip.isLt
  unfold State.codeInside
  unfold State.codeLeft at hk ⊢
  cases h6 : s.is64 <;> simp only [h6, hlow, Bool.false_eq_true, if_false, if_true] at hk ⊢
  · omega
  · cases hc : canonical s.rip <;> simp only [hc, Bool.not_false, Bool.not_true, Bool.false_eq_true, if_false, if_true] at hk ⊢
    · obtain rfl : k = 0 := by omega
      simp [hc]
    · have hrip := (canonical_iff _).mp hc
      have hm := s.rip.msb_eq_decide
      rw [canonical_iff, BitVec.toNat_add, BitVec.toNat_ofNat]
      cases h : s.rip.msb <;> rw [h] at hm hk <;> simp at hm hk ⊢ <;> omega

/-! ### Fetching -/

theorem bytesAt_eq_map (m : List Host.Cell) (a n : Nat) : bytesAt m a n = (List.range n).map fun k => memGet m (a + k) := by
  induction n generalizing a with
  | zero => rfl
  | succ n ih =>
    rw [bytesAt, ih, List.range_succ_eq_map, List.map_cons, List.map_map]
    refine congrArg _ (List.map_congr_left fun k _ => ?_)
    show memGet m (a + 1 + k) = memGet m (a + (k + 1))
    rw [Nat.add_assoc, Nat.add_comm 1 k]

theorem fetchBytes_error {la : Word} {n : Nat} {s : State} {x : Stop}
    (h : translate la (s.purpose false) s = .error x) : fetchBytes la n s = .error x := by
  unfold fetchBytes
  rw [readS_bind, id, M.bind_of_error h]

theorem fetchBytes_ok {la : Word} {n a : Nat} {s t : State} (h : translate la (s.purpose false) s = .ok (a, t)) :
    fetchBytes la n s = .ok ((List.range n).map (fun k => t.byteAt (a + k)), t) := by
  unfold fetchBytes
  rw [readS_bind, id, M.bind_of_ok h, readS_apply, bytesAt_eq_map]
  rfl

/-- A fetch changes nothing but memory (R146). -/
theorem fetchBytes_onlyMem {la : Word} {n : Nat} {s t : State} {b : List Byte} (h : fetchBytes la n s = .ok (b, t)) :
    t = { s with mem := t.mem } := (fetchBytes_keeps (onlyMem_memStable s) la n).of_ok rfl h

/-- Where the byte after the bytes `bs` of an instruction lies. -/
def State.afterBytes (s : State) (bs : List Byte) : Word := laStep s.is64 (s.linear .cs s.rip) bs.length

theorem fetchOverlong_error {left : Nat} {bs : List Byte} {s : State} {x : Stop}
    (h : fetchBytes (s.afterBytes bs) 1 s = .error x) : fetchOverlong (left + 1) bs s = .error x := by
  rw [fetchOverlong, readS_bind, id]
  exact M.bind_of_error h

theorem fetchOverlong_ok {left : Nat} {bs b : List Byte} {s t : State}
    (h : fetchBytes (s.afterBytes bs) 1 s = .ok (b, t)) :
    fetchOverlong (left + 1) bs s =
      if decode s.codeSize (bs ++ b) = .error .short then fetchOverlong left (bs ++ b) t else .error (.raised gp0) := by
  rw [fetchOverlong, readS_bind, id]
  refine (M.bind_of_ok h).trans ?_
  cases hd : decode s.codeSize (bs ++ b) with
  | ok r => rfl
  | error d => cases d <;> rfl

/-- An instruction that is too long always ends in an exception (R171, R210). -/
theorem fetchOverlong_raises (left : Nat) (bs : List Byte) (s : State) :
    ∃ e, fetchOverlong left bs s = .error (.raised e) := by
  induction left generalizing bs s with
  | zero => exact ⟨gp0, rfl⟩
  | succ left ih =>
    cases h : fetchBytes (s.afterBytes bs) 1 s with
    | error x =>
      obtain ⟨e, rfl⟩ := (Raises.fetchBytes _ _).stop s x h
      exact ⟨e, fetchOverlong_error h⟩
    | ok r =>
      rw [fetchOverlong_ok h]
      split
      · exact ih _ _
      · exact ⟨gp0, rfl⟩

/-- Where the first byte of the next instruction lies. -/
def State.codeStart (s : State) : Word := s.linear .cs s.rip

/-- How many bytes of the code segment the first page holds, of the next 15. -/
def State.firstRoom (s : State) : Nat := min s.codeRoom (4096 - s.codeStart.toNat % 4096)

theorem State.firstRoom_eq (s : State) :
    min s.codeRoom (4096 - (s.codeStart.extractLsb' 0 12).toNat) = s.firstRoom := by
  rw [State.firstRoom, BitVec.extractLsb'_toNat]; rfl

theorem fetch_noRoom {s : State} (h : s.codeRoom = 0) : fetch s = .error (.raised gp0) := by
  unfold fetch
  rw [readS_bind, id, h]
  rfl

/-- What `fetch` does with the bytes `b` of the first page, from the state `s` in which it began. -/
noncomputable def fetchRest (s : State) (b : List Byte) : M (Instr × Nat) :=
  match decode s.codeSize b with
  | .ok r => pure r
  | .error .noSuchRow => refuse .noSuchRow
  | .error .short =>
    if s.firstRoom == s.codeRoom then fetchOverlong (s.codeLeft - s.firstRoom) b
    else do
      let c ← fetchBytes (laStep s.is64 s.codeStart s.firstRoom) (s.codeRoom - s.firstRoom)
      match decode s.codeSize (b ++ c) with
      | .ok r => pure r
      | .error .noSuchRow => refuse .noSuchRow
      | .error .short => fetchOverlong (s.codeLeft - s.codeRoom) (b ++ c)

theorem fetch_eq {s : State} (hr : s.codeRoom ≠ 0) :
    fetch s = (fetchBytes s.codeStart s.firstRoom >>= fetchRest s) s := by
  unfold fetch
  rw [readS_bind, id, beq_false_of_ne hr, raiseIf_false_bind]
  have hf := s.firstRoom_eq
  unfold State.codeStart at hf
  rw [hf]
  rfl

section
variable {s t v : State} {b c : List Byte} {r : Instr × Nat}

theorem fetchRest_ok (hd : decode s.codeSize b = .ok r) : fetchRest s b t = .ok (r, t) := by
  unfold fetchRest
  rw [hd]
  rfl

/-- There is no room beyond the first page. -/
theorem fetchRest_full (hd : decode s.codeSize b = .error .short) (hn : s.firstRoom = s.codeRoom) :
    fetchRest s b t = fetchOverlong (s.codeLeft - s.firstRoom) b t := by
  unfold fetchRest
  rw [hd]
  dsimp only
  rw [if_pos (beq_iff_eq.mpr hn)]

/-- The fetch from the second page stops. -/
theorem fetchRest_error {x : Stop} (hd : decode s.codeSize b = .error .short) (hn : s.firstRoom ≠ s.codeRoom)
    (h : fetchBytes (laStep s.is64 s.codeStart s.firstRoom) (s.codeRoom - s.firstRoom) t = .error x) :
    fetchRest s b t = .error x := by
  unfold fetchRest
  rw [hd]
  dsimp only
  rw [if_neg (mt beq_iff_eq.mp hn), M.bind_of_error h]

/-- The second page holds the rest of the instruction. -/
theorem fetchRest_second (hd : decode s.codeSize b = .error .short) (hn : s.firstRoom ≠ s.codeRoom)
    (h : fetchBytes (laStep s.is64 s.codeStart s.firstRoom) (s.codeRoom - s.firstRoom) t = .ok (c, v))
    (hc : decode s.codeSize (b ++ c) = .ok r) : fetchRest s b t = .ok (r, v) := by
  unfold fetchRest
  rw [hd]
  dsimp only
  rw [if_neg (mt beq_iff_eq.mp hn), M.bind_of_ok h, hc]
  rfl

/-- Nor does the second page end the instruction. -/
theorem fetchRest_short (hd : decode s.codeSize b = .error .short) (hn : s.firstRoom ≠ s.codeRoom)
    (h : fetchBytes (laStep s.is64 s.codeStart s.firstRoom) (s.codeRoom - s.firstRoom) t = .ok (c, v))
    (hc : decode s.codeSize (b ++ c) = .error .short) :
    fetchRest s b t = fetchOverlong (s.codeLeft - s.codeRoom) (b ++ c) v := by
  unfold fetchRest
  rw [hd]
  dsimp only
  rw [if_neg (mt beq_iff_eq.mp hn), M.bind_of_ok h, hc]

end

/-! ### The step -/

/-- Without an event an active processor runs the next instruction. -/
theorem step_of_active {s : State} (ha : s.activity = .active) (hb : s.tick.boundary = none) :
    step s = runNext s.tick := by
  unfold step
  rw [ha, hb]
  rfl

theorem runNext_of_raised {s : State} {e : Event} (h : fetch s = .error (.raised e)) : runNext s = deliver e s := by
  unfold runNext
  rw [h]

theorem runNext_of_ok {s t : State} {i : Instr} {len : Nat} (h : fetch s = .ok ((i, len), t)) :
    runNext s = exec i (t.begin len) := by
  unfold runNext
  rw [h]

/-- An instruction begins with the flags and the shadow of the state in which its fetch began (R41, R663, R762). -/
theorem State.begin_of_onlyMem {u t : State} (h : t = { u with mem := t.mem }) (len : Nat) : t.begin len =
    { t with
      nextPc := u.following len, shadow := .none, heldShadow := u.shadow, pendingDb := u.pendingDb || u.flag fTF } := by
  rw [h]; rfl

/-- Which events an instruction boundary takes (R681, R712, R715, R762). -/
theorem State.boundary_eq_none (s : State) : s.boundary = none ↔ (s.pendingDb = false ∨ s.shadow = .movss) ∧
    (s.pendingNmi = false ∨ s.nmiBlocked = true ∨ s.shadow = .movss) ∧
    ∀ v, s.pendingInt = some v → s.flag fIF = false ∨ s.shadow ≠ .none ∨ v.toNat / 16 ≤ s.tpr.toNat / 16 := by
  have accepts (v : Byte) : s.accepts v = false ↔
      s.flag fIF = false ∨ s.shadow ≠ .none ∨ v.toNat / 16 ≤ s.tpr.toNat / 16 := by
    have hi (x : Byte) : (x.extractLsb' 4 4).toNat = x.toNat / 16 := by
      rw [BitVec.extractLsb'_toNat, Nat.shiftRight_eq_div_pow]; omega
    simp only [State.accepts, Bool.and_eq_false_iff, beq_eq_false_iff_ne, decide_eq_false_iff_not, hi, Nat.not_lt, or_assoc]
  have db : s.pendingDb = false ∨ s.shadow = .movss ↔ (s.pendingDb && s.shadow != .movss) = false := by
    cases s.pendingDb <;> simp
  have nmi : s.pendingNmi = false ∨ s.nmiBlocked = true ∨ s.shadow = .movss ↔
      (s.pendingNmi && !s.nmiBlocked && s.shadow != .movss) = false := by
    cases s.pendingNmi <;> cases s.nmiBlocked <;> simp
  simp only [db, nmi, ← accepts]
  unfold State.boundary
  cases s.pendingDb && s.shadow != .movss with
  | true => simp
  | false =>
    cases s.pendingNmi && !s.nmiBlocked && s.shadow != .movss with
    | true => simp
    | false =>
      cases s.pendingInt with
      | none => simp
      | some v => cases h : s.accepts v <;> simp [h]

end Sys2Proof.Machine

namespace Sys2Proof

open Sys2Proof.Machine

/-- Settles O50, field by field of the reset state. -/
theorem resetValues : Obligations.ResetValues := by
  unfold Obligations.ResetValues
  have regs (r : Reg) : State.reset.xmmReg r = 0 := by revert r; decide
  refine ⟨rfl, by decide, rfl, rfl, rfl, rfl, by decide, rfl, rfl, rfl, rfl, rfl, rfl, rfl, rfl, rfl, rfl, rfl, rfl,
    rfl, rfl, rfl, rfl, rfl, rfl, rfl, rfl, rfl, by decide, by decide, regs, rfl⟩

/-- Settles O51, field by field of the reset state. -/
theorem resetInvariants : Obligations.ResetInvariants := by
  unfold Obligations.ResetInvariants
  refine ⟨State.reset_memOk, ?_⟩
  constructor <;> decide

/-- Settles O54: what fetching answers in each case, and the step that an instruction fetched so makes. -/
theorem stepRunsDecoded : Obligations.StepRunsDecoded := by
  unfold Obligations.StepRunsDecoded
  refine ⟨fun s la n => ?_, fun s t i len b => ?_⟩
  · intro inside
    refine ⟨⟨rfl, fun k hk => (s.codeInside_iff k hk.le).mpr hk, fun h => ?_⟩, fun e h => fetchBytes_error h,
      fun a t h => fetchBytes_ok h, fun wide => rfl, fun bs => ⟨rfl, fun left => ⟨fetchOverlong_raises left bs s,
      fun e h => fetchOverlong_error h, fun b t h => fetchOverlong_ok h⟩⟩, s.boundary_eq_none, ?_⟩
    · exact lt_irrefl _ ((s.codeInside_iff _ le_rfl).mp h)
    · intro u first room ha hb
      have run : step s = runNext u := step_of_active ha hb
      have raised (e : Event) (h : fetch u = .error (.raised e)) : step s = deliver e u := run.trans (runNext_of_raised h)
      refine ⟨fun hr => raised _ (fetch_noRoom hr), fun hr => ⟨fun e h => raised _ ?_, fun b t h hd =>
        ⟨fun hn e ho => raised _ ?_, fun hn => ⟨fun e h' => raised _ ?_, fun c v h' hc e ho => raised _ ?_⟩⟩⟩⟩
      · rw [fetch_eq hr]; exact M.bind_of_error h
      · rw [fetch_eq hr]; exact (M.bind_of_ok h).trans ((fetchRest_full hd hn).trans ho)
      · rw [fetch_eq hr]; exact (M.bind_of_ok h).trans (fetchRest_error hd hn h')
      · rw [fetch_eq hr]; exact (M.bind_of_ok h).trans ((fetchRest_short hd hn h' hc).trans ho)
  · intro u la n begun ha hb hr h
    have run : step s = runNext u := step_of_active ha hb
    have ht := fetchBytes_onlyMem h
    refine ⟨fun hd => ?_, fun hd hn c v h' hc => ?_⟩
    · have : fetch u = .ok ((i, len), t) := (fetch_eq hr).trans ((M.bind_of_ok h).trans (fetchRest_ok hd))
      rw [run, runNext_of_ok this, State.begin_of_onlyMem ht]
      rfl
    · have : fetch u = .ok ((i, len), v) := (fetch_eq hr).trans ((M.bind_of_ok h).trans (fetchRest_second hd hn h' hc))
      have hv : v = { u with mem := v.mem } := by
        have := fetchBytes_onlyMem h'
        rw [ht] at this
        exact this
      rw [run, runNext_of_ok this, State.begin_of_onlyMem hv]
      rfl

end Sys2Proof
end

