-- ==== Sys2Proof/Proofs/SystemRegisters.lean ====
section
/-! SUPPORT. The operating mode, and MOV to and from the control and debug registers, RDMSR and WRMSR case by case. -/

namespace Sys2Proof.Machine

open Sys2Proof

variable {s t : State}

/-! ### Checks, and the end of an instruction that is no control transfer -/

theorem needCpl0_ok (h : s.cpl = 0) : needCpl0 s = .ok ((), s) := by
  unfold needCpl0
  rw [readS_bind, id, h]
  rfl

theorem needCpl0_raised (h : s.cpl ≠ 0) : needCpl0 s = .error (.raised gp0) := by
  unfold needCpl0
  rw [readS_bind, id, bne_iff_ne.mpr h]
  rfl

/-- An instruction that leaves the flags alone ends with them. -/
theorem runSeq_ends {m : M Unit} (h : m s = .ok ((), t)) : runSeq m s = .next (t.endWith t.rflags) := runSeq_ok h

/-! ### Model-specific registers (R795) -/

theorem rdmsr_of_readMsr {v : Word} (hc : s.cpl = 0) (h : s.readMsr (s.readReg .b32 rCX) = some v) :
    exec .rdmsr s = .next ((s.putEdxEax v).endWith s.rflags) := by
  refine runSeq_ends (t := s.putEdxEax v) ?_
  unfold rdmsrForm
  rw [M.bind_of_ok (needCpl0_ok hc), readS_bind, id, h]
  rfl

theorem rdmsr_of_none (hc : s.cpl = 0) (h : s.readMsr (s.readReg .b32 rCX) = none) :
    exec .rdmsr s = deliver gp0 s := by
  refine runSeq_raise ?_
  unfold rdmsrForm
  rw [M.bind_of_ok (needCpl0_ok hc), readS_bind, id, h]
  rfl

theorem wrmsr_of_writeMsr (hc : s.cpl = 0) (h : s.writeMsr (s.readReg .b32 rCX) s.edxEax = some t) :
    exec .wrmsr s = .next (t.endWith t.rflags) := by
  refine runSeq_ends ?_
  unfold wrmsrForm
  rw [M.bind_of_ok (needCpl0_ok hc), readS_bind, id, h]
  rfl

theorem wrmsr_of_none (hc : s.cpl = 0) (h : s.writeMsr (s.readReg .b32 rCX) s.edxEax = none) :
    exec .wrmsr s = deliver gp0 s := by
  refine runSeq_raise ?_
  unfold wrmsrForm
  rw [M.bind_of_ok (needCpl0_ok hc), readS_bind, id, h]
  rfl

/-- A write of an MSR that takes canonical addresses only. -/
theorem wrmsr_base (hc : s.cpl = 0) (hf : t.rflags = s.rflags)
    (h : s.writeMsr (s.readReg .b32 rCX) s.edxEax = if canonical s.edxEax then some t else none) :
    exec .wrmsr s = if canonical s.edxEax then .next (t.endWith s.rflags) else deliver gp0 s := by
  split
  · next hv => rw [if_pos hv] at h; rw [wrmsr_of_writeMsr hc h, hf]
  · next hv => rw [if_neg hv] at h; exact wrmsr_of_none hc h

/-- There are eight MSRs (R795). -/
theorem readMsr_none {a : BitVec 32} (h : ¬ (0xC0000080 ≤ a.toNat ∧ a.toNat ≤ 0xC0000084))
    (h' : ¬ (0xC0000100 ≤ a.toNat ∧ a.toNat ≤ 0xC0000102)) : s.readMsr a = none := by
  unfold State.readMsr
  split
  case h_9 => rfl
  all_goals omega

theorem writeMsr_none {a : BitVec 32} {v : Word} (h : ¬ (0xC0000080 ≤ a.toNat ∧ a.toNat ≤ 0xC0000084))
    (h' : ¬ (0xC0000100 ≤ a.toNat ∧ a.toNat ≤ 0xC0000102)) : s.writeMsr a v = none := by
  unfold State.writeMsr
  split
  case h_9 => rfl
  all_goals omega

/-- WRMSR writes SCE and LME of IA32_EFER; LMA keeps its value (R51). -/
theorem eferAfter_eq {v : Word} (hv : v &&& 0xFFFFFFFFFFFFFAFE = 0) :
    s.eferAfter v = (v &&& 0x101) ||| (s.efer &&& 0x400) := by
  apply BitVec.eq_of_getLsbD_eq
  intro i hi
  have hvi := congrArg (·.getLsbD i) hv
  have h10 : s.lma = s.efer.getLsbD 10 := rfl
  have masks : ∀ i < 64, (0xFFFFFFFFFFFFFAFE : Word).getLsbD i = !decide (i = 0 ∨ i = 8 ∨ i = 10) ∧
      (0x101 : Word).getLsbD i = decide (i = 0 ∨ i = 8) ∧ (0x400 : Word).getLsbD i = decide (i = 10) := by decide
  obtain ⟨hm, h1, h4⟩ := masks i hi
  rw [BitVec.getLsbD_and, hm] at hvi
  rw [State.eferAfter, putBit_getLsbD, BitVec.getLsbD_or, BitVec.getLsbD_and, BitVec.getLsbD_and, h1, h4]
  by_cases hi10 : i = 10
  · subst hi10
    simp [h10]
  · by_cases hi08 : i = 0 ∨ i = 8
    · simp [hi08, hi10, Ne.symm hi10]
    · simp [hi08, hi10] at hvi
      simp [hi08, hi10, Ne.symm hi10, hvi]

/-- Which values IA32_EFER accepts (R51, R752). -/
theorem writeMsr_efer (v : Word) : s.writeMsr 0xC0000080 v =
    if v &&& ~~~0x501 ≠ 0 ∨ (s.pg = true ∧ v.getLsbD 8 ≠ s.efer.getLsbD 8) then none
    else some { s with efer := s.eferAfter v } := by
  have bad : (v &&& 0xFFFFFFFFFFFFFAFE != 0 || (s.pg && v.getLsbD 8 != s.lme)) = true ↔
      (v &&& ~~~0x501 ≠ 0 ∨ (s.pg = true ∧ v.getLsbD 8 ≠ s.efer.getLsbD 8)) := by
    rw [Bool.or_eq_true, Bool.and_eq_true, bne_iff_ne, bne_iff_ne]
    rfl
  exact if_congr bad rfl rfl

/-- FMASK holds 32 bits (R66). -/
theorem truncTo_b32 (v : Word) : truncTo .b32 v = BitVec.ofNat 64 (v.toNat % 2 ^ 32) := by
  apply BitVec.eq_of_toNat_eq
  show ((v.setWidth 32).setWidth 64).toNat = _
  rw [BitVec.toNat_setWidth, BitVec.toNat_setWidth, BitVec.toNat_ofNat]

end Sys2Proof.Machine

namespace Sys2Proof

open Sys2Proof.Machine

/-- Settles O35, address by address. -/
theorem modelSpecificRegisters : Obligations.ModelSpecificRegisters := by
  unfold Obligations.ModelSpecificRegisters
  intro s hc a v base reads
  have eq {n : BitVec 32} (h : a = n.toNat) : s.readReg .b32 rCX = n := BitVec.eq_of_toNat_eq h
  have readAt (n : BitVec 32) {x : Word} (h : a = n.toNat) (e : s.readMsr n = some x) : reads x :=
    rdmsr_of_readMsr hc (by rw [eq h]; exact e)
  have writeAt (n : BitVec 32) {t : State} (h : a = n.toNat) (e : s.writeMsr n s.edxEax = some t) :
      exec .wrmsr s = .next (t.endWith t.rflags) := wrmsr_of_writeMsr hc (by rw [eq h]; exact e)
  have baseAt (n : BitVec 32) {t : State} (h : a = n.toNat) (hf : t.rflags = s.rflags)
      (e : s.writeMsr n s.edxEax = if canonical s.edxEax then some t else none) : base t :=
    wrmsr_base hc hf (by rw [eq h]; exact e)
  refine ⟨fun h => ⟨readAt 0xC0000080 h rfl, fun hv => ?_, fun hv hp => ?_⟩,
    fun h => ⟨readAt 0xC0000081 h rfl, writeAt 0xC0000081 h rfl⟩,
    fun h => ⟨readAt 0xC0000082 h rfl, baseAt 0xC0000082 h rfl rfl⟩,
    fun h => ⟨readAt 0xC0000083 h rfl, baseAt 0xC0000083 h rfl rfl⟩,
    fun h => ⟨readAt 0xC0000084 h rfl, ?_⟩,
    fun h => ⟨readAt 0xC0000100 h rfl, baseAt 0xC0000100 h rfl rfl⟩,
    fun h => ⟨readAt 0xC0000101 h rfl, baseAt 0xC0000101 h rfl rfl⟩,
    fun h => ⟨readAt 0xC0000102 h rfl, baseAt 0xC0000102 h rfl rfl⟩,
    fun h h' => ⟨rdmsr_of_none hc (readMsr_none h h'), wrmsr_of_none hc (writeMsr_none h h')⟩⟩
  · refine wrmsr_of_none hc ?_
    rw [eq (n := 0xC0000080) h, writeMsr_efer]
    exact if_pos hv
  · rw [← eferAfter_eq hv]
    refine writeAt 0xC0000080 h ((writeMsr_efer _).trans (if_neg ?_))
    rintro (hv' | ⟨hp', hv'⟩)
    · exact hv' hv
    · exact hv' (hp hp')
  · rw [← truncTo_b32]
    exact writeAt 0xC0000084 h rfl

end Sys2Proof
end

