-- ==== Sys2Proof/Proofs/ControlRegisters.lean ====
section
/-! SUPPORT. The operating mode and the privilege level, and MOV to and from the control and debug registers. -/

namespace Sys2Proof.Machine

open Sys2Proof

variable {s t : State}

/-! ### Modes and fields -/

theorem State.iopl_eq (s : State) : s.iopl = s.rflags.toNat / 2 ^ 12 % 4 := by
  rw [State.iopl, BitVec.extractLsb'_toNat, Nat.shiftRight_eq_div_pow]

theorem State.cpl_eq (s : State) :
    s.cpl = if s.mode = .real then 0 else if s.mode = .v86 then 3 else s.cs.sel.toNat % 4 := by
  have rpl : (s.cs.sel &&& 3).toNat = s.cs.sel.toNat % 4 := by
    rw [BitVec.toNat_and]; exact Nat.and_two_pow_sub_one_eq_mod _ 2
  rw [State.cpl, rpl]
  cases s.mode <;> rfl

theorem State.is64_iff (s : State) : s.is64 = true ↔ s.mode = .long64 := by rw [State.is64, beq_iff_eq]

theorem State.paragraphs_iff (s : State) : s.paragraphs = true ↔ s.mode = .real ∨ s.mode = .v86 := by
  rw [State.paragraphs, Bool.or_eq_true, beq_iff_eq, beq_iff_eq]

theorem State.codeSize_eq (s : State) : s.codeSize =
    if s.mode = .long64 then .c64 else if s.paragraphs = false ∧ s.cs.db = true then .c32 else .c16 := by
  unfold State.codeSize State.paragraphs
  cases s.mode <;> cases s.cs.db <;> rfl

theorem State.mode_eq (s : State) :
    s.mode = if s.efer.getLsbD 10 then (if s.cs.l then .long64 else .compat) else if s.cr0.getLsbD 0 = false then .real
      else if s.rflags.getLsbD 17 then .v86 else .prot := by
  unfold State.mode State.pe
  cases s.cr0.getLsbD 0 <;> rfl

/-! ### Instructions that end with open status flags -/

/-- A meaning that ends by leaving the status flags open keeps the other flags. -/
theorem runSeq_openStatus {m : M Unit} (h : m s = openFlags statusMask t) (hf : t.rflags = s.rflags) :
    ∃ f, SameOutside 0x8D5 s.rflags f ∧ runSeq m s = .next ((t.drawn 1).endWith f) :=
  ⟨maskFlags t.rflags statusMask ((Config.freeValue t.freeCount).extractLsb' 0 32),
    hf ▸ maskFlags_sameOutside statusMask t.rflags _, runSeq_ok (t := (t.drawn 1).setRflags _) (h.trans rfl)⟩

/-! ### Control registers (R785) -/

theorem needCr_absent {cr : Reg} (h : cr ∉ [0, 2, 3, 4, 8]) : needCr cr s = .error (.raised udFault) := by
  have : Config.crImplemented.contains cr = false := by
    rw [List.contains_eq_mem]; exact decide_eq_false h
  unfold needCr
  rw [readS_bind, this]
  rfl

theorem needCr_cr8 (h : s.is64 = false) : needCr 8 s = .error (.raised udFault) := by
  unfold needCr
  rw [readS_bind, id, h]
  rfl

/-- For a register that exists, only the privilege level counts. -/
theorem needCr_eq {cr : Reg} (h : cr ∈ [(0 : Reg), 2, 3, 4] ∨ cr = 8 ∧ s.is64 = true) : needCr cr s = needCpl0 s := by
  unfold needCr
  rw [readS_bind]
  obtain h | ⟨rfl, h⟩ := h
  · simp only [List.mem_cons, List.not_mem_nil, or_false] at h
    obtain rfl | rfl | rfl | rfl := h <;> rfl
  · rw [id, h]; rfl

section
variable {cr r : Reg}

theorem movFromCr_stops {e : Event} (h : needCr cr s = .error (.raised e)) : exec (.movFromCr cr r) s = deliver e s :=
  runSeq_raise (M.bind_of_error h)

theorem movToCr_stops {e : Event} (h : needCr cr s = .error (.raised e)) : exec (.movToCr cr r) s = deliver e s :=
  runSeq_raise (M.bind_of_error h)

theorem movFromCr_ends (h : needCr cr s = .ok ((), s)) : ∃ f, SameOutside 0x8D5 s.rflags f ∧
    exec (.movFromCr cr r) s = .next (((s.putSpecial r (s.readCr cr)).drawn 1).endWith f) := by
  refine runSeq_openStatus (M.bind_of_ok h) ?_
  exact congrArg (·.2.1) (s.putSpecial_watched r _)

theorem movToCr_ends (h : needCr cr s = .ok ((), s)) (hw : writeCr cr (s.getSpecial r) s = .ok ((), t))
    (hf : t.rflags = s.rflags) :
    ∃ f, SameOutside 0x8D5 s.rflags f ∧ exec (.movToCr cr r) s = .next ((t.drawn 1).endWith f) :=
  runSeq_openStatus ((M.bind_of_ok h).trans ((readS_bind ..).trans (M.bind_of_ok hw))) hf

theorem movToCr_rejects {e : Event} (h : needCr cr s = .ok ((), s))
    (hw : writeCr cr (s.getSpecial r) s = .error (.raised e)) : exec (.movToCr cr r) s = deliver e s :=
  runSeq_raise ((M.bind_of_ok h).trans ((readS_bind ..).trans (M.bind_of_error hw)))

end

section
variable {v : Word}

/-- Which values CR0 accepts (R785, R752). -/
theorem cr0Rejects_iff : s.cr0Rejects v = true ↔
    v.extractLsb' 32 32 ≠ 0 ∨ (v.getLsbD 31 = true ∧ v.getLsbD 0 = false) ∨
      (v.getLsbD 29 = true ∧ v.getLsbD 30 = false) ∨
      (v.getLsbD 31 = true ∧ s.cr0.getLsbD 31 = false ∧ s.efer.getLsbD 8 = true ∧
        (s.cr4.getLsbD 5 = false ∨ s.cs.l = true ∨ s.tr.typ = 1 ∨ s.tr.typ = 3)) ∨
      (v.getLsbD 31 = false ∧ s.cr0.getLsbD 31 = true ∧ s.is64 = true) := by
  simp only [State.cr0Rejects, State.pg, State.lme, State.pae, Bool.or_eq_true, Bool.and_eq_true, bne_iff_ne,
    Bool.not_eq_true', beq_iff_eq, or_assoc, and_assoc]

theorem cr4Rejects_iff : s.cr4Rejects v = true ↔
    v.extractLsb' 11 53 ≠ 0 ∨ (s.lma = true ∧ s.cr4.getLsbD 5 = true ∧ v.getLsbD 5 = false) := by
  simp only [State.cr4Rejects, State.pae, Bool.or_eq_true, Bool.and_eq_true, bne_iff_ne, Bool.not_eq_true', and_assoc]

/-- CR0 with ET set, and the LMA that follows LME and PG (R54, R751). -/
theorem putCr0_eq : s.putCr0 v = { s with
    cr0 := v ||| 0x10
    efer := if s.efer.getLsbD 8 && v.getLsbD 31 then s.efer ||| 0x400 else s.efer &&& ~~~0x400 } := rfl

theorem writeCr_cr0 (h : s.cr0Rejects v = false) : writeCr 0 v s = .ok ((), s.putCr0 v) := by
  show (raiseIf (s.cr0Rejects v) gp0 >>= fun _ => upd (·.putCr0 v)) s = _
  rw [h]; rfl

theorem writeCr_cr0_rejects (h : s.cr0Rejects v = true) : writeCr 0 v s = .error (.raised gp0) := by
  show (raiseIf (s.cr0Rejects v) gp0 >>= fun _ => upd (·.putCr0 v)) s = _
  rw [h]; rfl

theorem writeCr_cr3 : writeCr 3 v s =
    if s.lma = true ∧ v.extractLsb' 40 12 ≠ 0 then .error (.raised gp0) else .ok ((), { s with cr3 := v }) := by
  show (raiseIf (s.lma && v.extractLsb' 40 12 != 0) gp0 >>= fun _ => upd fun t => { t with cr3 := v }) s = _
  cases s.lma <;> cases h : v.extractLsb' 40 12 != 0 <;> simp at h <;> simp [h]

theorem writeCr_cr4 (h : s.cr4Rejects v = false) : writeCr 4 v s = .ok ((), { s with cr4 := v }) := by
  show (raiseIf (s.cr4Rejects v) gp0 >>= fun _ => upd fun t => { t with cr4 := v }) s = _
  rw [h]; rfl

theorem writeCr_cr4_rejects (h : s.cr4Rejects v = true) : writeCr 4 v s = .error (.raised gp0) := by
  show (raiseIf (s.cr4Rejects v) gp0 >>= fun _ => upd fun t => { t with cr4 := v }) s = _
  rw [h]; rfl

/-- CR8 holds four bits, the priority class of the TPR (R716, R785). -/
theorem writeCr_cr8 : writeCr 8 v s =
    if v.toNat < 16 then .ok ((), { s with tpr := BitVec.ofNat 8 (v.toNat * 16) }) else .error (.raised gp0) := by
  show (raiseIf (v.extractLsb' 4 60 != 0) gp0 >>= fun _ => upd fun t => { t with tpr := v.extractLsb' 0 4 ++ 0#4 }) s = _
  have := v.isLt
  have high : v.extractLsb' 4 60 = 0 ↔ v.toNat < 16 := by
    rw [← BitVec.toNat_inj, BitVec.extractLsb'_toNat, Nat.shiftRight_eq_div_pow]
    show v.toNat / 2 ^ 4 % 2 ^ 60 = 0 ↔ _
    omega
  split
  · next h =>
    have low : v.extractLsb' 0 4 ++ 0#4 = BitVec.ofNat 8 (v.toNat * 16) := by
      apply BitVec.eq_of_toNat_eq
      have : (v.toNat % 2 ^ 4) <<< 4 ||| 0 = v.toNat * 16 := by rw [Nat.or_zero, Nat.shiftLeft_eq]; omega
      rw [BitVec.toNat_append, BitVec.extractLsb'_toNat, Nat.shiftRight_zero]
      exact this.trans (BitVec.toNat_ofNat .. ▸ (Nat.mod_eq_of_lt (by omega)).symm)
    rw [high.mpr h, ← low]; rfl
  · next h => rw [bne_iff_ne.mpr (mt high.mp h)]; rfl

/-- CR8 shows the priority class (R716). -/
theorem readCr_cr8 (s : State) : s.readCr 8 = BitVec.ofNat 64 (s.tpr.toNat / 16) := by
  have := s.tpr.isLt
  apply BitVec.eq_of_toNat_eq
  show ((s.tpr.extractLsb' 4 4).setWidth 64).toNat = _
  rw [BitVec.toNat_setWidth, BitVec.extractLsb'_toNat, Nat.shiftRight_eq_div_pow, BitVec.toNat_ofNat]
  omega

end

/-! ### Debug registers (R786) -/

theorem needDr_absent {dr : Reg} (h : 8 ≤ dr.toNat ∨ (s.cr4.getLsbD 3 = true ∧ (dr = 4 ∨ dr = 5))) :
    needDr dr s = .error (.raised udFault) := by
  have : (!Config.drImplemented.contains dr || (s.cr4.getLsbD 3 && (dr == 4 || dr == 5))) = true := by
    obtain h | ⟨h3, rfl | rfl⟩ := h
    · have : ∀ dr : Reg, 8 ≤ dr.toNat → Config.drImplemented.contains dr = false := by decide
      rw [this dr h]; rfl
    · rw [h3]; rfl
    · rw [h3]; rfl
  unfold needDr
  rw [readS_bind, id, this]
  rfl

/-- For a register that exists, only the privilege level counts. -/
theorem needDr_eq {dr : Reg} (h : dr.toNat < 8) (h' : dr = 4 ∨ dr = 5 → s.cr4.getLsbD 3 = false) :
    needDr dr s = needCpl0 s := by
  have listed : ∀ dr : Reg, dr.toNat < 8 → Config.drImplemented.contains dr = true := by decide
  have : (s.cr4.getLsbD 3 && (dr == 4 || dr == 5)) = false := by
    by_cases h45 : dr = 4 ∨ dr = 5
    · rw [h' h45]; rfl
    · have : (dr == 4 || dr == 5) = false := by simpa using h45
      rw [this, Bool.and_false]
  unfold needDr
  rw [readS_bind, id, this, listed dr h]
  rfl

section
variable {dr r : Reg}

theorem movFromDr_stops {e : Event} (h : needDr dr s = .error (.raised e)) : exec (.movFromDr dr r) s = deliver e s :=
  runSeq_raise (M.bind_of_error h)

theorem movToDr_stops {e : Event} (h : needDr dr s = .error (.raised e)) : exec (.movToDr dr r) s = deliver e s :=
  runSeq_raise (M.bind_of_error h)

theorem movFromDr_ends (h : needDr dr s = .ok ((), s)) : ∃ f, SameOutside 0x8D5 s.rflags f ∧
    exec (.movFromDr dr r) s = .next (((s.putSpecial r (s.readDr dr)).drawn 1).endWith f) :=
  runSeq_openStatus (M.bind_of_ok h) (congrArg (·.2.1) (s.putSpecial_watched r _))

/-- DR6 and DR7 have 32 bits (R786). -/
theorem drHigh_iff {v : Word} :
    (decide (4 ≤ dr.toNat) && v.extractLsb' 32 32 != 0) = true ↔ 4 ≤ dr.toNat ∧ 2 ^ 32 ≤ v.toNat := by
  have := v.isLt
  rw [Bool.and_eq_true, decide_eq_true_iff, bne_iff_ne, ne_eq, ← BitVec.toNat_inj, BitVec.extractLsb'_toNat,
    Nat.shiftRight_eq_div_pow]
  refine and_congr_right fun _ => ?_
  show ¬ v.toNat / 2 ^ 32 % 2 ^ 32 = 0 ↔ _
  omega

theorem movToDr_ends (h : needDr dr s = .ok ((), s)) (hv : dr.toNat < 4 ∨ (s.getSpecial r).toNat < 2 ^ 32) :
    ∃ f, SameOutside 0x8D5 s.rflags f ∧
      exec (.movToDr dr r) s = .next (((s.putDr dr (s.getSpecial r)).drawn 1).endWith f) := by
  have low : (decide (4 ≤ dr.toNat) && (s.getSpecial r).extractLsb' 32 32 != 0) = false :=
    Bool.eq_false_iff.mpr (mt drHigh_iff.mp (by omega))
  refine runSeq_openStatus ((M.bind_of_ok h).trans ?_) (congrArg (·.2.1) (s.putDr_watched dr _))
  rw [readS_bind, low]
  rfl

theorem movToDr_rejects (h : needDr dr s = .ok ((), s)) (hd : 4 ≤ dr.toNat) (hv : 2 ^ 32 ≤ (s.getSpecial r).toNat) :
    exec (.movToDr dr r) s = deliver gp0 s := by
  refine runSeq_raise ((M.bind_of_ok h).trans ?_)
  rw [readS_bind, drHigh_iff.mpr ⟨hd, hv⟩]
  rfl

end

end Sys2Proof.Machine

namespace Sys2Proof

open Sys2Proof.Machine

/-- Settles O34: the mode field by field, then MOV to and from each register by what its checks answer. -/
theorem controlRegisters : Obligations.ControlRegisters := by
  unfold Obligations.ControlRegisters
  refine ⟨fun s => ⟨rfl, rfl, fun _ => rfl, s.iopl_eq, s.mode_eq, s.is64_iff, s.paragraphs_iff, s.cpl_eq, s.codeSize_eq⟩,
    fun s r => ?_, fun s r => ?_⟩
  · intro v put ends
    have ok {cr : Reg} (hc : s.cpl = 0) (h : cr ∈ [(0 : Reg), 2, 3, 4]) : needCr cr s = .ok ((), s) :=
      (needCr_eq (.inl h)).trans (needCpl0_ok hc)
    refine ⟨fun cr h => ⟨movFromCr_stops (needCr_absent h), movToCr_stops (needCr_absent h)⟩, fun hc cr h => ?_,
      fun hc => ⟨?_, ?_, ?_, ?_, ?_, ?_, ?_⟩, fun h6 hc => ?_, fun h6 hc => ?_,
      fun h6 => ⟨movFromCr_stops (needCr_cr8 h6), movToCr_stops (needCr_cr8 h6)⟩⟩
    · have stop : needCr cr s = .error (.raised gp0) := (needCr_eq (.inl h)).trans (needCpl0_raised hc)
      exact ⟨movFromCr_stops stop, movToCr_stops stop⟩
    · intro p hp
      simp only [List.mem_cons, List.not_mem_nil, or_false] at hp
      obtain rfl | rfl | rfl | rfl := hp
      all_goals
        dsimp only
        exact movFromCr_ends (ok hc (by decide))
    · exact movToCr_ends (ok hc (by decide)) rfl rfl
    · intro h
      refine movToCr_ends (ok hc (by decide)) (writeCr_cr3.trans (if_neg ?_)) rfl
      rintro ⟨hl, hv⟩
      obtain h | h := h
      · rw [h] at hl; cases hl
      · exact hv h
    · exact fun hl hv => movToCr_rejects (ok hc (by decide)) (writeCr_cr3.trans (if_pos ⟨hl, hv⟩))
    · intro hv h5
      refine movToCr_ends (ok hc (by decide)) (writeCr_cr4 (Bool.eq_false_iff.mpr (mt cr4Rejects_iff.mp ?_))) rfl
      rintro (hv' | ⟨hl, h4, hv5⟩)
      · exact hv' hv
      · exact Bool.false_ne_true (hv5.symm.trans (h5 hl h4))
    · exact fun h => movToCr_rejects (ok hc (by decide)) (writeCr_cr4_rejects (cr4Rejects_iff.mpr h))
    · intro bad
      exact ⟨fun h => movToCr_rejects (ok hc (by decide)) (writeCr_cr0_rejects (cr0Rejects_iff.mpr h)),
        fun h => movToCr_ends (ok hc (by decide)) (writeCr_cr0 (Bool.eq_false_iff.mpr (mt cr0Rejects_iff.mp h))) rfl⟩
    · have ok8 : needCr 8 s = .ok ((), s) := (needCr_eq (.inr ⟨rfl, h6⟩)).trans (needCpl0_ok hc)
      refine ⟨?_, fun hv => ?_, fun hv => ?_⟩
      · rw [← readCr_cr8]; exact movFromCr_ends ok8
      · exact movToCr_ends ok8 (writeCr_cr8.trans (if_pos hv)) rfl
      · exact movToCr_rejects ok8 (writeCr_cr8.trans (if_neg (by exact Nat.not_lt.mpr hv)))
    · have stop : needCr 8 s = .error (.raised gp0) := (needCr_eq (.inr ⟨rfl, h6⟩)).trans (needCpl0_raised hc)
      exact ⟨movFromCr_stops stop, movToCr_stops stop⟩
  · intro v put ends
    refine ⟨fun dr h => ⟨movFromDr_stops (needDr_absent h), movToDr_stops (needDr_absent h)⟩, fun hc dr h h' => ?_,
      fun hc p hp h' => ?_⟩
    · have lt : ∀ dr ∈ [(0 : Reg), 1, 2, 3, 4, 5, 6, 7], dr.toNat < 8 := by decide
      have stop : needDr dr s = .error (.raised gp0) := (needDr_eq (lt dr h) h').trans (needCpl0_raised hc)
      exact ⟨movFromDr_stops stop, movToDr_stops stop⟩
    · have ok {dr : Reg} (lt : dr.toNat < 8) (h' : dr = 4 ∨ dr = 5 → s.cr4.getLsbD 3 = false) :
          needDr dr s = .ok ((), s) := (needDr_eq lt h').trans (needCpl0_ok hc)
      simp only [List.mem_cons, List.not_mem_nil, or_false] at hp
      obtain rfl | rfl | rfl | rfl | rfl | rfl | rfl | rfl := hp
      all_goals
        dsimp only at h' ⊢
        exact ⟨movFromDr_ends (ok (by decide) h'), movToDr_ends (ok (by decide) h'),
          movToDr_rejects (ok (by decide) h')⟩

end Sys2Proof
end

