-- ==== Sys2Proof/Proofs/Moves.lean ====
section
/-! SUPPORT. What the accessors of the general registers read and write, and what the moves leave. -/

namespace Sys2Proof.Machine

open Sys2Proof

variable {s t : State}

/-! ### The general registers (R31, R33, R34) -/

/-- Register `q` holds the number `n`, and that is all the difference from `s`. -/
def State.Wrote (s t : State) (q : Reg) (n : Nat) : Prop :=
  (t.get q).toNat = n ∧ (∀ p, p ≠ q → t.get p = s.get p) ∧ t = { s with gpr := t.gpr }

theorem State.wrote_writeReg (s : State) (w : Width) (r : Reg) (v : BitVec w.bits) : s.Wrote (s.writeReg w r v) r
    ((if w.bits < 32 then (s.get r).toNat / 2 ^ w.bits * 2 ^ w.bits else 0) + v.toNat) := by
  refine ⟨?_, fun p hp => s.get_writeReg_ne w v hp, rfl⟩
  rw [State.get_writeReg_self, mergeReg_toNat]

theorem State.wrote_writeHigh (s : State) (h : BitVec 2) (v : Byte) : s.Wrote (s.writeGReg .b8 (.high h) v) (highReg h)
    ((s.get (highReg h)).toNat / 2 ^ 16 * 2 ^ 16 + v.toNat * 256 + (s.get (highReg h)).toNat % 256) :=
  ⟨s.get_writeHigh_toNat h v, fun p hp => s.get_writeGReg_ne .b8 (.high h) v p hp, rfl⟩

theorem State.readReg_eq (s : State) (w : Width) (r : Reg) : s.readReg w r = BitVec.ofNat _ (s.get r).toNat :=
  (BitVec.ofNat_toNat ..).symm

theorem State.readHigh_eq (s : State) (h : BitVec 2) :
    s.readGReg .b8 (.high h) = BitVec.ofNat 8 ((s.get (highReg h)).toNat / 256) := by
  apply BitVec.eq_of_toNat_eq
  show (((s.get (highReg h)).extractLsb' 8 8).setWidth 8).toNat = _
  rw [BitVec.toNat_setWidth, BitVec.extractLsb'_toNat, Nat.shiftRight_eq_div_pow, BitVec.toNat_ofNat, Nat.mod_mod]

/-! ### Operands -/

/-- What changes only memory leaves the flags. -/
theorem rflags_of_onlyMem (h : t = { s with mem := t.mem }) : t.rflags = s.rflags := by rw [h]

/-- A memory operand is what is read at its effective address (R240). -/
theorem loadMem_eq (w : Width) (m : Mem) (s : State) : loadMem w m s =
    (readMem m.seg (s.effAddr m) w.bytes >>= fun v => pure (BitVec.ofNat w.bits v) : M _) s := by
  have assoc : loadMem w m = resolveMem m w.bytes false (.natural w.bytes) >>= fun sp =>
      loadSpan sp w.bytes >>= fun v => pure (BitVec.ofNat w.bits v) := rfl
  rw [assoc, resolveMem, readMem, bind_assoc, bind_assoc]
  rfl

/-- Writing a destination leaves the flags. -/
theorem Destination.rflags {w : Width} {rm : RMB} {x : BitVec w.bits} {put : BitVec w.bits → State}
    (h : Destination s w rm x put) (v : BitVec w.bits) : (put v).rflags = s.rflags := by
  cases h with
  | reg g => exact s.writeGReg_rflags w g v
  | mem m sp u h => exact (rflags_of_onlyMem (resolveMem_onlyMem h) :)

/-- A store changes no byte outside its span. -/
theorem State.storeAt_onlySpan {u : State} (h : u.memOk = true) (sp : Span) (n v : Nat) :
    OnlySpan sp n u (u.storeAt sp n v) := fun a ha =>
  memGet_spanSet_outside h fun j _ hj => (ha j (by omega)).symm

/-! ### The moves -/

/-- A sequential meaning whose last part leaves the flags of its first. -/
theorem runSeq_next {m : M Unit} {f : BitVec 32} (h : m s = .ok ((), t)) (hf : t.rflags = f) :
    runSeq m s = .next (t.endWith f) := hf ▸ runSeq_ends h

theorem mov_to {w : Width} {rm : RMB} {x : BitVec w.bits} {put : BitVec w.bits → State}
    (h : Destination s w rm x put) (v : BitVec w.bits) :
    runSeq (writeRmb w rm v) s = .next ((put v).endWith s.rflags) := runSeq_next (writeRmb_ok h v) (h.rflags v)

/-- What is read is written to a register. -/
theorem runSeq_readThen {α : Type} {m : M α} {g : α → State → State} {a : α} (h : m s = .ok (a, t))
    (ht : t = { s with mem := t.mem }) (hg : (g a t).rflags = t.rflags) :
    runSeq (m >>= fun a => upd (g a)) s = .next ((g a t).endWith s.rflags) :=
  runSeq_next (M.bind_of_ok h) (hg.trans (rflags_of_onlyMem ht))

end Sys2Proof.Machine

namespace Sys2Proof

open Sys2Proof.Machine

/-- Settles O26: the registers width by width, then each form of the moves by its operand. -/
theorem moves : Obligations.Moves := by
  unfold Obligations.Moves
  refine ⟨fun s r h => ?_, fun s w => ⟨fun g => rfl, fun r => rfl, fun m => ⟨fun e h => ?_, fun v t h => ?_⟩⟩,
    fun s w rm x put h => ⟨fun hm v => h.onlyOperand hm v, fun r => mov_to h _, fun imm => mov_to h _⟩,
    fun s t w rm v h => ?_, fun s t d r rm v h => ?_, fun s w r imm => ?_, fun s u w seg asz off => ?_,
    fun s t seg asz v h => ?_⟩
  · have high : BitVec.ofNat 4 h.toNat = highReg h := BitVec.ofNat_toNat 4 h
    dsimp only
    rw [high]
    refine ⟨rfl, fun w => ⟨s.readReg_eq w r, rfl, fun _ => rfl⟩, s.readHigh_eq h, fun v => ?_, fun v => ?_,
      s.wrote_writeReg .b16 r, s.wrote_writeReg .b8 r, s.wrote_writeHigh h⟩
    · exact Nat.zero_add v.toNat ▸ s.wrote_writeReg .b64 r v
    · exact Nat.zero_add v.toNat ▸ s.wrote_writeReg .b32 r v
  · exact and_self_iff.mpr ((loadMem_eq w m s).trans (M.bind_of_error h))
  · exact and_self_iff.mpr ((loadMem_eq w m s).trans (M.bind_of_ok h))
  · have ht := readRmb_onlyMem h
    refine ⟨fun r => runSeq_readThen h ht (t.writeGReg_rflags ..), fun d r => ⟨?_, runSeq_readThen h ht rfl⟩⟩
    rw [BitVec.ofNat_toNat]
    exact runSeq_readThen h ht rfl
  · exact runSeq_readThen h (readRmb_onlyMem h) rfl
  · exact runSeq_next (m := movForm (.regImm w r imm)) rfl (s.writeGReg_rflags ..)
  · refine ⟨fun v h => ?_, fun sp h => ⟨fun hm => ?_, ?_⟩⟩
    · exact runSeq_readThen h (readMem_onlyMem h) rfl
    · exact u.storeAt_onlySpan ((resolve_keeps memOk_regStable.toMemStable ..).of_ok hm h) sp _ _
    · exact runSeq_next (m := moffsForm true w seg _) ((readS_bind ..).trans (M.bind_of_ok h))
        (rflags_of_onlyMem (resolve_onlyMem h) :)
  · rw [BitVec.ofNat_toNat] at h
    exact runSeq_next (m := xlatForm asz seg) ((readS_bind ..).trans (M.bind_of_ok h))
      (rflags_of_onlyMem (readMem_onlyMem h) :)

end Sys2Proof
end

