-- ==== Sys2Proof/Proofs/SseConvert.lean ====
section
/-! SUPPORT. How an SSE instruction that reports exceptions ends, said once for every form: checks, operand, exceptions,
result. With it, the conversions form by form. -/

namespace Sys2Proof.Machine

open Sys2Proof

variable {s t : State}

/-! ### Checks -/

theorem sseReady_ok (h : s.sseOn) : sseReady s = .ok ((), s) := by
  obtain ⟨em, ts, osfxsr⟩ := h
  unfold sseReady
  rw [readS_bind, id, em, ts, osfxsr]
  rfl

theorem mmxReady_ok (h : s.sseOn) (hf : s.fpu.fsw.getLsbD 7 = false) : mmxReady s = .ok ((), s) := by
  unfold mmxReady
  rw [M.bind_of_ok (sseReady_ok h), fpuPending, readS_bind, id, hf]
  rfl

/-! ### Exceptions -/

theorem State.mxReported_eq (s : State) (x : BitVec 6) : s.mxReported x =
    if x &&& 7 &&& ~~~s.mxcsr.extractLsb' 7 6 = 0 then x else x &&& 7 := by
  unfold State.mxReported State.mxMasks
  cases h : x &&& 7 &&& ~~~s.mxcsr.extractLsb' 7 6 != 0 with
  | true => rw [if_pos rfl, if_neg (bne_iff_ne.mp h)]
  | false => rw [if_neg Bool.false_ne_true, if_pos (bne_eq_false_iff_eq.mp h)]

/-- An instruction that reports exceptions and then writes its result. -/
theorem simdEnds_of_signal {m w : M Unit} {i : Instr} {x : BitVec 6} {write : State → State}
    (hi : exec i s = runSeq m s) (ht : t = { s with mem := t.mem }) (hm : m s = (signalSimd x >>= fun _ => w) t)
    (hw : ∀ u, w u = .ok ((), write u)) (hf : ∀ u, (write u).rflags = u.rflags) : SimdEnds i s t x write := by
  have mxcsr : t.mxcsr = s.mxcsr := by rw [ht]
  have cr4 : t.cr4 = s.cr4 := by rw [ht]
  have reported : t.mxReported x = if x &&& 7 &&& ~~~s.mxcsr.extractLsb' 7 6 = 0 then x else x &&& 7 := by
    rw [State.mxReported_eq, mxcsr]
  have unmasked : t.mxUnmasked x = t.mxReported x &&& ~~~s.mxcsr.extractLsb' 7 6 := by
    rw [State.mxUnmasked, State.mxMasks, mxcsr]
  unfold SimdEnds
  dsimp only
  rw [hi, ← reported, ← unmasked]
  split
  · next h =>
    refine runSeq_next ((hm.trans (M.bind_of_ok (signalSimd_masked h))).trans (hw _)) ?_
    exact (hf _).trans (rflags_of_onlyMem ht :)
  · next h =>
    rw [← cr4]
    exact runSeq_raiseHere (hm.trans (M.bind_of_error (signalSimd_unmasked h)))

/-! ### Forms -/

section
variable {α : Type} {check w : M Unit} {read : M α} {i : Instr} {f : State → α → BitVec 6} {r : State → α → M Unit}
  {a : α} {x : BitVec 6} {write : State → State}

/-- Checks, operand, exceptions and result of an instruction, all but the operand's bytes judged in the state before. -/
theorem simdEnds_of_read (hi : exec i s = runSeq (do check; let b ← read; let t ← readS id; signalSimd (f t b); r t b) s)
    (hc : check s = .ok ((), s)) (hr : read s = .ok (a, t)) (ht : t = { s with mem := t.mem })
    (hx : f { s with mem := t.mem } a = x) (hw : ∀ u, r { s with mem := t.mem } a u = .ok ((), write u))
    (hf : ∀ u, (write u).rflags = u.rflags) : SimdEnds i s t x write := by
  rw [← ht] at hx hw
  refine simdEnds_of_signal hi ht ?_ hw hf
  rw [M.bind_of_ok hc, M.bind_of_ok hr, readS_bind, id, hx]

end

/-- Reading a low operand changes memory only. -/
theorem loadLow_onlyMem {α : Type} {m : Mem} {n : Nat} {al : Align} {f : Nat → α} {v : α}
    (h : (do let x ← loadLow m n al; pure (f x) : M α) s = .ok (v, t)) : t = { s with mem := t.mem } :=
  (Keeps.bind (loadLow_keeps (onlyMem_memStable s) m n al) fun _ => .pure _).of_ok rfl h

theorem readXm_onlyMem {n : Nat} {al : Align} {src : XM} {b : BitVec 128} (h : readXm n al src s = .ok (b, t)) :
    t = { s with mem := t.mem } := by
  cases src with
  | reg r => cases h; rfl
  | mem m => exact loadLow_onlyMem h

theorem readRmLow_onlyMem {w : Width} {rm : RM} {v : BitVec w.bits} (h : readRmLow w rm s = .ok (v, t)) :
    t = { s with mem := t.mem } := by
  cases rm with
  | reg r => cases h; rfl
  | mem m => exact loadLow_onlyMem h

theorem readMm_onlyMem {q : MM} {v : BitVec 64} (h : readMm q s = .ok (v, t)) : t = { s with mem := t.mem } := by
  cases q with
  | reg r => cases h; rfl
  | mem m => exact loadLow_onlyMem h

section
variable {α : Type} {check : M Unit} {read : M α} {a : α} {i : Instr} {dst : Reg} {v : BitVec 128} {x : BitVec 6}

/-- A result for an XMM register. -/
theorem commitXmm_ends {g : State → α → Lane 128} (hc : check s = .ok ((), s)) (hr : read s = .ok (a, t))
    (ht : t = { s with mem := t.mem })
    (hi : exec i s = runSeq (do check; let b ← read; let t ← readS id; commitXmm dst (g t b)) s)
    (hg : g { s with mem := t.mem } a = ⟨v, x⟩) : SimdEnds i s t x (fun w => w.setXmm dst v) :=
  simdEnds_of_read (f := fun t b => (g t b).flags) (r := fun t b => upd (·.setXmm dst (g t b).bits)) hi hc hr ht
    (congrArg Lane.flags hg) (fun _ => by rw [hg]; rfl) fun _ => rfl

/-- A result for an XMM register, with more to do after it. -/
theorem commitXmm_then_ends {g : State → α → Lane 128} {k : M Unit} {after : State → State}
    (hc : check s = .ok ((), s)) (hr : read s = .ok (a, t)) (ht : t = { s with mem := t.mem })
    (hi : exec i s = runSeq (do check; let b ← read; let t ← readS id; commitXmm dst (g t b); k) s)
    (hg : g { s with mem := t.mem } a = ⟨v, x⟩) (hk : ∀ u, k u = .ok ((), after u))
    (hf : ∀ u, (after u).rflags = u.rflags) : SimdEnds i s t x (fun w => after (w.setXmm dst v)) := by
  have seq : commitXmm dst (g t a) >>= (fun _ => k) =
      signalSimd (g t a).flags >>= fun _ => upd (·.setXmm dst (g t a).bits) >>= fun _ => k := bind_assoc ..
  rw [← ht] at hg
  refine simdEnds_of_signal (w := upd (·.setXmm dst v) >>= fun _ => k) hi ht ?_ (fun u => hk _) fun u => hf _
  refine (M.bind_of_ok hc).trans ((M.bind_of_ok hr).trans ((readS_bind ..).trans ?_))
  exact (congrFun seq t).trans (by rw [hg])

/-- Two doublewords under a quadword are one quadword under it. -/
theorem append_pair (x : BitVec 64) (hi lo : BitVec 32) :
    (x ++ (hi ++ lo) : BitVec 128) = (x ++ hi ++ lo : BitVec 128) := by
  apply BitVec.eq_of_toNat_eq
  have l : (x ++ (hi ++ lo)).toNat = x.toNat * 2 ^ 64 + (hi.toNat * 2 ^ 32 + lo.toNat) := by
    rw [append_toNat, append_toNat]
  have r : ((x ++ hi) ++ lo).toNat = (x.toNat * 2 ^ 32 + hi.toNat) * 2 ^ 32 + lo.toNat := by
    rw [append_toNat, append_toNat]
  refine l.trans (Eq.trans ?_ r.symm)
  omega

theorem putLowD_append (old : BitVec 128) (hi lo : BitVec 32) :
    putLowD old (hi ++ lo) = old.extractLsb' 64 64 ++ hi ++ lo := append_pair ..

/-- The state is an MMX state: TOP is 0 and every register valid (R621). -/
theorem Fpu.toMmx_eq (f : Fpu) : f.toMmx = { f with fsw := f.fsw &&& 0xC7FF, ftw := 0 } := by
  have top : f.fsw &&& ~~~0x3800#16 ||| (0#3).setWidth 16 <<< 11 &&& 0x3800#16 = f.fsw &&& 0xC7FF := BitVec.or_zero
  exact congrArg (fun w => { f with fsw := w, ftw := 0 }) top

/-- A pair of results for an MMX register (R621). -/
theorem toMmx_ends {mm : Reg3} {src : XM} {rd : XM → M (BitVec 128)} {b : BitVec 128}
    {g : State → BitVec 128 → Nat → Lane 32} {lo hi : BitVec 32} {x y : BitVec 6} (hc : mmxReady s = .ok ((), s))
    (hr : rd src s = .ok (b, t)) (ht : t = { s with mem := t.mem }) (he : exec i s = runSeq (toMmxForm mm rd src g) s)
    (hlo : g { s with mem := t.mem } b 0 = ⟨lo, x⟩) (hhi : g { s with mem := t.mem } b 1 = ⟨hi, y⟩) :
    SimdEnds i s t (x ||| y) fun w => { w with fpu := { w.fpu with
      r := w.fpu.r.set mm.toNat (0xFFFF#16 ++ (hi ++ lo)) mm.isLt, fsw := w.fpu.fsw &&& 0xC7FF, ftw := 0 } } := by
  refine simdEnds_of_read (f := fun t b => (g t b 0).flags ||| (g t b 1).flags)
    (r := fun t b => updFpu (·.setMmx mm ((g t b 1).bits ++ (g t b 0).bits))) he hc hr ht ?_ (fun u => ?_) fun _ => rfl
  · rw [hlo, hhi]
  · rw [hlo, hhi, updFpu, upd_apply]
    dsimp only
    rw [Fpu.setMmx, Fpu.toMmx_eq]
    rfl

/-- An integer for a general register (R636). -/
theorem toGpr_ends {w : Width} {r : Reg} {src : XM} {rd : XM → M (BitVec 128)} {b : BitVec 128}
    {g : State → BitVec 128 → Lane w.bits} {v : BitVec w.bits}
    (hc : sseReady s = .ok ((), s)) (hr : rd src s = .ok (b, t)) (ht : t = { s with mem := t.mem })
    (hi : exec i s = runSeq (toGprForm w r rd src g) s) (hg : g { s with mem := t.mem } b = ⟨v, x⟩) :
    SimdEnds i s t x (fun u => u.writeReg w r v) :=
  simdEnds_of_read (f := fun t b => (g t b).flags) (r := fun t b => upd (·.writeReg w r (g t b).bits)) hi hc hr ht
    (congrArg Lane.flags hg) (fun _ => by rw [hg]; rfl) fun _ => rfl

/-- An operand whose read raises #GP(0) (R673). -/
theorem read_stops {k : α → M Unit} (hc : check s = .ok ((), s)) (hr : read s = .error (.raised gp0))
    (hi : exec i s = runSeq (do check; let b ← read; k b) s) : exec i s = deliver gp0 s :=
  hi.trans (runSeq_raise ((M.bind_of_ok hc).trans (M.bind_of_error hr)))

end

/-! ### Operands -/

section
variable {m : Mem} {n : Nat} {al : Align}

/-- Whether an operand of `n` bytes reaches beyond FFFFH where that is not allowed (R673). -/
def State.beyondLow (s : State) (m : Mem) (n : Nat) : Prop :=
  s.paragraphs = true ∧ 0xFFFF < (s.effAddr m).toNat + n - 1

theorem loadLow_high (h : s.beyondLow m n) : loadLow m n al s = .error (.raised gp0) := by
  have : needLow m n s = .error (.raised gp0) := by
    unfold needLow
    rw [readS_bind, id, h.1, decide_eq_true h.2]
    rfl
  exact M.bind_of_error (M.bind_of_error this)

theorem loadLow_ok {sp : Span} (h : ¬ s.beyondLow m n) (hr : resolveMem m n false al s = .ok (sp, t)) :
    loadLow m n al s = .ok (spanGet t.mem sp 0 n, t) := by
  have : needLow m n s = .ok ((), s) := by
    have : (s.paragraphs && decide (0xFFFF < (s.effAddr m).toNat + n - 1)) = false := by
      rw [Bool.and_eq_false_imp, decide_eq_false_iff_not]
      exact fun h1 h2 => h ⟨h1, h2⟩
    unfold needLow
    rw [readS_bind, id, this]
    rfl
  exact (M.bind_of_ok ((M.bind_of_ok this).trans hr)).trans rfl

theorem readXm_high (h : s.beyondLow m n) : readXm n al (.mem m) s = .error (.raised gp0) :=
  M.bind_of_error (loadLow_high h)

theorem readMm_high (h : s.beyondLow m 8) : readMm (.mem m) s = .error (.raised gp0) := M.bind_of_error (loadLow_high h)

theorem readRmLow_high {w : Width} (h : s.beyondLow m w.bytes) : readRmLow w (.mem m) s = .error (.raised gp0) :=
  M.bind_of_error (loadLow_high h)

end

end Sys2Proof.Machine

namespace Sys2Proof

open Sys2Proof.Machine

/-- Settles O47, form by form: what is read, what the lanes convert to, and where the result goes. -/
theorem sseConvert : Obligations.SseConvert := by
  unfold Obligations.SseConvert
  intro s t dst mm src b on a dq high lane toS toD narrow widen x mmx
  have ready : sseReady s = .ok ((), s) := sseReady_ok on
  refine ⟨fun h => ?_, fun h => ?_, fun h => ?_, fun w m r sp => ?_, fun w rm v h => ?_, fun q v h hf => ?_⟩
  · have ht := readXm_onlyMem h
    refine ⟨fun p hp => ?_, fun p hp => ?_, commitXmm_ends ready h ht rfl rfl, commitXmm_ends ready h ht rfl rfl⟩
    all_goals
      simp only [List.mem_cons, List.not_mem_nil, or_false] at hp
      obtain rfl | rfl := hp
    · exact ⟨commitXmm_ends ready h ht rfl rfl, fun hf => toMmx_ends (mmxReady_ok on hf) h ht rfl rfl rfl⟩
    · exact ⟨commitXmm_ends ready h ht rfl rfl, fun hf => toMmx_ends (mmxReady_ok on hf) h ht rfl rfl rfl⟩
    · exact commitXmm_ends ready h ht rfl rfl
    · exact commitXmm_ends ready h ht rfl rfl
  · have ht := readXm_onlyMem h
    refine ⟨commitXmm_ends ready h ht rfl rfl, commitXmm_ends ready h ht rfl rfl, commitXmm_ends ready h ht rfl rfl,
      fun p hp => ?_, fun w p hp => ?_⟩
    all_goals
      simp only [List.mem_cons, List.not_mem_nil, or_false] at hp
      obtain rfl | rfl := hp
    · exact fun hf => toMmx_ends (mmxReady_ok on hf) h ht rfl rfl rfl
    · exact fun hf => toMmx_ends (mmxReady_ok on hf) h ht rfl rfl rfl
    · exact toGpr_ends ready h ht rfl rfl
    · exact toGpr_ends ready h ht rfl rfl
  · have ht := readXm_onlyMem h
    refine ⟨commitXmm_ends ready h ht rfl rfl, fun w p hp => ?_⟩
    simp only [List.mem_cons, List.not_mem_nil, or_false] at hp
    obtain rfl | rfl := hp
    · exact toGpr_ends ready h ht rfl rfl
    · exact toGpr_ends ready h ht rfl rfl
  · refine ⟨rfl, rfl, fun p hp hh => ?_, fun hh hr => (M.bind_of_ok (loadLow_ok hh hr)).trans rfl,
      fun hh hr => (M.bind_of_ok (loadLow_ok hh hr)).trans rfl⟩
    simp only [List.mem_cons, List.not_mem_nil, or_false] at hp
    obtain rfl | rfl | rfl | rfl := hp
    all_goals
      refine ⟨fun q hq => ?_, fun hf q hq => ?_⟩
      all_goals
        simp only [List.mem_cons, List.not_mem_nil, or_false] at hq
    · obtain rfl | rfl | rfl | rfl | rfl | rfl := hq
      all_goals exact read_stops ready (readXm_high hh) rfl
    · obtain rfl | rfl := hq
      all_goals exact read_stops (mmxReady_ok on hf) (readXm_high hh) rfl
    · obtain rfl | rfl | rfl | rfl | rfl := hq
      all_goals exact read_stops ready (readXm_high hh) rfl
    · obtain rfl | rfl | rfl | rfl := hq
      · exact read_stops (mmxReady_ok on hf) (readXm_high hh) rfl
      · exact read_stops (mmxReady_ok on hf) (readXm_high hh) rfl
      · exact read_stops (mmxReady_ok on hf) (readMm_high hh) rfl
      · exact read_stops (mmxReady_ok on hf) (readMm_high hh) rfl
    · obtain rfl | rfl | rfl := hq
      all_goals exact read_stops ready (readXm_high hh) rfl
    · obtain rfl | rfl := hq
      all_goals exact read_stops ready (readRmLow_high hh) rfl
  · have ht := readRmLow_onlyMem h
    exact ⟨commitXmm_ends ready h ht rfl rfl, commitXmm_ends ready h ht rfl rfl⟩
  · have ht := readMm_onlyMem h
    have mready := mmxReady_ok on hf
    have transition (u : State) : updFpu (·.toMmx) u =
        .ok ((), { u with fpu := { u.fpu with fsw := u.fpu.fsw &&& 0xC7FF, ftw := 0 } }) := by
      rw [updFpu, upd_apply, Fpu.toMmx_eq]
    refine ⟨commitXmm_then_ends mready h ht rfl ?_ transition fun _ => rfl, ?_⟩
    · exact congrArg (Lane.mk · _) (putLowD_append ..)
    cases q with
    | reg j => exact commitXmm_then_ends mready h ht rfl rfl transition fun _ => rfl
    | mem m => exact commitXmm_then_ends (after := id) mready h ht rfl rfl (fun _ => rfl) fun _ => rfl

end Sys2Proof
end

