-- ==== Sys2Proof/Proofs/FloatFormats.lean ====
section
/-! SUPPORT. The floating-point formats in numbers: what the fields of an encoding stand for, and which encoding a value
in range becomes. -/

namespace Sys2Proof.Machine

open Sys2Proof

/-! ### From bits to values (R70, R453, R574) -/

/-- A bit field as a number. -/
theorem field_toNat {n : Nat} (b : BitVec n) (lo len : Nat) :
    (b.extractLsb' lo len).toNat = b.toNat / 2 ^ lo % 2 ^ len := by
  rw [BitVec.extractLsb'_toNat, Nat.shiftRight_eq_div_pow]

theorem unpack32_eq (b : BitVec 32) :
    unpack32 b = unpackHidden 24 127 b.msb (b.toNat / 2 ^ 23 % 2 ^ 8) (b.toNat % 2 ^ 23) := by
  rw [unpack32, field_toNat, field_toNat, Nat.pow_zero, Nat.div_one]

theorem unpack64_eq (b : BitVec 64) :
    unpack64 b = unpackHidden 53 1023 b.msb (b.toNat / 2 ^ 52 % 2 ^ 11) (b.toNat % 2 ^ 52) := by
  rw [unpack64, field_toNat, field_toNat, Nat.pow_zero, Nat.div_one]

section
variable (b : BitVec 80)

theorem exponent80 : (b.extractLsb' 64 15).toNat = b.toNat / 2 ^ 64 % 2 ^ 15 := field_toNat ..

theorem significand80 : (b.extractLsb' 0 64).toNat = b.toNat % 2 ^ 64 := by
  rw [field_toNat, Nat.pow_zero, Nat.div_one]

theorem significand80_eq_zero : b.extractLsb' 0 64 = 0 ↔ b.toNat % 2 ^ 64 = 0 := by
  rw [← BitVec.toNat_inj, significand80]; rfl

theorem significand80_msb : (b.extractLsb' 0 64).msb = !decide (b.toNat % 2 ^ 64 < 2 ^ 63) := by
  rw [BitVec.msb_eq_decide, significand80]
  by_cases h : b.toNat % 2 ^ 64 < 2 ^ 63
  · rw [decide_eq_true h, decide_eq_false (Nat.not_le.mpr h)]; rfl
  · rw [decide_eq_false h, decide_eq_true (Nat.not_lt.mp h)]; rfl

/-- The class of an 80-bit encoding as a tag (R456). -/
theorem tagOf_eq : tagOf b =
    let x : Nat := b.toNat / 2 ^ 64 % 2 ^ 15
    let r : Nat := b.toNat % 2 ^ 64
    if x = 0 ∧ r = 0 then 1 else if x = 0 ∨ x = 0x7FFF ∨ r < 2 ^ 63 then 2 else 0 := by
  have none : b.extractLsb' 64 15 = 0 ↔ b.toNat / 2 ^ 64 % 2 ^ 15 = 0 := by
    rw [← BitVec.toNat_inj, exponent80]; rfl
  have all : b.extractLsb' 64 15 = 0x7FFF ↔ b.toNat / 2 ^ 64 % 2 ^ 15 = 0x7FFF := by
    rw [← BitVec.toNat_inj, exponent80]; rfl
  unfold tagOf
  simp only [none, all, significand80_eq_zero, significand80_msb, Bool.not_eq_true', decide_eq_false_iff_not]
  generalize b.toNat / 2 ^ 64 % 2 ^ 15 = x
  generalize b.toNat % 2 ^ 64 = r
  by_cases h0 : x = 0
  · simp only [h0, true_and, true_or, if_true]
  · simp only [h0, false_and, false_or, if_false]
    by_cases h1 : x = 0x7FFF
    · simp only [h1, true_or, if_true]
    · simp only [h1, false_or, if_false]
      split_ifs <;> rfl

/-- What an 80-bit encoding stands for (R70, R453). -/
theorem unpack80_eq : unpack80 b =
    let x : Nat := b.toNat / 2 ^ 64 % 2 ^ 15
    let r : Nat := b.toNat % 2 ^ 64
    if x = 0 then (if r = 0 then .zero b.msb else .fin b.msb r (-16445) true)
    else if r < 2 ^ 63 then .unsupported
    else if x = 0x7FFF then (if r = 2 ^ 63 then .inf b.msb else .nan b.msb (BitVec.ofNat 63 r))
    else .fin b.msb r ((x : Int) - 16446) false := by
  have frac : (b.extractLsb' 0 64).extractLsb' 0 63 = BitVec.ofNat 63 (b.toNat % 2 ^ 64) := by
    apply BitVec.eq_of_toNat_eq
    rw [field_toNat, significand80, BitVec.toNat_ofNat, Nat.pow_zero, Nat.div_one]
  have fracZero : ¬ b.toNat % 2 ^ 64 < 2 ^ 63 →
      (BitVec.ofNat 63 (b.toNat % 2 ^ 64) = 0 ↔ b.toNat % 2 ^ 64 = 2 ^ 63) := by
    rw [← BitVec.toNat_inj, BitVec.toNat_ofNat]
    show _ → (_ % 2 ^ 63 = 0 ↔ _)
    omega
  unfold unpack80
  simp only [exponent80, significand80, significand80_eq_zero, significand80_msb, frac, Bool.not_not, decide_eq_true_eq]
  by_cases hr : b.toNat % 2 ^ 64 < 2 ^ 63
  · simp only [hr, if_true]
  · simp only [hr, if_false, fracZero hr]

end

/-! ### From values to bits -/

/-- The significand of a normal value has exactly the bits of the format. -/
theorem significand_bounds {m : Nat} (hm : 0 < m) (k : Nat) :
    2 ^ k ≤ m * 2 ^ k / 2 ^ m.log2 ∧ m * 2 ^ k / 2 ^ m.log2 < 2 ^ (k + 1) := by
  have low := Nat.log2_self_le (Nat.pos_iff_ne_zero.mp hm)
  have high := Nat.lt_log2_self (n := m)
  constructor
  · rw [Nat.le_div_iff_mul_le (Nat.two_pow_pos _), Nat.mul_comm]
    exact Nat.mul_le_mul_right _ low
  · rw [Nat.div_lt_iff_lt_mul (Nat.two_pow_pos _)]
    calc m * 2 ^ k < 2 ^ (m.log2 + 1) * 2 ^ k := Nat.mul_lt_mul_of_pos_right high (Nat.two_pow_pos _)
      _ = 2 ^ (k + 1) * 2 ^ m.log2 := by rw [← Nat.pow_add, ← Nat.pow_add]; congr 1; omega

/-- The significand of a value below the normal range has no bit where the hidden one stands. -/
theorem denormal_lt {p bias m : Nat} {e : Int} (hp : 1 ≤ p) (h : e + m.log2 < 1 - bias) :
    (if (2 - bias - p : Int) ≤ e then m * 2 ^ (e - (2 - bias - p)).toNat else m / 2 ^ ((2 - bias - p) - e).toNat) <
      2 ^ (p - 1) := by
  have high := Nat.lt_log2_self (n := m)
  split
  · calc m * 2 ^ (e - (2 - bias - p)).toNat < 2 ^ (m.log2 + 1) * 2 ^ (e - (2 - bias - p)).toNat :=
          Nat.mul_lt_mul_of_pos_right high (Nat.two_pow_pos _)
      _ = 2 ^ (m.log2 + 1 + (e - (2 - bias - p)).toNat) := (Nat.pow_add ..).symm
      _ ≤ 2 ^ (p - 1) := Nat.pow_le_pow_right (by decide) (by omega)
  · rw [Nat.div_lt_iff_lt_mul (Nat.two_pow_pos _), ← Nat.pow_add]
    exact high.trans_le (Nat.pow_le_pow_right (by decide) (by omega))

/-- Sign, exponent and significand fields side by side as a number. -/
theorem fields_toNat {a b x r : Nat} (s : Bool) (hx : x < 2 ^ a) (hr : r < 2 ^ b) :
    (BitVec.ofBool s ++ BitVec.ofNat a x ++ BitVec.ofNat b r).toNat =
      (if s then 2 ^ a * 2 ^ b else 0) + x * 2 ^ b + r := by
  rw [append_toNat, append_toNat, BitVec.toNat_ofNat, BitVec.toNat_ofNat, Nat.mod_eq_of_lt hx, Nat.mod_eq_of_lt hr]
  cases s <;> simp
  ring

/-- The number `n` is the encoding of a value in a format of `p` significand bits, the top one of them in the encoding or
not: of NaN, infinity, zero and the finite values up to the range of the format. -/
def PacksTo (p bias : Nat) (explicit : Bool) (v : FVal) (n : Nat) : Prop :=
  let one := 2 ^ (p - 1)
  let hidden := if explicit then 0 else one
  let unit := if explicit then 2 * one else one
  let fields := fun (s : Bool) (x r : Nat) => (if s then (2 * bias + 2) * unit else 0) + x * unit + r
  let lowest : Int := 2 - bias - p
  match v with
  | .zero s => n = fields s 0 0
  | .inf s => n = fields s (2 * bias + 1) (one - hidden)
  | .nan s g => n = fields s (2 * bias + 1) (one - hidden + g.toNat / 2 ^ (64 - p))
  | .fin s m e _ => 0 < m →
    (1 - bias ≤ e + m.log2 → e + m.log2 ≤ bias →
      n = fields s (e + m.log2 + bias).toNat (m * one / 2 ^ m.log2 - hidden)) ∧
    (e + m.log2 < 1 - bias →
      n = fields s 0 (if lowest ≤ e then m * 2 ^ (e - lowest).toNat else m / 2 ^ (lowest - e).toNat))
  | .unsupported => True

/-- A format with a hidden bit and `a` exponent bits (R574). -/
theorem packHidden_packsTo {p bias a : Nat} (hp : 2 ≤ p) (hp' : p ≤ 64) (ha : 2 * bias + 2 = 2 ^ a) (v : FVal) :
    PacksTo p bias false v (BitVec.ofBool (packHidden p bias v).1 ++ BitVec.ofNat a (packHidden p bias v).2.1 ++
      BitVec.ofNat (p - 1) (packHidden p bias v).2.2).toNat := by
  have pos := Nat.two_pow_pos (p - 1)
  have top : 2 * bias + 1 < 2 ^ a := by omega
  have fields {x r : Nat} (s : Bool) (hx : x < 2 ^ a) (hr : r < 2 ^ (p - 1)) :
      (BitVec.ofBool s ++ BitVec.ofNat a x ++ BitVec.ofNat (p - 1) r).toNat =
        (if s then (2 * bias + 2) * 2 ^ (p - 1) else 0) + x * 2 ^ (p - 1) + r := by rw [fields_toNat s hx hr, ha]
  unfold PacksTo
  simp only [Bool.false_eq_true, if_false, Nat.sub_self, Nat.zero_add]
  cases v with
  | zero s => exact fields (x := 0) s (by omega) pos
  | inf s => exact fields s top pos
  | nan s g =>
    refine fields s top ?_
    show g.toNat / 2 ^ (64 - p) < _
    rw [Nat.div_lt_iff_lt_mul (Nat.two_pow_pos _), ← Nat.pow_add, show p - 1 + (64 - p) = 63 by omega]
    exact g.isLt
  | fin s m e d =>
    refine fun hm => ⟨fun h1 h2 => ?_, fun h => ?_⟩
    · obtain ⟨low, high⟩ := significand_bounds hm (p - 1)
      have mod : m * 2 ^ (p - 1) / 2 ^ m.log2 % 2 ^ (p - 1) = m * 2 ^ (p - 1) / 2 ^ m.log2 - 2 ^ (p - 1) := by
        rw [Nat.mod_eq_sub_mod low, Nat.mod_eq_of_lt (by rw [Nat.pow_succ] at high; omega)]
      simp only [packHidden, packParts_normal h1 h2, mod]
      exact fields s (by omega) (by rw [Nat.pow_succ] at high; omega)
    · have lt := denormal_lt (by omega : 1 ≤ p) h
      simp only [packHidden, packParts_denormal h, Nat.mod_eq_of_lt lt]
      exact fields s (by omega) lt
  | unsupported => trivial

theorem pack32_packsTo (v : FVal) : PacksTo 24 127 false v (pack32 v).toNat :=
  packHidden_packsTo (a := 8) (by decide) (by decide) rfl v

theorem pack64_packsTo (v : FVal) : PacksTo 53 1023 false v (pack64 v).toNat :=
  packHidden_packsTo (a := 11) (by decide) (by decide) rfl v

theorem pack80_packsTo (v : FVal) : PacksTo 64 16383 true v (pack80 v).toNat := by
  have fields {x r : Nat} (s : Bool) (hx : x < 2 ^ 15) (hr : r < 2 ^ 64) :
      (BitVec.ofBool s ++ BitVec.ofNat 15 x ++ BitVec.ofNat 64 r).toNat =
        (if s then (2 * 16383 + 2) * (2 * 2 ^ 63) else 0) + x * (2 * 2 ^ 63) + r := fields_toNat s hx hr
  unfold PacksTo
  simp only [if_true, Nat.sub_zero]
  cases v with
  | zero s =>
    rw [pack80, append_toNat]
    cases s <;> rfl
  | inf s =>
    rw [pack80, append_toNat, append_toNat]
    cases s <;> rfl
  | nan s g =>
    have g63 : g.toNat / 2 ^ (64 - 64) = g.toNat := Nat.div_one _
    dsimp only
    rw [pack80, append_toNat, append_toNat, append_toNat, g63]
    cases s
    · exact Nat.add_assoc (0x7FFF * 2 ^ 64) (2 ^ 63) g.toNat
    · exact Nat.add_assoc (2 ^ 79 + 0x7FFF * 2 ^ 64) (2 ^ 63) g.toNat
  | fin s m e d =>
    refine fun hm => ⟨fun h1 h2 => ?_, fun h => ?_⟩
    · obtain ⟨-, high⟩ := significand_bounds hm 63
      simp only [pack80, packParts_normal h1 h2]
      exact fields s (by omega) high
    · have lt := denormal_lt (by omega : 1 ≤ 64) h
      simp only [pack80, packParts_denormal h]
      exact fields s (by omega) (lt.trans (by decide))
  | unsupported => trivial

end Sys2Proof.Machine
end

