-- ==== Sys2Proof/Proofs/FloatArithmetic.lean ====
section
/-! SUPPORT. Rounding against the exact value, the quotient and the root with a last bit for the remainder, and the
operations by the classes of their operands. -/

namespace Sys2Proof.Machine

open Sys2Proof

/-! ### Rounding (R71, R455, R573) -/

/-- Whether rounding the low `k` bits of `m` away adds one to the rest (R71). -/
def roundsUp (rc : BitVec 2) (neg : Bool) (m k : Nat) : Bool :=
  match rc.toNat with
  | 0 => decide (2 ^ k < 2 * (m % 2 ^ k)) || (decide (2 * (m % 2 ^ k) = 2 ^ k) && decide (m / 2 ^ k % 2 = 1))
  | 1 => neg && decide (m % 2 ^ k ≠ 0)
  | 2 => !neg && decide (m % 2 ^ k ≠ 0)
  | _ => false

theorem roundBits_eq (rc : BitVec 2) (neg : Bool) (m k : Nat) : roundBits rc neg m k =
    (m / 2 ^ k + (roundsUp rc neg m k).toNat, decide (m % 2 ^ k ≠ 0), roundsUp rc neg m k) := by
  have : roundBits rc neg m k = (if roundsUp rc neg m k then m / 2 ^ k + 1 else m / 2 ^ k, decide (m % 2 ^ k ≠ 0),
    roundsUp rc neg m k) := rfl
  rw [this]
  cases roundsUp rc neg m k <;> rfl

theorem roundsUp_nearest (neg : Bool) (m k : Nat) : roundsUp 0 neg m k = true ↔
    2 ^ k < 2 * (m % 2 ^ k) ∨ (2 * (m % 2 ^ k) = 2 ^ k ∧ m / 2 ^ k % 2 = 1) := by
  show (_ || (_ && _)) = true ↔ _
  rw [Bool.or_eq_true, Bool.and_eq_true, decide_eq_true_iff, decide_eq_true_iff, decide_eq_true_iff]

/-- Directed rounding toward zero drops the low bits. -/
theorem roundsUp_toward {rc : BitVec 2} {neg : Bool} (h : rc = 3 ∨ (rc = 1 ∧ neg = false) ∨ (rc = 2 ∧ neg = true))
    (m k : Nat) : roundsUp rc neg m k = false := by
  obtain rfl | ⟨rfl, rfl⟩ | ⟨rfl, rfl⟩ := h <;> rfl

/-- Directed rounding away from zero adds one unless the low bits are 0. -/
theorem roundsUp_away {rc : BitVec 2} {neg : Bool} (h : (rc = 1 ∧ neg = true) ∨ (rc = 2 ∧ neg = false)) (m k : Nat) :
    roundsUp rc neg m k = decide (m % 2 ^ k ≠ 0) := by
  obtain ⟨rfl, rfl⟩ | ⟨rfl, rfl⟩ := h <;> rfl

theorem directions (rc : BitVec 2) (neg : Bool) : rc = 0 ∨ (rc = 3 ∨ (rc = 1 ∧ neg = false) ∨ (rc = 2 ∧ neg = true)) ∨
    ((rc = 1 ∧ neg = true) ∨ (rc = 2 ∧ neg = false)) := by revert rc neg; decide

/-- What is exact is not rounded up. -/
theorem roundsUp_inexact {rc : BitVec 2} {neg : Bool} {m k : Nat} (h : roundsUp rc neg m k = true) : m % 2 ^ k ≠ 0 := by
  obtain rfl | hd | hd := directions rc neg
  · have := Nat.two_pow_pos k
    rw [roundsUp_nearest] at h
    omega
  · rw [roundsUp_toward hd] at h; cases h
  · rw [roundsUp_away hd] at h; exact of_decide_eq_true h

/-- Rounding in numbers: the result is a neighbour of the exact value, in the direction chosen. -/
theorem roundBits_spec (rc : BitVec 2) (neg : Bool) (m k : Nat) :
    let o := roundBits rc neg m k
    let r := o.1 * 2 ^ k
    o.2.1 = decide (r ≠ m) ∧ o.2.2 = decide (m < r) ∧
    (rc = 0 → 2 * m ≤ 2 * r + 2 ^ k ∧ 2 * r ≤ 2 * m + 2 ^ k ∧
      (2 * m = 2 * r + 2 ^ k ∨ 2 * r = 2 * m + 2 ^ k → o.1 % 2 = 0)) ∧
    (rc = 3 ∨ (rc = 1 ∧ neg = false) ∨ (rc = 2 ∧ neg = true) → r ≤ m ∧ m < r + 2 ^ k) ∧
    ((rc = 1 ∧ neg = true) ∨ (rc = 2 ∧ neg = false) → m ≤ r ∧ r < m + 2 ^ k) := by
  intro o r
  have ho : o = _ := roundBits_eq rc neg m k
  have hr : r = m / 2 ^ k * 2 ^ k + (roundsUp rc neg m k).toNat * 2 ^ k := by
    show o.1 * 2 ^ k = _
    rw [ho, Nat.add_mul]
  have hm : m / 2 ^ k * 2 ^ k + m % 2 ^ k = m := Nat.div_add_mod' m _
  have lt := Nat.mod_lt m (Nat.two_pow_pos k)
  have up := roundsUp_inexact (rc := rc) (neg := neg) (m := m) (k := k)
  have nearest := roundsUp_nearest neg m k
  have away (ha : (rc = 1 ∧ neg = true) ∨ (rc = 2 ∧ neg = false)) := roundsUp_away ha m k
  rw [hr, ho]
  generalize m / 2 ^ k * 2 ^ k = base at hm ⊢
  generalize m / 2 ^ k = q at nearest ⊢
  generalize m % 2 ^ k = low at *
  generalize 2 ^ k = unit at *
  cases hu : roundsUp rc neg m k with
  | false =>
    simp only [Bool.toNat_false, Nat.zero_mul, Nat.add_zero]
    refine ⟨by rw [decide_eq_decide]; omega, (decide_eq_false (by omega)).symm, ?_, fun _ => by omega, fun ha => ?_⟩
    · rintro rfl
      rw [hu] at nearest
      have : ¬ (unit < 2 * low ∨ (2 * low = unit ∧ q % 2 = 1)) := fun h => Bool.false_ne_true (nearest.mpr h)
      omega
    · have := of_decide_eq_false ((away ha).symm.trans hu)
      omega
  | true =>
    have low0 := up hu
    simp only [Bool.toNat_true, Nat.one_mul]
    refine ⟨by rw [decide_eq_decide]; omega, (decide_eq_true (by omega)).symm, ?_, fun hd => ?_, fun _ => by omega⟩
    · rintro rfl
      have := nearest.mp hu
      omega
    · rw [roundsUp_toward hd] at hu; cases hu

theorem roundAt_of_le {rc : BitVec 2} {neg : Bool} {m : Nat} {e q : Int} (h : q ≤ e) :
    roundAt rc neg m e q = ⟨m, e, false, false⟩ := if_pos h

theorem roundAt_of_ge {rc : BitVec 2} {neg : Bool} {m k : Nat} {e q : Int} (h : e ≤ q) (hk : q - e = k) :
    roundAt rc neg m e q =
      ⟨(roundBits rc neg m k).1, q, (roundBits rc neg m k).2.1, (roundBits rc neg m k).2.2⟩ := by
  by_cases hq : q ≤ e
  · obtain rfl : e = q := le_antisymm h hq
    obtain rfl : k = 0 := by omega
    have whole : m % 2 ^ 0 = 0 := Nat.mod_one m
    have down : roundsUp rc neg m 0 = false := Bool.eq_false_iff.mpr fun hu => roundsUp_inexact hu whole
    rw [roundAt_of_le le_rfl, roundBits_eq, down, whole, Nat.pow_zero, Nat.div_one]
    rfl
  · obtain rfl : (q - e).toNat = k := by omega
    exact if_neg hq

/-- Rounding to the precision leaves at most a bit too much, all bits where it dropped some, and no smaller magnitude than
the leading bit. -/
theorem roundAt_precision (rc : BitVec 2) (neg : Bool) {m p : Nat} (e : Int) (hm : 0 < m) (hp : 0 < p) :
    let w := roundAt rc neg m e (e + m.log2 + 1 - p)
    w.m ≤ 2 ^ p ∧ (w.inexact = true → 2 ^ (p - 1) ≤ w.m) ∧ e + m.log2 ≤ w.e + w.m.log2 := by
  have low := Nat.log2_self_le hm.ne'
  have high := Nat.lt_log2_self (n := m)
  intro w
  by_cases h : m.log2 + 1 ≤ p
  · have hw : w = ⟨m, e, false, false⟩ := roundAt_of_le (by omega)
    rw [hw]
    exact ⟨high.le.trans (Nat.pow_le_pow_right (by decide) h), nofun, le_rfl⟩
  · obtain ⟨k, hk⟩ : ∃ k, m.log2 + 1 = p + k := ⟨m.log2 + 1 - p, by omega⟩
    have hw : w = _ := roundAt_of_ge (k := k) (by omega) (by omega)
    have atLeast : 2 ^ (p - 1) ≤ m / 2 ^ k := by
      rw [Nat.le_div_iff_mul_le (Nat.two_pow_pos _), ← Nat.pow_add, show p - 1 + k = m.log2 by omega]
      exact low
    have atMost : m / 2 ^ k < 2 ^ p := by
      rw [Nat.div_lt_iff_lt_mul (Nat.two_pow_pos _), ← Nat.pow_add, ← hk]
      exact high
    have up : (roundsUp rc neg m k).toNat ≤ 1 := Bool.toNat_le _
    have rounded : 2 ^ (p - 1) ≤ m / 2 ^ k + (roundsUp rc neg m k).toNat := atLeast.trans (Nat.le_add_right ..)
    have lead : p - 1 ≤ (m / 2 ^ k + (roundsUp rc neg m k).toNat).log2 :=
      (Nat.le_log2 ((Nat.two_pow_pos _).trans_le rounded).ne').mpr rounded
    rw [hw, roundBits_eq]
    refine ⟨by dsimp only; omega, fun _ => rounded, ?_⟩
    dsimp only
    omega

/-- Whether a direction takes an overflow to infinity (R573). -/
def Env.away (n : Env) (neg : Bool) : Bool := n.rc = 0 || (n.rc = 1 && neg) || (n.rc = 2 && !neg)

theorem Env.overflow_eq (n : Env) (neg : Bool) : n.overflow neg = if n.away neg then .inf neg else n.maxFinite neg := by
  unfold Env.overflow Env.away
  obtain h | h | h | h : n.rc = 0 ∨ n.rc = 1 ∨ n.rc = 2 ∨ n.rc = 3 := by generalize n.rc = rc; revert rc; decide
  all_goals
    rw [h]
    cases neg <;> rfl

theorem Env.masked_overflow (n : Env) : n.masked xO = n.masks.getLsbD 3 := by
  unfold Env.masked; generalize n.masks = x; revert x; decide

theorem Env.masked_underflow (n : Env) : n.masked xU = n.masks.getLsbD 4 := by
  unfold Env.masked; generalize n.masks = x; revert x; decide

section
variable {n : Env} {neg : Bool} {m : Nat} {e : Int} {w : Rounded}
  (hw : roundAt n.rc neg m e (e + m.log2 + 1 - n.p) = w)
include hw

theorem finish_normal (h1 : 1 - n.bias ≤ w.e + w.m.log2) (h2 : w.e + w.m.log2 ≤ n.bias) :
    finish n neg m e = ⟨.fin neg w.m w.e false, if w.inexact then 32 else 0, w.up⟩ := by
  unfold finish
  rw [hw]
  dsimp only
  rw [if_neg (by omega), if_neg (by omega)]
  rfl

theorem finish_overflow (h : n.bias < w.e + w.m.log2) (hx : n.masks.getLsbD 3 = true) :
    finish n neg m e = ⟨if n.away neg then .inf neg else n.maxFinite neg, 40, n.away neg⟩ := by
  unfold finish
  rw [hw]
  dsimp only
  rw [if_pos h, n.masked_overflow, hx, n.overflow_eq]
  cases n.away neg
  · rfl
  · exact congrArg (FpOut.mk _ _) (decide_eq_true rfl)

theorem finish_overflow_unmasked (h : n.bias < w.e + w.m.log2) (hx : n.masks.getLsbD 3 = false) :
    finish n neg m e = ⟨.fin neg w.m (w.e - 24576) false, 8 ||| if w.inexact then 32 else 0, w.up⟩ := by
  unfold finish
  rw [hw]
  dsimp only
  rw [if_pos h, n.masked_overflow, hx]
  rfl

theorem finish_underflow_unmasked (h : w.e + w.m.log2 < 1 - n.bias) (hx : n.masks.getLsbD 4 = false) :
    finish n neg m e = ⟨.fin neg w.m (w.e + 24576) false, 16 ||| if w.inexact then 32 else 0, w.up⟩ := by
  unfold finish
  rw [hw]
  dsimp only
  rw [if_neg (by omega), if_pos h, n.masked_underflow, hx]
  rfl

theorem finish_flushed (h : w.e + w.m.log2 < 1 - n.bias) (hx : n.masks.getLsbD 4 = true) (hf : n.fz = true) :
    finish n neg m e = ⟨.zero neg, 48, false⟩ := by
  unfold finish
  rw [hw]
  dsimp only
  rw [if_neg (by omega), if_pos h, n.masked_underflow, hx, hf]
  rfl

/-- A tiny result is rounded to the denormals of the precision (R573). -/
theorem finish_tiny (hm : 0 < m) (hp : 0 < n.p) (h : w.e + w.m.log2 < 1 - n.bias) (hx : n.masks.getLsbD 4 = true)
    (hf : n.fz = false) :
    let near := roundAt n.rc neg m e (2 - n.bias - n.p)
    finish n neg m e =
      ⟨if near.m = 0 then .zero neg else .fin neg near.m near.e false, if near.inexact then 48 else 0, near.up⟩ := by
  obtain ⟨-, -, lead⟩ := roundAt_precision n.rc neg e hm hp
  rw [hw] at lead
  unfold finish
  rw [hw]
  dsimp only
  rw [if_neg (by omega), if_pos h, n.masked_underflow, hx, hf, max_eq_right (by omega)]
  rfl

end

/-! ### Sum, product and quotient (R463, R473, R485, R574) -/

theorem scaled_eq (s d : Bool) (m : Nat) (e q : Int) :
    (FVal.fin s m e d).scaled q = (if s then -1 else 1) * (m * 2 ^ (e - q).toNat : Nat) := by
  cases s
  · exact (one_mul _).symm
  · exact (neg_one_mul _).symm

theorem addCore_fin (n : Env) (s t d d' : Bool) (m k : Nat) (e f : Int) :
    let q := min e f
    let z : Int := (if s then -1 else 1) * (m * 2 ^ (e - q).toNat : Nat) + (if t then -1 else 1) * (k * 2 ^ (f - q).toNat : Nat)
    addCore n (.fin s m e d) (.fin t k f d') =
      if z = 0 then .exact (.zero (decide (n.rc = 1))) else finish n (decide (z < 0)) z.natAbs q := by
  intro q z
  have hz : (FVal.fin s m e d).scaled q + (FVal.fin t k f d').scaled q = z := by rw [scaled_eq, scaled_eq]
  rw [← hz]
  rfl

/-- The quotient with a last bit for the remainder is too small or too large by less than half a bit. -/
theorem quotient_sticky {a k : Nat} (hk : 0 < k) :
    let z := 2 * (a / k) + if a % k = 0 then 0 else 1
    z * k = 2 * a ∨ (z % 2 = 1 ∧ z * k < 2 * a + k ∧ 2 * a < z * k + k) := by
  intro z
  have ha : a / k * k + a % k = a := Nat.div_add_mod' a k
  have lt := Nat.mod_lt a hk
  by_cases hr : a % k = 0
  · have hz : z = 2 * (a / k) := by simp [z, hr]
    left
    rw [hz, Nat.mul_assoc]
    omega
  · have hz : z = 2 * (a / k) + 1 := by simp [z, hr]
    right
    rw [hz, Nat.add_mul, Nat.mul_assoc, Nat.one_mul]
    omega

theorem divCore_fin (n : Env) (s t d d' : Bool) {m k : Nat} (e f : Int) (hm : 0 < m) (hk : 0 < k) :
    ∃ z w : Nat, divCore n (.fin s m e d) (.fin t k f d') = finish n (s != t) z (e - f - w) ∧
      2 ^ (n.p + 2) ≤ z ∧ (z * k = m * 2 ^ w ∨ (z % 2 = 1 ∧ z * k < m * 2 ^ w + k ∧ m * 2 ^ w < z * k + k)) := by
  let sh := n.p + 3 + k.log2
  have twice : m * 2 ^ (sh + 1) = 2 * (m * 2 ^ sh) := by rw [Nat.pow_succ]; ring
  refine ⟨2 * (m * 2 ^ sh / k) + if m * 2 ^ sh % k = 0 then 0 else 1, sh + 1, ?_, ?_, twice ▸ quotient_sticky hk⟩
  · exact congrArg (finish n (s != t) _) (by omega)
  · have : 2 ^ (n.p + 2) ≤ m * 2 ^ sh / k := by
      rw [Nat.le_div_iff_mul_le hk]
      calc 2 ^ (n.p + 2) * k ≤ 2 ^ (n.p + 2) * 2 ^ (k.log2 + 1) := Nat.mul_le_mul_left _ Nat.lt_log2_self.le
        _ = 2 ^ sh := by rw [← Nat.pow_add]; congr 1; omega
        _ ≤ m * 2 ^ sh := Nat.le_mul_of_pos_left _ hm
    omega

/-! ### Square root (R498) -/

/-- The root found bit by bit is the integer square root. -/
theorem isqrt_spec {k n r : Nat} (h1 : r * r ≤ n) (h2 : n < (r + 2 ^ k) * (r + 2 ^ k)) :
    isqrt k n r * isqrt k n r ≤ n ∧ n < (isqrt k n r + 1) * (isqrt k n r + 1) := by
  induction k generalizing r with
  | zero => exact ⟨h1, h2⟩
  | succ k ih =>
    have split : r + 2 ^ (k + 1) = r + 2 ^ k + 2 ^ k := by rw [Nat.pow_succ]; ring
    unfold isqrt
    dsimp only
    split
    · next h => exact ih h (split ▸ h2)
    · next h => exact ih h1 (Nat.not_le.mp h)

theorem sqrtCore_fin (n : Env) {m : Nat} (e : Int) (d : Bool) (hm : 0 < m) : ∃ z w : Nat, (e - w) % 2 = 0 ∧
    2 ^ (n.p + 2) ≤ z ∧ sqrtCore n (.fin false m e d) = finish n false z ((e - w) / 2) ∧
    (z * z = m * 2 ^ w ∨ (z % 2 = 1 ∧ (z - 1) * (z - 1) < m * 2 ^ w ∧ m * 2 ^ w < (z + 1) * (z + 1))) := by
  let k := 2 * n.p + 6 + (e % 2).toNat
  let w := m * 2 ^ k
  let r := isqrt (w.log2 / 2 + 1) w 0
  have four : m * 2 ^ (k + 2) = 4 * w := by show m * 2 ^ (k + 2) = 4 * (m * 2 ^ k); rw [Nat.pow_add]; ring
  obtain ⟨low, high⟩ : r * r ≤ w ∧ w < (r + 1) * (r + 1) := by
    refine isqrt_spec (Nat.zero_le _) ?_
    rw [Nat.zero_add, ← Nat.pow_add]
    exact Nat.lt_log2_self.trans_le (Nat.pow_le_pow_right (by decide) (by omega))
  have large : 2 ^ (n.p + 2) ≤ r := by
    have : 2 ^ (n.p + 3) * 2 ^ (n.p + 3) ≤ w := by
      rw [← Nat.pow_add]
      exact (Nat.pow_le_pow_right (by decide) (by omega)).trans (Nat.le_mul_of_pos_left _ hm)
    have : 2 ^ (n.p + 3) < r + 1 := Nat.mul_self_lt_mul_self_iff.mp (this.trans_lt high)
    rw [Nat.pow_succ] at this
    omega
  refine ⟨2 * r + if r * r = w then 0 else 1, k + 2, by omega, by omega, ?_, ?_⟩
  · exact congrArg (finish n false _) (by omega)
  · rw [four]
    by_cases hr : r * r = w
    · left
      rw [if_pos hr, Nat.add_zero, ← hr]
      ring
    · right
      have below : (2 * r + 1 - 1) * (2 * r + 1 - 1) = 4 * (r * r) := by rw [Nat.add_sub_cancel]; ring
      have above : (2 * r + 1 + 1) * (2 * r + 1 + 1) = 4 * ((r + 1) * (r + 1)) := by ring
      rw [if_neg hr, below, above]
      omega

end Sys2Proof.Machine
end

