-- ==== Sys2Proof/Proofs/FloatOperations.lean ====
section
/-! SUPPORT. The arithmetic operations by the classes of their operands: unsupported formats and NaNs, then infinities
and zeros; and the floating-point obligation put together. -/

namespace Sys2Proof.Machine

open Sys2Proof

theorem FVal.quiet_nan (s : Bool) (g : BitVec 63) : (FVal.nan s g).quiet = .nan s (g ||| 0x4000000000000000) := rfl

theorem FVal.indef_eq : FVal.indef = .nan true 0x4000000000000000 := rfl

/-! ### Unsupported formats, NaNs and denormal operands (R453, R573) -/

/-- A denormal operand is reported unless the operation is invalid or divides by zero (R453). -/
def FpOut.reporting (o : FpOut) (d : Bool) : FpOut :=
  if o.flags &&& 5 = 0 then { o with flags := o.flags ||| if d then 2 else 0 } else o

theorem FpOut.reporting_eq (o : FpOut) (d : Bool) :
    (if o.flags &&& (xI ||| xZ) != 0 then o else { o with flags := o.flags ||| whenFlag d xD }) = o.reporting d := by
  have five : xI ||| xZ = 5 := rfl
  unfold FpOut.reporting
  rw [five]
  by_cases h : o.flags &&& 5 = 0
  · rw [if_pos h, h]; rfl
  · rw [if_neg h, if_pos (bne_iff_ne.mpr h)]

theorem pickNan_nan (n : Env) (s t : Bool) (g h : BitVec 63) : pickNan n (.nan s g) (.nan t h) =
    if n.larger = false ∨ h.toNat < g.toNat ∨ (h = g ∧ s = false) then (FVal.nan s g).quiet else (FVal.nan t h).quiet := by
  unfold pickNan
  cases n.larger with
  | false => exact (if_pos (Or.inl rfl)).symm
  | true =>
    rcases Nat.lt_trichotomy h.toNat g.toNat with hlt | heq | hgt
    · exact (if_pos hlt).trans (if_pos (.inr (.inl hlt))).symm
    · obtain rfl := BitVec.eq_of_toNat_eq heq
      cases s <;> simp
    · have ne : h ≠ g := fun e => by rw [e] at hgt; exact lt_irrefl _ hgt
      simp [hgt, hgt.not_gt, ne]

theorem binary_number (n : Env) (core : FVal → FVal → FpOut) {a b : FVal} (ha : a ≠ .unsupported) (hb : b ≠ .unsupported)
    (hn : (a.isNan || b.isNan) = false) : binary n core a b = (core a b).reporting (a.isDen || b.isDen) := by
  unfold binary
  rw [if_neg (not_or.mpr ⟨ha, hb⟩), hn]
  exact FpOut.reporting_eq ..

theorem binary_nan (n : Env) (core : FVal → FVal → FpOut) {a b : FVal} (ha : a ≠ .unsupported) (hb : b ≠ .unsupported)
    (hn : (a.isNan || b.isNan) = true) :
    binary n core a b = ⟨pickNan n a b, if a.signals || b.signals then 1 else 0, false⟩ := by
  unfold binary
  rw [if_neg (not_or.mpr ⟨ha, hb⟩), hn]
  rfl

theorem binary_eq (n : Env) (core : FVal → FVal → FpOut) (a b : FVal) : binary n core a b = match a, b with
    | .unsupported, _ => .invalid
    | _, .unsupported => .invalid
    | .nan s g, .nan t h =>
      ⟨if n.larger = false ∨ h.toNat < g.toNat ∨ (h = g ∧ s = false) then (FVal.nan s g).quiet else (FVal.nan t h).quiet,
        if !g.getLsbD 62 || !h.getLsbD 62 then 1 else 0, false⟩
    | .nan s g, _ => ⟨(FVal.nan s g).quiet, if !g.getLsbD 62 then 1 else 0, false⟩
    | _, .nan t h => ⟨(FVal.nan t h).quiet, if !h.getLsbD 62 then 1 else 0, false⟩
    | v, w => (core v w).reporting (v.isDen || w.isDen) := by
  by_cases ha : a = .unsupported
  · subst ha; exact if_pos (.inl rfl)
  by_cases hb : b = .unsupported
  · subst hb
    rw [show binary n core a .unsupported = .invalid from if_pos (.inr rfl)]
    cases a <;> rfl
  by_cases hn : (a.isNan || b.isNan) = true
  · rw [binary_nan n core ha hb hn]
    cases a with
    | unsupported => exact absurd rfl ha
    | nan s g =>
      cases b with
      | unsupported => exact absurd rfl hb
      | nan t h => rw [pickNan_nan]; rfl
      | inf | zero | fin =>
        show FpOut.mk _ (if (!g.getLsbD 62 || false) = true then 1 else 0) _ = _
        rw [Bool.or_false]
        rfl
    | inf | zero | fin =>
      cases b with
      | unsupported => exact absurd rfl hb
      | nan t h => rfl
      | inf | zero | fin => cases hn
  · rw [binary_number n core ha hb (Bool.eq_false_iff.mpr hn)]
    cases a with
    | unsupported => exact absurd rfl ha
    | nan => exact absurd rfl hn
    | inf | zero | fin =>
      cases b with
      | unsupported => exact absurd rfl hb
      | nan => exact absurd rfl hn
      | inf | zero | fin => rfl

theorem unary_eq (den : Bool) (core : FVal → FpOut) (a : FVal) : unary den core a = match a with
    | .unsupported => .invalid
    | .nan s g => ⟨(FVal.nan s g).quiet, if !g.getLsbD 62 then 1 else 0, false⟩
    | v => (core v).reporting (den && v.isDen) := by
  cases a with
  | unsupported => exact if_pos rfl
  | nan => rfl
  | inf | zero | fin => exact FpOut.reporting_eq ..

/-! ### Infinities and zeros (R463, R473, R485, R498, R503) -/

theorem scaled_zero (s : Bool) (q : Int) : (FVal.zero s).scaled q = 0 := by
  have : (FVal.zero s).scaled q = if s then -((0 * 2 ^ (0 - q).toNat : Nat) : Int) else (0 * 2 ^ (0 - q).toNat : Nat) := rfl
  rw [this, Nat.zero_mul]
  cases s <;> rfl

/-- A sum that is one finite value is that value rounded. -/
theorem finish_scaled (n : Env) {s d : Bool} {m : Nat} {e q v : Int} (hm : 0 < m) (hv : v = (FVal.fin s m e d).scaled q) :
    (if v = 0 then .exact (.zero n.zeroSign) else finish n (decide (v < 0)) v.natAbs q) =
      finish n s (m * 2 ^ (e - q).toNat) q := by
  have pos : 0 < m * 2 ^ (e - q).toNat := Nat.mul_pos hm (Nat.two_pow_pos _)
  replace hv : v = if s then -((m * 2 ^ (e - q).toNat : Nat) : Int) else (m * 2 ^ (e - q).toNat : Nat) := hv
  generalize m * 2 ^ (e - q).toNat = k at *
  cases s with
  | false =>
    obtain rfl : v = k := hv
    rw [if_neg (by omega), decide_eq_false (by omega), Int.natAbs_natCast]
  | true =>
    obtain rfl : v = -(k : Int) := hv
    rw [if_neg (by omega), decide_eq_true (by omega), Int.natAbs_neg, Int.natAbs_natCast]

section
variable (n : Env) (s t d : Bool) {m : Nat} (e : Int) (hm : 0 < m)
include hm

theorem addCore_fin_zero : addCore n (.fin s m e d) (.zero t) = finish n s (m * 2 ^ e.toNat) (min 0 e) := by
  rw [Int.min_comm 0 e, show e.toNat = (e - min e 0).toNat by omega]
  exact finish_scaled n hm (d := d) (by rw [scaled_zero, Int.add_zero])

theorem addCore_zero_fin : addCore n (.zero t) (.fin s m e d) = finish n s (m * 2 ^ e.toNat) (min 0 e) := by
  rw [show e.toNat = (e - min 0 e).toNat by omega]
  exact finish_scaled n hm (d := d) (by rw [scaled_zero, Int.zero_add])

end

theorem addCore_zero_zero (n : Env) (s t : Bool) :
    addCore n (.zero s) (.zero t) = .exact (.zero (if s = t then s else decide (n.rc = 1))) := rfl

theorem addCore_inf_of_finite (n : Env) (s t d : Bool) (m : Nat) (e : Int) :
    ∀ v ∈ [FVal.zero t, .fin t m e d],
      addCore n (.inf s) v = .exact (.inf s) ∧ addCore n v (.inf s) = .exact (.inf s) := by
  simp [addCore]

theorem mulCore_inf (n : Env) (s t d : Bool) (m : Nat) (e : Int) :
    ∀ v ∈ [FVal.inf t, .fin t m e d],
      mulCore n (.inf s) v = .exact (.inf (s != t)) ∧ mulCore n v (.inf s) = .exact (.inf (t != s)) := by
  simp [mulCore, FVal.sign]

theorem mulCore_zero (n : Env) (s t d : Bool) (m : Nat) (e : Int) :
    ∀ v ∈ [FVal.zero t, .fin t m e d],
      mulCore n (.zero s) v = .exact (.zero (s != t)) ∧ mulCore n v (.zero s) = .exact (.zero (t != s)) := by
  simp [mulCore, FVal.sign]

theorem divCore_inf (n : Env) (s t d : Bool) (m : Nat) (e : Int) :
    ∀ v ∈ [FVal.zero t, .fin t m e d], divCore n (.inf s) v = .exact (.inf (s != t)) := by
  simp [divCore, FVal.sign]

theorem divCore_zero (n : Env) (s t d : Bool) (m : Nat) (e : Int) :
    ∀ v ∈ [FVal.inf t, .fin t m e d], divCore n (.zero s) v = .exact (.zero (s != t)) := by
  simp [divCore, FVal.sign]

theorem sqrtCore_inf (n : Env) (s : Bool) :
    sqrtCore n (.inf s) = if s then .invalid else .exact (.inf false) := by
  cases s <;> rfl

end Sys2Proof.Machine

namespace Sys2Proof

open Sys2Proof.Machine

/-- Settles O48: the formats field by field, rounding against the exact value by Euclid's division, and the operations by
the classes of their operands. -/
theorem floatRounding : Obligations.FloatRounding := by
  unfold Obligations.FloatRounding
  refine ⟨⟨unpack32_eq, unpack64_eq, fun b => ⟨unpack80_eq b, tagOf_eq b⟩,
      fun v => ⟨pack32_packsTo v, pack64_packsTo v, pack80_packsTo v⟩, fun s g => ⟨rfl, FVal.quiet_nan s g⟩, FVal.indef_eq⟩,
    ?rounding, ?result, fun n s t m k e f d d' => ⟨addCore_fin n s t d d' m k e f, rfl, divCore_fin n s t d d' e f⟩,
    fun n m e d => sqrtCore_fin n e d,
    fun n a b => ⟨fun core => binary_eq n core a b, fun den core => unary_eq den core a, rfl, rfl, rfl, rfl, rfl, rfl, rfl, rfl,
      fun _ _ => rfl⟩,
    fun n a s t m k e f d d' hm hk => ⟨⟨rfl, addCore_inf_of_finite n s t d' k f, addCore_zero_zero n s t,
        addCore_fin_zero n s t d e hm, addCore_zero_fin n t s d' f hk⟩,
      ⟨rfl, rfl, rfl⟩, ⟨rfl, rfl, mulCore_inf n s t d' k f, mulCore_zero n s t d' k f⟩,
      ⟨rfl, rfl, divCore_inf n s t d' k f, divCore_zero n s t d' k f, rfl, rfl⟩,
      sqrtCore_inf n s, rfl, rfl⟩⟩
  case rounding =>
    intro rc neg m k
    obtain ⟨inexact, up, nearest, toward, away⟩ := roundBits_spec rc neg m k
    exact ⟨inexact, up, nearest, toward, away, fun e q => ⟨roundAt_of_ge, roundAt_of_le⟩⟩
  case result =>
    intro n neg m e hm hp
    obtain ⟨most, full, -⟩ := roundAt_precision n.rc neg e hm hp
    refine ⟨most, full, finish_normal rfl, fun h => ?_, fun h => ?_⟩
    · split
      · next hx => exact finish_overflow rfl h hx
      · next hx => exact finish_overflow_unmasked rfl h (Bool.eq_false_iff.mpr hx)
    · dsimp only
      split
      · next hx => exact finish_underflow_unmasked rfl h hx
      · next hx =>
        replace hx := Bool.eq_true_of_not_eq_false hx
        split
        · next hf => exact finish_flushed rfl h hx hf
        · next hf => exact finish_tiny rfl hm hp h hx (Bool.eq_false_iff.mpr hf)

end Sys2Proof
end

