-- ==== Sys2Proof/Proofs/MemoryForm.lean ====
section
/-! SUPPORT. Every step keeps the canonical form of memory. -/

namespace Sys2Proof.Machine

/-- The canonical form of memory is a stable property: stores keep it, and nothing else touches memory. -/
theorem memOk_stepStable : StepStable fun s => s.memOk = true where
  toMemStable := memOk_regStable.toMemStable
  regs s t e _ hs := by
    show Memory.wf t.mem = true
    rw [e]
    exact hs

end Sys2Proof.Machine

namespace Sys2Proof

open Sys2Proof.Machine

/-- Settles O52: the canonical form of memory is a stable property, and every step keeps those. -/
theorem stepKeepsMemory : Obligations.StepKeepsMemory := by
  unfold Obligations.StepKeepsMemory
  intro s t hs e
  exact step_keeps memOk_stepStable hs e

end Sys2Proof
end

