-- ==== Sys2Proof/Proofs/Descriptors.lean ====
section
/-! SUPPORT. Canonical ranges, selectors and descriptors in numbers, and what reading a descriptor and loading a segment
register answer case by case. -/

namespace Sys2Proof.Machine

open Sys2Proof

variable {s t u : State} {β : Type}

/-! ### Checks before a sequence -/

/-- A check before a sequence raises or does nothing. -/
theorem M.check_bind (c : Bool) (e : Event) (g : Unit → M β) (s : State) :
    (raiseIf c e >>= g) s = if c then .error (.raised e) else g () s := by
  cases c <;> rfl

theorem M.check_passed {c : Bool} {e : Event} {g : Unit → M β} (h : c = false) : (raiseIf c e >>= g) s = g () s := by
  rw [h, raiseIf_false_bind]

theorem M.check_raised {c : Bool} {e : Event} {g : Unit → M β} (h : c = true) :
    (raiseIf c e >>= g) s = .error (.raised e) := by
  rw [h, raiseIf_true_bind]

/-! ### Canonical ranges (R121) -/

/-- The addresses that are not canonical form one range longer than a page, so that the two ends of an access decide. -/
theorem canonicalRange_iff (a : Word) {n : Nat} (h0 : 0 < n) (hn : n ≤ 4096) :
    canonicalRange a n = true ↔ ∀ k < n, canonical (a + BitVec.ofNat 64 k) = true := by
  have step (k : Nat) : (a + BitVec.ofNat 64 k).toNat = (a.toNat + k) % 2 ^ 64 := by
    rw [BitVec.toNat_add, BitVec.toNat_ofNat, Nat.add_mod_mod]
  rw [canonicalRange, Bool.and_eq_true]
  constructor
  · intro ⟨hfirst, hlast⟩ k hk
    rw [canonical_iff] at hfirst hlast ⊢
    rw [step] at hlast ⊢
    omega
  · intro h
    have hfirst := h 0 h0
    rw [BitVec.add_zero] at hfirst
    exact ⟨hfirst, h (n - 1) (by omega)⟩

theorem canonicalRange_eq_false (a : Word) {n : Nat} (h0 : 0 < n) (hn : n ≤ 4096) :
    canonicalRange a n = false ↔ ∃ k < n, canonical (a + BitVec.ofNat 64 k) = false := by
  rw [← Bool.not_eq_true, canonicalRange_iff a h0 hn]
  push Not
  simp only [ne_eq, Bool.not_eq_true]

/-! ### Selectors (R63, R380) -/

theorem selNull_iff (sel : BitVec 16) : selNull sel = true ↔ sel.extractLsb' 2 14 = 0 := beq_iff_eq

theorem selNull_eq_false (sel : BitVec 16) : selNull sel = false ↔ sel.extractLsb' 2 14 ≠ 0 := beq_eq_false_iff_ne

theorem selRpl_eq (sel : BitVec 16) : selRpl sel = (sel.extractLsb' 0 2).toNat := by
  rw [selRpl, BitVec.toNat_and, BitVec.extractLsb'_toNat]
  exact Nat.and_two_pow_sub_one_eq_mod _ 2

/-- Clearing the low `k` bits of a 16-bit number. -/
theorem clearLow_toNat (sel : BitVec 16) {k : Nat} (hk : k ≤ 16) :
    (sel &&& BitVec.ofNat 16 (2 ^ 16 - 2 ^ k)).toNat = sel.toNat / 2 ^ k * 2 ^ k := by
  apply Nat.eq_of_testBit_eq
  intro i
  rw [BitVec.testBit_toNat, BitVec.getLsbD_and, Nat.testBit_mul_two_pow, Nat.testBit_div_two_pow, BitVec.getLsbD_ofNat]
  have mask : 2 ^ 16 - 2 ^ k = 2 ^ k * (2 ^ (16 - k) - 1) := by
    rw [Nat.mul_sub, ← Nat.pow_add, Nat.add_sub_cancel' hk, Nat.mul_one]
  rw [mask, Nat.mul_comm, Nat.testBit_mul_two_pow, Nat.testBit_two_pow_sub_one]
  by_cases hi : k ≤ i
  · rw [Nat.sub_add_cancel hi, ← BitVec.testBit_toNat]
    by_cases h16 : i < 16
    · have : i - k < 16 - k := by omega
      simp [hi, h16, this]
    · have : sel.toNat.testBit i = false := by
        rw [BitVec.testBit_toNat]; exact BitVec.getLsbD_of_ge sel i (by omega)
      simp [this]
  · simp [hi]

theorem selOffset_eq (sel : BitVec 16) : selOffset sel = sel.toNat / 8 * 8 := clearLow_toNat sel (k := 3) (by decide)

/-- The error code that names a selector: bits 15:2 of it, EXT in bit 0 (R662). -/
theorem selCode_eq (sel : BitVec 16) (ext : Bool) :
    selCode sel ext = BitVec.ofNat 32 (sel.toNat / 4 * 4 + ext.toNat) := by
  have hsel : ((sel &&& 0xFFFC).setWidth 32).toNat = sel.toNat / 4 * 4 := by
    rw [BitVec.toNat_setWidth]
    have : (sel &&& 0xFFFC).toNat = sel.toNat / 4 * 4 := clearLow_toNat sel (k := 2) (by decide)
    rw [this]
    omega
  apply BitVec.eq_of_toNat_eq
  rw [selCode, BitVec.toNat_or, hsel, BitVec.toNat_ofNat]
  have hlt := sel.isLt
  cases ext
  · show sel.toNat / 4 * 4 ||| 0 = (sel.toNat / 4 * 4 + 0) % 2 ^ 32
    rw [Nat.or_zero]
    omega
  · show sel.toNat / 4 * 4 ||| 1 = (sel.toNat / 4 * 4 + 1) % 2 ^ 32
    have h := Nat.two_pow_add_eq_or_of_lt (i := 2) (b := 1) (by decide) (sel.toNat / 4)
    rw [Nat.mul_comm] at h
    rw [← h]
    omega

theorem selWithRpl_eq (sel : BitVec 16) (cpl : Nat) : selWithRpl sel cpl = withLevel sel cpl := by
  apply BitVec.eq_of_toNat_eq
  have hsel : (sel &&& 0xFFFC).toNat = sel.toNat / 4 * 4 := clearLow_toNat sel (k := 2) (by decide)
  have h := Nat.two_pow_add_eq_or_of_lt (i := 2) (b := cpl % 4) (by omega) (sel.toNat / 4)
  rw [Nat.mul_comm] at h
  have hlt := sel.isLt
  rw [selWithRpl, withLevel, BitVec.toNat_or, hsel, BitVec.toNat_ofNat, append_toNat, BitVec.extractLsb'_toNat,
    Nat.shiftRight_eq_div_pow, BitVec.toNat_ofNat, Nat.mod_eq_of_lt (by omega : cpl % 4 < 2 ^ 16), ← h]
  omega

/-! ### Descriptors (R125, R380) -/

/-- Twelve ones under a shifted number. -/
theorem shiftLeft_or_ones (x : BitVec 32) :
    (x <<< 12) ||| 0xFFF = BitVec.ofNat 32 (x.toNat * 4096 + 4095) := by
  apply BitVec.eq_of_toNat_eq
  have h := Nat.two_pow_add_eq_or_of_lt (i := 12) (b := 4095) (by decide) (x.toNat % 2 ^ 20)
  have hx : (x <<< 12).toNat = 2 ^ 12 * (x.toNat % 2 ^ 20) := by
    rw [BitVec.toNat_shiftLeft, Nat.shiftLeft_eq]
    omega
  rw [BitVec.toNat_or, hx, BitVec.toNat_ofNat]
  show 2 ^ 12 * (x.toNat % 2 ^ 20) ||| 4095 = _
  rw [← h]
  omega

/-- The segment that a descriptor describes, field by field (R125). -/
theorem descSeg_eq (raw : BitVec 64) (sel : BitVec 16) :
    let limit := (raw.extractLsb' 48 4).toNat * 2 ^ 16 + (raw.extractLsb' 0 16).toNat
    descSeg raw sel =
      { sel := sel, base := BitVec.ofNat 64 ((raw.extractLsb' 56 8).toNat * 2 ^ 24 + (raw.extractLsb' 16 24).toNat),
        limit := BitVec.ofNat 32 (if raw.getLsbD 55 then limit * 4096 + 4095 else limit),
        typ := raw.extractLsb' 40 4, s := raw.getLsbD 44, dpl := raw.extractLsb' 45 2, p := raw.getLsbD 47,
        avl := raw.getLsbD 52, l := raw.getLsbD 53, db := raw.getLsbD 54, g := raw.getLsbD 55, unusable := false } := by
  intro limit
  have widen {m n k : Nat} (a : BitVec m) (b : BitVec n) :
      (a ++ b).setWidth k = BitVec.ofNat k (a.toNat * 2 ^ n + b.toNat) := by
    rw [← append_toNat]; exact (BitVec.ofNat_toNat ..).symm
  have hlimit : limit < 2 ^ 32 := by
    have := (raw.extractLsb' 48 4).isLt
    have := (raw.extractLsb' 0 16).isLt
    omega
  unfold descSeg
  dsimp only
  rw [widen, widen]
  congr 1
  split
  · rw [shiftLeft_or_ones, BitVec.toNat_ofNat, Nat.mod_eq_of_lt hlimit]
  · rfl

section
variable (raw : BitVec 64) (sel : BitVec 16)

/-- A bit of the type field. -/
theorem descSeg_typ_getLsbD {i : Nat} (hi : i < 4) : (descSeg raw sel).typ.getLsbD i = raw.getLsbD (40 + i) := by
  show (raw.extractLsb' 40 4).getLsbD i = _
  rw [BitVec.getLsbD_extractLsb', decide_eq_true hi, Bool.true_and]

theorem descSeg_isCode : (descSeg raw sel).isCode = (raw.getLsbD 44 && raw.getLsbD 43) :=
  congrArg (raw.getLsbD 44 && ·) (descSeg_typ_getLsbD raw sel (i := 3) (by decide))

theorem descSeg_isData : (descSeg raw sel).isData = (raw.getLsbD 44 && !raw.getLsbD 43) :=
  congrArg (raw.getLsbD 44 && !·) (descSeg_typ_getLsbD raw sel (i := 3) (by decide))

theorem descSeg_conforming : (descSeg raw sel).conforming = raw.getLsbD 42 :=
  descSeg_typ_getLsbD raw sel (i := 2) (by decide)

theorem descSeg_writableData : (descSeg raw sel).writableData = (raw.getLsbD 44 && !raw.getLsbD 43 && raw.getLsbD 41) := by
  rw [SegReg.writableData, descSeg_isData, descSeg_typ_getLsbD raw sel (i := 1) (by decide)]

theorem descSeg_readableCode : (descSeg raw sel).readableCode = (raw.getLsbD 44 && raw.getLsbD 43 && raw.getLsbD 41) := by
  rw [SegReg.readableCode, descSeg_isCode, descSeg_typ_getLsbD raw sel (i := 1) (by decide)]

theorem descSeg_dpl_toNat : (descSeg raw sel).dpl.toNat = descLevel raw := rfl

/-- The accessed bit is bit 0 of the type (R125): loading it sets nothing where it is set. -/
theorem descSeg_accessed (h : raw.getLsbD 40 = true) :
    { descSeg raw sel with typ := (descSeg raw sel).typ ||| 1 } = descSeg raw sel := by
  have : (descSeg raw sel).typ ||| 1 = (descSeg raw sel).typ := by
    have h0 : (descSeg raw sel).typ.getLsbD 0 = true := (descSeg_typ_getLsbD raw sel (by decide)).trans h
    revert h0
    generalize (descSeg raw sel).typ = v
    revert v
    decide
  rw [this]

end

theorem State.descAddr_eq (s : State) (sel : BitVec 16) :
    s.descAddr sel = (if sel.getLsbD 2 then (s.ldtr.base, s.ldtr.limit.toNat) else (s.gdtr.base, s.gdtr.limit.toNat)).1 +
      BitVec.ofNat 64 (sel.toNat / 8 * 8) := by
  rw [State.descAddr, selOffset_eq]; rfl

theorem State.descInTable_iff (s : State) (sel : BitVec 16) (n : Nat) : s.descInTable sel n = true ↔
    sel.toNat / 8 * 8 + n - 1 ≤
        (if sel.getLsbD 2 then (s.ldtr.base, s.ldtr.limit.toNat) else (s.gdtr.base, s.gdtr.limit.toNat)).2 ∧
      ¬ (sel.getLsbD 2 = true ∧ s.ldtr.unusable = true) := by
  rw [State.descInTable, selOffset_eq, Bool.and_eq_true, decide_eq_true_iff, Bool.not_eq_true', Bool.and_eq_false_iff,
    not_and_or, Bool.not_eq_true, Bool.not_eq_true]
  rfl

section
variable {sel : BitVec 16} {ext : Bool} {n k : Nat}

theorem readDescPart_raised
    (h : s.descInTable sel n = false ∨ (s.lma = true ∧ canonicalRange (s.descAddr sel) n = false)) :
    readDescPart sel ext n k s = .error (.raised (gpSel sel ext)) := (readDescPart_eq ..).trans (if_pos h)

theorem readDescPart_error {x : Stop}
    (h : ¬ (s.descInTable sel n = false ∨ (s.lma = true ∧ canonicalRange (s.descAddr sel) n = false)))
    (hr : sysRead (s.descAddr sel + BitVec.ofNat 64 k) 8 s = .error x) : readDescPart sel ext n k s = .error x := by
  rw [readDescPart_eq, if_neg h, hr]

theorem readDescPart_ok {v : Nat}
    (h : ¬ (s.descInTable sel n = false ∨ (s.lma = true ∧ canonicalRange (s.descAddr sel) n = false)))
    (hr : sysRead (s.descAddr sel + BitVec.ofNat 64 k) 8 s = .ok (v, t)) :
    readDescPart sel ext n k s = .ok (BitVec.ofNat 64 v, t) := by
  rw [readDescPart_eq, if_neg h, hr]

/-- Reading a descriptor changes nothing but memory (R146). -/
theorem readDescPart_onlyMem {raw : BitVec 64} (h : readDescPart sel ext n k s = .ok (raw, t)) :
    t = { s with mem := t.mem } := (readDescPart_keeps (onlyMem_memStable s) ..).of_ok rfl h

theorem readDesc_onlyMem {raw : BitVec 64} (h : readDesc sel ext s = .ok (raw, t)) : t = { s with mem := t.mem } :=
  readDescPart_onlyMem h

end

/-! ### Reads and writes by linear address (R380) -/

theorem sysRead_error {la : Word} {n : Nat} {x : Stop}
    (h : spanOf s.lma (if s.lma then la else la &&& 0xFFFFFFFF) n ⟨false, false⟩ s = .error x) :
    sysRead la n s = .error x := by
  unfold sysRead
  rw [readS_bind, M.bind_of_error h]

theorem sysRead_onlyMem {la : Word} {n v : Nat} (h : sysRead la n s = .ok (v, t)) : t = { s with mem := t.mem } :=
  (sysRead_keeps (onlyMem_memStable s) ..).of_ok rfl h

theorem and_low32 (a : Word) : a &&& 0xFFFFFFFF = BitVec.ofNat 64 (a.toNat % 2 ^ 32) := by
  apply BitVec.eq_of_toNat_eq
  rw [BitVec.toNat_and, BitVec.toNat_ofNat]
  have : a.toNat &&& (0xFFFFFFFF : Word).toNat = a.toNat % 2 ^ 32 := Nat.and_two_pow_sub_one_eq_mod _ 32
  rw [this]
  omega

/-! ### Segment loads (R421) -/

theorem SegReg.paragraph_eq (g : SegReg) (sel : BitVec 16) : g.paragraph sel = g.atParagraph sel := by
  have : sel.setWidth 64 <<< 4 = BitVec.ofNat 64 (sel.toNat * 16) := by
    apply BitVec.eq_of_toNat_eq
    rw [BitVec.toNat_shiftLeft, BitVec.toNat_setWidth, BitVec.toNat_ofNat, Nat.shiftLeft_eq]
    have := sel.isLt
    omega
  rw [SegReg.paragraph, this]; rfl

section
variable {r : SReg} {sel : BitVec 16} {raw : BitVec 64}

theorem loadSegment_paragraph (h : s.paragraphs = true) :
    loadSegment r sel s = .ok ((), s.setSeg r ((s.seg r).atParagraph sel)) := by
  unfold loadSegment
  rw [readS_bind, id, if_pos h, upd_apply, SegReg.paragraph_eq]

theorem loadSegment_data (h : s.paragraphs = false) (hr : r ≠ .ss) : loadSegment r sel s = loadData r sel s := by
  unfold loadSegment
  rw [readS_bind, id, if_neg (Bool.eq_false_iff.mp h), if_neg hr]

theorem loadSegment_stack (h : s.paragraphs = false) : loadSegment .ss sel s = loadStack sel s := by
  unfold loadSegment
  rw [readS_bind, id, if_neg (Bool.eq_false_iff.mp h), if_pos rfl]

theorem loadData_null (h : selNull sel = true) :
    loadData r sel s = .ok ((), s.setSeg r { s.seg r with sel := sel, unusable := true }) := by
  unfold loadData
  rw [readS_bind, id, if_pos h, upd_apply]
  rfl

/-- What `loadData` does with a descriptor that has been read: its checks in their order, then the load (R421). -/
theorem loadData_read (h : selNull sel = false) (hd : readDesc sel false s = .ok (raw, t)) : loadData r sel s =
    let g := descSeg raw sel
    if !g.isData && !g.readableCode then .error (.raised (gpSel sel))
    else if (g.isData || !g.conforming) && decide (g.dpl.toNat < selRpl sel) && decide (g.dpl.toNat < s.cpl) then
      .error (.raised (gpSel sel))
    else if !g.p then .error (.raised (npSel sel))
    else if g.typ.getLsbD 0 then .ok ((), t.setSeg r { g with typ := g.typ ||| 1 })
    else match sysWrite (s.descAddr sel + 5) 1 ((raw.extractLsb' 40 8).toNat + 1) false t with
      | .error x => .error x
      | .ok (_, u) => .ok ((), u.setSeg r { g with typ := g.typ ||| 1 }) := by
  unfold loadData
  rw [readS_bind, id, if_neg (Bool.eq_false_iff.mp h), M.bind_of_ok hd]
  dsimp only
  rw [M.check_bind, M.check_bind, M.check_bind]
  cases (descSeg raw sel).typ.getLsbD 0
  · simp only [Bool.false_eq_true, if_false, M.bind_apply, upd_apply]
    cases sysWrite (s.descAddr sel + 5) 1 ((raw.extractLsb' 40 8).toNat + 1) false t <;> rfl
  · rfl

/-- A data segment register takes data segments and readable code segments (R421). -/
theorem notLoadable_iff (raw : BitVec 64) (sel : BitVec 16) :
    (!(descSeg raw sel).isData && !(descSeg raw sel).readableCode) = true ↔
      ¬ (raw.getLsbD 44 && !raw.getLsbD 43 || raw.getLsbD 44 && raw.getLsbD 41) = true := by
  rw [descSeg_isData, descSeg_readableCode]
  cases raw.getLsbD 44 <;> cases raw.getLsbD 43 <;> simp

/-- Conforming code is open to every level, other segments to those that do not exceed the DPL (R421). -/
theorem levelTooLow_iff (raw : BitVec 64) (sel : BitVec 16) (cpl : Nat)
    (h : (raw.getLsbD 44 && !raw.getLsbD 43 || raw.getLsbD 44 && raw.getLsbD 41) = true) :
    (((descSeg raw sel).isData || !(descSeg raw sel).conforming) && decide ((descSeg raw sel).dpl.toNat < selRpl sel) &&
        decide ((descSeg raw sel).dpl.toNat < cpl)) = true ↔
      ¬ (raw.getLsbD 44 && raw.getLsbD 43 && raw.getLsbD 42 || decide (cpl ≤ descLevel raw) ||
        decide ((sel.extractLsb' 0 2).toNat ≤ descLevel raw)) = true := by
  have h44 : raw.getLsbD 44 = true := by
    cases h44 : raw.getLsbD 44
    · rw [h44] at h; exact h
    · rfl
  rw [descSeg_isData, descSeg_conforming, descSeg_dpl_toNat, selRpl_eq, h44]
  cases raw.getLsbD 43 <;> cases raw.getLsbD 42 <;> simp [and_comm]

/-- The checks of a data segment load, in the fields of the descriptor (R421). -/
theorem loadData_fields (h : selNull sel = false) (hd : readDesc sel false s = .ok (raw, t)) :
    let data := raw.getLsbD 44 && !raw.getLsbD 43
    let conforming := raw.getLsbD 44 && raw.getLsbD 43 && raw.getLsbD 42
    let readable := data || (raw.getLsbD 44 && raw.getLsbD 41)
    let level := conforming || decide (s.cpl ≤ descLevel raw) || decide ((sel.extractLsb' 0 2).toNat ≤ descLevel raw)
    (¬ (readable = true ∧ level = true) → loadData r sel s = .error (.raised (gpSel sel))) ∧
    (readable = true → level = true → raw.getLsbD 47 = false → loadData r sel s = .error (.raised (npSel sel))) ∧
    (readable = true → level = true → raw.getLsbD 47 = true →
      (raw.getLsbD 40 = true → loadData r sel s = .ok ((), t.setSeg r (descSeg raw sel))) ∧
      (raw.getLsbD 40 = false →
        ∀ u, sysWrite (s.descAddr sel + 5) 1 ((raw.extractLsb' 40 8).toNat + 1) false t = .ok ((), u) →
        loadData r sel s = .ok ((), u.setSeg r { descSeg raw sel with typ := (raw.extractLsb' 40 4) ||| 1 }))) := by
  intro data conforming readable level
  have run := loadData_read (r := r) h hd
  dsimp only at run
  have present : (!(descSeg raw sel).p) = !raw.getLsbD 47 := rfl
  have accessed : (descSeg raw sel).typ.getLsbD 0 = raw.getLsbD 40 := descSeg_typ_getLsbD raw sel (by decide)
  by_cases hr : readable = true
  swap
  · exact ⟨fun _ => run.trans (if_pos ((notLoadable_iff raw sel).mpr hr)), fun h => absurd h hr, fun h => absurd h hr⟩
  rw [if_neg (fun h => (notLoadable_iff raw sel).mp h hr)] at run
  by_cases hl : level = true
  swap
  · exact ⟨fun _ => run.trans (if_pos ((levelTooLow_iff raw sel s.cpl hr).mpr hl)), fun _ h => absurd h hl,
      fun _ h => absurd h hl⟩
  rw [if_neg (fun h => (levelTooLow_iff raw sel s.cpl hr).mp h hl)] at run
  refine ⟨fun h => absurd ⟨hr, hl⟩ h, fun _ _ hp => ?_, fun _ _ hp => ?_⟩
  · exact run.trans (if_pos (by rw [present, hp]; rfl))
  · rw [if_neg (by rw [present, hp]; exact Bool.false_ne_true)] at run
    refine ⟨fun h40 => ?_, fun h40 u hw => ?_⟩
    · refine (run.trans (if_pos (accessed.trans h40))).trans ?_
      exact congrArg (fun g => Except.ok ((), t.setSeg r g)) (descSeg_accessed raw sel h40)
    · rw [if_neg (by rw [accessed, h40]; exact Bool.false_ne_true), hw] at run
      exact run

theorem loadStack_null (h : selNull sel = true) : loadStack sel s =
    if s.is64 = true ∧ s.cpl ≠ 3 ∧ (sel.extractLsb' 0 2).toNat = s.cpl
    then .ok ((), { s with ss := { s.ss with sel := sel, unusable := true, dpl := BitVec.ofNat 2 s.cpl } })
    else .error (.raised gp0) := by
  have cond : (s.is64 && s.cpl != 3 && selRpl sel == s.cpl) = true ↔
      s.is64 = true ∧ s.cpl ≠ 3 ∧ (sel.extractLsb' 0 2).toNat = s.cpl := by
    rw [Bool.and_eq_true, Bool.and_eq_true, bne_iff_ne, beq_iff_eq, selRpl_eq, and_assoc]
  unfold loadStack
  rw [readS_bind, id, if_pos h]
  split
  · next hc => rw [M.check_passed (by rw [cond.mpr hc]; rfl)]; rfl
  · next hc => rw [M.check_raised (by rw [Bool.eq_false_iff.mpr (mt cond.mp hc)]; rfl)]

theorem loadStack_read (h : selNull sel = false) (hd : readDesc sel false s = .ok (raw, t)) : loadStack sel s =
    if (sel.extractLsb' 0 2).toNat = s.cpl ∧ descLevel raw = s.cpl ∧ raw.getLsbD 44 = true ∧
      raw.getLsbD 43 = false ∧ raw.getLsbD 41 = true
    then (if raw.getLsbD 47 then .ok ((), { t with ss := descSeg raw sel }) else .error (.raised (ssSel sel)))
    else .error (.raised (gpSel sel)) := by
  have cond : (selRpl sel != s.cpl || !(descSeg raw sel).writableData || (descSeg raw sel).dpl.toNat != s.cpl) = false ↔
      (sel.extractLsb' 0 2).toNat = s.cpl ∧ descLevel raw = s.cpl ∧ raw.getLsbD 44 = true ∧
        raw.getLsbD 43 = false ∧ raw.getLsbD 41 = true := by
    rw [descSeg_writableData, descSeg_dpl_toNat, selRpl_eq]
    simp only [Bool.or_eq_false_iff, bne_eq_false_iff_eq, Bool.not_eq_false', Bool.and_eq_true, Bool.not_eq_true', and_assoc]
    tauto
  have hp : (descSeg raw sel).p = raw.getLsbD 47 := rfl
  unfold loadStack
  rw [readS_bind, id, if_neg (Bool.eq_false_iff.mp h)]
  unfold loadStackAt
  rw [M.bind_of_ok hd]
  split
  · next hc =>
    rw [M.check_passed (cond.mpr hc), hp]
    cases raw.getLsbD 47 <;> rfl
  · next hc => rw [M.check_raised (Bool.eq_true_of_not_eq_false (mt cond.mp hc))]

end

end Sys2Proof.Machine

namespace Sys2Proof

open Sys2Proof.Machine

/-- Settles O28: the place and the fields of a descriptor, then the load of a data segment register and of SS. -/
theorem segmentLoad : Obligations.SegmentLoad := by
  unfold Obligations.SegmentLoad
  intro s r sel
  refine ⟨?descriptor, fun la n => ?read, fun raw => descSeg_eq raw sel, loadSegment_paragraph,
    fun h hr => ⟨fun h0 => ?_, fun h0 raw t hd => ?_⟩, fun h => ⟨fun h0 => ?_, fun h0 raw t hd => ?_⟩⟩
  case descriptor =>
    intro table offset addr
    refine ⟨s.descAddr_eq sel, fun n _ => s.descInTable_iff sel n, fun _ => rfl, rfl, fun ext n k h0 hn => ?_⟩
    have outside : (s.descInTable sel n = false ∨ (s.lma = true ∧ canonicalRange (s.descAddr sel) n = false)) ↔
        table.2 < offset + n - 1 ∨ (sel.getLsbD 2 = true ∧ s.ldtr.unusable = true) ∨
          (s.lma = true ∧ ∃ j < n, canonical (addr + BitVec.ofNat 64 j) = false) := by
      rw [canonicalRange_eq_false _ h0 hn, s.descAddr_eq, ← Bool.not_eq_true, s.descInTable_iff, not_and_or, not_not,
        Nat.not_le, or_assoc]
    have haddr : addr = s.descAddr sel := (s.descAddr_eq sel).symm
    rw [haddr] at outside ⊢
    refine ⟨fun h => ?_, fun h => ⟨fun e => readDescPart_error (mt outside.mp h), fun v t => readDescPart_ok (mt outside.mp h)⟩⟩
    rw [readDescPart_raised (outside.mpr h), gpSel, selCode_eq]
  case read =>
    intro a
    have ha : a = if s.lma then la else la &&& 0xFFFFFFFF := by rw [and_low32]
    rw [ha]
    exact ⟨fun e => sysRead_error, fun sp t => sysRead_ok⟩
  · rw [loadSegment_data h hr]; exact loadData_null ((selNull_iff sel).mpr h0)
  · rw [loadSegment_data h hr]; exact loadData_fields ((selNull_eq_false sel).mpr h0) hd
  · rw [loadSegment_stack h]; exact loadStack_null ((selNull_iff sel).mpr h0)
  · rw [loadSegment_stack h]; exact loadStack_read ((selNull_eq_false sel).mpr h0) hd

end Sys2Proof
end

