-- ==== Sys2Proof/Proofs/TableRegisters.lean ====
section
/-! SUPPORT. What an access leaves of the state, and LGDT, LIDT, SGDT, SIDT, SLDT, STR, SMSW, LLDT and LTR case by case. -/

namespace Sys2Proof.Machine

open Sys2Proof

variable {s t u v : State} {α : Type}

/-! ### What a change of memory leaves -/

section
variable (h : t = { s with mem := t.mem })
include h

theorem is64_of_onlyMem : t.is64 = s.is64 := by rw [h]; rfl
theorem lma_of_onlyMem : t.lma = s.lma := by rw [h]; rfl
theorem cpl_of_onlyMem : t.cpl = s.cpl := by rw [h]; rfl
theorem descAddr_of_onlyMem (sel : BitVec 16) : t.descAddr sel = s.descAddr sel := by rw [h]; rfl
theorem descInTable_of_onlyMem (sel : BitVec 16) (n : Nat) : t.descInTable sel n = s.descInTable sel n := by rw [h]; rfl

/-- Two changes of memory are one. -/
theorem onlyMem_trans (h' : u = { t with mem := u.mem }) : u = { s with mem := u.mem } := by
  rw [h] at h'
  exact h'

end

theorem spanOf_onlyMem {wide : Bool} {la : Word} {n : Nat} {pu : Purpose} {sp : Span}
    (h : spanOf wide la n pu s = .ok (sp, t)) : t = { s with mem := t.mem } :=
  (spanOf_keeps (onlyMem_memStable s) ..).of_ok rfl h

/-- The bytes of a span as a number (R100). -/
theorem spanGet_lt (m : List Host.Cell) (sp : Span) (k n : Nat) : spanGet m sp k n < 256 ^ n := by
  induction n generalizing k with
  | zero => exact Nat.one_pos
  | succ n ih =>
    have hfirst := (memGet m (sp.addr k)).isLt
    have hrest := ih (k + 1)
    show (memGet m (sp.addr k)).toNat + 256 * spanGet m sp (k + 1) n < 256 ^ (n + 1)
    rw [Nat.pow_succ]
    omega

theorem readMem_of_resolve {sr : SReg} {ea : Word} {n : Nat} {sp : Span}
    (h : resolve sr ea n false (.natural n) s = .ok (sp, t)) : readMem sr ea n s = .ok (spanGet t.mem sp 0 n, t) := by
  unfold readMem
  rw [M.bind_of_ok h]
  rfl

theorem readMem_error {sr : SReg} {ea : Word} {n : Nat} {x : Stop}
    (h : resolve sr ea n false (.natural n) s = .error x) : readMem sr ea n s = .error x := by
  unfold readMem
  rw [M.bind_of_error h]

theorem readMem_lt {sr : SReg} {ea : Word} {n x : Nat} (h : readMem sr ea n s = .ok (x, t)) : x < 256 ^ n := by
  cases hr : resolve sr ea n false (.natural n) s with
  | error e => rw [readMem_error hr] at h; cases h
  | ok r =>
    rw [readMem_of_resolve hr] at h
    cases h
    exact spanGet_lt ..

theorem writeMem_ok {sr : SReg} {ea : Word} {n x : Nat} {sp : Span}
    (h : resolve sr ea n true (.natural n) s = .ok (sp, t)) : writeMem sr ea n x s = .ok ((), t.storeAt sp n x) := by
  unfold writeMem
  rw [M.bind_of_ok h]
  rfl

/-! ### Table registers (R425, R426, R802) -/

theorem needSelectors_ok (h : s.paragraphs = false) : needSelectors s = .ok ((), s) := by
  unfold needSelectors
  rw [readS_bind, id, h]
  rfl

/-- The base that a pseudo-descriptor gives: in 16-bit operand size outside 64-bit mode only 24 bits of it (R425). -/
def tableBase (is64 : Bool) (w : Width) (base : Nat) : Word :=
  BitVec.ofNat 64 (if is64 = false ∧ w = .b16 then base % 2 ^ 24 else base)

theorem and_low24 (base : Nat) : BitVec.ofNat 64 base &&& 0xFFFFFF = BitVec.ofNat 64 (base % 2 ^ 24) := by
  apply BitVec.eq_of_toNat_eq
  rw [BitVec.toNat_and, BitVec.toNat_ofNat, BitVec.toNat_ofNat]
  have : base % 2 ^ 64 &&& (0xFFFFFF : Word).toNat = base % 2 ^ 64 % 2 ^ 24 := Nat.and_two_pow_sub_one_eq_mod _ 24
  rw [this]
  omega

/-- The operand of LGDT and LIDT: #GP(0) for a base that is not canonical, which only 64-bit mode can read (R425). -/
theorem tableOperand_read {w : Width} {m : Mem} {lim base : Nat} (hc : s.cpl = 0)
    (hl : readMem m.seg (s.effAddr m) 2 s = .ok (lim, t))
    (hb : readMem m.seg (s.effAddr m + 2) (if s.is64 then 8 else 4) t = .ok (base, u)) :
    tableOperand w (.mem m) s = if canonical (tableBase s.is64 w base)
      then .ok ({ base := tableBase s.is64 w base, limit := BitVec.ofNat 16 lim }, u) else .error (.raised gp0) := by
  have start : tableOperand w (.mem m) s = (if s.is64 then (do
        let base := BitVec.ofNat 64 (← readMem m.seg (s.effAddr m + 2) 8)
        raiseIf (!canonical base) gp0
        pure { base := base, limit := BitVec.ofNat 16 lim })
      else (do
        let base := BitVec.ofNat 64 (← readMem m.seg (s.effAddr m + 2) 4)
        pure { base := if w = .b16 then base &&& 0xFFFFFF else base, limit := BitVec.ofNat 16 lim }) : M TableReg) t := by
    unfold tableOperand
    rw [M.bind_of_ok (show memOnly (.mem m) s = .ok (m, s) from rfl), M.bind_of_ok (needCpl0_ok hc), readS_bind, id,
      M.bind_of_ok hl]
  rw [start]
  cases h6 : s.is64 <;> simp only [h6, if_true, if_false, Bool.false_eq_true] at hb ⊢
  · have low : base < 2 ^ 32 := readMem_lt hb
    have hcan : canonical (tableBase false w base) = true := by
      apply canonical_of_lt
      unfold tableBase
      rw [BitVec.toNat_ofNat]
      split <;> omega
    have hbase : tableBase false w base = if w = .b16 then BitVec.ofNat 64 base &&& 0xFFFFFF else BitVec.ofNat 64 base := by
      unfold tableBase
      rw [and_low24]
      by_cases hw : w = .b16 <;> simp [hw]
    rw [M.bind_of_ok hb, if_pos hcan, hbase]
    rfl
  · have hbase : tableBase true w base = BitVec.ofNat 64 base := rfl
    rw [M.bind_of_ok hb, M.check_bind, hbase]
    cases canonical (BitVec.ofNat 64 base) <;> rfl

theorem tableOperand_reg {w : Width} {r : Reg} : tableOperand w (.reg r) s = .error (.raised udFault) := rfl

theorem tableOperand_level {w : Width} {m : Mem} (hc : s.cpl ≠ 0) :
    tableOperand w (.mem m) s = .error (.raised gp0) := by
  unfold tableOperand
  rw [M.bind_of_ok (show memOnly (.mem m) s = .ok (m, s) from rfl), M.bind_of_error (needCpl0_raised hc)]

/-- LGDT and LIDT stop where their operand does. -/
theorem loadTable_raised {w : Width} {src : RM} {e : Event} (h : tableOperand w src s = .error (.raised e)) :
    exec (.lgdt w src) s = deliver e s ∧ exec (.lidt w src) s = deliver e s :=
  ⟨runSeq_raise (m := lgdtForm w src) (M.bind_of_error h), runSeq_raise (m := lidtForm w src) (M.bind_of_error h)⟩

theorem loadTable_ok {w : Width} {src : RM} {r : TableReg} (h : tableOperand w src s = .ok (r, u))
    (hf : u.rflags = s.rflags) :
    exec (.lgdt w src) s = .next (State.endWith { u with gdtr := r } s.rflags) ∧
    exec (.lidt w src) s = .next (State.endWith { u with idtr := r } s.rflags) :=
  ⟨runSeq_next (m := lgdtForm w src) (t := { u with gdtr := r }) (M.bind_of_ok h) hf,
    runSeq_next (m := lidtForm w src) (t := { u with idtr := r }) (M.bind_of_ok h) hf⟩

/-- SGDT and SIDT store the limit and then the base (R802). -/
theorem storeTable_ok {m : Mem} {a b : Span} (f : State → TableReg)
    (ha : resolve m.seg (s.effAddr m) 2 true (.natural 2) s = .ok (a, t))
    (hb : resolve m.seg (s.effAddr m + 2) (if s.is64 then 8 else 4) true (.natural (if s.is64 then 8 else 4))
      (t.storeAt a 2 (f s).limit.toNat) = .ok (b, u)) :
    runSeq (storeTable m f) s =
      .next ((u.storeAt b (if s.is64 then 8 else 4) (f s).base.toNat).endWith s.rflags) := by
  refine runSeq_next (t := u.storeAt b (if s.is64 then 8 else 4) (f s).base.toNat) ?_ ?_
  · unfold storeTable
    rw [readS_bind, id, M.bind_of_ok (writeMem_ok ha), writeMem_ok hb]
  · have ht : t.rflags = s.rflags := rflags_of_onlyMem (resolve_onlyMem ha)
    exact (rflags_of_onlyMem (resolve_onlyMem hb)).trans ht

/-- The low 16 bits of a system value go to memory (R802). -/
theorem storeSystem_mem {w : Width} {m : Mem} {x : BitVec 16} {put : BitVec 16 → State} (f : State → Word)
    (h : Destination s .b16 (.mem m) x put) : storeSystem w (.mem m) f s = .ok ((), put ((f s).setWidth 16)) :=
  writeRmb_ok h ((f s).setWidth 16)

/-- Every instruction that stores a system value does so, after its check (R802). -/
theorem storesSystem {i : Width → RM → Instr} {f : State → Word} {check : M Unit} (hc : check s = .ok ((), s))
    (hi : ∀ w d, exec (i w d) s = runSeq (check >>= fun _ => storeSystem w d f) s) (w : Width) :
    (∀ r, exec (i w (.reg r)) s = .next ((s.writeReg w r ((f s).setWidth w.bits)).endWith s.rflags)) ∧
    ∀ m x put, Destination s .b16 (.mem m) x put →
      (s.memOk = true → ∀ v, OnlyOperand s .b16 (.mem m) (put v)) ∧
      exec (i w (.mem m)) s = .next ((put ((f s).setWidth 16)).endWith s.rflags) := by
  refine ⟨fun r => ?_, fun m x put h => ⟨fun hm v => h.onlyOperand hm v, ?_⟩⟩
  · rw [hi]
    exact runSeq_next (M.bind_of_ok hc) rfl
  · rw [hi]
    exact runSeq_next ((M.bind_of_ok hc).trans (storeSystem_mem f h)) (h.rflags _)

/-! ### LLDT and LTR (R427, R432) -/

section
variable {sel : BitVec 16} {lo hi : BitVec 64}

/-- The base of a system descriptor: 32 bits in its first half, 32 in its second (R127). -/
theorem systemBase_eq (lo hi : BitVec 64) (sel : BitVec 16) :
    (hi.extractLsb' 0 32 ++ (descSeg lo sel).base.extractLsb' 0 32 : Word) =
      hi.extractLsb' 0 32 ++ lo.extractLsb' 56 8 ++ lo.extractLsb' 16 24 := by
  have base : ((descSeg lo sel).base.extractLsb' 0 32).toNat = (lo.extractLsb' 56 8 ++ lo.extractLsb' 16 24).toNat := by
    rw [BitVec.extractLsb'_toNat]
    show ((lo.extractLsb' 56 8 ++ lo.extractLsb' 16 24).setWidth 64).toNat >>> 0 % 2 ^ 32 = _
    have := (lo.extractLsb' 56 8 ++ lo.extractLsb' 16 24).isLt
    rw [BitVec.toNat_setWidth, Nat.shiftRight_zero]
    omega
  apply BitVec.eq_of_toNat_eq
  rw [append_toNat, base, append_toNat]
  show _ = ((hi.extractLsb' 0 32 ++ lo.extractLsb' 56 8) ++ lo.extractLsb' 16 24).toNat
  rw [append_toNat, append_toNat]
  omega

/-- The stops of a system descriptor that has been read, and the segment it gives, in the fields of the descriptor
(R427, R432). -/
theorem systemDesc_fields (ok : SegReg → Bool) (ht : sel.getLsbD 2 = false)
    (h : readDescPart sel false (if s.is64 then 16 else 8) 0 s = .ok (lo, t))
    (h' : if s.is64 then readDescPart sel false 16 8 t = .ok (hi, u) else hi = 0 ∧ u = t) :
    let g := { descSeg lo sel with base := hi.extractLsb' 0 32 ++ lo.extractLsb' 56 8 ++ lo.extractLsb' 16 24 }
    let fits := lo.getLsbD 44 = false ∧ ok (descSeg lo sel) = true ∧ hi.extractLsb' 40 5 = 0
    (¬ fits → systemDesc ok sel s = .error (.raised (gpSel sel))) ∧
    (fits → lo.getLsbD 47 = false → systemDesc ok sel s = .error (.raised (npSel sel))) ∧
    (fits → lo.getLsbD 47 = true → canonical g.base = false → systemDesc ok sel s = .error (.raised (gpSel sel))) ∧
    (fits → lo.getLsbD 47 = true → canonical g.base = true → systemDesc ok sel s = .ok ((g, lo), u)) := by
  intro g fits
  have run := systemDesc_eq ok ht h h'
  dsimp only at run
  rw [systemBase_eq] at run
  have misfit : ((descSeg lo sel).s || !ok (descSeg lo sel) || hi.extractLsb' 40 5 != 0) = true ↔ ¬ fits := by
    show (lo.getLsbD 44 || !ok (descSeg lo sel) || hi.extractLsb' 40 5 != 0) = true ↔
      ¬ (lo.getLsbD 44 = false ∧ ok (descSeg lo sel) = true ∧ hi.extractLsb' 40 5 = 0)
    cases lo.getLsbD 44 <;> cases ok (descSeg lo sel) <;> simp
  have hp : (descSeg lo sel).p = lo.getLsbD 47 := rfl
  by_cases hf : fits
  swap
  · exact ⟨fun _ => run.trans (if_pos (misfit.mpr hf)), fun h => absurd h hf, fun h => absurd h hf, fun h => absurd h hf⟩
  rw [if_neg (fun h => misfit.mp h hf)] at run
  refine ⟨fun h => absurd hf h, fun _ h47 => ?_, fun _ h47 hcan => ?_, fun _ h47 hcan => ?_⟩
  · exact run.trans (if_pos (by rw [hp, h47]; rfl))
  · rw [if_neg (by rw [hp, h47]; exact Bool.false_ne_true)] at run
    exact run.trans (if_pos (by rw [hcan]; rfl))
  · rw [if_neg (by rw [hp, h47]; exact Bool.false_ne_true)] at run
    exact run.trans (if_neg (by rw [hcan]; exact Bool.false_ne_true))

variable {src : RM} (hp : s.paragraphs = false) (hc : s.cpl = 0) (hr : readRm .b16 src s = .ok (sel, t))
include hp hc hr

theorem lldtForm_eq : lldtForm src s = if selNull sel then .ok ((), { t with ldtr := t.ldtr.nulled sel })
    else match systemDesc (fun g => g.typ == 2) sel t with
      | .error x => .error x
      | .ok (r, u) => .ok ((), { u with ldtr := r.1 }) := by
  unfold lldtForm
  rw [M.bind_of_ok (needSelectors_ok hp), M.bind_of_ok (needCpl0_ok hc), M.bind_of_ok hr]
  cases selNull sel
  · simp only [Bool.false_eq_true, if_false, M.bind_apply]
    cases systemDesc (fun g => g.typ == 2) sel t <;> rfl
  · rfl

theorem ltrForm_eq : ltrForm src s = if selNull sel then .error (.raised gp0)
    else match systemDesc (fun g => g.typ == 9 || (!t.lma && g.typ == 1)) sel t with
      | .error x => .error x
      | .ok (r, u) =>
        match sysUpdate (t.descAddr sel + 4) 4 (· ||| 0x200) u with
        | .error x => .error x
        | .ok (_, v) => .ok ((), { v with tr := { r.1 with typ := r.1.typ ||| 2 } }) := by
  unfold ltrForm
  rw [M.bind_of_ok (needSelectors_ok hp), M.bind_of_ok (needCpl0_ok hc), M.bind_of_ok hr, M.check_bind]
  cases selNull sel
  · simp only [Bool.false_eq_true, if_false, M.bind_apply, readS_apply, id]
    cases systemDesc (fun g => g.typ == 9 || (!t.lma && g.typ == 1)) sel t with
    | error x => rfl
    | ok r =>
      dsimp only
      cases sysUpdate (t.descAddr sel + 4) 4 (· ||| 0x200) r.2 <;> rfl
  · rfl

theorem lldt_null (h : selNull sel = true) : exec (.lldt src) s =
    .next (State.endWith { t with ldtr := { t.ldtr with sel := sel, unusable := true } } s.rflags) := by
  refine runSeq_next (m := lldtForm src) (t := { t with ldtr := t.ldtr.nulled sel }) ?_
    (rflags_of_onlyMem (readRmb_onlyMem hr) :)
  rw [lldtForm_eq hp hc hr, if_pos h]

theorem ltr_null (h : selNull sel = true) : exec (.ltr src) s = deliver gp0 s := by
  refine runSeq_raise (m := ltrForm src) ?_
  rw [ltrForm_eq hp hc hr, if_pos h]

theorem lldt_raised {e : Event} (h : selNull sel = false)
    (he : systemDesc (fun g => g.typ == 2) sel t = .error (.raised e)) : exec (.lldt src) s = deliver e s := by
  refine runSeq_raise (m := lldtForm src) ?_
  rw [lldtForm_eq hp hc hr, if_neg (Bool.eq_false_iff.mp h), he]

theorem ltr_raised {e : Event} (h : selNull sel = false)
    (he : systemDesc (fun g => g.typ == 9 || (!t.lma && g.typ == 1)) sel t = .error (.raised e)) :
    exec (.ltr src) s = deliver e s := by
  refine runSeq_raise (m := ltrForm src) ?_
  rw [ltrForm_eq hp hc hr, if_neg (Bool.eq_false_iff.mp h), he]

theorem lldt_loaded {g : SegReg} (h : selNull sel = false) (hf : u.rflags = s.rflags)
    (hd : systemDesc (fun g => g.typ == 2) sel t = .ok ((g, lo), u)) :
    exec (.lldt src) s = .next (State.endWith { u with ldtr := g } s.rflags) := by
  refine runSeq_next (m := lldtForm src) (t := { u with ldtr := g }) ?_ hf
  rw [lldtForm_eq hp hc hr, if_neg (Bool.eq_false_iff.mp h), hd]

theorem ltr_loaded {g : SegReg} (h : selNull sel = false) (hf : v.rflags = s.rflags)
    (hd : systemDesc (fun g => g.typ == 9 || (!t.lma && g.typ == 1)) sel t = .ok ((g, lo), u))
    (hu : sysUpdate (t.descAddr sel + 4) 4 (· ||| 0x200) u = .ok ((), v)) :
    exec (.ltr src) s = .next (State.endWith { v with tr := { g with typ := g.typ ||| 2 } } s.rflags) := by
  refine runSeq_next (m := ltrForm src) (t := { v with tr := { g with typ := g.typ ||| 2 } }) ?_ hf
  rw [ltrForm_eq hp hc hr, if_neg (Bool.eq_false_iff.mp h), hd]
  dsimp only
  rw [hu]

end

end Sys2Proof.Machine

namespace Sys2Proof

open Sys2Proof.Machine

/-- Settles O33: the table registers by their operand, the stored system values, and LLDT and LTR by the descriptor that
has been read. -/
theorem tableRegisters : Obligations.TableRegisters := by
  unfold Obligations.TableRegisters
  refine ⟨⟨?load, ?stops, ?store, ?system⟩, ?descriptors⟩
  case load =>
    intro s t u w m lim base hc n hl hb b
    have hop := tableOperand_read (w := w) hc hl hb
    have hf := (rflags_of_onlyMem (readMem_onlyMem hb)).trans (rflags_of_onlyMem (readMem_onlyMem hl))
    exact ⟨fun hcan => loadTable_ok (hop.trans (if_pos hcan)) hf,
      fun hcan => loadTable_raised (hop.trans (if_neg (Bool.eq_false_iff.mp hcan)))⟩
  case stops =>
    intro s w r m src
    obtain ⟨hlgdt, hlidt⟩ := loadTable_raised (s := s) (tableOperand_reg (w := w) (r := r))
    refine ⟨hlgdt, hlidt, fun hc => loadTable_raised (tableOperand_level hc), fun hc hp => ⟨?_, ?_⟩⟩
    · exact runSeq_raise (m := lldtForm src)
        ((M.bind_of_ok (needSelectors_ok hp)).trans (M.bind_of_error (needCpl0_raised hc)))
    · exact runSeq_raise (m := ltrForm src)
        ((M.bind_of_ok (needSelectors_ok hp)).trans (M.bind_of_error (needCpl0_raised hc)))
  case store =>
    intro s t u m a b n ha p hp hb
    simp only [List.mem_cons, List.not_mem_nil, or_false] at hp
    obtain rfl | rfl := hp
    · exact storeTable_ok (·.gdtr) ha hb
    · exact storeTable_ok (·.idtr) ha hb
  case system =>
    intro s p hp hok w
    simp only [List.mem_cons, List.not_mem_nil, or_false] at hp
    obtain rfl | rfl | rfl := hp
    · exact storesSystem (f := fun s => s.ldtr.sel.setWidth 64)
        (needSelectors_ok (hok.resolve_left Bool.false_ne_true)) (fun _ _ => rfl) w
    · exact storesSystem (f := fun s => s.tr.sel.setWidth 64)
        (needSelectors_ok (hok.resolve_left Bool.false_ne_true)) (fun _ _ => rfl) w
    · exact storesSystem (f := (·.cr0)) (check := pure ()) rfl (fun _ _ => rfl) w
  case descriptors =>
    intro s t src sel hp hc hr
    have ht : t = { s with mem := t.mem } := readRmb_onlyMem hr
    have h6 := is64_of_onlyMem ht
    have hlma := lma_of_onlyMem ht
    refine ⟨fun h0 => ?_, fun h0 h2 => ?_, fun h0 h2 => ?_⟩
    · have h0 := (selNull_iff sel).mpr h0
      exact ⟨lldt_null hp hc hr h0, ltr_null hp hc hr h0⟩
    · have h0 := (selNull_eq_false sel).mpr h0
      exact ⟨lldt_raised hp hc hr h0 (M.check_raised h2), ltr_raised hp hc hr h0 (M.check_raised h2)⟩
    have h0 := (selNull_eq_false sel).mpr h0
    refine ⟨fun hout => ?_, fun lo hi u v hlo hhi => ?_⟩
    · rw [← h6, ← descInTable_of_onlyMem ht] at hout
      exact ⟨lldt_raised hp hc hr h0 (systemDesc_outside _ h2 hout), ltr_raised hp hc hr h0 (systemDesc_outside _ h2 hout)⟩
    rw [← h6] at hlo hhi
    have hv : v = { s with mem := v.mem } := by
      have hu := onlyMem_trans ht (readDescPart_onlyMem hlo)
      split at hhi
      · exact onlyMem_trans hu (readDescPart_onlyMem hhi)
      · rw [hhi.2]; exact hu
    have hldt := systemDesc_fields (fun g => g.typ == 2) h2 hlo hhi
    have htss := systemDesc_fields (fun g => g.typ == 9 || (!t.lma && g.typ == 1)) h2 hlo hhi
    have isLdt : (fun g : SegReg => g.typ == 2) (descSeg lo sel) = true ↔ lo.extractLsb' 40 4 ∈ [2] := by
      rw [List.mem_singleton]; exact beq_iff_eq
    have isTss : (fun g : SegReg => g.typ == 9 || (!t.lma && g.typ == 1)) (descSeg lo sel) = true ↔
        lo.extractLsb' 40 4 ∈ (if s.lma then [9] else [1, 9]) := by
      show (lo.extractLsb' 40 4 == 9 || (!t.lma && lo.extractLsb' 40 4 == 1)) = true ↔ _
      rw [hlma]
      cases s.lma <;> simp [or_comm]
    dsimp only at hldt htss isLdt isTss ⊢
    rw [isLdt] at hldt
    rw [isTss] at htss
    obtain ⟨ldtMisfit, ldtAbsent, ldtBase, ldtLoads⟩ := hldt
    obtain ⟨tssMisfit, tssAbsent, tssBase, tssLoads⟩ := htss
    refine ⟨fun p hmem => ?_, fun hs h47 hz hcan => ⟨fun htyp => ?_, fun htyp sp x hx => ?_⟩⟩
    · simp only [List.mem_cons, List.not_mem_nil, or_false] at hmem
      obtain rfl | rfl := hmem
      · exact ⟨fun h => lldt_raised hp hc hr h0 (ldtMisfit h), fun h h' => lldt_raised hp hc hr h0 (ldtAbsent h h'),
          fun h h' h'' => lldt_raised hp hc hr h0 (ldtBase h h' h'')⟩
      · exact ⟨fun h => ltr_raised hp hc hr h0 (tssMisfit h), fun h h' => ltr_raised hp hc hr h0 (tssAbsent h h'),
          fun h h' h'' => ltr_raised hp hc hr h0 (tssBase h h' h'')⟩
    · exact lldt_loaded hp hc hr h0 (rflags_of_onlyMem hv)
        (ldtLoads ⟨hs, List.mem_singleton.mpr htyp, hz⟩ h47 hcan)
    · have hmem : lo.extractLsb' 40 4 ∈ (if s.lma then [9] else [1, 9] : List (BitVec 4)) := by
        obtain h9 | ⟨hl, h1⟩ := htyp
        · rw [h9]; cases s.lma <;> decide
        · rw [h1, hl]; decide
      have hlv := lma_of_onlyMem hv
      rw [← hlv, ← descAddr_of_onlyMem ht] at hx
      have hf : x.rflags = s.rflags := (rflags_of_onlyMem (spanOf_onlyMem hx)).trans (rflags_of_onlyMem hv)
      have busy := sysUpdate_ok (· ||| 0x200) hx
      exact (ltr_loaded hp hc hr h0 (v := x.storeAt sp 4 _) hf (tssLoads ⟨hs, hmem, hz⟩ h47 hcan) busy :)

end Sys2Proof
end

