-- ==== Sys2Proof/Proofs/PortIo.lean ====
section
/-! SUPPORT. The I/O permission check in its order, the step of a string pointer, and IN, OUT, INS and OUTS. -/

namespace Sys2Proof.Machine

open Sys2Proof

variable {s t u : State}

/-! ### The permission check (R373) -/

/-- Bits `j` up to `j + n` of a number are 0 exactly if the number that they form is. -/
theorem bits_eq_zero_iff (x j n : Nat) : x / 2 ^ j % 2 ^ n = 0 ↔ ∀ k < n, x.testBit (j + k) = false := by
  have bit (k : Nat) : (x / 2 ^ j % 2 ^ n).testBit k = (decide (k < n) && x.testBit (j + k)) := by
    rw [Nat.testBit_mod_two_pow, Nat.testBit_div_two_pow, Nat.add_comm]
  constructor
  · intro h k hk
    have := bit k
    rw [h, Nat.zero_testBit, decide_eq_true hk, Bool.true_and] at this
    exact this.symm
  · intro h
    apply Nat.eq_of_testBit_eq
    intro k
    rw [bit, Nat.zero_testBit]
    by_cases hk : k < n
    · rw [h k hk, Bool.and_false]
    · rw [decide_eq_false hk, Bool.false_and]

section
variable {port : BitVec 16} {n : Nat}

/-- Real-address mode and a level within IOPL ask nothing. -/
theorem ioPermission_free (h : s.mode = .real ∨ (s.mode ≠ .v86 ∧ s.cpl ≤ s.iopl)) :
    ioPermission port n s = .ok ((), s) := by
  have free : (s.mode == .real || (s.mode != .v86 && decide (s.cpl ≤ s.iopl))) = true := by
    rw [Bool.or_eq_true, beq_iff_eq, Bool.and_eq_true, bne_iff_ne, decide_eq_true_iff]
    exact h
  unfold ioPermission
  rw [readS_bind, id, if_pos free]
  rfl

/-- Whether the two bytes at an address are reachable: in IA-32e mode only canonical ones are (R121). -/
def State.reaches (s : State) (a : Word) : Prop := s.lma = true → canonicalRange a 2 = true

theorem not_reaches_iff (s : State) (a : Word) : ¬ s.reaches a ↔ (s.lma && !canonicalRange a 2) = true := by
  unfold State.reaches
  cases s.lma <;> cases canonicalRange a 2 <;> simp

variable (hm : s.mode ≠ .real) (hl : s.mode = .v86 ∨ s.iopl < s.cpl)
include hm hl

/-- Elsewhere the checks of R373 are made in their order. -/
theorem ioPermission_checked : ioPermission port n s =
    if s.lma && !canonicalRange (s.tr.base + 0x66) 2 then .error (.raised gp0)
    else match sysRead (s.tr.base + 0x66) 2 s with
      | .error x => .error x
      | .ok (base, t) =>
        if decide (s.tr.limit.toNat < base + port.toNat / 8 + 1) then .error (.raised gp0)
        else if s.lma && !canonicalRange (s.tssAddr (base + port.toNat / 8)) 2 then .error (.raised gp0)
        else match sysRead (s.tssAddr (base + port.toNat / 8)) 2 t with
          | .error x => .error x
          | .ok (bits, u) =>
            if bits / 2 ^ (port.toNat % 8) % 2 ^ n != 0 then .error (.raised gp0) else .ok ((), u) := by
  have checked : ¬ (s.mode == .real || (s.mode != .v86 && decide (s.cpl ≤ s.iopl))) = true := by
    rw [Bool.or_eq_true, beq_iff_eq, Bool.and_eq_true, bne_iff_ne, decide_eq_true_iff]
    rintro (h | ⟨h, h'⟩)
    · exact hm h
    · exact hl.elim h (Nat.not_lt.mpr h')
  have field : s.tssAddr 0x66 = s.tr.base + 0x66 := rfl
  unfold ioPermission
  rw [readS_bind, id, if_neg checked, M.check_bind, field, M.bind_apply]
  split
  · rfl
  · cases sysRead (s.tr.base + 0x66) 2 s with
    | error x => rfl
    | ok r =>
      dsimp only
      rw [M.check_bind, M.check_bind, M.bind_apply]
      split
      · rfl
      · split
        · rfl
        · cases sysRead (s.tssAddr (r.1 + port.toNat / 8)) 2 r.2 with
          | error x => rfl
          | ok q => dsimp only; cases q.1 / 2 ^ (port.toNat % 8) % 2 ^ n != 0 <;> rfl

theorem ioPermission_noBase (h : ¬ s.reaches (s.tr.base + 0x66)) :
    ioPermission port n s = .error (.raised gp0) := by
  rw [ioPermission_checked hm hl, if_pos ((not_reaches_iff ..).mp h)]

variable (hb : s.reaches (s.tr.base + 0x66)) {base : Nat} (hr : sysRead (s.tr.base + 0x66) 2 s = .ok (base, t))
include hb hr

theorem ioPermission_noMap
    (h : s.tr.limit.toNat < base + port.toNat / 8 + 1 ∨ ¬ s.reaches (s.tssAddr (base + port.toNat / 8))) :
    ioPermission port n s = .error (.raised gp0) := by
  rw [ioPermission_checked hm hl, if_neg (fun h => (not_reaches_iff ..).mpr h hb), hr]
  dsimp only
  rcases h with h | h
  · rw [if_pos (decide_eq_true h)]
  · rw [if_pos ((not_reaches_iff ..).mp h), ite_self]

theorem ioPermission_map (hin : base + port.toNat / 8 + 1 ≤ s.tr.limit.toNat)
    (h : s.reaches (s.tssAddr (base + port.toNat / 8))) {bits : Nat}
    (hbits : sysRead (s.tssAddr (base + port.toNat / 8)) 2 t = .ok (bits, u)) :
    ioPermission port n s =
      if ∀ k < n, bits.testBit (port.toNat % 8 + k) = false then .ok ((), u) else .error (.raised gp0) := by
  rw [ioPermission_checked hm hl, if_neg (fun h => (not_reaches_iff ..).mpr h hb), hr]
  dsimp only
  rw [if_neg (by rw [decide_eq_true_iff]; omega), if_neg (fun h' => (not_reaches_iff ..).mpr h' h), hbits]
  dsimp only
  split
  · next hne => rw [if_neg (fun h => bne_iff_ne.mp hne ((bits_eq_zero_iff ..).mpr h))]
  · next heq => rw [if_pos ((bits_eq_zero_iff ..).mp (not_not.mp (mt bne_iff_ne.mpr heq)))]

end

theorem ioPermission_onlyMem {port : BitVec 16} {n : Nat} (h : ioPermission port n s = .ok ((), t)) :
    t = { s with mem := t.mem } := (ioPermission_keeps (onlyMem_memStable s) port n).of_ok rfl h

/-! ### String pointers (R362) -/

/-- A string pointer counts in its own width. -/
theorem State.stepPtr_eq_moved (s : State) (asz : ASize) (r : Reg) (n : Nat) : s.stepPtr asz r n = s.moved asz r n := by
  have narrow : ((s.get r + if s.flag fDF then -BitVec.ofNat 64 n else BitVec.ofNat 64 n).setWidth (asizeWidth asz).bits) =
      if s.flag fDF then s.readReg (asizeWidth asz) r - BitVec.ofNat _ n else s.readReg (asizeWidth asz) r + BitVec.ofNat _ n := by
    have hbits := asizeWidth_bits asz
    rw [BitVec.setWidth_add _ _ hbits]
    split
    · rw [BitVec.setWidth_neg_of_le hbits, BitVec.setWidth_ofNat_of_le hbits, BitVec.sub_eq_add_neg]; rfl
    · rw [BitVec.setWidth_ofNat_of_le hbits]; rfl
  exact congrArg (s.writeReg (asizeWidth asz) r) narrow

/-! ### Ports (R372, R373, R375, R796) -/

/-- The state in which a write to a port has been handed to the platform. -/
def State.logged (s : State) (port : BitVec 16) (n : Nat) (v : BitVec 32) : State :=
  { s with ioLog := { port := port, bytes := n, value := v } :: s.ioLog }

theorem outp_ok {w : Width} {imm : Option Byte} (h : ioPermission (s.portOf imm) w.bytes s = .ok ((), t)) :
    exec (.outp w imm) s =
      .next ((t.logged (s.portOf imm) w.bytes ((s.readReg w rAX).setWidth 32)).endWith s.rflags) := by
  have ht := ioPermission_onlyMem h
  refine runSeq_next (m := outForm w imm) (t := t.logged (s.portOf imm) w.bytes ((s.readReg w rAX).setWidth 32)) ?_
    (rflags_of_onlyMem ht :)
  have hax : t.readReg w rAX = s.readReg w rAX := by rw [ht]; rfl
  unfold outForm
  rw [readS_bind, M.bind_of_ok h, readS_bind, hax]
  rfl

theorem inp_ok {w : Width} {imm : Option Byte} (h : ioPermission (s.portOf imm) w.bytes s = .ok ((), t)) :
    exec (.inp w imm) s = .next (((t.writeReg w rAX
      ((Config.ioInput (s.portOf imm) w.bytes t.freeCount).setWidth w.bits)).drawn 1).endWith s.rflags) := by
  refine runSeq_next (m := inForm w imm)
    (t := (t.writeReg w rAX ((Config.ioInput (s.portOf imm) w.bytes t.freeCount).setWidth w.bits)).drawn 1) ?_
    (rflags_of_onlyMem (ioPermission_onlyMem h) :)
  unfold inForm
  rw [readS_bind, M.bind_of_ok h]
  rfl

theorem outsBody_ok {w : Width} {a : StrSrc} {x : Nat} (h : ioPermission (s.portOf none) w.bytes s = .ok ((), t))
    (hx : readMem a.seg (s.ptr a.asz rSI) w.bytes t = .ok (x, u)) : outsBody w a s =
      .ok ((), (u.logged (s.portOf none) w.bytes (BitVec.ofNat 32 x)).moved a.asz rSI w.bytes) := by
  unfold outsBody
  rw [readS_bind, id, M.bind_of_ok h, M.bind_of_ok hx]
  exact congrArg (fun v => Except.ok ((), v)) (State.stepPtr_eq_moved ..)

theorem insBody_ok {w : Width} {b : StrDst} {sp : Span} (h : ioPermission (s.portOf none) w.bytes s = .ok ((), t))
    (hsp : resolve .es (s.ptr b.asz rDI) w.bytes true (.natural w.bytes) t = .ok (sp, u)) : insBody w b s =
      .ok ((), ((u.storeAt sp w.bytes (Config.ioInput (s.portOf none) w.bytes u.freeCount).toNat).drawn 1).moved
        b.asz rDI w.bytes) := by
  unfold insBody
  rw [readS_bind, id, M.bind_of_ok h, M.bind_of_ok hsp]
  exact congrArg (fun v => Except.ok ((), v)) (State.stepPtr_eq_moved ..)

end Sys2Proof.Machine

namespace Sys2Proof

open Sys2Proof.Machine

/-- Settles O25: the four instructions where the port is permitted, then the permission check in its order. -/
theorem portIo : Obligations.PortIo := by
  unfold Obligations.PortIo
  refine ⟨fun s t w a b imm => ?_, fun s port n => ⟨ioPermission_free, fun hm hl => ?_⟩⟩
  · intro dx port n logged
    have hport : port = s.portOf imm := by cases imm <;> rfl
    rw [hport]
    refine ⟨fun h => ⟨outp_ok h, _, inp_ok h⟩, fun h => ⟨fun i hi hc x u hx => ?_, fun i hi hc sp u hsp => ?_⟩⟩
    · have run := runInstr_ok (repeated_ok (done := neverDone) (b := false) (outsBody_ok h hx) hc rfl)
      obtain rfl | ⟨rfl, rfl⟩ := hi
      · exact run
      · exact run
    · have run := runInstr_ok (repeated_ok (done := neverDone) (b := false) (insBody_ok h hsp) hc rfl)
      refine ⟨Config.ioInput (s.portOf none) w.bytes u.freeCount, fun hs => State.storeAt_onlySpan ?_ sp n _, ?_⟩
      · have ht := (ioPermission_keeps memOk_regStable.toMemStable ..).of_ok hs h
        exact (resolve_keeps memOk_regStable.toMemStable ..).of_ok ht hsp
      · obtain rfl | ⟨rfl, rfl⟩ := hi
        · exact run
        · exact run
  · intro refused reachable
    refine ⟨ioPermission_noBase hm hl, fun hb base t hr => ?_⟩
    intro map
    exact ⟨ioPermission_noMap hm hl hb hr, fun hin hmap bits u hbits => ioPermission_map hm hl hb hr hin hmap hbits⟩

end Sys2Proof
end

