-- ==== Sys2Proof/Proofs/CallGates.lean ====
section
/-! SUPPORT. The operand forms of the far transfers, stack pointers of the 64-bit TSS, frames stored by linear address, and
far transfers through 64-bit call gates. -/

namespace Sys2Proof.Machine

open Sys2Proof

variable {s t u v a b c : State}

/-! ### Far transfers (R324, R326, R333) -/

theorem invalid64_ok (h : s.is64 = false) : invalid64 s = .ok ((), s) := by
  unfold invalid64
  rw [readS_bind, h, raiseIf_false]

section
variable {osz : Width} {jmp call : Instr} {sel : BitVec 16} {off : Word} (h : FarForm s osz jmp call sel off t)
include h

theorem FarForm.onlyMem : t = { s with mem := t.mem } := by
  cases h with
  | ptr => rfl
  | mem m off sel v t h h2 => exact onlyMem_trans (readMem_onlyMem h) (readMem_onlyMem h2)

/-- A far transfer that completes, in every operand form. -/
theorem FarForm.jmp_ok (hf : farTransfer false osz sel off t = .ok ((), u)) : exec jmp s = .next u := by
  cases h with
  | ptr off sel h6 =>
    exact runInstr_ok (m := farPtrForm false osz off sel) ((M.bind_of_ok (invalid64_ok h6)).trans hf)
  | mem m off sel v t h h2 =>
    refine runInstr_ok (m := farMemForm false osz (.mem m)) ?_
    unfold farMemForm
    rw [M.bind_of_ok (show memOnly (.mem m) s = .ok (m, s) from rfl), readS_bind, M.bind_of_ok h, M.bind_of_ok h2, hf]

theorem FarForm.call_ok (hf : farTransfer true osz sel off t = .ok ((), u)) : exec call s = .next u := by
  cases h with
  | ptr off sel h6 =>
    exact runInstr_ok (m := farPtrForm true osz off sel) ((M.bind_of_ok (invalid64_ok h6)).trans hf)
  | mem m off sel v t h h2 =>
    refine runInstr_ok (m := farMemForm true osz (.mem m)) ?_
    unfold farMemForm
    rw [M.bind_of_ok (show memOnly (.mem m) s = .ok (m, s) from rfl), readS_bind, M.bind_of_ok h, M.bind_of_ok h2, hf]

end

theorem paragraphs_of_lma (h : s.lma = true) : s.paragraphs = false := by
  unfold State.paragraphs State.mode
  rw [h]
  cases s.cs.l <;> rfl

/-- The S bit and the type of a 64-bit call gate (R128). -/
theorem descSeg_callGate {gate : BitVec 64} (h : gate.extractLsb' 40 5 = 0xC) (sel : BitVec 16) :
    (descSeg gate sel).s = false ∧ (descSeg gate sel).typ = 0xC := by
  have bit {i : Nat} (hi : i < 5) : gate.getLsbD (40 + i) = (0xC : BitVec 5).getLsbD i := by
    rw [← h, BitVec.getLsbD_extractLsb', decide_eq_true hi, Bool.true_and]
  refine ⟨bit (i := 4) (by decide), BitVec.eq_of_getLsbD_eq fun i hi => ?_⟩
  rw [descSeg_typ_getLsbD gate sel hi, bit (by omega)]
  revert i
  decide

/-- A far transfer to a 64-bit call gate goes through it (R326, R725). -/
theorem farTransfer_gate {call : Bool} {osz : Width} {sel : BitVec 16} {off : Word} {gate : BitVec 64}
    (hl : s.lma = true) (hn : selNull sel = false) (hd : readDesc sel false s = .ok (gate, a))
    (hg : gate.extractLsb' 40 5 = 0xC) : farTransfer call osz sel off s = callGate call sel gate a := by
  obtain ⟨hs, htyp⟩ := descSeg_callGate hg sel
  have notCode : (descSeg gate sel).isCode = false := by rw [SegReg.isCode, hs]; rfl
  have isGate : (!(descSeg gate sel).s && (descSeg gate sel).typ == 0xC) = true := by rw [hs, htyp]; rfl
  unfold farTransfer
  rw [readS_bind, id, paragraphs_of_lma hl, if_neg Bool.false_ne_true, M.check_passed hn, M.bind_of_ok hd]
  dsimp only
  rw [notCode, if_neg Bool.false_ne_true, if_pos hl, if_pos isGate]

/-! ### Stack pointers of the TSS and stored frames (R693, R694) -/

theorem tssStack_raised {off : Nat} {ext : Bool}
    (h : ¬ (off + 7 ≤ s.tr.limit.toNat ∧ canonicalRange (s.tssAddr off) 8 = true)) :
    tssStack off ext s = .error (.raised (tsSel s.tr.sel ext)) := by
  unfold tssStack
  rw [readS_bind, id, M.check_bind, M.check_bind]
  split
  · rfl
  · next hin =>
    have hcan : canonicalRange (s.tssAddr off) 8 = false :=
      Bool.eq_false_iff.mpr fun hcan => h ⟨by rw [decide_eq_true_iff] at hin; omega, hcan⟩
    rw [hcan]
    rfl

theorem tssStack_ok {off x : Nat} {ext : Bool} (hin : off + 7 ≤ s.tr.limit.toNat)
    (hcan : canonicalRange (s.tssAddr off) 8 = true) (h : sysRead (s.tssAddr off) 8 s = .ok (x, t)) :
    tssStack off ext s = .ok (BitVec.ofNat 64 x, t) := by
  unfold tssStack
  rw [readS_bind, id, M.check_passed (by rw [decide_eq_false_iff_not]; omega), M.check_passed (by rw [hcan]; rfl),
    M.bind_of_ok h]
  rfl

theorem tssStack_onlyMem {off : Nat} {ext : Bool} {sp : Word} (h : tssStack off ext s = .ok (sp, t)) :
    t = { s with mem := t.mem } := by
  refine Keeps.of_ok (p := fun t => t = { s with mem := t.mem }) ?_ rfl h
  exact .afterRead fun _ => .afterCheck <| .afterCheck <|
    .bind (sysRead_keeps (onlyMem_memStable s) ..) fun _ => .pure _

/-- A frame that can be stored is stored, and the stack pointer is that of its last item. -/
theorem pushItems_ok {bad : Event} {user : Bool} {p : Word} {l : List Word} (hl : s.lma = true)
    (h : Stacked user p l s t) : pushItems bad user p l s = .ok (p - BitVec.ofNat 64 (8 * l.length), t) := by
  induction l generalizing p s with
  | nil =>
    cases h
    rw [List.length_nil, Nat.mul_zero, BitVec.sub_zero]
    rfl
  | cons x l ih =>
    obtain ⟨sp, u, hcan, hsp, hrest⟩ := h
    have hu : (u.storeAt sp 8 x.toNat).lma = true := (lma_of_onlyMem (spanOf_onlyMem hsp)).trans hl
    have write : sysWrite (p - 8) 8 x.toNat user s = .ok ((), u.storeAt sp 8 x.toNat) := by
      unfold sysWrite
      rw [readS_bind, hl, if_pos rfl, M.bind_of_ok hsp]
      rfl
    have last : p - 8 - BitVec.ofNat 64 (8 * l.length) = p - BitVec.ofNat 64 (8 * (x :: l).length) := by
      rw [List.length_cons, Nat.mul_succ, BitVec.ofNat_add, BitVec.sub_sub, BitVec.add_comm]
      rfl
    unfold pushItems
    rw [M.check_passed (by rw [hcan]; rfl), M.bind_of_ok write, ih hu hrest, last]

/-- Storing a frame changes nothing but memory (R694). -/
theorem Stacked.onlyMem {user : Bool} {p : Word} {l : List Word} (h : Stacked user p l s t) :
    t = { s with mem := t.mem } := by
  induction l generalizing p s with
  | nil => cases h; rfl
  | cons x l ih =>
    obtain ⟨sp, u, -, hsp, hrest⟩ := h
    have hu : u.storeAt sp 8 x.toNat = { s with mem := (u.storeAt sp 8 x.toNat).mem } := by
      have := spanOf_onlyMem hsp
      rw [this]
      rfl
    exact onlyMem_trans hu (ih hrest)

/-! ### Call gates (R725) -/

/-- What `callGate` does once its checks have passed, from the state `s` in which it began: to the code segment `d` with
selector `sel` at `off`. -/
def gateTransfer (call : Bool) (s : State) (d : SegReg) (sel : BitVec 16) (off : Word) : M Unit := do
  let oldSp := if s.is64 then s.get rSP else truncTo .b32 (s.get rSP)
  if call && !d.conforming && decide (d.dpl.toNat < s.cpl) then
    let newSp ← tssStack (4 + d.dpl.toNat * 8) false
    let p ← pushItems (ssSel 0) false newSp [s.ss.sel.setWidth 64, oldSp, s.cs.sel.setWidth 64, s.nextPc]
    upd fun u => { u with ss := u.ss.nullStack (BitVec.ofNat 16 d.dpl.toNat) d.dpl.toNat }
    upd fun u => u.loadCs { d with sel := selWithRpl sel d.dpl.toNat }
    upd fun u => (u.put rSP p).setRip off
  else
    if call then
      push 8 s.cs.sel.toNat
      push 8 s.nextPc.toNat
    else pure ()
    upd fun u => (u.loadCs { d with sel := selWithRpl sel s.cpl }).setRip off

/-- The checks of a call gate and of the code segment that it names (R725). -/
theorem callGate_open {call : Bool} {sel : BitVec 16} {gate hi raw : BitVec 64} (hh : readDescHigh sel s = .ok (hi, b))
    (hcpl : s.cpl ≤ descLevel gate) (hrpl : (sel.extractLsb' 0 2).toNat ≤ descLevel gate)
    (hz : hi.extractLsb' 40 5 = 0) (hp : gate.getLsbD 47 = true) (hn : selNull (gate.extractLsb' 16 16) = false)
    (hd : readDesc (gate.extractLsb' 16 16) false b = .ok (raw, c)) (hcode : codeDescriptor raw = true)
    (hlong : raw.getLsbD 53 = true) (hdb : raw.getLsbD 54 = false) (hdpl : descLevel raw ≤ s.cpl)
    (hcan : canonical (gateOffset gate hi) = true)
    (hjmp : call = true ∨ raw.getLsbD 42 = true ∨ descLevel raw = s.cpl) :
    callGate call sel gate s =
      gateTransfer call s (descSeg raw (gate.extractLsb' 16 16)) (gate.extractLsb' 16 16) (gateOffset gate hi) c := by
  have hgate : (gate.extractLsb' 45 2).toNat = descLevel gate := rfl
  simp only [codeDescriptor, Bool.and_eq_true] at hcode
  obtain ⟨⟨h44, h43⟩, h47⟩ := hcode
  have isCode : (!(descSeg raw (gate.extractLsb' 16 16)).isCode) = false := by rw [descSeg_isCode, h44, h43]; rfl
  have long : (!(descSeg raw (gate.extractLsb' 16 16)).l || (descSeg raw (gate.extractLsb' 16 16)).db) = false := by
    show (!raw.getLsbD 53 || raw.getLsbD 54) = false
    rw [hlong, hdb]
    rfl
  have jump : (!call && !(descSeg raw (gate.extractLsb' 16 16)).conforming &&
      (descSeg raw (gate.extractLsb' 16 16)).dpl.toNat != s.cpl) = false := by
    rw [descSeg_conforming, descSeg_dpl_toNat]
    obtain rfl | h42 | hl := hjmp
    · rfl
    · rw [h42, Bool.not_true, Bool.and_false, Bool.false_and]
    · rw [hl, bne_self_eq_false, Bool.and_false]
  have present : (!(descSeg raw (gate.extractLsb' 16 16)).p) = false := by
    show (!raw.getLsbD 47) = false
    rw [h47]
    rfl
  unfold callGate
  rw [readS_bind, id, M.bind_of_ok hh]
  dsimp only
  rw [M.check_passed (by rw [hgate, selRpl_eq, Bool.or_eq_false_iff, decide_eq_false_iff_not, decide_eq_false_iff_not]; omega),
    M.check_passed (by rw [hz]; rfl), M.check_passed (by rw [hp]; rfl), M.check_passed hn, M.bind_of_ok hd,
    M.check_passed isCode, M.check_passed long,
    M.check_passed (by rw [descSeg_dpl_toNat, decide_eq_false_iff_not]; omega), M.check_passed jump,
    M.check_passed present, M.check_passed (by rw [hcan]; rfl)]
  rfl

section
variable {d : SegReg} {sel : BitVec 16} {off : Word}

theorem gateTransfer_jmp : gateTransfer false s d sel off u =
    .ok ((), u.atCode { d with sel := withLevel sel s.cpl } off) := by
  rw [← selWithRpl_eq]
  rfl

theorem gateTransfer_same (h : d.conforming = true ∨ d.dpl.toNat = s.cpl)
    (hp : PushedAll 8 [s.cs.sel.toNat, s.nextPc.toNat] u v) : gateTransfer true s d sel off u =
      .ok ((), v.atCode { d with sel := withLevel sel s.cpl } off) := by
  obtain ⟨w, h1, x, h2, rfl⟩ := hp
  have same : (true && !d.conforming && decide (d.dpl.toNat < s.cpl)) = false := by
    obtain h | h := h
    · rw [h]; rfl
    · rw [h, decide_eq_false (Nat.lt_irrefl _), Bool.and_false]
  unfold gateTransfer
  rw [same, if_neg Bool.false_ne_true, if_pos rfl, M.bind_of_ok (push_ok h1), M.bind_of_ok (push_ok h2),
    ← selWithRpl_eq]
  rfl

theorem gateTransfer_inner {sp : Word} (hl : u.lma = true) (h : d.conforming = false) (hdpl : d.dpl.toNat < s.cpl)
    (hsp : tssStack (4 + d.dpl.toNat * 8) false t = .ok (sp, u))
    (hf : Stacked false sp [s.ss.sel.setWidth 64, if s.is64 then s.get rSP else truncTo .b32 (s.get rSP),
      s.cs.sel.setWidth 64, s.nextPc] u v) :
    let x := { v with ss := { v.ss with sel := BitVec.ofNat 16 d.dpl.toNat, unusable := true, dpl := d.dpl } }
    gateTransfer true s d sel off t =
      .ok ((), (x.atCode { d with sel := withLevel sel d.dpl.toNat } off).put rSP (sp - 32)) := by
  have inner : (true && !d.conforming && decide (d.dpl.toNat < s.cpl)) = true := by
    rw [h, decide_eq_true hdpl]
    rfl
  have level : BitVec.ofNat 2 d.dpl.toNat = d.dpl := by rw [BitVec.ofNat_toNat, BitVec.setWidth_eq]
  unfold gateTransfer
  dsimp only
  rw [if_pos inner, M.bind_of_ok hsp, M.bind_of_ok (pushItems_ok hl hf), upd_bind, upd_bind, upd_apply, selWithRpl_eq,
    SegReg.nullStack, level]
  rfl

end

end Sys2Proof.Machine

namespace Sys2Proof

open Sys2Proof.Machine

/-- Settles O17: the checks of the gate and of its code segment, the transfer with and without a change of level, and the
stack pointer of the TSS. -/
theorem callGate : Obligations.CallGate := by
  unfold Obligations.CallGate
  refine ⟨?transfer, fun s off ext => ?stack⟩
  case stack =>
    intro a
    split
    · next h => exact fun v t hr => tssStack_ok h.1 h.2 hr
    · next h => exact tssStack_raised h
  case transfer =>
    intro s t a b c osz jmp call sel off gate hi raw form hl hn hga hg hhi hcpl hrpl hz hp hcn hd hcode hlong hdb hdpl
      target oldSp code hcan
    have ht := form.onlyMem
    have ha := onlyMem_trans ht (readDesc_onlyMem hga)
    have hc := onlyMem_trans (onlyMem_trans ha (readDescPart_onlyMem hhi)) (readDesc_onlyMem hd)
    have acpl := cpl_of_onlyMem ha
    have gated (far : Bool) (hj : far = true ∨ raw.getLsbD 42 = true ∨ descLevel raw = s.cpl) :
        farTransfer far osz sel off t =
          gateTransfer far a (descSeg raw (gate.extractLsb' 16 16)) (gate.extractLsb' 16 16) target c := by
      rw [farTransfer_gate ((lma_of_onlyMem ht).trans hl) ((selNull_eq_false sel).mpr hn) hga hg]
      refine callGate_open hhi (acpl ▸ hcpl) hrpl hz hp ((selNull_eq_false _).mpr ?_) hd hcode hlong hdb (acpl ▸ hdpl) hcan
        (acpl ▸ hj)
      have : (gate.extractLsb' 16 16).extractLsb' 2 14 = gate.extractLsb' 18 14 := by
        apply BitVec.eq_of_getLsbD_eq
        intro i hi
        rw [BitVec.getLsbD_extractLsb', BitVec.getLsbD_extractLsb', BitVec.getLsbD_extractLsb']
        have : 2 + i < 16 := by omega
        simp only [hi, this, decide_true, Bool.true_and]
        congr 1
        omega
      rw [this]
      exact hcn
    refine ⟨fun hsame => ⟨?_, fun u hu => ?_⟩, fun h42 hlt sp u v hsp hf => ?_⟩
    · have run := (gated false (.inr hsame)).trans gateTransfer_jmp
      rw [acpl] at run
      exact form.jmp_ok run
    · have hsame' : (descSeg raw (gate.extractLsb' 16 16)).conforming = true ∨
          (descSeg raw (gate.extractLsb' 16 16)).dpl.toNat = a.cpl := by
        rw [descSeg_conforming, descSeg_dpl_toNat, acpl]
        exact hsame
      have hu' : PushedAll 8 [a.cs.sel.toNat, a.nextPc.toNat] c u := by rw [ha]; exact hu
      have run := (gated true (.inl rfl)).trans (gateTransfer_same hsame' hu')
      rw [acpl] at run
      exact form.call_ok run
    · have hul := (lma_of_onlyMem (onlyMem_trans hc (tssStack_onlyMem hsp))).trans hl
      have hf' : Stacked false sp [a.ss.sel.setWidth 64, if a.is64 then a.get rSP else truncTo .b32 (a.get rSP),
          a.cs.sel.setWidth 64, a.nextPc] u v := by rw [ha]; exact hf
      have h42' : (descSeg raw (gate.extractLsb' 16 16)).conforming = false := by rw [descSeg_conforming, h42]
      exact form.call_ok ((gated true (.inl rfl)).trans (gateTransfer_inner hul h42' (acpl ▸ hlt) hsp hf'))

end Sys2Proof
end

