-- ==== Sys2Proof/Proofs/LongDelivery.lean ====
section
/-! SUPPORT. The delivery of an event in IA-32e mode: its checks, the frame, the state of the handler, and what follows an
exception that a delivery raises. -/

namespace Sys2Proof.Machine

open Sys2Proof

variable {s t u v : State} {ev e : Event} {saved : Word}

/-! ### Events (R660 to R662) -/

theorem selCode_eq_ite (sel : BitVec 16) (ext : Bool) :
    selCode sel ext = BitVec.ofNat 32 (sel.toNat / 4 * 4 + if ext then 1 else 0) := by
  rw [selCode_eq]
  cases ext <;> rfl

theorem State.withCr2_eq (s : State) (ev : Event) : s.withCr2 ev = { s with cr2 := ev.cr2.getD s.cr2 } := by
  unfold State.withCr2
  cases ev.cr2 <;> rfl

theorem contributory_iff (v : Byte) : contributory v = true ↔ v.toNat = 0 ∨ 10 ≤ v.toNat ∧ v.toNat ≤ 13 := by
  revert v
  decide

theorem pageFault_iff (v : Byte) : (v == 14) = true ↔ v.toNat = 14 := by
  rw [beq_iff_eq, BitVec.toNat_eq]; rfl

/-- Which pairs of exceptions make a double fault (R698). -/
theorem makesDouble_iff (ev e : Event) : makesDouble ev e = true ↔ ev.kind = .fault ∧
    ((ev.vector.toNat = 0 ∨ 10 ≤ ev.vector.toNat ∧ ev.vector.toNat ≤ 13) ∧
        (e.vector.toNat = 0 ∨ 10 ≤ e.vector.toNat ∧ e.vector.toNat ≤ 13) ∨
      ev.vector.toNat = 14 ∧ ((e.vector.toNat = 0 ∨ 10 ≤ e.vector.toNat ∧ e.vector.toNat ≤ 13) ∨ e.vector.toNat = 14)) := by
  simp only [makesDouble, Bool.and_eq_true, Bool.or_eq_true, decide_eq_true_iff, contributory_iff, pageFault_iff]

theorem savedRip_of_ne_abort (h : ev.kind ≠ .abort) (s : State) :
    savedRip ev s = if ev.kind = .software then s.nextPc else s.rip := by
  unfold savedRip
  cases hk : ev.kind with
  | abort => exact absurd hk h
  | _ => rfl

/-! ### Flags (R690) -/

/-- A delivery clears TF, NT, RF and VM, and IF through an interrupt gate (R690 step 11). -/
theorem deliveredFlags_eq (f : BitVec 32) (interruptGate : Bool) :
    deliveredFlags f interruptGate = f &&& ~~~(if interruptGate then 0x34300 else 0x34100) := by
  have clear (v : BitVec 32) (i : Nat) : putBit v i false = v &&& ~~~(BitVec.twoPow 32 i) := rfl
  cases interruptGate <;>
    simp only [deliveredFlags, clear, if_true, if_false, Bool.false_eq_true, BitVec.and_assoc] <;>
    congr 1

/-! ### Entering a handler (R690, R693, R694) -/

/-- The selector of CS in the handler: that of the gate with the new level as its RPL (R690). -/
theorem gateSelector_eq (lo : BitVec 64) (cpl : Nat) :
    selWithRpl (lo.extractLsb' 16 16) cpl = lo.extractLsb' 18 14 ++ BitVec.ofNat 2 cpl := by
  rw [selWithRpl_eq, withLevel]
  congr 1
  apply BitVec.eq_of_getLsbD_eq
  intro i hi
  have h16 : 2 + i < 16 := by omega
  simp only [BitVec.getLsbD_extractLsb', hi, h16, decide_true, Bool.true_and]
  congr 1
  omega

/-- What `deliver64` does once its checks have passed and the stack is known, from the state `s` in which it began. -/
def enterHandler (ev : Event) (ext : Bool) (saved : Word) (s : State) (lo hi : BitVec 64) (d : SegReg) (newCpl : Nat)
    (switched : Bool) (newSp : Word) : M Unit := do
  raiseIf (!canonical (gateOffset lo hi)) gp0
  let frame : List Word :=
    [s.ss.sel.setWidth 64, if s.is64 then s.get rSP else truncTo .b32 (s.get rSP),
      (flagsImage s ev.kind).setWidth 64, s.cs.sel.setWidth 64, saved] ++
      (match ev.code with | some c => [c.setWidth 64] | none => [])
  let p ← pushItems (if switched then ssSel 0 ext else ss0) (newCpl == 3) (newSp &&& 0xFFFFFFFFFFFFFFF0) frame
  if newCpl != s.cpl then upd fun u => { u with ss := u.ss.nullStack (BitVec.ofNat 16 newCpl) newCpl } else pure ()
  upd fun u => u.loadCs { d with sel := selWithRpl (lo.extractLsb' 16 16) newCpl }
  upd fun u => ((u.put rSP p).setRip (gateOffset lo hi)).setRflags (deliveredFlags u.rflags (lo.extractLsb' 40 5 == 0xE))
  upd (·.delivered ev.kind)

section
variable {lo hi raw : BitVec 64} {newCpl : Nat} {sp off : Word}

/-- A gate that is open leads to the handler, on the stack that R693 selects. -/
theorem deliver64_open (g : Gate64 ev s lo hi raw newCpl sp off u) : ∃ switched, deliver64 ev ev.ext saved s =
    enterHandler ev ev.ext saved s lo hi (descSeg raw (lo.extractLsb' 16 16)) newCpl switched sp u := by
  obtain ⟨n, m, k, a, b, c, hlo, hhi, hd, elo, ehi, rfl, hstack⟩ := g.reads
  obtain ⟨h44, h43⟩ := g.code
  obtain ⟨h53, h54⟩ := g.long
  have hlevel : descLevel raw ≤ s.cpl := g.level
  have hnew : newCpl = if (descSeg raw (lo.extractLsb' 16 16)).conforming then s.cpl
      else (descSeg raw (lo.extractLsb' 16 16)).dpl.toNat := by
    rw [descSeg_conforming]
    exact g.newLevel
  have gateType : (lo.extractLsb' 40 5 != 0xE && lo.extractLsb' 40 5 != 0xF) = false := by
    obtain h | h := g.gate <;> rw [h] <;> rfl
  have software : (decide (ev.kind = .software) && decide ((lo.extractLsb' 45 2).toNat < s.cpl)) = false := by
    by_cases hk : ev.kind = .software
    · rw [decide_eq_false (Nat.not_lt.mpr (g.open_ hk)), Bool.and_false]
    · rw [decide_eq_false hk, Bool.false_and]
  have isCode : (!(descSeg raw (lo.extractLsb' 16 16)).isCode) = false := by rw [descSeg_isCode, h44, h43]; rfl
  have long : (!(descSeg raw (lo.extractLsb' 16 16)).l || (descSeg raw (lo.extractLsb' 16 16)).db) = false := by
    show (!raw.getLsbD 53 || raw.getLsbD 54) = false
    rw [h53, h54]
    rfl
  have present : (!(descSeg raw (lo.extractLsb' 16 16)).p) = false := by
    show (!raw.getLsbD 47) = false
    rw [g.present]
    rfl
  have hle : newCpl ≤ s.cpl := by
    rw [g.newLevel]
    split
    · exact le_rfl
    · exact hlevel
  refine ⟨(lo.extractLsb' 32 3).toNat != 0 || decide (newCpl < s.cpl), ?_⟩
  unfold deliver64
  rw [readS_bind, id]
  dsimp only
  rw [M.check_passed (by rw [decide_eq_false_iff_not]; have := g.inTable; omega),
    M.check_passed (by rw [g.canonicalGate]; rfl), M.bind_of_ok hlo, M.bind_of_ok hhi, ← elo, ← ehi,
    M.check_passed gateType, M.check_passed (by rw [g.presentGate]; rfl), M.check_passed software,
    M.check_passed g.notNull, M.bind_of_ok (show readDesc (lo.extractLsb' 16 16) ev.ext b = .ok (raw, c) from hd),
    M.check_passed isCode, M.check_passed long,
    M.check_passed (by rw [descSeg_dpl_toNat, decide_eq_false_iff_not]; omega), M.check_passed present, ← hnew]
  by_cases hist : lo.extractLsb' 32 3 = 0
  · have hzero : ((lo.extractLsb' 32 3).toNat != 0) = false := by rw [hist]; rfl
    rw [hzero, if_neg Bool.false_ne_true]
    by_cases hcpl : newCpl = s.cpl
    · rw [if_pos ⟨hist, hcpl⟩] at hstack
      obtain ⟨rfl, rfl⟩ := hstack
      rw [if_neg (by omega)]
      rfl
    · rw [if_neg (fun h => hcpl h.2), if_pos hist] at hstack
      rw [if_pos (by omega), M.bind_of_ok (show tssStack (4 + newCpl * 8) ev.ext c = .ok (sp, u) from hstack)]
      rfl
  · have hne : ((lo.extractLsb' 32 3).toNat != 0) = true := by
      rw [bne_iff_ne]
      exact fun h => hist (BitVec.eq_of_toNat_eq h)
    rw [if_neg (fun h => hist h.1), if_neg hist] at hstack
    rw [if_pos hne, M.bind_of_ok
      (show tssStack (0x24 + ((lo.extractLsb' 32 3).toNat - 1) * 8) ev.ext c = .ok (sp, u) from hstack)]
    rfl

/-- The last updates of a delivery, with the flags in numbers. -/
theorem delivered_eq (y : State) (p off : Word) (interruptGate : Bool) (k : Kind) :
    (((y.put rSP p).setRip off).setRflags (deliveredFlags y.rflags interruptGate)).delivered k =
      { y.put rSP p with
        rip := off, rflags := y.rflags &&& ~~~(if interruptGate then 0x34300 else 0x34100), activity := .active,
        pendingDb := false, shadow := .none, nmiBlocked := y.nmiBlocked || decide (k = .nmi) } := by
  rw [deliveredFlags_eq]
  rfl

theorem State.loadCs_rflags (s : State) (c : SegReg) : (s.loadCs c).rflags = s.rflags := by
  unfold State.loadCs; dsimp only; split <;> rfl

theorem State.loadCs_nmiBlocked (s : State) (c : SegReg) : (s.loadCs c).nmiBlocked = s.nmiBlocked := by
  unfold State.loadCs; dsimp only; split <;> rfl

/-- The state of the handler: SS null after a change of level, CS that of the gate, the flags cleared (R690). -/
theorem enterHandler_ok {ext switched : Bool} (hu : u = { s with mem := u.mem }) (hl : s.lma = true)
    (hcan : canonical (gateOffset lo hi) = true)
    (hf : Stacked (decide (newCpl = 3)) (sp &&& ~~~15) (frameItems ev s saved) u v) :
    let x := if newCpl = s.cpl then v else { v with ss := { v.ss with
      sel := BitVec.ofNat 16 newCpl, unusable := true, dpl := BitVec.ofNat 2 newCpl } }
    let y := x.loadCs { descSeg raw 0 with sel := lo.extractLsb' 18 14 ++ BitVec.ofNat 2 newCpl }
    let cleared : BitVec 32 := if lo.extractLsb' 40 5 = 0xE then 0x34300 else 0x34100
    enterHandler ev ext saved s lo hi (descSeg raw (lo.extractLsb' 16 16)) newCpl switched sp u =
      .ok ((), { y.put rSP ((sp &&& ~~~15) - BitVec.ofNat 64 (8 * (frameItems ev s saved).length)) with
        rip := gateOffset lo hi, rflags := s.rflags &&& ~~~cleared, activity := .active, pendingDb := false,
        shadow := .none, nmiBlocked := s.nmiBlocked || decide (ev.kind = .nmi) }) := by
  intro x y cleared
  have hul : u.lma = true := (lma_of_onlyMem hu).trans hl
  have hv : v = { s with mem := v.mem } := onlyMem_trans hu hf.onlyMem
  have hx : x.rflags = s.rflags ∧ x.nmiBlocked = s.nmiBlocked := by
    show (if newCpl = s.cpl then v else _).rflags = _ ∧ (if newCpl = s.cpl then v else _).nmiBlocked = _
    rw [hv]
    split <;> exact ⟨rfl, rfl⟩
  have hgate : (if (lo.extractLsb' 40 5 == 0xE) = true then 0x34300 else 0x34100 : BitVec 32) = cleared :=
    if_congr beq_iff_eq rfl rfl
  have last (p : Word) : (((y.put rSP p).setRip (gateOffset lo hi)).setRflags
      (deliveredFlags y.rflags (lo.extractLsb' 40 5 == 0xE))).delivered ev.kind = { y.put rSP p with
        rip := gateOffset lo hi, rflags := s.rflags &&& ~~~cleared, activity := .active, pendingDb := false,
        shadow := .none, nmiBlocked := s.nmiBlocked || decide (ev.kind = .nmi) } := by
    rw [delivered_eq, State.loadCs_rflags, State.loadCs_nmiBlocked, hx.1, hx.2, hgate]
  unfold enterHandler
  rw [M.check_passed (by rw [hcan]; rfl), gateSelector_eq]
  refine (M.bind_of_ok (pushItems_ok hul hf)).trans ?_
  by_cases hcpl : newCpl = s.cpl
  · have hxv : x = v := if_pos hcpl
    rw [if_neg (fun h => bne_iff_ne.mp h hcpl), ← last, ← hxv]
    rfl
  · have hxv : x = { v with ss := { v.ss with
        sel := BitVec.ofNat 16 newCpl, unusable := true, dpl := BitVec.ofNat 2 newCpl } } := if_neg hcpl
    rw [if_pos (bne_iff_ne.mpr hcpl), ← last, show y = State.loadCs x _ from rfl, hxv]
    rfl

end

theorem deliverOnce_long (h : s.lma = true) (ext : Bool) : deliverOnce ev ext saved s = deliver64 ev ext saved s := by
  unfold deliverOnce State.mode
  rw [readS_bind, h]
  cases s.cs.l <;> rfl

/-- A delivery that enters its handler. -/
theorem deliverOnce_entered (h : EnteredLong ev saved s t) : deliverOnce ev ev.ext saved s = .ok ((), t) := by
  obtain ⟨lo, hi, raw, newCpl, sp, off, u, v, g, hf, rfl⟩ := h
  obtain ⟨hoff, hcan⟩ := g.target
  subst hoff
  have hu : u = { s with mem := u.mem } := by
    obtain ⟨n, m, k, a, b, c, hlo, hhi, hd, -, -, -, hstack⟩ := g.reads
    have hc := onlyMem_trans (onlyMem_trans (sysRead_onlyMem hlo) (sysRead_onlyMem hhi)) (readDesc_onlyMem hd)
    split at hstack
    · rw [hstack.1]; exact hc
    · exact onlyMem_trans hc (tssStack_onlyMem hstack)
  obtain ⟨switched, hopen⟩ := deliver64_open (saved := saved) g
  rw [deliverOnce_long g.lma, hopen]
  exact enterHandler_ok hu g.lma hcan hf

/-! ### Deliveries and what they raise (R690, R698) -/

/-- The first attempt at an event that is no double fault is made from the state with CR2 written. -/
theorem deliver_entered (hk : ev.kind ≠ .abort)
    (h : EnteredLong ev (if ev.kind = .software then s.nextPc else s.rip) { s with cr2 := ev.cr2.getD s.cr2 } t)
    (n : Nat) : deliverChain (n + 1) ev s = .next t := by
  refine deliverChain_ok ?_
  rw [if_neg hk, State.withCr2_eq, savedRip_of_ne_abort hk]
  exact deliverOnce_entered h

/-- An exception that the delivery of another event raises leads to a double fault or to its own delivery. -/
theorem deliver_raised (hk : ev.kind ≠ .abort)
    (h : deliverOnce ev ev.ext (if ev.kind = .software then s.nextPc else s.rip) { s with cr2 := ev.cr2.getD s.cr2 } =
      .error (.raised e)) :
    deliver ev s = if makesDouble ev e
      then deliverChain 5 dfAbort (State.withCr2 { s with cr2 := ev.cr2.getD s.cr2 } e)
      else deliverChain 5 e { s with cr2 := ev.cr2.getD s.cr2 } := by
  refine (deliverChain_raised (n := 5) (u := { s with cr2 := ev.cr2.getD s.cr2 }) ?_ ?_).trans (if_neg fun h => hk h.1)
  · rw [if_neg hk, State.withCr2_eq]
  · rw [State.withCr2_eq, savedRip_of_ne_abort hk]
    exact h

section
variable {n : Nat}

theorem deliver_double (h : EnteredLong dfAbort (Config.freeValue s.freeCount) { s with freeCount := s.freeCount + 1 } t) :
    deliverChain (n + 1) dfAbort s = .next t := deliverChain_ok (deliverOnce_entered h)

/-- What the delivery of a double fault raises: shutdown for a contributory exception or a page fault, else the delivery of
the exception (R698). -/
theorem deliver_double_raised
    (h : deliverOnce dfAbort true (Config.freeValue s.freeCount) { s with freeCount := s.freeCount + 1 } =
      .error (.raised e)) :
    deliverChain (n + 1) dfAbort s = if contributory e.vector || e.vector == 14
      then .next { s with freeCount := s.freeCount + 1, activity := .shutdown }
      else deliverChain n e { s with freeCount := s.freeCount + 1 } := by
  refine (deliverChain_raised (n := n) (u := { s with freeCount := s.freeCount + 1 }) rfl h).trans ?_
  exact if_congr ⟨fun h => h.2, fun h => ⟨rfl, h⟩⟩ rfl rfl

theorem deliver_fault (hk : e.kind = .fault)
    (h : deliverOnce e true s.rip { s with cr2 := e.cr2.getD s.cr2 } = .ok ((), t)) :
    deliverChain (n + 1) e s = .next t := by
  refine deliverChain_ok ?_
  have hext : e.ext = true := by rw [Event.ext, hk]; rfl
  have hne : e.kind ≠ .abort := by rw [hk]; decide
  have hnsw : e.kind ≠ .software := by rw [hk]; decide
  rw [if_neg hne, State.withCr2_eq, savedRip_of_ne_abort hne, if_neg hnsw, hext]
  exact h

end

/-! ### Software interrupts and UD2 (R345 to R347, R800, R804) -/

theorem exec_into (h : s.is64 = false) (ho : s.flag fOF = true) : exec .into s = deliver (softInt 4) s := by
  refine runSeq_raise (m := intoForm) ?_
  unfold intoForm
  rw [M.bind_of_ok (invalid64_ok h), readS_bind, ho, raiseIf_true]

end Sys2Proof.Machine

namespace Sys2Proof

open Sys2Proof.Machine

/-- Settles O20: the events, a delivery that enters its handler, and what a delivery raises. -/
theorem entryLong : Obligations.EntryLong := by
  unfold Obligations.EntryLong
  refine ⟨?events, fun ev s t hk h => ?entered, fun ev e s hk => ?raised⟩
  case events =>
    refine ⟨?_, rfl, rfl, rfl, rfl, rfl, fun _ => rfl, fun _ _ => rfl, fun sel ext => ?_⟩
    · simp only [List.forall_mem_cons]
      exact ⟨rfl, rfl, rfl, rfl, rfl, rfl, fun _ h => absurd h List.not_mem_nil⟩
    · rw [← selCode_eq_ite]
      simp only [List.forall_mem_cons]
      exact ⟨rfl, rfl, rfl, rfl, fun _ h => absurd h List.not_mem_nil⟩
  case entered =>
    have run : deliver ev s = .next t := deliver_entered hk h 5
    refine ⟨run, ?_, ?_, ?_, ?_⟩
    · rintro n rfl; exact run
    · rintro rfl; exact run
    · rintro rfl h6 ho; exact (exec_into h6 ho).trans run
    · rintro rfl; exact ⟨run, run⟩
  case raised =>
    intro s1 s2 h contributes double s3 saved
    have run := deliver_raised hk h
    have hs2 : s1.withCr2 e = s2 := s1.withCr2_eq e
    refine ⟨fun hd => ?_, fun hd hf t ht => ?_⟩
    · rw [if_pos ((makesDouble_iff ev e).mpr hd)] at run
      refine ⟨fun t ht => run.trans ?_, fun f hf => ?_⟩
      · rw [hs2]; exact deliver_double ht
      have run' := run.trans ((congrArg _ hs2).trans (deliver_double_raised (n := 4) hf))
      have shuts : (contributory f.vector || f.vector == 14) = true ↔ contributes f.vector ∨ f.vector.toNat = 14 := by
        rw [Bool.or_eq_true, contributory_iff, pageFault_iff]
      refine ⟨fun h => run'.trans (if_pos (shuts.mpr h)), fun h hk t ht => ?_⟩
      exact (run'.trans (if_neg (mt shuts.mp h))).trans (deliver_fault hk ht)
    · rw [if_neg (mt (makesDouble_iff ev e).mp hd)] at run
      have hne : e.kind ≠ .abort := by rw [hf]; decide
      have hnsw : e.kind ≠ .software := by rw [hf]; decide
      refine run.trans (deliver_entered hne ?_ 4)
      rw [if_neg hnsw]
      exact ht

end Sys2Proof
end

