-- ==== Sys2Proof/Proofs/PageWalks.lean ====
section
/-! SUPPORT. Numbers in memory byte by byte, the flags that a paging walk sets, and every walk as the entries of its path:
the first bad one faults, then the combined protection, else the page is reached and the entries are marked. -/

namespace Sys2Proof.Machine

open Sys2Proof

variable {s t u : State}

/-! ### Numbers in memory, byte by byte (R100) -/

/-- The bytes of a span, the lowest first. -/
theorem spanGet_byte (m : List Host.Cell) (sp : Span) {j n k : Nat} (hk : k < n) :
    spanGet m sp j n / 256 ^ k % 256 = (memGet m (sp.addr (j + k))).toNat := by
  induction n generalizing j k with
  | zero => omega
  | succ n ih =>
    have hfirst := (memGet m (sp.addr j)).isLt
    show ((memGet m (sp.addr j)).toNat + 256 * spanGet m sp (j + 1) n) / 256 ^ k % 256 = _
    cases k with
    | zero =>
      rw [Nat.pow_zero, Nat.div_one]
      show _ = (memGet m (sp.addr j)).toNat
      omega
    | succ k =>
      have rest : ((memGet m (sp.addr j)).toNat + 256 * spanGet m sp (j + 1) n) / 256 = spanGet m sp (j + 1) n := by omega
      rw [Nat.pow_succ', ← Nat.div_div_eq_div_mul, rest, ih (by omega), Nat.add_right_comm, Nat.add_assoc j]

/-- A number in physical memory is one in a span that begins there. -/
theorem readPhysLE_eq_spanGet (m : List Host.Cell) (a j n : Nat) :
    readPhysLE m (a + j) n = spanGet m { first := a, rest := 0, split := j + n } j n := by
  induction n generalizing j with
  | zero => rfl
  | succ n ih =>
    have haddr : Span.addr { first := a, rest := 0, split := j + (n + 1) } j = a + j := if_pos (by omega : j < j + (n + 1))
    show (memGet m (a + j)).toNat + 256 * readPhysLE m (a + (j + 1)) n = _
    rw [ih, Nat.add_right_comm j 1 n, spanGet, haddr]
    rfl

theorem readPhysLE_lt (m : List Host.Cell) (a n : Nat) : readPhysLE m a n < 256 ^ n := by
  have := readPhysLE_eq_spanGet m a 0 n
  rw [Nat.add_zero] at this
  rw [this]
  exact spanGet_lt ..

theorem readPhysLE_byte (m : List Host.Cell) (a : Nat) {n k : Nat} (hk : k < n) :
    readPhysLE m a n / 256 ^ k % 256 = (memGet m (a + k)).toNat := by
  have := readPhysLE_eq_spanGet m a 0 n
  rw [Nat.add_zero] at this
  rw [this, spanGet_byte _ _ hk, Span.addr, if_pos (by dsimp only; omega), Nat.zero_add k]

/-- A store by physical address sets its bytes and leaves the others. -/
theorem memGet_writePhysLE {m : List Host.Cell} (h : Memory.wf m = true) (a n v b : Nat) :
    memGet (writePhysLE m a n v) b = if a ≤ b ∧ b < a + n then BitVec.ofNat 8 (v / 256 ^ (b - a)) else memGet m b := by
  split
  case isFalse hb => exact memGet_writePhysLE_outside h (by omega)
  case isTrue hb =>
    induction n generalizing m a v with
    | zero => omega
    | succ n ih =>
      have hm := Memory.wf_memSet h a (BitVec.ofNat 8 v)
      show memGet (writePhysLE (memSet m a (BitVec.ofNat 8 v)) (a + 1) n (v / 256)) b = _
      by_cases hba : b = a
      · subst hba
        rw [memGet_writePhysLE_outside hm (by omega), memGet_memSet_self h, Nat.sub_self, Nat.pow_zero, Nat.div_one]
      · rw [ih hm _ _ (by omega), Nat.div_div_eq_div_mul, ← Nat.pow_succ', show (b - (a + 1)).succ = b - a by omega]

/-- Bit `8 k + i` of an entry is bit `i` of its byte `k`. -/
theorem State.entryAt_getLsbD (s : State) (a : Nat) {n k i : Nat} (hn : n ≤ 8) (hk : k < n) (hi : i < 8) :
    (s.entryAt a n).getLsbD (8 * k + i) = (s.byteAt (a + k)).getLsbD i := by
  have hbyte : (readPhysLE s.mem a n / 256 ^ k % 256).testBit i = (memGet s.mem (a + k)).toNat.testBit i :=
    congrArg (Nat.testBit · i) (readPhysLE_byte s.mem a hk)
  have h256 : (256 : Nat) ^ k = 2 ^ (8 * k) := by rw [Nat.pow_mul]
  rw [h256, show (256 : Nat) = 2 ^ 8 from rfl, Nat.testBit_mod_two_pow, decide_eq_true hi, Bool.true_and,
    Nat.testBit_div_two_pow, BitVec.testBit_toNat] at hbyte
  rw [State.entryAt, BitVec.getLsbD_ofNat, decide_eq_true (by omega), Bool.true_and, Nat.add_comm, hbyte]
  rfl

/-! ### Marking an entry (R146) -/

/-- The state after flags have been set in an entry of `n` bytes. -/
def State.mark (s : State) (a n : Nat) (flags : Word) : State :=
  if s.entryAt a n &&& flags == flags then s
  else { s with mem := writePhysLE s.mem a n (s.entryAt a n ||| flags).toNat }

theorem markEntry_eq (a n : Nat) (flags : Word) (s : State) : markEntry a n flags s = .ok ((), s.mark a n flags) := by
  have start : markEntry a n flags s =
      (if s.entryAt a n &&& flags == flags then pure () else physWrite a n (s.entryAt a n ||| flags).toNat : M Unit) s := rfl
  rw [start, State.mark]
  split <;> rfl

section
variable {a n : Nat} {flags : Word}

theorem State.mark_onlyMem : s.mark a n flags = { s with mem := (s.mark a n flags).mem } := by
  unfold State.mark; split <;> rfl

theorem State.mark_memOk (h : s.memOk = true) : (s.mark a n flags).memOk = true := by
  unfold State.mark
  split
  · exact h
  · exact Memory.wf_writePhysLE h ..

/-- Marking an entry sets its flags, which lie in its lowest byte, and changes no other byte. -/
theorem State.mark_byteAt (h : s.memOk = true) (hn : 0 < n) (hn8 : n ≤ 8) (hf : flags.toNat < 256) (b : Nat) :
    (s.mark a n flags).byteAt b = if a = b then s.byteAt b ||| flags.setWidth 8 else s.byteAt b := by
  have high {k i : Nat} (hk : 0 < k) : flags.getLsbD (8 * k + i) = false := by
    rw [← BitVec.testBit_toNat]
    refine Nat.testBit_lt_two_pow (hf.trans_le ?_)
    exact Nat.pow_le_pow_right (by decide : 0 < 2) (by omega : 8 ≤ 8 * k + i)
  unfold State.mark
  split
  · next hset =>
    split
    · next hab =>
      subst hab
      apply BitVec.eq_of_getLsbD_eq
      intro i hi
      have hbit := congrArg (·.getLsbD i) (beq_iff_eq.mp hset)
      have hbyte := s.entryAt_getLsbD a hn8 hn hi
      rw [Nat.mul_zero, Nat.zero_add] at hbyte
      rw [BitVec.getLsbD_and, hbyte] at hbit
      rw [BitVec.getLsbD_or, BitVec.getLsbD_setWidth, decide_eq_true hi, Bool.true_and, ← hbit]
      cases s.byteAt a |>.getLsbD i <;> rfl
    · rfl
  · show memGet (writePhysLE s.mem a n (s.entryAt a n ||| flags).toNat) b = _
    rw [memGet_writePhysLE h]
    split
    · next hb =>
      obtain ⟨k, rfl⟩ := Nat.exists_eq_add_of_le hb.1
      have hk : k < n := by omega
      apply BitVec.eq_of_getLsbD_eq
      intro i hi
      have h256 : (256 : Nat) ^ k = 2 ^ (8 * k) := by rw [Nat.pow_mul]
      rw [Nat.add_sub_cancel_left, BitVec.getLsbD_ofNat, decide_eq_true hi, Bool.true_and, h256, Nat.testBit_div_two_pow,
        Nat.add_comm i, BitVec.testBit_toNat, BitVec.getLsbD_or, s.entryAt_getLsbD a hn8 hk hi]
      split
      · next hak =>
        obtain rfl : k = 0 := by omega
        rw [Nat.mul_zero, Nat.zero_add, BitVec.getLsbD_or, BitVec.getLsbD_setWidth, decide_eq_true hi, Bool.true_and]
      · next hak => rw [high (by omega), Bool.or_false]
    · next hb => rw [if_neg (by omega)]; rfl

end

/-- The flags that a walk sets in an entry, as the model writes them. -/
def PageEntry.flags (p : PageEntry) (write : Bool) : Word := if p.leaf && write then 0x60 else 0x20

/-- The state after all entries of a list that carry flags have been marked. -/
def State.markAll (s : State) (n : Nat) (write : Bool) : List PageEntry → State
  | [] => s
  | p :: l => (if p.guards then s.mark p.addr n (p.flags write) else s).markAll n write l

section
variable {n : Nat} {write : Bool}

/-- The flags that one entry leaves in the byte at `a`. -/
def markByte (write : Bool) (a : Nat) (b : Byte) (p : PageEntry) : Byte := if p.addr = a then b ||| p.marks write else b

theorem State.markAll_append (s : State) (l l' : List PageEntry) :
    s.markAll n write (l ++ l') = (s.markAll n write l).markAll n write l' := by
  induction l generalizing s with
  | nil => rfl
  | cons p l ih => exact ih _

theorem State.markAll_onlyMem (s : State) (l : List PageEntry) :
    s.markAll n write l = { s with mem := (s.markAll n write l).mem } := by
  induction l generalizing s with
  | nil => rfl
  | cons p l ih =>
    refine onlyMem_trans ?_ (ih _)
    split
    · exact State.mark_onlyMem
    · rfl

theorem State.markAll_memOk (h : s.memOk = true) (l : List PageEntry) : (s.markAll n write l).memOk = true := by
  induction l generalizing s with
  | nil => exact h
  | cons p l ih =>
    refine ih ?_
    split
    · exact State.mark_memOk h
    · exact h

/-- What marking a list of entries leaves in each byte. -/
theorem State.markAll_byteAt (h : s.memOk = true) (hn : 0 < n) (hn8 : n ≤ 8) (l : List PageEntry) (a : Nat) :
    (s.markAll n write l).byteAt a = l.foldl (markByte write a) (s.byteAt a) := by
  induction l generalizing s with
  | nil => rfl
  | cons p l ih =>
    have first : (if p.guards then s.mark p.addr n (p.flags write) else s).byteAt a = markByte write a (s.byteAt a) p := by
      unfold markByte PageEntry.marks
      cases hg : p.guards
      · simp
      · have hf : (p.flags write).toNat < 256 := by unfold PageEntry.flags; split <;> decide
        have hm : (p.flags write).setWidth 8 = if p.leaf && write then 0x60 else 0x20 := by
          unfold PageEntry.flags; split <;> rfl
        rw [if_pos rfl, State.mark_byteAt h hn hn8 hf, hm]
        rfl
    rw [List.foldl_cons, ← first]
    refine ih ?_
    split
    · exact State.mark_memOk h
    · exact h

/-- The order in which entries are marked does not matter. -/
theorem markByte_comm (a : Nat) (b : Byte) (p q : PageEntry) :
    markByte write a (markByte write a b p) q = markByte write a (markByte write a b q) p := by
  unfold markByte
  split <;> split <;> simp only [BitVec.or_assoc, BitVec.or_comm (p.marks write)]

theorem foldl_markByte_perm {l l' : List PageEntry} (h : l.Perm l') (a : Nat) (b : Byte) :
    l.foldl (markByte write a) b = l'.foldl (markByte write a) b :=
  h.foldl_eq' (fun p _ q _ z => markByte_comm a z p q) b

end

end Sys2Proof.Machine
end

