-- ==== Sys2Proof/Proofs/Translation.lean ====
section
/-! SUPPORT. Every paging walk as the entries of its path: the first bad one faults, then the combined protection, else the
page is reached and the entries are marked. -/

namespace Sys2Proof.Machine

open Sys2Proof

variable {s t u : State} {la : Word} {pu : Purpose}

/-! ### How a walk ends (R143 to R145) -/

/-- An entry that is not present or has a checked reserved bit set (R144). -/
def PageEntry.bad (p : PageEntry) : Bool := !p.value.getLsbD 0 || p.value &&& p.checked != 0

/-- Whether the entries of a list leave a flag on, of those that carry it. -/
def allSet (i : Nat) (l : List PageEntry) : Bool := l.all fun p => !p.guards || p.value.getLsbD i

/-- Whether protection denies an access: `us` and `rw` are the combined flags of the levels above the list (R143). -/
def denied (pu : Purpose) (wp us rw : Bool) (l : List PageEntry) : Bool :=
  (pu.user && !(us && allSet 2 l)) || (pu.write && !(rw && allSet 1 l) && (pu.user || wp))

/-- How a walk through the entries of a list ends: at the first bad one, by the protection, or with `done`. -/
def walkEnds {α : Type} (la : Word) (pu : Purpose) (wp us rw : Bool) (l : List PageEntry) (done : Except Stop α) :
    Except Stop α :=
  match l.find? PageEntry.bad with
  | some p => .error (.raised (pageFault la pu (p.value.getLsbD 0) (p.value.getLsbD 0)))
  | none => if denied pu wp us rw l then .error (.raised (pageFault la pu true false)) else done

section
variable {α β : Type} {wp us rw : Bool} {l : List PageEntry}

/-- The first entry stops the walk, or its flags join those of the levels above. -/
theorem walkEnds_cons (p : PageEntry) (done : Except Stop α) : walkEnds la pu wp us rw (p :: l) done =
    if p.bad then .error (.raised (pageFault la pu (p.value.getLsbD 0) (p.value.getLsbD 0)))
    else walkEnds la pu wp (us && (!p.guards || p.value.getLsbD 2)) (rw && (!p.guards || p.value.getLsbD 1)) l done := by
  unfold walkEnds
  rw [List.find?_cons]
  cases p.bad
  · have split : denied pu wp us rw (p :: l) =
        denied pu wp (us && (!p.guards || p.value.getLsbD 2)) (rw && (!p.guards || p.value.getLsbD 1)) l := by
      simp only [denied, allSet, List.all_cons, Bool.and_assoc]
    rw [split]
    rfl
  · rfl

/-- What follows a walk follows its good end only. -/
theorem walkEnds_bind {m : M α} {f : α → M β} {a : α} (h : m s = walkEnds la pu wp us rw l (.ok (a, t))) :
    (m >>= f) s = walkEnds la pu wp us rw l (f a t) := by
  rw [M.bind_apply, h]
  unfold walkEnds
  cases l.find? PageEntry.bad with
  | some p => rfl
  | none => dsimp only; cases denied pu wp us rw l <;> rfl

/-- Reading an entry of a path: it stops the walk where it is bad (R141, R144). -/
theorem readEntry_bind {a n : Nat} {r : Word → Word} {c : Word} {g : Word → M β} (guards leaf : Bool)
    (hr : r (s.entryAt a n) = c) : (readEntry la pu a n r >>= g) s =
      if (PageEntry.mk a (s.entryAt a n) c guards leaf).bad then
        .error (.raised (pageFault la pu ((s.entryAt a n).getLsbD 0) ((s.entryAt a n).getLsbD 0)))
      else g (s.entryAt a n) s := by
  have read : readEntry la pu a n r s = (do
      raiseIf (!(s.entryAt a n).getLsbD 0) (pageFault la pu false false)
      raiseIf (s.entryAt a n &&& r (s.entryAt a n) != 0) (pageFault la pu true true)
      pure (s.entryAt a n) : M Word) s := rfl
  rw [M.bind_apply, read, hr, PageEntry.bad, M.check_bind, M.check_bind]
  cases (s.entryAt a n).getLsbD 0
  · rfl
  · cases s.entryAt a n &&& c != 0 <;> rfl

/-- The protection check ends the walk (R143). -/
theorem checkPage_bind {g : Unit → M β} :
    (checkPage la pu us rw >>= g) s = walkEnds la pu s.wp us rw [] (g () s) := by
  have check : checkPage la pu us rw s =
      raiseIf (pu.user && !us || pu.write && !rw && (pu.user || s.wp)) (pageFault la pu true false) s := rfl
  have hd : denied pu s.wp us rw [] = (pu.user && !us || pu.write && !rw && (pu.user || s.wp)) := by
    simp only [denied, allSet, List.all_nil, Bool.and_true]
  rw [M.bind_apply, check, walkEnds, List.find?_nil, hd]
  cases pu.user && !us || pu.write && !rw && (pu.user || s.wp) <;> rfl

theorem markEntry_bind {a n : Nat} {flags : Word} {g : Unit → M β} :
    (markEntry a n flags >>= g) s = g () (s.mark a n flags) := M.bind_of_ok (markEntry_eq a n flags s)

end

/-! ### Addresses and reserved bits in numbers (R136 to R144) -/

theorem extract_toNat {w : Nat} (x : BitVec w) (lo n : Nat) : (x.extractLsb' lo n).toNat = x.toNat / 2 ^ lo % 2 ^ n := by
  rw [BitVec.extractLsb'_toNat, Nat.shiftRight_eq_div_pow]

theorem tableIndex_eq (la : Word) (lo : Nat) : tableIndex la lo = la.toNat / 2 ^ lo % 512 := extract_toNat la lo 9

theorem entryBase_eq_entryTable (e : Word) : entryBase e = entryTable e := entryBase_eq e

theorem largePage_eq (e la : Word) :
    (e.extractLsb' 21 (Config.paBits - 21)).toNat * 0x200000 + (la.extractLsb' 0 21).toNat =
      e.toNat % 2 ^ 40 / 2 ^ 21 * 2 ^ 21 + la.toNat % 2 ^ 21 := by
  have h : (e.extractLsb' 21 (Config.paBits - 21)).toNat = e.toNat / 2 ^ 21 % 2 ^ 19 := extract_toNat e 21 19
  rw [h, extract_toNat]
  omega

theorem pageOffset_eq (la : Word) : (la.extractLsb' 0 12).toNat = la.toNat % 4096 := by
  rw [extract_toNat, Nat.pow_zero, Nat.div_one]
  rfl

/-- The reserved bits of a page-directory entry, with those of a 2-MByte page apart (R144). -/
theorem rsvdPde64_or (e : Word) :
    rsvdPde64 e = if e.getLsbD 7 then 0x800FFF0000000000 ||| 0x1FE000 else 0x800FFF0000000000 := by
  rw [rsvdPde64_eq, show (0x800FFF0000000000 ||| 0x1FE000 : Word) = 0x800FFF00001FE000 by decide]

theorem rsvdPaePde_or (e : Word) :
    rsvdPaePde e = if e.getLsbD 7 then 0xFFFFFF0000000000 ||| 0x1FE000 else 0xFFFFFF0000000000 := by
  rw [rsvdPaePde_eq, show (0xFFFFFF0000000000 ||| 0x1FE000 : Word) = 0xFFFFFF00001FE000 by decide]

/-- The reserved bit of a legacy page-directory entry: bit 21 of a 4-MByte page (R144). -/
def pdeReserved (pse : Bool) (e : Word) : Word := if pse && e.getLsbD 7 then 0x200000 else 0

theorem pdeReserved_eq (pse : Bool) :
    (fun e => if pse && e.getLsbD 7 then bitRange 21 (Config.paBits - 19) else 0) = pdeReserved pse := by
  rw [bitRange_psePage]
  rfl

/-! ### The walks (R135, R137 to R141, R147) -/

/-- The entries of an IA-32e or PAE walk from the page directory on. -/
theorem walkDirectory_eq {r1 r2 : Word → Word} {high : Word} (dir : Nat) (us rw : Bool)
    (h1 : ∀ e, r1 e = if e.getLsbD 7 then high ||| 0x1FE000 else high) (h2 : ∀ e, r2 e = high) :
    walkDirectory la pu r1 r2 dir us rw s = walkEnds la pu s.wp us rw (s.directoryPath la dir high).1
      (.ok ((s.directoryPath la dir high).2, s.markAll 8 pu.write (s.directoryPath la dir high).1)) := by
  unfold walkDirectory State.directoryPath
  dsimp only
  rw [tableIndex_eq, tableIndex_eq]
  cases h7 : (s.entryAt (dir + 8 * (la.toNat / 2 ^ 21 % 512)) 8).getLsbD 7
  · rw [readEntry_bind true false ((h1 _).trans (if_neg (by rw [h7]; exact Bool.false_ne_true))), h7]
    simp only [Bool.false_eq_true, if_false]
    rw [walkEnds_cons, entryBase_eq_entryTable, readEntry_bind true true (h2 _), walkEnds_cons, checkPage_bind,
      entryBase_eq_entryTable, pageOffset_eq, markEntry_bind, markEntry_bind]
    rfl
  · rw [readEntry_bind true true ((h1 _).trans (if_pos h7)), h7]
    simp only [if_true]
    rw [walkEnds_cons, checkPage_bind, largePage_eq, markEntry_bind]
    rfl

/-- The four-level walk: the entries of its path, of which the first two are marked last. -/
theorem walk64_eq (h : s.lma = true) : ∃ l, l.Perm (s.pagePath la).1 ∧ walk64 la pu s =
    walkEnds la pu s.wp true true (s.pagePath la).1 (.ok ((s.pagePath la).2, s.markAll 8 pu.write l)) := by
  unfold State.pagePath
  rw [if_pos h]
  dsimp only
  refine ⟨_, List.perm_append_comm (l₁ := (s.directoryPath la _ _).1) (l₂ := [_, _]), ?_⟩
  unfold walk64
  rw [readS_bind, entryBase_eq_entryTable, tableIndex_eq, tableIndex_eq, readEntry_bind (r := rsvd64) true false (rsvd64_eq _),
    entryBase_eq_entryTable, readEntry_bind (r := rsvd64) true false (rsvd64_eq _), entryBase_eq_entryTable,
    walkEnds_bind (walkDirectory_eq (high := 0x800FFF0000000000) _ _ _ rsvdPde64_or rsvd64_eq), markEntry_bind,
    markEntry_bind, walkEnds_cons, walkEnds_cons, State.markAll_append]
  rfl

/-- The walk of legacy PAE paging: its first entry carries no flags (R147). -/
theorem walkPae_eq (h : s.lma = false) (hp : s.pae = true) : walkPae la pu s =
    walkEnds la pu s.wp true true (s.pagePath la).1
      (.ok ((s.pagePath la).2, s.markAll 8 pu.write (s.pagePath la).1)) := by
  have root : (s.cr3.extractLsb' 5 27).toNat * 32 = s.cr3.toNat % 2 ^ 32 / 32 * 32 := by rw [extract_toNat]; omega
  have index : (la.extractLsb' 30 2).toNat = la.toNat / 2 ^ 30 % 4 := extract_toNat la 30 2
  unfold State.pagePath
  rw [h, if_neg Bool.false_ne_true, if_pos hp]
  dsimp only
  unfold walkPae
  rw [readS_bind, root, index, readEntry_bind (r := rsvdPaePdpte) false false (rsvdPaePdpte_eq _), entryBase_eq_entryTable,
    walkDirectory_eq (high := 0xFFFFFF0000000000) _ _ _ rsvdPaePde_or rsvdPae_eq, walkEnds_cons]
  rfl

/-- An entry of four bytes has no more than 32 bits. -/
theorem State.entryAt_four_lt (s : State) (a : Nat) : (s.entryAt a 4).toNat < 2 ^ 32 := by
  have := readPhysLE_lt s.mem a 4
  rw [State.entryAt, BitVec.toNat_ofNat]
  omega

section
variable {e : Word} (he : e.toNat < 2 ^ 32)
include he

theorem legacyTable_eq : (e.extractLsb' 12 20).toNat * 4096 = e.toNat / 4096 * 4096 := by
  rw [extract_toNat]
  omega

/-- A 4-MByte page with its extension to 40 bits (R147). -/
theorem legacyLargePage_eq (la : Word) :
    (e.extractLsb' 13 (Config.paBits - 32) ++ e.extractLsb' 22 10 ++ la.extractLsb' 0 22).toNat =
      e.toNat / 2 ^ 13 % 256 * 2 ^ 32 + e.toNat / 2 ^ 22 * 2 ^ 22 + la.toNat % 2 ^ 22 := by
  have high : (e.extractLsb' 13 (Config.paBits - 32)).toNat = e.toNat / 2 ^ 13 % 256 := extract_toNat e 13 8
  rw [append_toNat, append_toNat, high, extract_toNat, extract_toNat]
  omega

end

/-- The walk of legacy paging without PAE (R147). -/
theorem walkLegacy_eq (h : s.lma = false) (hp : s.pae = false) : walkLegacy la pu s =
    walkEnds la pu s.wp true true (s.pagePath la).1
      (.ok ((s.pagePath la).2, s.markAll 4 pu.write (s.pagePath la).1)) := by
  have root : (s.cr3.extractLsb' 12 20).toNat * 4096 = s.cr3.toNat % 2 ^ 32 / 4096 * 4096 := by rw [extract_toNat]; omega
  have index (lo : Nat) : (la.extractLsb' lo 10).toNat = la.toNat / 2 ^ lo % 1024 := extract_toNat la lo 10
  unfold State.pagePath
  rw [h, if_neg Bool.false_ne_true, hp, if_neg Bool.false_ne_true]
  dsimp only
  unfold walkLegacy
  rw [readS_bind, readS_bind, root, index, pdeReserved_eq]
  cases h7 : s.cr4.getLsbD 4 && (s.entryAt (s.cr3.toNat % 2 ^ 32 / 4096 * 4096 + 4 * (la.toNat / 2 ^ 22 % 1024)) 4).getLsbD 7
  · rw [readEntry_bind (r := pdeReserved _) (c := 0) true false (if_neg (by rw [h7]; exact Bool.false_ne_true)), h7]
    simp only [Bool.false_eq_true, if_false]
    rw [walkEnds_cons, legacyTable_eq (s.entryAt_four_lt _), index, readEntry_bind true true rfl, walkEnds_cons, checkPage_bind,
      legacyTable_eq (s.entryAt_four_lt _), pageOffset_eq, markEntry_bind, markEntry_bind]
    rfl
  · rw [readEntry_bind (r := pdeReserved _) (c := 0x200000) true true (if_pos h7), h7]
    simp only [if_true]
    rw [walkEnds_cons, checkPage_bind, legacyLargePage_eq (s.entryAt_four_lt _), markEntry_bind]
    rfl

/-- With paging a linear address is translated through the entries of its path, which are marked in some order. -/
theorem translate_paged (h : s.pg = true) : ∃ n l, 0 < n ∧ n ≤ 8 ∧ l.Perm (s.pagePath la).1 ∧ translate la pu s =
    walkEnds la pu s.wp true true (s.pagePath la).1 (.ok ((s.pagePath la).2, s.markAll n pu.write l)) := by
  unfold translate
  rw [readS_bind, id, h, Bool.not_true, if_neg Bool.false_ne_true]
  cases hl : s.lma
  · rw [if_neg Bool.false_ne_true]
    cases hp : s.cr4.getLsbD 5
    · exact ⟨4, _, by decide, by decide, .refl _, walkLegacy_eq hl hp⟩
    · exact ⟨8, _, by decide, by decide, .refl _, walkPae_eq hl hp⟩
  · obtain ⟨l, hperm, hw⟩ := walk64_eq (la := la) (pu := pu) hl
    exact ⟨8, l, by decide, by decide, hperm, hw⟩

/-! ### What a translation leaves (R146) -/

/-- The page fault with its error code in numbers (R145). -/
theorem pageFault_eq (la : Word) (write user present reserved : Bool) : pageFault la ⟨write, user⟩ present reserved =
    { vector := 14, kind := .fault, code := some (faultCode present write user reserved), cr2 := some la } := by
  have code : ((if present then 1 else 0) ||| (if write then 2 else 0) ||| (if user then 4 else 0) |||
      (if reserved then 8 else 0) : BitVec 32) = faultCode present write user reserved := by
    revert present write user reserved
    decide
  rw [pageFault, code]

/-- With paging: the fault of the first bad entry or of the protection, or the page with its entries marked. -/
theorem translate_cases (hm : s.memOk = true) (h : s.pg = true) :
    match (s.pagePath la).1.find? PageEntry.bad with
    | some p => translate la pu s = .error (.raised (pageFault la pu (p.value.getLsbD 0) (p.value.getLsbD 0)))
    | none => if denied pu s.wp true true (s.pagePath la).1
      then translate la pu s = .error (.raised (pageFault la pu true false))
      else ∃ t, translate la pu s = .ok ((s.pagePath la).2, t) ∧ t = { s with mem := t.mem } ∧ t.memOk = true ∧
        ∀ a, t.byteAt a = (s.pagePath la).1.foldl (markByte pu.write a) (s.byteAt a) := by
  obtain ⟨n, l, h0, h8, hperm, run⟩ := translate_paged (la := la) (pu := pu) h
  unfold walkEnds at run
  cases hf : (s.pagePath la).1.find? PageEntry.bad with
  | some p => rw [hf] at run; exact run
  | none =>
    rw [hf] at run
    dsimp only at run ⊢
    split
    · next hd => rw [if_pos hd] at run; exact run
    · next hd =>
      rw [if_neg hd] at run
      refine ⟨_, run, s.markAll_onlyMem l, State.markAll_memOk hm l, fun a => ?_⟩
      rw [State.markAll_byteAt hm h0 h8, foldl_markByte_perm hperm]

/-- From `s` to `t` memory has gained accessed and dirty flags at most. -/
def State.FlagsOnly (s t : State) : Prop := ∀ a, ∃ m : Byte, m &&& ~~~0x60 = 0 ∧ t.byteAt a = s.byteAt a ||| m

theorem State.FlagsOnly.refl (s : State) : s.FlagsOnly s := fun _ => ⟨0, rfl, BitVec.or_zero.symm⟩

theorem State.FlagsOnly.trans (h : s.FlagsOnly t) (h' : t.FlagsOnly u) : s.FlagsOnly u := fun a => by
  obtain ⟨m, hm, ht⟩ := h a
  obtain ⟨m', hm', hu⟩ := h' a
  exact ⟨m ||| m', by rw [BitVec.and_or_distrib_right, hm, hm']; rfl, by rw [hu, ht, BitVec.or_assoc]⟩

/-- Bytes with more flags: the others stay, and none is cleared. -/
theorem State.FlagsOnly.bytes (h : s.FlagsOnly t) (a : Nat) :
    t.byteAt a &&& ~~~0x60 = s.byteAt a &&& ~~~0x60 ∧ s.byteAt a &&& t.byteAt a = s.byteAt a := by
  obtain ⟨m, hm, ht⟩ := h a
  rw [ht]
  refine ⟨by rw [BitVec.and_or_distrib_right, hm]; exact BitVec.or_zero, BitVec.eq_of_getLsbD_eq fun i _ => ?_⟩
  rw [BitVec.getLsbD_and, BitVec.getLsbD_or]
  cases (s.byteAt a).getLsbD i <;> rfl

/-- Marking entries sets accessed and dirty flags only. -/
theorem foldl_markByte_flags (write : Bool) (l : List PageEntry) (a : Nat) (b : Byte) :
    ∃ m : Byte, m &&& ~~~0x60 = 0 ∧ l.foldl (markByte write a) b = b ||| m := by
  induction l generalizing b with
  | nil => exact ⟨0, rfl, BitVec.or_zero.symm⟩
  | cons p l ih =>
    obtain ⟨m, hm, hl⟩ := ih (markByte write a b p)
    rw [List.foldl_cons, hl, markByte]
    split
    · refine ⟨p.marks write ||| m, ?_, BitVec.or_assoc ..⟩
      have hp : p.marks write &&& ~~~0x60 = 0 := by
        unfold PageEntry.marks
        split
        · rfl
        · split <;> decide
      rw [BitVec.and_or_distrib_right, hp, hm]
      rfl
    · exact ⟨m, hm, rfl⟩

theorem translate_memOk {a : Nat} (hm : s.memOk = true) (h : translate la pu s = .ok (a, t)) : t.memOk = true :=
  (translate_keeps memOk_regStable.toMemStable la pu).of_ok hm h

theorem translate_flagsOnly {a : Nat} (hm : s.memOk = true) (h : translate la pu s = .ok (a, t)) : s.FlagsOnly t := by
  cases hpg : s.pg
  · rw [translate_flat hpg] at h
    cases h
    exact .refl s
  · have ends := translate_cases (la := la) (pu := pu) hm hpg
    split at ends
    · rw [ends] at h; cases h
    · split at ends
      · rw [ends] at h; cases h
      · obtain ⟨u, hu, -, -, hbytes⟩ := ends
        rw [hu] at h
        cases h
        intro b
        rw [hbytes]
        exact foldl_markByte_flags ..

end Sys2Proof.Machine
end

