-- ==== Sys2Proof/Proofs/Accesses.lean ====
section
/-! SUPPORT. Effective and linear addresses in numbers, the spans of an access, and the access pipeline check by check. -/

namespace Sys2Proof.Machine

open Sys2Proof

variable {s t u : State} {la : Word} {pu : Purpose}

/-! ### Addresses (R110 to R117) -/

/-- The number of addresses of an address size (R111). -/
def asizeSpace : ASize → Nat
  | .a16 => 2 ^ 16
  | .a32 => 2 ^ 32
  | .a64 => 2 ^ 64

theorem asizeTrunc_toNat (asz : ASize) (a : Word) : (asizeTrunc asz a).toNat = a.toNat % asizeSpace asz := by
  cases asz with
  | a16 => exact (BitVec.toNat_and ..).trans (Nat.and_two_pow_sub_one_eq_mod _ 16)
  | a32 => exact (BitVec.toNat_and ..).trans (Nat.and_two_pow_sub_one_eq_mod _ 32)
  | a64 => exact (Nat.mod_eq_of_lt a.isLt).symm

theorem asizeSpace_dvd (asz : ASize) : asizeSpace asz ∣ 2 ^ 64 := by cases asz <;> decide

/-- A truncated sum, one of whose terms is itself known modulo 2^64. -/
theorem asizeTrunc_sum_toNat (asz : ASize) (base index disp : Word) {x : Nat} (hx : index.toNat = x % 2 ^ 64) :
    (asizeTrunc asz (base + index + disp)).toNat = (base.toNat + x + disp.toNat) % asizeSpace asz := by
  have sum : (base + index + disp).toNat = (base.toNat + x + disp.toNat) % 2 ^ 64 := by
    rw [BitVec.toNat_add, BitVec.toNat_add, hx]
    omega
  rw [asizeTrunc_toNat, sum, Nat.mod_mod_of_dvd _ (asizeSpace_dvd asz)]

/-- An effective address is a sum modulo the address size (R110 to R113). -/
theorem effAddr_toNat (s : State) (m : Mem) :
    let base := match m.base with | .none => 0 | .reg r => (s.get r).toNat | .rip => s.nextPc.toNat
    let index := match m.index with | none => 0 | some i => (s.get i.reg).toNat * 2 ^ i.scale.toNat
    (s.effAddr m).toNat = (base + index + m.disp.toNat) % asizeSpace m.asz := by
  unfold State.effAddr
  cases m.index with
  | none => cases m.base <;> exact asizeTrunc_sum_toNat _ _ _ _ rfl
  | some i =>
    have scaled : (s.get i.reg <<< i.scale.toNat).toNat = (s.get i.reg).toNat * 2 ^ i.scale.toNat % 2 ^ 64 := by
      rw [BitVec.toNat_shiftLeft, Nat.shiftLeft_eq]
    cases m.base <;> exact asizeTrunc_sum_toNat _ _ _ _ scaled

/-- A linear address adds the base of the segment, in 64-bit mode of FS and GS only (R115 to R117). -/
theorem linear_toNat (s : State) (sr : SReg) (ea : Word) : (s.linear sr ea).toNat =
    if s.is64 then ((if sr = .fs then s.fs.base.toNat else if sr = .gs then s.gs.base.toNat else 0) + ea.toNat) % 2 ^ 64
    else ((s.seg sr).base.toNat + ea.toNat) % 2 ^ 32 := by
  unfold State.linear State.segBase
  cases s.is64
  · simp only [Bool.false_eq_true, if_false]
    rw [and_low32, BitVec.toNat_ofNat, BitVec.toNat_add]
    omega
  · simp only [if_true]
    rw [BitVec.toNat_add]
    cases sr <;> rfl

/-! ### Spans (R130 step 4) -/

/-- The room that the page of an address leaves from it on. -/
def pageRoom (la : Word) : Nat := 4096 - la.toNat % 4096

/-- The address `pageRoom` further on, in a linear space of 64 bits or of 32. -/
def nextPage (wide : Bool) (la : Word) : Word :=
  if wide then la + BitVec.ofNat 64 (pageRoom la) else (la + BitVec.ofNat 64 (pageRoom la)) &&& 0xFFFFFFFF

/-- What `spanOf` answers: the first page alone, or that page and then the next. -/
theorem spanOf_eq (wide : Bool) (la : Word) (n : Nat) (pu : Purpose) (s : State) : spanOf wide la n pu s =
    match translate la pu s with
    | .error x => .error x
    | .ok (a, t) =>
      if n ≤ pageRoom la then .ok ({ first := a, rest := 0, split := n }, t)
      else match translate (nextPage wide la) pu t with
        | .error x => .error x
        | .ok (b, u) => .ok ({ first := a, rest := b, split := pageRoom la }, u) := by
  unfold spanOf
  rw [pageOffset_eq, M.bind_apply]
  cases translate la pu s with
  | error x => rfl
  | ok r =>
    have fits : la.toNat % 4096 + n ≤ 4096 ↔ n ≤ pageRoom la := by unfold pageRoom; omega
    dsimp only
    split
    · next h => rw [if_pos (fits.mp h)]; rfl
    · next h =>
      rw [if_neg (mt fits.mpr h)]
      have next : laStep wide la (4096 - la.toNat % 4096) = nextPage wide la := rfl
      rw [next, M.bind_apply]
      cases translate (nextPage wide la) pu r.2 <;> rfl

section
variable {wide : Bool} {n : Nat}

theorem spanOf_error {x : Stop} (h : translate la pu s = .error x) : spanOf wide la n pu s = .error x := by
  rw [spanOf_eq, h]

theorem spanOf_one {a : Nat} (h : translate la pu s = .ok (a, t)) (hn : n ≤ pageRoom la) :
    spanOf wide la n pu s = .ok ({ first := a, rest := 0, split := n }, t) := by
  rw [spanOf_eq, h]
  exact if_pos hn

theorem spanOf_nextError {a : Nat} {x : Stop} (h : translate la pu s = .ok (a, t)) (hn : pageRoom la < n)
    (h' : translate (nextPage wide la) pu t = .error x) : spanOf wide la n pu s = .error x := by
  rw [spanOf_eq, h]
  dsimp only
  rw [if_neg (by omega), h']

theorem spanOf_two {a b : Nat} (h : translate la pu s = .ok (a, t)) (hn : pageRoom la < n)
    (h' : translate (nextPage wide la) pu t = .ok (b, u)) :
    spanOf wide la n pu s = .ok ({ first := a, rest := b, split := pageRoom la }, u) := by
  rw [spanOf_eq, h]
  dsimp only
  rw [if_neg (by omega), h']

/-- A span that has been found comes from one translation or from two. -/
theorem spanOf_inv {sp : Span} (h : spanOf wide la n pu s = .ok (sp, u)) :
    (∃ a, translate la pu s = .ok (a, u) ∧ sp = { first := a, rest := 0, split := n }) ∨
    ∃ a t b, translate la pu s = .ok (a, t) ∧ pageRoom la < n ∧ translate (nextPage wide la) pu t = .ok (b, u) ∧
      sp = { first := a, rest := b, split := pageRoom la } := by
  cases ht : translate la pu s with
  | error x => rw [spanOf_error ht] at h; cases h
  | ok r =>
    obtain ⟨a, t⟩ := r
    by_cases hn : n ≤ pageRoom la
    · rw [spanOf_one ht hn] at h
      cases h
      exact .inl ⟨a, rfl, rfl⟩
    · replace hn : pageRoom la < n := by omega
      cases ht' : translate (nextPage wide la) pu t with
      | error x => rw [spanOf_nextError ht hn ht'] at h; cases h
      | ok r =>
        obtain ⟨b, v⟩ := r
        rw [spanOf_two ht hn ht'] at h
        cases h
        exact .inr ⟨a, t, b, rfl, hn, ht', rfl⟩

/-- Finding a span sets accessed and dirty flags at most (R146). -/
theorem spanOf_flagsOnly {sp : Span} (hm : s.memOk = true) (h : spanOf wide la n pu s = .ok (sp, u)) : s.FlagsOnly u := by
  obtain ⟨a, h, -⟩ | ⟨a, t, b, h, -, h', -⟩ := spanOf_inv h
  · exact translate_flagsOnly hm h
  · exact (translate_flagsOnly hm h).trans (translate_flagsOnly (translate_memOk hm h) h')

/-- Without paging the bytes of a short access lie apart: those of the second page, whose number may wrap to 0, are less
than a page of them. -/
theorem spanOf_flat_distinct {sp : Span} (hpg : s.pg = false) (hn : n ≤ 2048)
    (h : spanOf wide la n pu s = .ok (sp, u)) {j k : Nat} (hjk : j < k) (hk : k < n) : sp.addr j ≠ sp.addr k := by
  have low (x : Word) : (x.extractLsb' 0 32).toNat = x.toNat % 2 ^ 32 := by rw [extract_toNat, Nat.pow_zero, Nat.div_one]
  obtain ⟨a, -, rfl⟩ | ⟨a, t, b, ht, hr, ht', rfl⟩ := spanOf_inv h
  · unfold Span.addr
    dsimp only
    rw [if_pos (hjk.trans hk), if_pos hk]
    omega
  · rw [translate_flat hpg] at ht
    cases ht
    rw [translate_flat hpg] at ht'
    cases ht'
    have next : (nextPage wide la).toNat % 2 ^ 32 = (la.toNat % 2 ^ 32 + pageRoom la) % 2 ^ 32 := by
      unfold nextPage
      cases wide
      · rw [if_neg Bool.false_ne_true, and_low32, BitVec.toNat_ofNat, BitVec.toNat_add, BitVec.toNat_ofNat]
        omega
      · rw [if_pos rfl, BitVec.toNat_add, BitVec.toNat_ofNat]
        omega
    unfold Span.addr
    dsimp only
    rw [low, low, next]
    unfold pageRoom at *
    split <;> split <;> omega

end

/-! ### The access pipeline (R119, R130) -/

section
variable {sr : SReg} {ea : Word} {n : Nat} {write : Bool} {al : Align}

theorem resolve_of_segCheck_error {x : Stop} (h : segCheck sr ea n write s = .error x) :
    resolve sr ea n write al s = .error x := M.bind_of_error h

/-- An access that resolves has found its span. -/
theorem resolve_spanOf {sp : Span} (h : resolve sr ea n write al s = .ok (sp, u)) :
    spanOf s.is64 (s.linear sr ea) n (s.purpose write) s = .ok (sp, u) := by
  cases hseg : segCheck sr ea n write s with
  | error x => rw [resolve_of_segCheck_error hseg] at h; cases h
  | ok r =>
    obtain ⟨_, t⟩ := r
    obtain rfl : t = s := (segCheck_keeps (p := (· = s)) ..).of_ok rfl hseg
    rw [resolve_eq hseg] at h
    dsimp only at h
    split at h
    · cases h
    split at h
    · cases h
    cases hs : spanOf t.is64 (t.linear sr ea) n (t.purpose write) t with
    | error x => rw [hs] at h; cases h
    | ok q =>
      rw [hs] at h
      dsimp only at h
      split at h
      · split at h
        · cases h
        · exact h
      · exact h

theorem inLimit_iff (g : SegReg) (off : Word) (n : Nat) : g.inLimit off n = true ↔
    if g.s = true ∧ g.typ.getLsbD 3 = false ∧ g.typ.getLsbD 2 = true
      then g.limit.toNat < off.toNat ∧ off.toNat + n - 1 < (if g.db then 2 ^ 32 else 2 ^ 16)
      else off.toNat + n - 1 ≤ g.limit.toNat := by
  have down : (g.s && !g.typ.getLsbD 3 && g.typ.getLsbD 2) = true ↔
      g.s = true ∧ g.typ.getLsbD 3 = false ∧ g.typ.getLsbD 2 = true := by
    simp only [Bool.and_eq_true, Bool.not_eq_true', and_assoc]
  unfold SegReg.inLimit
  dsimp only
  by_cases hd : g.s = true ∧ g.typ.getLsbD 3 = false ∧ g.typ.getLsbD 2 = true
  · rw [if_pos (down.mpr hd), if_pos hd, Bool.and_eq_true, decide_eq_true_iff, decide_eq_true_iff]
    cases g.db <;> simp only [Bool.false_eq_true, if_true, if_false] <;> omega
  · rw [if_neg (mt down.mp hd), if_neg hd, decide_eq_true_iff]

theorem permits_iff (g : SegReg) (write : Bool) : g.permits write = true ↔
    if write then g.typ.getLsbD 3 = false ∧ g.typ.getLsbD 1 = true
      else g.typ.getLsbD 3 = false ∨ g.typ.getLsbD 1 = true := by
  cases write <;> simp [SegReg.permits]

/-- Protected and compatibility mode look at selectors; 64-bit mode, real-address and virtual-8086 mode do not. -/
theorem selectors_iff (s : State) :
    (s.mode = .prot ∨ s.mode = .compat) ↔ s.is64 = false ∧ s.paragraphs = false := by
  unfold State.is64 State.paragraphs
  cases s.mode <;> decide

theorem segEvent_eq (sr : SReg) : segEvent sr = .coded (if sr = .ss then 12 else 13) 0 := by
  unfold segEvent
  split <;> rfl

theorem segCheck_long (h : s.is64 = true) : segCheck sr ea n write s = .ok ((), s) := by
  rw [segCheck_eq]
  exact if_pos h

section
variable (h : s.is64 = false)
include h

theorem segCheck_unusable (hp : s.paragraphs = false) (hu : (s.seg sr).unusable = true) :
    segCheck sr ea n write s = .error (.raised (segEvent sr)) := by
  rw [segCheck_eq]
  dsimp only
  rw [h, hp, hu]
  rfl

theorem segCheck_forbidden (hp : s.paragraphs = false) (hu : (s.seg sr).unusable = false)
    (ha : (s.seg sr).permits write = false) : segCheck sr ea n write s = .error (.raised gp0) := by
  rw [segCheck_eq]
  dsimp only
  rw [h, hp, hu, ha]
  rfl

/-- Past the selector and the type, the limit decides. -/
theorem segCheck_limit (hp : s.paragraphs = false → (s.seg sr).unusable = false ∧ (s.seg sr).permits write = true) :
    segCheck sr ea n write s = if (s.seg sr).inLimit ea n then .ok ((), s) else .error (.raised (segEvent sr)) := by
  rw [segCheck_eq]
  dsimp only
  rw [h]
  cases hpar : s.paragraphs
  · obtain ⟨hu, ha⟩ := hp hpar
    rw [hu, ha]
    cases (s.seg sr).inLimit ea n <;> rfl
  · cases (s.seg sr).inLimit ea n <;> rfl

end

/-- What an access has to pass before its alignment: the canonical form of its bytes in 64-bit mode, elsewhere the selector,
the type and the limit. -/
theorem segCheck_admits (h : if s.is64 then canonicalRange (s.linear sr ea) n = true
      else (s.is64 = false ∧ s.paragraphs = false → (s.seg sr).unusable = false ∧ (s.seg sr).permits write = true) ∧
        (s.seg sr).inLimit ea n = true) :
    segCheck sr ea n write s = .ok ((), s) ∧ (s.is64 && !canonicalRange (s.linear sr ea) n) = false := by
  cases h64 : s.is64
  · rw [h64, if_neg Bool.false_ne_true] at h
    obtain ⟨hp, hl⟩ := h
    exact ⟨(segCheck_limit h64 fun hpar => hp ⟨rfl, hpar⟩).trans (if_pos hl), rfl⟩
  · rw [h64, if_pos rfl] at h
    exact ⟨segCheck_long h64, by rw [h]; rfl⟩

theorem paraMisaligned_iff (al : Align) (la : Word) :
    (al == .para && la.extractLsb' 0 4 != 0) = true ↔ al = .para ∧ la.toNat % 16 ≠ 0 := by
  have low : (la.extractLsb' 0 4).toNat = la.toNat % 16 := by 
    rw [extract_toNat, Nat.pow_zero, Nat.div_one]
    rfl
  rw [Bool.and_eq_true, beq_iff_eq, bne_iff_ne, ne_eq, ← BitVec.toNat_inj, low]
  rfl

section
variable (hseg : segCheck sr ea n write s = .ok ((), s))
include hseg

theorem resolve_notCanonical (hcan : (s.is64 && !canonicalRange (s.linear sr ea) n) = true) :
    resolve sr ea n write al s = .error (.raised (segEvent sr)) := by
  rw [resolve_eq hseg]
  exact if_pos hcan

variable (hcan : (s.is64 && !canonicalRange (s.linear sr ea) n) = false)
include hcan

/-- The alignment to 16 that some instructions ask for comes before the translation (R105, R130). -/
theorem resolve_misaligned (ha : al = .para ∧ (s.linear sr ea).toNat % 16 ≠ 0) :
    resolve sr ea n write al s = .error (.raised gp0) := by
  rw [resolve_eq hseg]
  dsimp only
  rw [hcan]
  exact if_pos ((paraMisaligned_iff ..).mpr ha)

variable (ha : ¬ (al = .para ∧ (s.linear sr ea).toNat % 16 ≠ 0))
include ha

theorem resolve_spanError {x : Stop} (hs : spanOf s.is64 (s.linear sr ea) n (s.purpose write) s = .error x) :
    resolve sr ea n write al s = .error x := by
  rw [resolve_eq hseg]
  dsimp only
  rw [hcan, if_neg Bool.false_ne_true, if_neg (mt (paraMisaligned_iff ..).mp ha), hs]

variable {sp : Span} (hs : spanOf s.is64 (s.linear sr ea) n (s.purpose write) s = .ok (sp, u))
include hs

/-- The alignment check is the last (R106, R130). -/
theorem resolve_unaligned (hac : s.alignChecked = true) {k : Nat} (hk : al = .natural k)
    (hmod : (s.linear sr ea).toNat % k ≠ 0) : resolve sr ea n write al s = .error (.raised ac0) := by
  rw [resolve_eq hseg]
  dsimp only
  rw [hcan, if_neg Bool.false_ne_true, if_neg (mt (paraMisaligned_iff ..).mp ha), hs, hk]
  dsimp only
  rw [hac, Bool.true_and]
  exact if_pos (bne_iff_ne.mpr hmod)

theorem resolve_found (hac : ¬ (s.alignChecked = true ∧ ∃ k, al = .natural k ∧ (s.linear sr ea).toNat % k ≠ 0)) :
    resolve sr ea n write al s = .ok (sp, u) := by
  rw [resolve_eq hseg]
  dsimp only
  rw [hcan, if_neg Bool.false_ne_true, if_neg (mt (paraMisaligned_iff ..).mp ha), hs]
  cases al with
  | any => rfl
  | para => rfl
  | natural k =>
    refine if_neg fun hk => hac ?_
    rw [Bool.and_eq_true, bne_iff_ne] at hk
    exact ⟨hk.1, k, rfl, hk.2⟩

end

theorem alignChecked_iff (s : State) :
    s.alignChecked = true ↔ s.cr0.getLsbD 18 = true ∧ s.flag fAC = true ∧ s.cpl = 3 := by
  rw [State.alignChecked, Bool.and_eq_true, Bool.and_eq_true, beq_iff_eq, and_assoc]

end

end Sys2Proof.Machine

namespace Sys2Proof
open Sys2Proof.Machine

/-- Settles O56. The checks of an access go through `segCheck` and `resolve_eq` case by case, its span through one or two
translations, and each translation through the entries of its walk (`translate_cases`). -/
theorem storeThenLoad : Obligations.StoreThenLoad := by
  unfold Obligations.StoreThenLoad
  refine ⟨?address, ?canonical, ?bytes, linear_toNat, ?checks, fun s sr ea n => ⟨fun e => readMem_error, fun sp t =>
    readMem_of_resolve⟩, ?spans, ?stores, ?walks⟩
  case address =>
    exact fun s m => ⟨effAddr_toNat s m, asizeTrunc_toNat m.asz, fun _ _ _ => rfl⟩
  case canonical => exact fun a => ⟨canonical_iff a, fun n h0 hn => canonicalRange_iff a h0 hn⟩
  case bytes =>
    refine fun s sp n => ⟨spanGet_lt .., fun k hk => ?_⟩
    have hbyte := spanGet_byte s.mem sp (j := 0) hk
    rwa [Nat.zero_add] at hbyte
  case checks =>
    intro s sr ea n write al h0 hn
    dsimp only
    rw [selectors_iff, ← permits_iff, ← inLimit_iff, ← segEvent_eq, ← canonicalRange_iff _ h0 hn]
    have range (h : s.is64 = true) : (s.is64 && !canonicalRange (s.linear sr ea) n) = !canonicalRange (s.linear sr ea) n := by
      rw [h, Bool.true_and]
    refine ⟨fun ⟨h, hp⟩ hu => resolve_of_segCheck_error (segCheck_unusable h hp hu), fun ⟨h, hp⟩ hu ha =>
      resolve_of_segCheck_error (segCheck_forbidden h hp hu (Bool.eq_false_iff.mpr ha)), fun h hp hl =>
      resolve_of_segCheck_error ((segCheck_limit h fun hpar => hp ⟨h, hpar⟩).trans (if_neg hl)), fun h hc => ?_, ?_⟩
    · rw [if_pos h] at hc
      exact resolve_notCanonical (segCheck_long h) ((range h).trans (by rw [Bool.eq_false_iff.mpr hc]; rfl))
    · refine ⟨fun h ha => ?_, fun h ha => ?_⟩
      · obtain ⟨hseg, hcan⟩ := segCheck_admits h
        exact resolve_misaligned hseg hcan (Classical.not_imp.mp ha)
      · obtain ⟨hseg, hcan⟩ := segCheck_admits h
        replace ha : ¬ (al = .para ∧ (s.linear sr ea).toNat % 16 ≠ 0) := fun ⟨hal, hmod⟩ => hmod (ha hal)
        refine ⟨fun e => resolve_spanError hseg hcan ha, fun sp t hs => ⟨fun ⟨h18, hac, hcpl, k, hk, hmod⟩ =>
          resolve_unaligned hseg hcan ha hs ((alignChecked_iff s).mpr ⟨h18, hac, hcpl⟩) hk hmod, fun hck =>
          resolve_found hseg hcan ha hs fun ⟨hac, hk⟩ => hck ?_⟩⟩
        obtain ⟨h18, hf, hcpl⟩ := (alignChecked_iff s).mp hac
        exact ⟨h18, hf, hcpl, hk⟩
  case spans =>
    refine fun s wide la n pu => ⟨fun e => spanOf_error, fun a t ht => ⟨fun hn => ⟨_, spanOf_one ht hn, fun k hk => if_pos hk⟩,
      fun hn => ⟨fun e => spanOf_nextError ht hn, fun b u hu => ⟨_, spanOf_two ht hn hu, fun k _ => rfl⟩⟩⟩⟩
  case stores =>
    intro s u sr ea n v write al sp h hm
    have hu : u.memOk = true := (resolve_keeps memOk_regStable.toMemStable ..).of_ok hm h
    refine ⟨fun inj => spanGet_spanSet hu fun i j _ hij hj => inj i j hij (by omega), fun hn hpg j k =>
      spanOf_flat_distinct hpg hn (resolve_spanOf h), u.storeAt_onlySpan hu sp n v, Memory.wf_spanSet hu .., resolve_onlyMem h,
      fun hpg => ?_, (spanOf_flagsOnly hm (resolve_spanOf h)).bytes⟩
    obtain ⟨sp', hflat⟩ := spanOf_flat hpg s.is64 (s.linear sr ea) n (s.purpose write)
    rw [resolve_spanOf h] at hflat
    cases hflat
    rfl
  case walks =>
    intro s la write user hm
    refine ⟨fun hpg => ?_, fun hpg => ?_⟩
    · rw [translate_flat hpg, extract_toNat, Nat.pow_zero, Nat.div_one]
    · have ends := translate_cases (la := la) (pu := ⟨write, user⟩) hm hpg
      simp only [pageFault_eq] at ends
      exact ends

end Sys2Proof
end

