-- ==== Sys2Proof/Proofs/Encoding.lean ====
section
/-! SUPPORT. Decoding after encoding, said once for each form of an encoding: what bytes a reader takes, which reader
stands behind an opcode, what the prefixes select, and from these that the bytes of a form are an encoding of its
instruction. -/

namespace Sys2Proof

open Machine (CodeSize)

/-! ### Readers -/

/-- The reader takes the bytes `bs` and answers `a`, whatever follows them. -/
def Reads {α : Type} (r : Reader α) (bs : List Byte) (a : α) : Prop := ∀ rest, r (bs ++ rest) = .ok (a, rest)

section
variable {α β : Type} {r : Reader α} {bs cs : List Byte} {a : α} {b : β}

theorem Reads.pure (a : α) : Reads (pure a) [] a := fun _x => rfl

theorem Reads.bind {f : α → Reader β} (hr : Reads r bs a) (hf : Reads (f a) cs b) : Reads (r >>= f) (bs ++ cs) b :=
  fun rest => (congrArg (r >>= f) (List.append_assoc bs cs rest)).trans ((reader_bind (hr _)).trans (hf rest))

/-- A reader whose answer is only put into a constructor. -/
theorem Reads.map (hr : Reads r bs a) (f : α → β) : Reads (r >>= fun v => Pure.pure (f v)) bs (f a) :=
  fun rest => reader_bind (hr rest)

theorem reads_nextField {n : Nat} (h : n / 8 * 8 = n) (i : BitVec n) : Reads (nextField n) (leBytes (n / 8) i.toNat) i :=
  nextField_leBytes h i

theorem reads_byteField (i : Byte) : Reads (nextField 8) [i] i := fun rest =>
  congrArg (fun b => Except.ok (b, rest)) (BitVec.ofNat_toNat 8 i |>.trans (BitVec.setWidth_eq i))

end

/-! ### Encodings -/

/-- The bytes are an encoding of the instruction: the decoder reads it from them, whatever follows them (R170). -/
def Encodes (c : CodeSize) (bs : List Byte) (i : Instr) : Prop := ∀ rest, decode c (bs ++ rest) = .ok (i, bs.length)

/-- The bytes that the encoder writes for the instruction are an encoding of it. -/
def Instr.Encoded (i : Instr) : Prop := ∀ c, i.wf c = true → Encodes c (encode c i) i

theorem Instr.Encoded.roundTrip {i : Instr} (h : i.Encoded) : i.RoundTrip := fun c rest hi => h c hi rest

/-- Whether a byte is none of the prefixes in any code size (R172, R181). -/
noncomputable def isOpcode (b : Byte) : Bool := (addPrefix {} b).isNone && b.extractLsb' 4 4 != 4

theorem addPrefix_of_isOpcode (b : Byte) (h : isOpcode b = true) (q : Prefixes) : addPrefix q b = none :=
  of_decide_eq_true (p := ∀ b, isOpcode b = true → addPrefix q b = none) (by rfl) b h

theorem not_rex_of_isOpcode {P : Prop} {b : Byte} (h : isOpcode b = true) (_ : P) : b.extractLsb' 4 4 ≠ 4 :=
  bne_iff_ne.mp (Bool.and_eq_true_iff.mp h).2

/-- Behind the opcode bytes `b` and `t` the decoder goes on with the reader `r`. -/
def Opens (b : Byte) (t : List Byte) (x : Ctx) (r : Reader Instr) : Prop :=
  isOpcode b = true ∧ ∀ u, decOpcode x b (t ++ u) = r u

theorem opens_one {b : Byte} (h : isOpcode b = true) (x : Ctx) : Opens b [] x (decOpcode x b) := ⟨h, fun _x => rfl⟩

theorem opens_two (b : Byte) (x : Ctx) : Opens 0x0F [b] x (dec0F x b.toNat) := ⟨rfl, fun _x => rfl⟩

theorem and_elim {a b : Bool} {P : Prop} (h : (a && b) = true) (k : a = true → b = true → P) : P :=
  (Bool.and_eq_true_iff.mp h).elim k

theorem encodes_of_eq {c : CodeSize} {bs bs' : List Byte} {i : Instr} (h : bs = bs') (he : Encodes c bs' i) : Encodes c bs i :=
  h ▸ he

section
variable {c : CodeSize} {p : Pre} {q : Prefixes} {b : Byte} {pre t imm : List Byte} {r : Reader Instr} {i : Instr}

/-- Behind the prefixes in force stands an opcode, and what the decoder reads from it on is what it reads. -/
theorem decodeFrom_of_isOpcode {u rest : List Byte} (hb : isOpcode b = true) (hq : q.lock = false)
    (h : decOpcode ⟨c, q⟩ b u = .ok (i, rest)) : decodeFrom c q (b :: u) = .ok (i, rest) :=
  (decodeFrom_opcode (addPrefix_of_isOpcode b hb q) (not_rex_of_isOpcode hb) u).trans <|
    (congrArg (fun r : Except DecodeError (Instr × List Byte) => match r with
      | .ok (i, rest) => Except.ok (if q.lock then Instr.lock (lockOf i) else i, rest)
      | .error e => .error e) h).trans (congrArg (fun i => Except.ok (i, rest)) (if_neg (ne_true_of_eq_false hq)))

/-- An encoding is the bytes that put its prefixes in force, then an opcode, then what its reader takes. -/
theorem encodes_behind (hpre : ∀ t, decodeFrom c {} (pre ++ t) = decodeFrom c q t) (hq : q.lock = false)
    (ho : Opens b t ⟨c, q⟩ r) (hr : Reads r imm i) : Encodes c (pre ++ (b :: t ++ imm)) i := fun rest =>
  decode_of_decodeFrom <| (congrArg (decodeFrom c {}) (List.append_assoc ..)).trans <| (hpre _).trans <|
    decodeFrom_of_isOpcode ho.1 hq <| (congrArg (decOpcode _ b) (List.append_assoc t imm rest)).trans <| (ho.2 _).trans (hr rest)

/-- The context that the prefixes of an encoding make. -/
noncomputable def Pre.ctx (p : Pre) (c : CodeSize) : Ctx := { size := c, p := p.prefixes false }

theorem encodes_prefixed (hp : p.rex ≠ none → c = .c64) (ho : Opens b t (p.ctx c) r) (hr : Reads r imm i) :
    Encodes c (p.bytes ++ (b :: t ++ imm)) i :=
  encodes_behind (decodeFrom_pre hp false) rfl ho hr

end

/-! ### What the prefixes select -/

/-- The prefixes `p` may stand, and in every context with their 66H and their REX.W the size `e` is `w`. -/
def Selects {α : Type} (c : CodeSize) (p : Pre) (e : Ctx → α) (w : α) : Prop :=
  (p.rex ≠ none → c = .c64) ∧ ∀ q : Prefixes, q.p66 = p.p66 → (⟨c, q⟩ : Ctx).w = p.w → e ⟨c, q⟩ = w

theorem selects_of {α : Type} {c : CodeSize} {p : Pre} {e : Ctx → α} {w : α} (hr : p.rex ≠ none → c = .c64)
    (he : ∀ q : Prefixes, q.p66 = p.p66 → (⟨c, q⟩ : Ctx).w = p.w → e ⟨c, q⟩ = w) : Selects c p e w := ⟨hr, he⟩

theorem Selects.map {α β : Type} {c : CodeSize} {p : Pre} {e : Ctx → α} {w : α} (h : Selects c p e w) (g : α → β) :
    Selects c p (fun x => g (e x)) (g w) := selects_of h.1 fun q h66 hw => congrArg g (h.2 q h66 hw)

section
variable {c : CodeSize} {w : Width}

theorem selects_osz (h : okOsz c w = true) : Selects c (oszPre c w) Ctx.osz w :=
  selects_of (by induction w with
    | b64 => exact fun _x => beq_iff_eq.mp h
    | b8 | b16 | b32 => exact absurd rfl) fun q => osz_oszPre (x := ⟨c, q⟩) h

/-- A size whose prefixes hold no REX byte. -/
theorem selects_of_noRex {α : Type} {p : Pre} {e : Ctx → α} {w : α} (hp : p.rex = none ∧ p.w = false)
    (he : ∀ q : Prefixes, q.p66 = p.p66 → (⟨c, q⟩ : Ctx).w = false → e ⟨c, q⟩ = w) : Selects c p e w :=
  selects_of (absurd hp.1) fun q h66 hw => he q h66 (hw.trans hp.2)

theorem stackPre_noRex : (stackPre c w).rex = none ∧ (stackPre c w).w = false := by induction w <;> exact ⟨rfl, rfl⟩

theorem selects_stack (h : okStack c w = true) : Selects c (stackPre c w) Ctx.stackOsz w :=
  selects_of_noRex stackPre_noRex fun q => stackOsz_stackPre (x := ⟨c, q⟩) h

theorem selects_near (h : okNear c w = true) : Selects c (nearPre c w) Ctx.nearOsz w :=
  selects_of_noRex stackPre_noRex fun q => nearOsz_nearPre (x := ⟨c, q⟩) h

theorem oszPre_noRex (h : okHalf w = true) : (oszPre c w).rex = none ∧ (oszPre c w).w = false := by
  induction w with
  | b64 => exact absurd h Bool.false_ne_true
  | b8 | b16 | b32 => exact ⟨rfl, rfl⟩

/-- An instruction without a 64-bit form, by any of the sizes that then agree. -/
theorem selects_half {e : Ctx → Width}
    (he : ∀ {x : Ctx}, x.legacyOsz = w ∧ x.ioOsz = w ∧ x.fpuOsz = w ∧ x.osz = w → e x = w) (h : okHalf w = true) :
    Selects c (oszPre c w) e w :=
  selects_of_noRex (oszPre_noRex h) fun q h66 hw => he (legacyOsz_oszPre (x := ⟨c, q⟩) h h66 hw)

/-- REX.W (R180). -/
theorem selects_w {y : Rep} {z : Bool} (h : (!z || c == .c64) = true) : Selects c { rep := y, w := z } Ctx.w z :=
  selects_of (by induction z with
    | false => exact absurd rfl
    | true => exact fun _x => beq_iff_eq.mp h) fun _x _y hw => hw

/-- Prefixes that select no size. -/
theorem selects_none {y : Bool} {z : Rep} (_ : true = true) : Selects c { p66 := y, rep := z } (fun _x => ()) () :=
  selects_of (absurd rfl) fun _x _y _z => rfl

variable {α : Type} {p : Pre} {e : Ctx → α} {w : α}

theorem Selects.ctx (h : Selects c p e w) (q : Pre) (h66 : q.p66 = p.p66) (hw : q.w = p.w) : e (q.ctx c) = w :=
  h.2 _ h66 ((rexBit_prefixes c q false).1.trans hw)

theorem Selects.long (h : Selects c p e w) (hw : p.w = true) : c = .c64 := 
  h.1 (ne_of_eq_of_ne (if_pos (congrArg (· || p.r || p.x || p.b || p.force) hw)) (Option.some_ne_none _))

/-- An opcode whose reader takes the operands at the size that the prefixes select. -/
theorem encodes_plain {b : Byte} {t imm : List Byte} {i : Instr} (h : Selects c p e w) (g : α → Reader Instr)
    (ho : ∀ x, Opens b t x (g (e x))) (hg : Reads (g w) imm i) : Encodes c (p.bytes ++ (b :: t ++ imm)) i :=
  encodes_prefixed h.1 ((h.ctx p rfl rfl).subst (motive := fun w => Opens b t _ (g w)) (ho _)) hg

end

/-! ### Instructions with a ModR/M byte -/

/-- The encoding `en` of an operand may stand, and the reader `rd` reads the operand `v` back from it. -/
def Operand {β : Type} (c : CodeSize) (en : RmEnc) (rd : Ctx → ModRm → Reader β) (v : β) : Prop :=
  en.RexOk c ∧ ∀ q : Prefixes, (⟨c, q⟩ : Ctx).Fits en → ∀ k, Reads (rd ⟨c, q⟩ ⟨en.mod, k, en.rm⟩) en.tail v

theorem operand_rm {c : CodeSize} {s : RM} (h : okRm c s = true) : Operand c (rmEnc c s) nextRm s :=
  ⟨rexOk_rmEnc h, fun q => nextRm_rmEnc (x := ⟨c, q⟩) h⟩

theorem operand_mm {c : CodeSize} {s : MM} (h : okMm c s = true) : Operand c (mmEnc c s) nextMm s :=
  ⟨rexOk_mmEnc h, fun q => nextMm_mmEnc (x := ⟨c, q⟩) h⟩

/-- The context that the prefixes of an instruction with a ModR/M byte make. -/
noncomputable def Pre.rmCtx (p : Pre) (c : CodeSize) (r : Reg) (en : RmEnc) : Ctx := (assemblePre p r false en).ctx c

theorem digit_ext : ∀ k : BitVec 3, (0#1 ++ k).extractLsb' 0 3 = k := by decide

theorem digit_noExt : ∀ k : BitVec 3, ¬(0#1 ++ k).getLsbD 3 = true := by decide

section
variable {α β : Type} {c : CodeSize} {p : Pre} {e : Ctx → α} {w : α} {en : RmEnc} {rd : Ctx → ModRm → Reader β} {v : β}

/-- An instruction with a ModR/M byte is encoded if the reader behind its opcode takes the operand by `rd` and goes on with
what takes the immediates. -/
theorem encodes_operand {r : Reg} {b : Byte} {t imm : List Byte} {i : Instr} {R : ModRm → Reader Instr} {k : BitVec 3}
    (hp : Selects c p e w) (hr : r.getLsbD 3 = true → c = .c64) (hv : Operand c en rd v)
    (ho : Opens b t (p.rmCtx c r en) (nextModRm >>= R)) (g : α → Reg → β → Reader Instr) (hk : r.extractLsb' 0 3 = k)
    (hR : (rd (p.rmCtx c r en) ⟨en.mod, k, en.rm⟩ >>=
      g (e (p.rmCtx c r en)) (regOf (p.rmCtx c r en) ⟨en.mod, r.extractLsb' 0 3, en.rm⟩)) = R ⟨en.mod, k, en.rm⟩)
    (hg : Reads (g w r v) imm i) : Encodes c (assemble p (b :: t) r false en imm) i := fun rest =>
  have hx := fits_assemblePre c p r false en false en.mod en.rm
  decode_assemble (addPrefix_of_isOpcode b ho.1) (not_rex_of_isOpcode ho.1)
    (rex_assemblePre hv.1 hp.long hr fun h => absurd h Bool.false_ne_true) <|
    (ho.2 _).trans <| (reader_bind (nextModRm_cons ..)).trans <|
      (congrFun ((congrArg (fun k => R ⟨en.mod, k, en.rm⟩) hk).trans hR.symm) _).trans <| (reader_bind (hv.2 _ hx.1 _ _)).trans <|
        (congrArg₂ (fun a r => g a r v (imm ++ rest)) (hp.ctx (assemblePre p r false en) rfl rfl) hx.2.2).trans (hg rest)

/-- An operand behind a digit or a 3-bit register number (R185). -/
theorem encoded_digit {a o : Bool} (hp : a = true → Selects c p e w) (hv : o = true → Operand c en rd v)
    {b : Byte} {t : List Byte} {k : BitVec 3} {R : Ctx → ModRm → Reader Instr} (f : α → β → Instr)
    (ho : ∀ x, Opens b t x (nextModRm >>= R x))
    (hR : ∀ x, (rd x ⟨en.mod, k, en.rm⟩ >>= fun v => pure (f (e x) v)) = R x ⟨en.mod, k, en.rm⟩) (h : (a && o) = true) :
    Encodes c (assemble p (b :: t) (0#1 ++ k) false en []) (f w v) :=
  and_elim h fun ha hb => encodes_operand (hp ha) (fun h => absurd h (digit_noExt k)) (hv hb) (ho _) (fun a _x v => pure (f a v))
    (digit_ext k) (hR _) (Reads.pure _)

/-- A register and an operand (R185). -/
theorem encoded_reg {a o : Bool} {r : Reg} (hp : a = true → Selects c p e w) (hv : o = true → Operand c en rd v)
    {b : Byte} {t : List Byte} (f : α → Reg → β → Instr)
    (ho : Opens b t (p.rmCtx c r en) (nextModRm >>= fun m => rd (p.rmCtx c r en) m >>= fun v =>
      pure (f (e (p.rmCtx c r en)) (regOf (p.rmCtx c r en) m) v))) (h : (a && okReg c r && o) = true) :
    Encodes c (assemble p (b :: t) r false en []) (f w r v) :=
  and_elim h fun h hb => and_elim h fun ha hr =>
    encodes_operand (hp ha) (okReg_ext hr) (hv hb) ho (fun a r v => pure (f a r v)) rfl rfl (Reads.pure _)

end
end Sys2Proof
end

