-- ==== Sys2Proof/Proofs/EncodingBranches.lean ====
section
/-! SUPPORT. Decoding after encoding for the operand forms of the branches and of the system instructions. -/

namespace Sys2Proof

open Machine (CodeSize)

section
variable {c : CodeSize}

/-! ### Opcodes without operands -/

/-- An opcode without prefixes, and what its reader takes. -/
theorem encodes_bare {b : Byte} (t : List Byte) {tail : List Byte} {r : Ctx → Reader Instr} {i : Instr}
    (ho : ∀ x, Opens b t x (r x)) (hr : ∀ x, Reads (r x) tail i) (c : CodeSize) (_ : true = true) : Encodes c (b :: t ++ tail) i :=
  encodes_prefixed (p := {}) (absurd rfl) (ho _) (hr _)

/-- An instruction of one opcode byte. -/
theorem encodes_one {b : Byte} {i : Instr} (ho : ∀ x, Opens b [] x (pure i)) : ∀ c, true = true → Encodes c [b] i :=
  encodes_bare [] ho fun _x => Reads.pure i

/-- An instruction of two opcode bytes. -/
theorem encodes_two {i : Instr} (b : Byte) (ho : ∀ x, Opens 0x0F [b] x (pure i)) : ∀ c, true = true → Encodes c [0x0F, b] i :=
  encodes_bare [b] ho fun _x => Reads.pure i

variable {w : Width}

/-! ### Near branches -/

/-- The displacement of a near branch of an operand size: 16 or 32 bits (R199, R321). -/
noncomputable def nearRel (w : Width) : Reader Rel :=
  if w == .b16 then nextField 16 >>= fun d => pure (.r16 d) else nextField 32 >>= fun d => pure (.r32 d)

theorem nextRel_eq (x : Ctx) : nextRel x = nearRel x.nearOsz := by rw [nextRel, Ctx.rel16_eq]; rfl

theorem reads_r16 (h : (w == .b16) = true) (d : BitVec 16) : Reads (nearRel w) (relBytes (.r16 d)) (.r16 d) := fun rest =>
  (congrFun (if_pos h) _).trans ((reads_nextField (n := 16) rfl d).map Rel.r16 rest)

theorem reads_r32 (h : (w != .b16) = true) (d : BitVec 32) : Reads (nearRel w) (relBytes (.r32 d)) (.r32 d) := fun rest =>
  (congrFun (if_neg (ne_true_of_eq_false ((Bool.not_eq_true' _).mp h))) _).trans ((reads_nextField (n := 32) rfl d).map Rel.r32 rest)

/-- A near relative branch with a byte displacement. -/
theorem encodes_rel8 {b d : Byte} (f : Width → Rel → Instr) (ho : ∀ x, Opens b [] x (nextRel8 >>= fun d => pure (f x.nearOsz d)))
    (h : okNear c w = true) : Encodes c ((nearPre c w).bytes ++ [b, d]) (f w (.r8 d)) :=
  encodes_plain (selects_near h) (fun w => nextRel8 >>= fun d => pure (f w d)) ho fun _x => rfl

/-- A near relative branch with a long displacement. -/
theorem encodes_relLong {b : Byte} {t : List Byte} {d : Rel} (f : Width → Rel → Instr)
    (ho : ∀ x, Opens b t x (nextRel x >>= fun d => pure (f x.nearOsz d))) (h : okNear c w = true)
    (hd : Reads (nearRel w) (relBytes d) d) : Encodes c ((nearPre c w).bytes ++ (b :: t) ++ relBytes d) (f w d) :=
  encodes_of_eq (List.append_assoc _ (b :: t) _) <| encodes_plain (selects_near h) (fun w => nearRel w >>= fun d => pure (f w d))
    (fun x => (nextRel_eq x).subst (motive := fun r => Opens b t x (r >>= _)) (ho x)) (hd.map (f w))

/-- The conditional branches, from the two opcodes of a condition (R330 to R332). -/
theorem encodes_jcc {d : Rel} (t : BitVec 4) (f : Width → Rel → Instr)
    (h8 : ∀ x, Opens (7#4 ++ t) [] x (nextRel8 >>= fun d => pure (f x.nearOsz d)))
    (hl : ∀ x, Opens 0x0F [8#4 ++ t] x (nextRel x >>= fun d => pure (f x.nearOsz d))) (c : CodeSize) (h : okRel c w d = true) :
    Encodes c (encJcc c t w d) (f w d) := by
  induction d with
  | r8 d => exact encodes_rel8 f h8 h
  | r16 d => exact and_elim h fun h hw => encodes_relLong f hl h (reads_r16 hw d)
  | r32 d => exact and_elim h fun h hw => encodes_relLong f hl h (reads_r32 hw d)

theorem encoded_jmpRel (d : Rel) : (Instr.jmpRel w d).Encoded := by
  induction d with
  | r8 d => exact fun _x h => encodes_of_eq (List.append_assoc _ [0xEB] [d]) (encodes_rel8 .jmpRel (opens_one rfl) h)
  | r16 d => exact fun _x h => and_elim h fun h hw => encodes_relLong (b := 0xE9) .jmpRel (opens_one rfl) h (reads_r16 hw d)
  | r32 d => exact fun _x h => and_elim h fun h hw => encodes_relLong (b := 0xE9) .jmpRel (opens_one rfl) h (reads_r32 hw d)

theorem encoded_callRel (d : Rel) : (Instr.callRel w d).Encoded := fun _x hwf => and_elim hwf fun h hd => by
  clear hwf
  induction d with
  | r8 d => exact (Bool.false_ne_true hd).elim
  | r16 d => exact and_elim h fun h hw => encodes_relLong (b := 0xE8) .callRel (opens_one rfl) h (reads_r16 hw d)
  | r32 d => exact and_elim h fun h hw => encodes_relLong (b := 0xE8) .callRel (opens_one rfl) h (reads_r32 hw d)

end

section
variable {α : Type} {c : CodeSize} {a : Bool} {p : Pre} {e : Ctx → α} {w : α} {b : Byte}

/-- A return: the even opcode takes an immediate (R790). -/
theorem encodes_ret (hp : a = true → Selects c p e w) (f : α → Option (BitVec 16) → Instr) (n : Option (BitVec 16))
    (ho₁ : ∀ x, Opens b [] x (nextField 16 >>= fun n => pure (f (e x) (some n))))
    (ho₂ : ∀ x, Opens (b + 1) [] x (pure (f (e x) none))) (h : a = true) : Encodes c (p.bytes ++ encRet b n) (f w n) := by
  induction n with
  | none => exact encodes_plain (hp h) (fun w => pure (f w none)) ho₂ (Reads.pure _)
  | some n =>
    exact encodes_plain (hp h) (fun w => nextField 16 >>= fun n => pure (f w (some n))) ho₁
      ((reads_nextField (n := 16) rfl n).map _)

/-- An opcode of one byte whose operand size its prefixes select. -/
theorem encodes_sized (hp : a = true → Selects c p e w) (f : α → Instr) (ho : ∀ x, Opens b [] x (pure (f (e x)))) (h : a = true) :
    Encodes c (p.bytes ++ [b]) (f w) :=
  encodes_plain (hp h) (fun w => pure (f w)) ho (Reads.pure _)

end

/-! ### Branches on a count and far branches -/

section
variable {c : CodeSize} {w : Width} {b : Byte}

theorem decodeFrom_p67_p66 {x y : Bool} {t : List Byte} :
    decodeFrom c { p67 := y } (({ p66 := x } : Pre).bytes ++ t) = decodeFrom c { p66 := x, p67 := y } t := by
  induction x with
  | false => rfl
  | true => exact decodeFrom_legacy rfl t

theorem decodeFrom_nearPre {y : Bool} {t : List Byte} :
    decodeFrom c { p67 := y } ((nearPre c w).bytes ++ t) = decodeFrom c { p66 := (nearPre c w).p66, p67 := y } t := by
  induction w <;> exact decodeFrom_p67_p66

/-- The prefixes of a branch on a count: an address size and the operand size of a near branch (R337). -/
noncomputable def loopPrefixes (c : CodeSize) (w : Width) (s : ASize) : Prefixes := { p66 := (nearPre c w).p66, p67 := aszFlag c s }

theorem decodeFrom_loop {s : ASize} (t : List Byte) :
    decodeFrom c {} (aszBytes c s ++ (nearPre c w).bytes ++ t) = decodeFrom c (loopPrefixes c w s) t :=
  (congrArg (decodeFrom c {}) (List.append_assoc ..)).trans <|
    (decodeFrom_p67 c {} rfl rfl (aszFlag c s) _).trans decodeFrom_nearPre

/-- A branch on a count of the address size (R337 to R340). -/
theorem encodes_loop {d : Byte} {s : ASize} (f : Width → ASize → Byte → Instr)
    (ho : ∀ x, Opens b [] x (nextField 8 >>= fun d => pure (f x.nearOsz x.asz d))) (c : CodeSize) (h : okLoop c w s = true) :
    Encodes c (encLoop c w s b d) (f w s d) := and_elim h fun hw ha =>
  (congrArg₂ (f · · d) (nearOsz_nearPre (x := ⟨c, loopPrefixes c w s⟩) hw rfl rfl)
    (asz_of_flag (p := loopPrefixes c w s) ha rfl)).subst (motive := Encodes c _)
      (encodes_behind decodeFrom_loop rfl (ho ⟨c, loopPrefixes c w s⟩) ((reads_byteField d).map _))

/-- The offset of a far pointer has the bits of the operand size (R194). -/
theorem farOffset_lt {off : BitVec 32} (h : okFar w off = true) : off.toNat < 256 ^ (if w = .b16 then 2 else 4) := by
  by_cases hw : w = .b16
  · subst hw
    have hdiv : off.toNat >>> 16 % 2 ^ 16 = 0 :=
      (BitVec.extractLsb'_toNat 16 16 off).symm.trans (congrArg BitVec.toNat (beq_iff_eq.mp h))
    rw [Nat.shiftRight_eq_div_pow, Nat.mod_eq_of_lt (Nat.div_lt_of_lt_mul (k := 2 ^ 16) (n := 2 ^ 16) off.isLt)] at hdiv
    exact Nat.lt_of_div_eq_zero (by decide) hdiv
  · rw [if_neg hw]
    exact off.isLt

/-- A far pointer in the instruction: offset and selector (R194). -/
theorem reads_nextFar {off : BitVec 32} {sel : BitVec 16} (h : okFar w off = true) :
    Reads (nextFar w) (leBytes (if w = .b16 then 2 else 4) off.toNat ++ leBytes 2 sel.toNat) (off, sel) :=
  ((congrArg (BitVec.ofNat 32) (Nat.mod_eq_of_lt (farOffset_lt h))).trans
    ((BitVec.ofNat_toNat 32 off).trans (BitVec.setWidth_eq off))).subst (motive := fun o => Reads _ _ (o, sel))
      (Reads.bind (nextLE_leBytes _ _) ((reads_nextField (n := 16) rfl sel).map fun s => (_, s)))

theorem encodes_far {off : BitVec 32} {sel : BitVec 16} (f : Width → BitVec 32 → BitVec 16 → Instr)
    (ho : ∀ x, Opens b [] x (nextFar x.legacyOsz >>= fun q => pure (f x.legacyOsz q.1 q.2))) (c : CodeSize) (h : okFar w off = true) :
    Encodes c (encFar c w b off sel) (f w off sel) :=
  encodes_of_eq ((List.append_assoc ..).trans (List.append_assoc _ [b] _)) <|
    encodes_plain (selects_half And.left (and_elim h fun h _x => h)) (fun w => nextFar w >>= fun q => pure (f w q.1 q.2)) ho
      ((reads_nextFar h).map fun q => f w q.1 q.2)

/-! ### The instructions that share an opcode -/

theorem encoded_enter (n : BitVec 16) (v : Byte) : (Instr.enter w n v).Encoded := fun _x h =>
  encodes_of_eq ((List.append_assoc ..).trans (List.append_assoc _ [0xC8] _)) <|
    encodes_plain (selects_stack h) (fun w => nextField 16 >>= fun n => nextField 8 >>= fun v => pure (.enter w n v))
      (opens_one rfl) ((reads_nextField (n := 16) rfl n).bind ((reads_byteField v).map _))

/-- An instruction by an operand size of 16 or 32 bits beside its 64-bit twin (R268, R269, R348). -/
theorem selects_halfTwin {i : Instr} {f : Width → Instr} (h : okHalf w = true) :
    Selects c (oszPre c w) (fun x => if x.osz = .b64 then i else f x.osz) (f w) :=
  (if_neg fun hw : w = .b64 => Bool.false_ne_true ((congrArg okHalf hw).symm.trans h)).subst (motive := Selects c _ _)
    ((selects_half (e := Ctx.osz) (fun h => h.2.2.2) h).map fun w => if w = .b64 then i else f w)

theorem selects_longTwin {i : Instr} {f : Width → Instr} (h : okOsz c .b64 = true) :
    Selects c (oszPre c .b64) (fun x => if x.osz = .b64 then i else f x.osz) i :=
  (selects_osz h).map fun w => if w = .b64 then i else f w

theorem encoded_sysret (z : Bool) : (Instr.sysret z).Encoded := fun _x h =>
  encodes_of_eq (by induction z <;> rfl) <|
    encodes_plain (selects_w h) (fun z => pure (.sysret z)) (opens_two 0x07) (Reads.pure _)

/-- ARPL shares its opcode with MOVSXD, which 64-bit mode has instead (R381, R783). -/
theorem selects_arpl (h : (c != .c64) = true) :
    Selects c {} (fun x r s => if x.size = .c64 then Instr.movsxd x.osz r s else .arpl s r) fun r s => .arpl s r :=
  selects_of (absurd rfl) fun _x _y _z => funext₂ fun _x _y => if_neg (bne_iff_ne.mp h)

theorem encoded_arpl (s : RM) (r : Reg) : (Instr.arpl s r).Encoded := fun _x h => and_elim h fun h hr => and_elim h fun hc hs =>
  encoded_reg selects_arpl operand_rm id (opens_one (b := 0x63) rfl _) <|
    Bool.and_eq_true_iff.mpr ⟨Bool.and_eq_true_iff.mpr ⟨hc, hr⟩, hs⟩

/-! ### Operands in memory -/

theorem ite_memEnc_mod {β : Type} (m : Mem) (x y : β) : y = if (memEnc c m).mod == 3 then x else y :=
  (if_neg (ne_true_of_eq_false (beq_false_of_ne (memEnc_pre c m).2.2.1))).symm

theorem operand_mem {m : Mem} (h : okMem c m = true) : Operand c (memEnc c m) nextMemOnly m :=
  ⟨rexOk_memEnc h, fun q hq k rest => (congrFun (ite_memEnc_mod m _ _) _).symm.trans (nextMem_memEnc (x := ⟨c, q⟩) h hq k rest)⟩

/-- INVLPG, whose register form with the r/m field 0 is SWAPGS (R418, R791). -/
theorem encoded_invlpg (s : RM) : (Instr.invlpg s).Encoded := fun c hwf => and_elim hwf fun hs h =>
  have hn : ((rmEnc c s).mod == 3 && (rmEnc c s).rm == 0) = false := by
    clear hs hwf
    induction s with
    | reg r => exact (Bool.not_eq_true' _).mp h
    | mem m => exact congrArg (· && (memEnc c m).rm == 0) (beq_false_of_ne (memEnc_pre c m).2.2.1)
  encoded_digit selects_none operand_rm (k := 7) (fun _x => .invlpg) (opens_two 0x01) (fun _x => (if_neg (ne_true_of_eq_false hn)).symm) hs

end
end Sys2Proof
end

