-- ==== Sys2Proof/Proofs/EncodingFpuSse.lean ====
section
/-! SUPPORT. Decoding after encoding for the operand forms of the x87 and SSE instructions. -/

namespace Sys2Proof

open Machine (CodeSize)

section
variable {k : BitVec 3}

/-! ### x87 instructions -/

/-- An x87 register form (R195). -/
theorem encodes_fpuReg {b : Byte} (k n : BitVec 3) {i : Instr} (ho : ∀ x, Opens b [] x (decFpu x b.toNat))
    (hi : some i = fpuReg b.toNat k.toNat n) : ∀ c, true = true → Encodes c [b, fpuByte k n] i :=
  encodes_bare [] ho fun _x rest => (reader_bind (nextModRm_cons 3#2 k n rest)).trans <|
    (congrArg (orNoRow · rest) hi).symm

/-- The ModR/M byte of a memory operand, its reg field cleared (R457). -/
theorem formOf_memEnc (c : CodeSize) (m : Mem) : (memEnc c m).mod ++ (0#3) ++ (memEnc c m).rm = formOf m := by
  obtain ⟨seg, base, index, disp, asz⟩ := m
  induction asz with
  | a16 => induction base with
    | none | rip => exact (by decide : 0#2 ++ 0#3 ++ 6#3 = (0x06 : Byte))
    | reg b => exact (by decide : ∀ k : BitVec 3, 2#2 ++ 0#3 ++ k = 0x80#8 ||| k.setWidth 8) _
  | a32 | a64 => induction base with
    | none => exact (by decide : 0#2 ++ 0#3 ++ 4#3 = (0x04 : Byte))
    | rip => exact (by decide : 0#2 ++ 0#3 ++ 5#3 = (0x05 : Byte))
    | reg b => exact (by decide : 2#2 ++ 0#3 ++ 4#3 = (0x84 : Byte))

/-- An x87 memory operand comes back with its form (R457). -/
theorem operand_fMem {c : CodeSize} {m : FMem} (h : okF c m = true) : Operand c (memEnc c m.mem) nextFMem m := and_elim h fun hm hf =>
  ⟨rexOk_memEnc hm, fun q hq k rest => (reader_bind (nextMem_memEnc (x := ⟨c, q⟩) hm hq k rest)).trans <|
    congrArg (fun f => Except.ok (FMem.mk m.mem f, rest)) ((formOf_memEnc c m.mem).trans (beq_iff_eq.mp hf).symm)⟩

/-- An x87 memory operand (R195). -/
theorem encodes_fpuMem {c : CodeSize} {α : Type} {a : Bool} {p : Pre} {e : Ctx → α} {w : α} {b : Byte} {m : FMem}
    (hp : a = true → Selects c p e w) (f : α → FMem → Instr) (ho : ∀ x, Opens b [] x (decFpu x b.toNat))
    (hi : ∀ x m, some (f (e x) m) = fpuMem x b.toNat k.toNat m) :
    (a && okF c m) = true → Encodes c (encF c p b k m) (f w m) :=
  encoded_digit hp operand_fMem f ho fun x =>
    Eq.trans (congrArg (_ >>= ·) (funext fun m => congrArg orNoRow (hi x m))) (ite_memEnc_mod ..)

/-- An x87 memory form without prefixes. -/
theorem encodes_f {b : Byte} {m : FMem} (f : FMem → Instr) (ho : ∀ x, Opens b [] x (decFpu x b.toNat))
    (hi : ∀ x m, some (f m) = fpuMem x b.toNat k.toNat m) (c : CodeSize) : okF c m = true → Encodes c (encF c {} b k m) (f m) :=
  encodes_fpuMem selects_none (fun _x => f) ho hi

theorem encodes_fArith {kr : BitVec 3} (f : FArith → Instr) (a : FArith) (h32 : ∀ x m, some (f (.m32 m)) = fpuMem x 0xD8 k.toNat m)
    (h64 : ∀ x m, some (f (.m64 m)) = fpuMem x 0xDC k.toNat m) (h0 : ∀ i, some (f (.st0 i)) = fpuReg 0xD8 k.toNat i)
    (hi : ∀ i, some (f (.sti i)) = fpuReg 0xDC kr.toNat i) : ∀ c, okFArith c a = true → Encodes c (encFArith c k kr a) (f a) := by
  induction a with
  | m32 m => exact encodes_f (b := 0xD8) _ (opens_one rfl) h32
  | m64 m => exact encodes_f (b := 0xDC) _ (opens_one rfl) h64
  | st0 i => exact encodes_fpuReg k i (opens_one rfl) (h0 i)
  | sti i => exact encodes_fpuReg kr i (opens_one rfl) (hi i)

theorem encodes_fInt (a : FInt) (k : BitVec 3) : ∀ c, okFInt c a = true → Encodes c (encFInt c k a) (fpuIntArith k.toNat a) := by
  induction a with
  | m16 m => exact encodes_f (b := 0xDE) (fun m => fpuIntArith k.toNat (.m16 m)) (opens_one rfl) fun _x _y => rfl
  | m32 m => exact encodes_f (b := 0xDA) (fun m => fpuIntArith k.toNat (.m32 m)) (opens_one rfl) fun _x _y => rfl

theorem encodes_fCom (f : FCmp → Instr) (a : FCmp) (h32 : ∀ x m, some (f (.m32 m)) = fpuMem x 0xD8 k.toNat m)
    (h64 : ∀ x m, some (f (.m64 m)) = fpuMem x 0xDC k.toNat m) (hi : ∀ i, some (f (.sti i)) = fpuReg 0xD8 k.toNat i) :
    ∀ c, okFCmp c a = true → Encodes c (encFCom c k a) (f a) := by
  induction a with
  | m32 m => exact encodes_f (b := 0xD8) _ (opens_one rfl) h32
  | m64 m => exact encodes_f (b := 0xDC) _ (opens_one rfl) h64
  | sti i => exact encodes_fpuReg k i (opens_one rfl) (hi i)

theorem encodes_fIntL {k64 : BitVec 3} (f : FIntL → Instr) (a : FIntL) (h16 : ∀ x m, some (f (.m16 m)) = fpuMem x 0xDF k.toNat m)
    (h32 : ∀ x m, some (f (.m32 m)) = fpuMem x 0xDB k.toNat m) (h64 : ∀ x m, some (f (.m64 m)) = fpuMem x 0xDF k64.toNat m) :
    ∀ c, okFIntL c a = true → Encodes c (encFIntL c k k64 a) (f a) := by
  induction a with
  | m16 m => exact encodes_f (b := 0xDF) _ (opens_one rfl) h16
  | m32 m => exact encodes_f (b := 0xDB) _ (opens_one rfl) h32
  | m64 m => exact encodes_f (b := 0xDF) _ (opens_one rfl) h64

end

theorem encoded_fist (a : FInt) : (Instr.fist a).Encoded := by
  induction a with
  | m16 m => exact encodes_f (b := 0xDF) (k := 2) (.fist <| .m16 ·) (opens_one rfl) fun _x _y => rfl
  | m32 m => exact encodes_f (b := 0xDB) (k := 2) (.fist <| .m32 ·) (opens_one rfl) fun _x _y => rfl

theorem encoded_fisttp (a : FIntL) : (Instr.fisttp a).Encoded := by
  induction a with
  | m16 m => exact encodes_f (b := 0xDF) (k := 1) (.fisttp <| .m16 ·) (opens_one rfl) fun _x _y => rfl
  | m32 m => exact encodes_f (b := 0xDB) (k := 1) (.fisttp <| .m32 ·) (opens_one rfl) fun _x _y => rfl
  | m64 m => exact encodes_f (b := 0xDD) (k := 1) (.fisttp <| .m64 ·) (opens_one rfl) fun _x _y => rfl

theorem encoded_fld (a : FLong) : (Instr.fld a).Encoded := by
  induction a with
  | m32 m => exact encodes_f (b := 0xD9) (k := 0) (.fld <| .m32 ·) (opens_one rfl) fun _x _y => rfl
  | m64 m => exact encodes_f (b := 0xDD) (k := 0) (.fld <| .m64 ·) (opens_one rfl) fun _x _y => rfl
  | m80 m => exact encodes_f (b := 0xDB) (k := 5) (.fld <| .m80 ·) (opens_one rfl) fun _x _y => rfl
  | sti i => exact encodes_fpuReg (b := 0xD9) 0 i (opens_one rfl) rfl

theorem encoded_fst (a : FCmp) : (Instr.fst a).Encoded := by
  induction a with
  | m32 m => exact encodes_f (b := 0xD9) (k := 2) (.fst <| .m32 ·) (opens_one rfl) fun _x _y => rfl
  | m64 m => exact encodes_f (b := 0xDD) (k := 2) (.fst <| .m64 ·) (opens_one rfl) fun _x _y => rfl
  | sti i => exact encodes_fpuReg (b := 0xDD) 2 i (opens_one rfl) rfl

theorem encoded_fstp (a : FLong) : (Instr.fstp a).Encoded := by
  induction a with
  | m32 m => exact encodes_f (b := 0xD9) (k := 3) (.fstp <| .m32 ·) (opens_one rfl) fun _x _y => rfl
  | m64 m => exact encodes_f (b := 0xDD) (k := 3) (.fstp <| .m64 ·) (opens_one rfl) fun _x _y => rfl
  | m80 m => exact encodes_f (b := 0xDB) (k := 7) (.fstp <| .m80 ·) (opens_one rfl) fun _x _y => rfl
  | sti i => exact encodes_fpuReg (b := 0xDD) 3 i (opens_one rfl) rfl

theorem encoded_fnstsw (a : FSw) : (Instr.fnstsw a).Encoded := by
  induction a with
  | mem m => exact encodes_f (b := 0xDD) (k := 7) (.fnstsw <| .mem ·) (opens_one rfl) fun _x _y => rfl
  | ax => exact encodes_fpuReg (b := 0xDF) 4 0 (opens_one rfl) rfl

/-! ### SSE instructions -/

section
variable {c : CodeSize} {d : Reg} {s : XM} {y : Bool} {z : Rep} {t : List Byte}

theorem encodes_sse (f : Reg → XM → Instr)
    (ho : let x := ({ p66 := y, rep := z } : Pre).rmCtx c d (rmEnc c s)
      Opens 0x0F t x (nextModRm >>= fun m => nextRm x m >>= fun s => pure (f (regOf x m) s))) :
    okXmm c d s = true → Encodes c (encRegRm c { p66 := y, rep := z } (0x0F :: t) d s []) (f d s) :=
  encoded_reg selects_none operand_rm (fun _x => f) ho

/-- The SSE compares, with their predicate (R601 to R604). -/
theorem encodes_sseCmp {n : Byte} (f : Reg → XM → Byte → Instr)
    (ho : let x := ({ p66 := y, rep := z } : Pre).rmCtx c d (rmEnc c s)
      Opens 0x0F t x (nextModRm >>= fun m => nextRm x m >>= fun s => nextField 8 >>= fun n => pure (f (regOf x m) s n)))
    (h : okXmm c d s = true) : Encodes c (encRegRm c { p66 := y, rep := z } (0x0F :: t) d s [n]) (f d s n) :=
  and_elim h fun hd hs => encodes_operand (selects_none rfl) (okReg_ext hd) (operand_rm hs) ho
    (fun _x d s => nextField 8 >>= fun n => pure (f d s n)) rfl rfl ((reads_byteField n).map _)

/-- The width of a general register in a conversion (R636). -/
theorem selects_cvt {w : Width} (h : (w == .b32 || (w == .b64 && c == .c64)) = true) :
    Selects c { rep := z, w := w == .b64 } Ctx.cvtWidth w := by
  induction w with
  | b8 | b16 => exact (Bool.false_ne_true h).elim
  | b32 => exact (selects_w (z := false) rfl).map fun b => if b = true then Width.b64 else .b32
  | b64 => exact (selects_w (z := true) h).map fun b => if b = true then Width.b64 else .b32

/-- A conversion to an MMX register (R630, R633 to R635). -/
theorem encodes_toMmx {k : Reg3} (f : Reg3 → XM → Instr)
    (ho : let x := ({ p66 := y } : Pre).rmCtx c (0#1 ++ k) (rmEnc c s)
      Opens 0x0F t x (nextModRm >>= fun m => nextRm x m >>= fun s => pure (f m.reg s))) (h : okRm c s = true) :
    Encodes c (encRm c { p66 := y } (0x0F :: t) k s []) (f k s) :=
  encodes_operand (selects_none rfl) (fun h => absurd h (digit_noExt k)) (operand_rm h) ho (fun _x _y s => pure (f k s))
    (digit_ext k) rfl (Reads.pure _)

end
end Sys2Proof
end

