-- ==== Sys2Proof/Proofs/RoundTripBranches.lean ====
section
/-! The round trip of the branches and of the system, x87 and SSE instructions: each instruction by the lemma about its
operand form, its opcode and, in a group, its digit. -/

namespace Sys2Proof

section
variable {i j : Instr} {l m : List Instr}

theorem roundTrip_of_mem_nil (h : i ∈ []) : i.RoundTrip := absurd h List.not_mem_nil

theorem roundTrip_of_mem_cons (hj : j.Encoded) (hl : i ∈ l → i.RoundTrip) (h : i ∈ j :: l) : i.RoundTrip :=
  (List.mem_cons.mp h).elim (fun h => h ▸ hj.roundTrip) hl

theorem roundTrip_of_mem_append (hl : i ∈ l → i.RoundTrip) (hm : i ∈ m → i.RoundTrip) (h : i ∈ l ++ m) : i.RoundTrip :=
  (List.mem_append.mp h).elim hl hm

end

/-- Settles O58: every instruction of the four lists is encoded by one of the operand forms. -/
theorem decodeEncodeBranches : Obligations.DecodeEncodeBranches :=
  fun _w rel _y b x _off sel pop r _mem z fa k fi _fm fc fl fg fs _mm _ =>
  roundTrip_of_mem_append (roundTrip_of_mem_append (roundTrip_of_mem_append (
    -- the branches (R320 to R350)
    roundTrip_of_mem_cons (encodes_jcc 0 .jo (opens_one rfl) (opens_two _)) <|
    roundTrip_of_mem_cons (encodes_jcc 1 .jno (opens_one rfl) (opens_two _)) <|
    roundTrip_of_mem_cons (encodes_jcc 2 .jb (opens_one rfl) (opens_two _)) <|
    roundTrip_of_mem_cons (encodes_jcc 3 .jae (opens_one rfl) (opens_two _)) <|
    roundTrip_of_mem_cons (encodes_jcc 4 .je (opens_one rfl) (opens_two _)) <|
    roundTrip_of_mem_cons (encodes_jcc 5 .jne (opens_one rfl) (opens_two _)) <|
    roundTrip_of_mem_cons (encodes_jcc 6 .jbe (opens_one rfl) (opens_two _)) <|
    roundTrip_of_mem_cons (encodes_jcc 7 .ja (opens_one rfl) (opens_two _)) <|
    roundTrip_of_mem_cons (encodes_jcc 8 .js (opens_one rfl) (opens_two _)) <|
    roundTrip_of_mem_cons (encodes_jcc 9 .jns (opens_one rfl) (opens_two _)) <|
    roundTrip_of_mem_cons (encodes_jcc 10 .jp (opens_one rfl) (opens_two _)) <|
    roundTrip_of_mem_cons (encodes_jcc 11 .jnp (opens_one rfl) (opens_two _)) <|
    roundTrip_of_mem_cons (encodes_jcc 12 .jl (opens_one rfl) (opens_two _)) <|
    roundTrip_of_mem_cons (encodes_jcc 13 .jge (opens_one rfl) (opens_two _)) <|
    roundTrip_of_mem_cons (encodes_jcc 14 .jle (opens_one rfl) (opens_two _)) <|
    roundTrip_of_mem_cons (encodes_jcc 15 .jg (opens_one rfl) (opens_two _)) <|
    roundTrip_of_mem_cons (encodes_loop .jcxz (opens_one rfl)) <|
    roundTrip_of_mem_cons (encodes_loop .loop (opens_one rfl)) <|
    roundTrip_of_mem_cons (encodes_loop .loope (opens_one rfl)) <|
    roundTrip_of_mem_cons (encodes_loop .loopne (opens_one rfl)) <|
    roundTrip_of_mem_cons (encoded_jmpRel rel) <|
    roundTrip_of_mem_cons (fun _c => encoded_digit selects_near operand_rm .jmpInd (opens_one rfl) fun _x => rfl) <|
    roundTrip_of_mem_cons (encodes_far .jmpFarPtr (opens_one rfl)) <|
    roundTrip_of_mem_cons (fun _c => encoded_digit selects_osz operand_rm .jmpFarMem (opens_one rfl) fun _x => rfl) <|
    roundTrip_of_mem_cons (encoded_callRel rel) <|
    roundTrip_of_mem_cons (fun _c => encoded_digit selects_near operand_rm .callInd (opens_one rfl) fun _x => rfl) <|
    roundTrip_of_mem_cons (encodes_far .callFarPtr (opens_one rfl)) <|
    roundTrip_of_mem_cons (fun _c => encoded_digit selects_osz operand_rm .callFarMem (opens_one rfl) fun _x => rfl) <|
    roundTrip_of_mem_cons (fun _c => encodes_ret selects_near .ret pop (opens_one rfl) (opens_one rfl)) <|
    roundTrip_of_mem_cons (fun _c => encodes_ret selects_osz .retFar pop (opens_one rfl) (opens_one rfl)) <|
    roundTrip_of_mem_cons (encoded_enter sel b) <|
    roundTrip_of_mem_cons (fun _c => encodes_sized selects_stack .leave (opens_one rfl)) <|
    roundTrip_of_mem_cons (fun _c => encoded_reg (selects_half And.left) operand_rm .bound (opens_one rfl _)) <|
    roundTrip_of_mem_cons (encodes_bare [] (b := 0xCD) (r := fun _x => nextField 8 >>= fun v => pure (.int v)) (opens_one rfl) fun _x => (reads_byteField b).map Instr.int) <|
    roundTrip_of_mem_cons (encodes_one (opens_one rfl)) <|
    roundTrip_of_mem_cons (encodes_one (opens_one rfl)) <|
    roundTrip_of_mem_cons (fun _c => encodes_sized selects_halfTwin id (opens_one rfl)) <|
    roundTrip_of_mem_cons (fun _c => encodes_sized selects_longTwin id (opens_one rfl)) <|
    roundTrip_of_mem_nil) <|
    -- the system instructions (R380 to R432)
    roundTrip_of_mem_cons (encoded_arpl x r) <|
    roundTrip_of_mem_cons (encodes_one (opens_one rfl)) <|
    roundTrip_of_mem_cons (encodes_one (opens_one rfl)) <|
    roundTrip_of_mem_cons (encodes_one (opens_one rfl)) <|
    roundTrip_of_mem_cons (encodes_two 0x06 (opens_two _)) <|
    roundTrip_of_mem_cons (encodes_one (opens_one rfl)) <|
    roundTrip_of_mem_cons (encodes_one (opens_one rfl)) <|
    roundTrip_of_mem_cons (encodes_one (opens_one rfl)) <|
    roundTrip_of_mem_cons (encodes_one (opens_one rfl)) <|
    roundTrip_of_mem_cons (fun _c => encoded_digit selects_none operand_mem (fun _u => .clflush) (opens_two 0xAE) fun _x => ite_memEnc_mod ..) <|
    roundTrip_of_mem_cons (encodes_two 0xA2 (opens_two _)) <|
    roundTrip_of_mem_cons (encodes_one (opens_one rfl)) <|
    roundTrip_of_mem_cons (encodes_two 0x08 (opens_two _)) <|
    roundTrip_of_mem_cons (encoded_invlpg x) <|
    roundTrip_of_mem_cons (encodes_bare [0xAE] (tail := [0xE8]) (opens_two 0xAE) (fun _x _m => rfl)) <|
    roundTrip_of_mem_cons (encodes_bare [0xAE] (tail := [0xF0]) (opens_two 0xAE) (fun _x _m => rfl)) <|
    roundTrip_of_mem_cons (encodes_bare [0xAE] (tail := [0xF8]) (opens_two 0xAE) (fun _x _m => rfl)) <|
    roundTrip_of_mem_cons (encodes_two 0x09 (opens_two _)) <|
    roundTrip_of_mem_cons (fun _c => encoded_reg selects_osz operand_rm .lar (opens_two 0x02 _)) <|
    roundTrip_of_mem_cons (fun _c => encoded_reg selects_osz operand_rm .lsl (opens_two 0x03 _)) <|
    roundTrip_of_mem_cons (fun _c => encoded_reg (selects_half And.left) operand_rm .lds (opens_one rfl _)) <|
    roundTrip_of_mem_cons (fun _c => encoded_reg (selects_half And.left) operand_rm .les (opens_one rfl _)) <|
    roundTrip_of_mem_cons (fun _c => encoded_reg selects_osz operand_rm .lss (opens_two 0xB2 _)) <|
    roundTrip_of_mem_cons (fun _c => encoded_reg selects_osz operand_rm .lfs (opens_two 0xB4 _)) <|
    roundTrip_of_mem_cons (fun _c => encoded_reg selects_osz operand_rm .lgs (opens_two 0xB5 _)) <|
    roundTrip_of_mem_cons (fun _c => encoded_digit (selects_half And.left) operand_rm .lgdt (opens_two 0x01) fun _x => rfl) <|
    roundTrip_of_mem_cons (fun _c => encoded_digit (selects_half And.left) operand_rm .lidt (opens_two 0x01) fun _x => rfl) <|
    roundTrip_of_mem_cons (fun _c => encoded_digit selects_none operand_rm (fun _u => .lldt) (opens_two 0x00) fun _x => rfl) <|
    roundTrip_of_mem_cons (fun _c => encoded_digit selects_none operand_rm (fun _u => .ltr) (opens_two 0x00) fun _x => rfl) <|
    roundTrip_of_mem_cons (fun _c => encoded_digit selects_none operand_rm (fun _u => .lmsw) (opens_two 0x01) fun _x => rfl) <|
    roundTrip_of_mem_cons (fun _c => encoded_digit selects_none operand_mem (fun _u => .sgdt) (opens_two 0x01) fun _x => rfl) <|
    roundTrip_of_mem_cons (fun _c => encoded_digit selects_none operand_mem (fun _u => .sidt) (opens_two 0x01) fun _x => ite_memEnc_mod ..) <|
    roundTrip_of_mem_cons (fun _c => encoded_digit selects_osz operand_rm .sldt (opens_two 0x00) fun _x => rfl) <|
    roundTrip_of_mem_cons (fun _c => encoded_digit selects_osz operand_rm .str (opens_two 0x00) fun _x => rfl) <|
    roundTrip_of_mem_cons (fun _c => encoded_digit selects_osz operand_rm .smsw (opens_two 0x01) fun _x => rfl) <|
    roundTrip_of_mem_cons (fun _c => encoded_digit selects_none operand_rm (fun _u => .verr) (opens_two 0x00) fun _x => rfl) <|
    roundTrip_of_mem_cons (fun _c => encoded_digit selects_none operand_rm (fun _u => .verw) (opens_two 0x00) fun _x => rfl) <|
    roundTrip_of_mem_cons (encodes_bare [0x01] (tail := [0xF8]) (opens_two 0x01) (fun _x _m => rfl)) <|
    roundTrip_of_mem_cons (encodes_two 0x05 (opens_two _)) <|
    roundTrip_of_mem_cons (encoded_sysret z) <|
    roundTrip_of_mem_cons (encodes_two 0x34 (opens_two _)) <|
    roundTrip_of_mem_cons (encodes_two 0x35 (opens_two _)) <|
    roundTrip_of_mem_cons (encodes_two 0x30 (opens_two _)) <|
    roundTrip_of_mem_cons (encodes_two 0x32 (opens_two _)) <|
    roundTrip_of_mem_cons (encodes_two 0x0B (opens_two _)) <|
    roundTrip_of_mem_cons (encodes_two 0x31 (opens_two _)) <|
    roundTrip_of_mem_cons (encodes_two 0x33 (opens_two _)) <|
    roundTrip_of_mem_cons (encodes_bare [0x01] (tail := [0xC8]) (opens_two 0x01) (fun _x _m => rfl)) <|
    roundTrip_of_mem_cons (encodes_bare [0x01] (tail := [0xC9]) (opens_two 0x01) (fun _x _m => rfl)) <|
    roundTrip_of_mem_cons (encodes_two 0xAA (opens_two _)) <|
    roundTrip_of_mem_nil) <|
    -- the x87 instructions, FXSAVE and FXRSTOR (R440 to R512)
    roundTrip_of_mem_cons (fun _c => fun h => and_elim h fun hm hw => encoded_digit selects_w operand_mem .fxsave (opens_two 0xAE) (fun _x => rfl) (Bool.and_eq_true_iff.mpr ⟨hw, hm⟩)) <|
    roundTrip_of_mem_cons (fun _c => fun h => and_elim h fun hm hw => encoded_digit selects_w operand_mem .fxrstor (opens_two 0xAE) (fun _x => rfl) (Bool.and_eq_true_iff.mpr ⟨hw, hm⟩)) <|
    roundTrip_of_mem_cons (encodes_two 0x77 (opens_two _)) <|
    roundTrip_of_mem_cons (encodes_fpuReg 6 0 (opens_one rfl) rfl) <|
    roundTrip_of_mem_cons (encodes_fpuReg 4 1 (opens_one rfl) rfl) <|
    roundTrip_of_mem_cons (encodes_fArith .fadd fa (fun _x _m => rfl) (fun _x _m => rfl) (fun _x => rfl) fun _x => rfl) <|
    roundTrip_of_mem_cons (encodes_fpuReg 0 k (opens_one rfl) rfl) <|
    roundTrip_of_mem_cons (encodes_fInt fi 0) <|
    roundTrip_of_mem_cons (encodes_fArith .fmul fa (fun _x _m => rfl) (fun _x _m => rfl) (fun _x => rfl) fun _x => rfl) <|
    roundTrip_of_mem_cons (encodes_fpuReg 1 k (opens_one rfl) rfl) <|
    roundTrip_of_mem_cons (encodes_fInt fi 1) <|
    roundTrip_of_mem_cons (encodes_fArith .fsub fa (fun _x _m => rfl) (fun _x _m => rfl) (fun _x => rfl) fun _x => rfl) <|
    roundTrip_of_mem_cons (encodes_fpuReg 5 k (opens_one rfl) rfl) <|
    roundTrip_of_mem_cons (encodes_fInt fi 4) <|
    roundTrip_of_mem_cons (encodes_fArith .fsubr fa (fun _x _m => rfl) (fun _x _m => rfl) (fun _x => rfl) fun _x => rfl) <|
    roundTrip_of_mem_cons (encodes_fpuReg 4 k (opens_one rfl) rfl) <|
    roundTrip_of_mem_cons (encodes_fInt fi 5) <|
    roundTrip_of_mem_cons (encodes_fArith .fdiv fa (fun _x _m => rfl) (fun _x _m => rfl) (fun _x => rfl) fun _x => rfl) <|
    roundTrip_of_mem_cons (encodes_fpuReg 7 k (opens_one rfl) rfl) <|
    roundTrip_of_mem_cons (encodes_fInt fi 6) <|
    roundTrip_of_mem_cons (encodes_fArith .fdivr fa (fun _x _m => rfl) (fun _x _m => rfl) (fun _x => rfl) fun _x => rfl) <|
    roundTrip_of_mem_cons (encodes_fpuReg 6 k (opens_one rfl) rfl) <|
    roundTrip_of_mem_cons (encodes_fInt fi 7) <|
    roundTrip_of_mem_cons (encodes_f .fbld (opens_one rfl) fun _x _m => rfl) <|
    roundTrip_of_mem_cons (encodes_f .fbstp (opens_one rfl) fun _x _m => rfl) <|
    roundTrip_of_mem_cons (encodes_fpuReg 4 0 (opens_one rfl) rfl) <|
    roundTrip_of_mem_cons (encodes_fpuReg 4 2 (opens_one rfl) rfl) <|
    roundTrip_of_mem_cons (encodes_fpuReg 0 k (opens_one rfl) rfl) <|
    roundTrip_of_mem_cons (encodes_fpuReg 1 k (opens_one rfl) rfl) <|
    roundTrip_of_mem_cons (encodes_fpuReg 2 k (opens_one rfl) rfl) <|
    roundTrip_of_mem_cons (encodes_fpuReg 3 k (opens_one rfl) rfl) <|
    roundTrip_of_mem_cons (encodes_fpuReg 0 k (opens_one rfl) rfl) <|
    roundTrip_of_mem_cons (encodes_fpuReg 1 k (opens_one rfl) rfl) <|
    roundTrip_of_mem_cons (encodes_fpuReg 2 k (opens_one rfl) rfl) <|
    roundTrip_of_mem_cons (encodes_fpuReg 3 k (opens_one rfl) rfl) <|
    roundTrip_of_mem_cons (encodes_fCom .fcom fc (fun _x _m => rfl) (fun _x _m => rfl) fun _x => rfl) <|
    roundTrip_of_mem_cons (encodes_fCom .fcomp fc (fun _x _m => rfl) (fun _x _m => rfl) fun _x => rfl) <|
    roundTrip_of_mem_cons (encodes_fpuReg 3 1 (opens_one rfl) rfl) <|
    roundTrip_of_mem_cons (encodes_fpuReg 6 k (opens_one rfl) rfl) <|
    roundTrip_of_mem_cons (encodes_fpuReg 6 k (opens_one rfl) rfl) <|
    roundTrip_of_mem_cons (encodes_fpuReg 5 k (opens_one rfl) rfl) <|
    roundTrip_of_mem_cons (encodes_fpuReg 5 k (opens_one rfl) rfl) <|
    roundTrip_of_mem_cons (encodes_fpuReg 7 7 (opens_one rfl) rfl) <|
    roundTrip_of_mem_cons (encodes_fpuReg 6 6 (opens_one rfl) rfl) <|
    roundTrip_of_mem_cons (encodes_fpuReg 0 k (opens_one rfl) rfl) <|
    roundTrip_of_mem_cons (encodes_fInt fi 2) <|
    roundTrip_of_mem_cons (encodes_fInt fi 3) <|
    roundTrip_of_mem_cons (encodes_fIntL .fild fl (fun _x _m => rfl) (fun _x _m => rfl) fun _x _m => rfl) <|
    roundTrip_of_mem_cons (encodes_fpuReg 6 7 (opens_one rfl) rfl) <|
    roundTrip_of_mem_cons (encodes_fpuReg 4 3 (opens_one rfl) rfl) <|
    roundTrip_of_mem_cons (encoded_fist fi) <|
    roundTrip_of_mem_cons (encodes_fIntL .fistp fl (fun _x _m => rfl) (fun _x _m => rfl) fun _x _m => rfl) <|
    roundTrip_of_mem_cons (encoded_fisttp fl) <|
    roundTrip_of_mem_cons (encoded_fld fg) <|
    roundTrip_of_mem_cons (encodes_fpuReg 5 0 (opens_one rfl) rfl) <|
    roundTrip_of_mem_cons (encodes_fpuReg 5 1 (opens_one rfl) rfl) <|
    roundTrip_of_mem_cons (encodes_fpuReg 5 2 (opens_one rfl) rfl) <|
    roundTrip_of_mem_cons (encodes_fpuReg 5 3 (opens_one rfl) rfl) <|
    roundTrip_of_mem_cons (encodes_fpuReg 5 4 (opens_one rfl) rfl) <|
    roundTrip_of_mem_cons (encodes_fpuReg 5 5 (opens_one rfl) rfl) <|
    roundTrip_of_mem_cons (encodes_fpuReg 5 6 (opens_one rfl) rfl) <|
    roundTrip_of_mem_cons (encodes_f .fldcw (opens_one rfl) fun _x _m => rfl) <|
    roundTrip_of_mem_cons (fun _c => encodes_fpuMem (selects_half fun h => h.2.2.1) .fldenv (opens_one rfl) fun _x _m => rfl) <|
    roundTrip_of_mem_cons (encodes_fpuReg 2 0 (opens_one rfl) rfl) <|
    roundTrip_of_mem_cons (encodes_fpuReg 6 3 (opens_one rfl) rfl) <|
    roundTrip_of_mem_cons (encodes_fpuReg 7 0 (opens_one rfl) rfl) <|
    roundTrip_of_mem_cons (encodes_fpuReg 6 5 (opens_one rfl) rfl) <|
    roundTrip_of_mem_cons (encodes_fpuReg 6 2 (opens_one rfl) rfl) <|
    roundTrip_of_mem_cons (encodes_fpuReg 7 4 (opens_one rfl) rfl) <|
    roundTrip_of_mem_cons (fun _c => encodes_fpuMem (selects_half fun h => h.2.2.1) .frstor (opens_one rfl) fun _x _m => rfl) <|
    roundTrip_of_mem_cons (fun _c => encodes_fpuMem (selects_half fun h => h.2.2.1) .fnsave (opens_one rfl) fun _x _m => rfl) <|
    roundTrip_of_mem_cons (encodes_fpuReg 7 5 (opens_one rfl) rfl) <|
    roundTrip_of_mem_cons (encodes_fpuReg 7 6 (opens_one rfl) rfl) <|
    roundTrip_of_mem_cons (encodes_fpuReg 7 3 (opens_one rfl) rfl) <|
    roundTrip_of_mem_cons (encodes_fpuReg 7 2 (opens_one rfl) rfl) <|
    roundTrip_of_mem_cons (encoded_fst fc) <|
    roundTrip_of_mem_cons (encoded_fstp fg) <|
    roundTrip_of_mem_cons (encodes_f .fnstcw (opens_one rfl) fun _x _m => rfl) <|
    roundTrip_of_mem_cons (fun _c => encodes_fpuMem (selects_half fun h => h.2.2.1) .fnstenv (opens_one rfl) fun _x _m => rfl) <|
    roundTrip_of_mem_cons (encoded_fnstsw fs) <|
    roundTrip_of_mem_cons (encodes_fpuReg 4 4 (opens_one rfl) rfl) <|
    roundTrip_of_mem_cons (encodes_fpuReg 4 k (opens_one rfl) rfl) <|
    roundTrip_of_mem_cons (encodes_fpuReg 5 k (opens_one rfl) rfl) <|
    roundTrip_of_mem_cons (encodes_fpuReg 5 1 (opens_one rfl) rfl) <|
    roundTrip_of_mem_cons (encodes_one (opens_one rfl)) <|
    roundTrip_of_mem_cons (encodes_fpuReg 4 5 (opens_one rfl) rfl) <|
    roundTrip_of_mem_cons (encodes_fpuReg 1 k (opens_one rfl) rfl) <|
    roundTrip_of_mem_cons (encodes_fpuReg 6 4 (opens_one rfl) rfl) <|
    roundTrip_of_mem_cons (encodes_fpuReg 6 1 (opens_one rfl) rfl) <|
    roundTrip_of_mem_cons (encodes_fpuReg 7 1 (opens_one rfl) rfl) <|
    roundTrip_of_mem_nil) <|
    -- the SSE instructions (R570 to R651)
    roundTrip_of_mem_cons (fun _c => encodes_sse .addpd (opens_two 0x58 _)) <|
    roundTrip_of_mem_cons (fun _c => encodes_sse .addps (opens_two 0x58 _)) <|
    roundTrip_of_mem_cons (fun _c => encodes_sse .addsd (opens_two 0x58 _)) <|
    roundTrip_of_mem_cons (fun _c => encodes_sse .addss (opens_two 0x58 _)) <|
    roundTrip_of_mem_cons (fun _c => encodes_sse .addsubpd (opens_two 0xD0 _)) <|
    roundTrip_of_mem_cons (fun _c => encodes_sse .addsubps (opens_two 0xD0 _)) <|
    roundTrip_of_mem_cons (fun _c => encodes_sse .haddpd (opens_two 0x7C _)) <|
    roundTrip_of_mem_cons (fun _c => encodes_sse .haddps (opens_two 0x7C _)) <|
    roundTrip_of_mem_cons (fun _c => encodes_sse .hsubpd (opens_two 0x7D _)) <|
    roundTrip_of_mem_cons (fun _c => encodes_sse .hsubps (opens_two 0x7D _)) <|
    roundTrip_of_mem_cons (fun _c => encodes_sse .divpd (opens_two 0x5E _)) <|
    roundTrip_of_mem_cons (fun _c => encodes_sse .divps (opens_two 0x5E _)) <|
    roundTrip_of_mem_cons (fun _c => encodes_sse .divsd (opens_two 0x5E _)) <|
    roundTrip_of_mem_cons (fun _c => encodes_sse .divss (opens_two 0x5E _)) <|
    roundTrip_of_mem_cons (fun _c => encodes_sse .andpd (opens_two 0x54 _)) <|
    roundTrip_of_mem_cons (fun _c => encodes_sse .andps (opens_two 0x54 _)) <|
    roundTrip_of_mem_cons (fun _c => encodes_sse .andnpd (opens_two 0x55 _)) <|
    roundTrip_of_mem_cons (fun _c => encodes_sse .andnps (opens_two 0x55 _)) <|
    roundTrip_of_mem_cons (fun _c => encodes_sseCmp .cmppd (opens_two 0xC2 _)) <|
    roundTrip_of_mem_cons (fun _c => encodes_sseCmp .cmpps (opens_two 0xC2 _)) <|
    roundTrip_of_mem_cons (fun _c => encodes_sseCmp .cmpsd (opens_two 0xC2 _)) <|
    roundTrip_of_mem_cons (fun _c => encodes_sseCmp .cmpss (opens_two 0xC2 _)) <|
    roundTrip_of_mem_cons (fun _c => encodes_sse .comisd (opens_two 0x2F _)) <|
    roundTrip_of_mem_cons (fun _c => encodes_sse .comiss (opens_two 0x2F _)) <|
    roundTrip_of_mem_cons (fun _c => encodes_sse .cvtdq2pd (opens_two 0xE6 _)) <|
    roundTrip_of_mem_cons (fun _c => encodes_sse .cvtdq2ps (opens_two 0x5B _)) <|
    roundTrip_of_mem_cons (fun _c => encodes_sse .cvtpd2dq (opens_two 0xE6 _)) <|
    roundTrip_of_mem_cons (fun _c => encodes_sse .cvtpd2ps (opens_two 0x5A _)) <|
    roundTrip_of_mem_cons (fun _c => encodes_sse .cvtps2dq (opens_two 0x5B _)) <|
    roundTrip_of_mem_cons (fun _c => encodes_sse .cvtps2pd (opens_two 0x5A _)) <|
    roundTrip_of_mem_cons (fun _c => encodes_sse .cvttpd2dq (opens_two 0xE6 _)) <|
    roundTrip_of_mem_cons (fun _c => encodes_sse .cvttps2dq (opens_two 0x5B _)) <|
    roundTrip_of_mem_cons (fun _c => encodes_toMmx .cvtpd2pi (opens_two 0x2D _)) <|
    roundTrip_of_mem_cons (fun _c => encodes_toMmx .cvtps2pi (opens_two 0x2D _)) <|
    roundTrip_of_mem_cons (fun _c => encodes_toMmx .cvttpd2pi (opens_two 0x2C _)) <|
    roundTrip_of_mem_cons (fun _c => encodes_toMmx .cvttps2pi (opens_two 0x2C _)) <|
    roundTrip_of_mem_cons (fun _c => encoded_reg selects_none operand_mm (fun _u => .cvtpi2pd) (opens_two 0x2A _)) <|
    roundTrip_of_mem_cons (fun _c => encoded_reg selects_none operand_mm (fun _u => .cvtpi2ps) (opens_two 0x2A _)) <|
    roundTrip_of_mem_cons (fun _c => encoded_reg selects_cvt operand_rm .cvtsd2si (opens_two 0x2D _)) <|
    roundTrip_of_mem_cons (fun _c => encoded_reg selects_cvt operand_rm .cvttsd2si (opens_two 0x2C _)) <|
    roundTrip_of_mem_cons (fun _c => encoded_reg selects_cvt operand_rm .cvtss2si (opens_two 0x2D _)) <|
    roundTrip_of_mem_cons (fun _c => encoded_reg selects_cvt operand_rm .cvttss2si (opens_two 0x2C _)) <|
    roundTrip_of_mem_cons (fun _c => encodes_sse .cvtsd2ss (opens_two 0x5A _)) <|
    roundTrip_of_mem_cons (fun _c => encodes_sse .cvtss2sd (opens_two 0x5A _)) <|
    roundTrip_of_mem_cons (fun _c => encoded_reg selects_cvt operand_rm .cvtsi2sd (opens_two 0x2A _)) <|
    roundTrip_of_mem_cons (fun _c => encoded_reg selects_cvt operand_rm .cvtsi2ss (opens_two 0x2A _)) <|
    roundTrip_of_mem_cons (fun _c => encodes_sse .lddqu (opens_two 0xF0 _)) <|
    roundTrip_of_mem_cons (fun _c => encoded_digit selects_none operand_mem (fun _u => .ldmxcsr) (opens_two 0xAE) fun _x => rfl) <|
    roundTrip_of_mem_nil

end Sys2Proof
end

