-- ==== Sys2Proof/Proofs/Undefined.lean ====
section
/-! The instructions that 64-bit mode does not have and the misplaced LOCK prefixes (O7). -/

namespace Sys2Proof.Machine

open Sys2Proof

theorem runSeq_invalid64 {s : State} (h : s.is64 = true) {f : Unit → M Unit} : runSeq (invalid64 >>= f) s = deliver udFault s :=
  runSeq_raise (M.bind_of_error (congrArg (raiseIf · udFault s) h))

theorem runInstr_invalid64 {s : State} (h : s.is64 = true) {f : Unit → M Unit} :
    runInstr (invalid64 >>= f) s = deliver udFault s :=
  runInstr_raise (M.bind_of_error (congrArg (raiseIf · udFault s) h))

theorem runSeq_undefined {s : State} : runSeq (raise udFault) s = deliver udFault s := runSeq_raise rfl

theorem runSeq_lockedIf {s : State} {c : Bool} {m : M Unit} (h : c = false) : runSeq (lockedIf c m) s = deliver udFault s :=
  runSeq_raise (congrFun (congrArg (lockedIf · m) h) s)

/-- PUSH of a segment register that 64-bit mode does not push (R789). -/
theorem runSeq_pushForm_sreg {s : State} (h : s.is64 = true) {w : Width} {g : SReg} (hg : stackable64 g = false) :
    runSeq (pushForm (.sreg w g)) s = deliver udFault s :=
  runSeq_raise ((M.bind_of_ok (m := readS id) rfl).trans (M.check_raised (congrArg₂ (fun a b => a && !b) h hg)))

/-- POP of a segment register that 64-bit mode does not pop (R788). -/
theorem runSeq_popForm_sreg {s : State} (h : s.is64 = true) {w : Width} {g : SReg} (hg : stackable64 g = false) :
    runSeq (popForm (.sreg w g)) s = deliver udFault s :=
  runSeq_raise ((M.bind_of_ok (m := readS State.is64) rfl).trans <|
    M.check_raised ((congrArg₂ (fun a b => g == .cs || a && !b) h hg).trans (Bool.or_true _)))

end Sys2Proof.Machine

namespace Sys2Proof

open Machine

theorem forall_mem_cons_of {α : Type} {P : α → Prop} {a : α} {l : List α} (h : P a) (hl : ∀ x ∈ l, P x) : ∀ x ∈ a :: l, P x :=
  List.forall_mem_cons.mpr ⟨h, hl⟩

/-- Settles O7: each form begins with the check that raises #UD. -/
theorem undefinedInstructions : Obligations.UndefinedInstructions :=
  ⟨fun _x h _y _z _u _v _a _b =>
    forall_mem_cons_of (runSeq_invalid64 h) <|
    forall_mem_cons_of (runSeq_invalid64 h) <|
    forall_mem_cons_of (runSeq_invalid64 h) <|
    forall_mem_cons_of (runSeq_invalid64 h) <|
    forall_mem_cons_of (runSeq_invalid64 h) <|
    forall_mem_cons_of (runSeq_invalid64 h) <|
    forall_mem_cons_of (runSeq_invalid64 h) <|
    forall_mem_cons_of (runSeq_invalid64 h) <|
    forall_mem_cons_of (runSeq_invalid64 h) <|
    forall_mem_cons_of (runSeq_invalid64 h) <|
    forall_mem_cons_of (runSeq_invalid64 h) <|
    forall_mem_cons_of (runSeq_invalid64 h) <|
    forall_mem_cons_of (runSeq_invalid64 h) <|
    forall_mem_cons_of (runSeq_invalid64 h) <|
    forall_mem_cons_of (runInstr_invalid64 h) <|
    forall_mem_cons_of (runInstr_invalid64 h) <|
    forall_mem_cons_of (runSeq_pushForm_sreg h rfl) <|
    forall_mem_cons_of (runSeq_pushForm_sreg h rfl) <|
    forall_mem_cons_of (runSeq_pushForm_sreg h rfl) <|
    forall_mem_cons_of (runSeq_pushForm_sreg h rfl) <|
    forall_mem_cons_of (runSeq_popForm_sreg h rfl) <|
    forall_mem_cons_of (runSeq_popForm_sreg h rfl) <|
    forall_mem_cons_of (runSeq_popForm_sreg h rfl) <|
    fun _x h => absurd h List.not_mem_nil,
  fun _x _y _z _u _v _a _b _d ha =>
    forall_mem_cons_of (runSeq_lockedIf ha) <|
    forall_mem_cons_of (runSeq_lockedIf ha) <|
    forall_mem_cons_of (runSeq_lockedIf ha) <|
    forall_mem_cons_of (runSeq_lockedIf ha) <|
    forall_mem_cons_of (runSeq_lockedIf ha) <|
    forall_mem_cons_of (runSeq_lockedIf ha) <|
    forall_mem_cons_of (runSeq_lockedIf ha) <|
    forall_mem_cons_of runSeq_undefined <|
    forall_mem_cons_of runSeq_undefined <|
    forall_mem_cons_of runSeq_undefined <|
    forall_mem_cons_of runSeq_undefined <|
    forall_mem_cons_of runSeq_undefined <|
    forall_mem_cons_of runSeq_undefined <|
    forall_mem_cons_of runSeq_undefined <|
    forall_mem_cons_of runSeq_undefined <|
    forall_mem_cons_of runSeq_undefined <|
    forall_mem_cons_of runSeq_undefined <|
    forall_mem_cons_of runSeq_undefined <|
    forall_mem_cons_of runSeq_undefined <|
    forall_mem_cons_of runSeq_undefined <|
    forall_mem_cons_of runSeq_undefined <|
    fun _x h => absurd h List.not_mem_nil⟩

end Sys2Proof
end

