-- ==== Sys2Proof/Proofs/StackMoves.lean ====
section
/-! What the pushes and pops of the stack instructions leave, and each form of PUSH, POP, PUSHF, POPF, PUSHA and POPA. -/

namespace Sys2Proof.Machine

open Sys2Proof

variable {β : Type} {b : β} {t : State} {w : Width} {s u : State} {α : Type} {a : α} {n v : Nat} {g : SReg} {r : Reg}

/-! ### Parts of an instruction that run through and leave the flags -/

/-- `m` runs from `s` to `t` with the value `a` and leaves the flags. -/
noncomputable def Runs (m : M α) (s : State) (a : α) (t : State) : Prop := m s = .ok (a, t) ∧ t.rflags = s.rflags

theorem Runs.bind {m : M α} {f : α → M β} (hm : Runs m s a u) (hf : Runs (f a) u b t) : Runs (m >>= f) s b t :=
  ⟨(M.bind_of_ok hm.1).trans hf.1, hf.2.trans hm.2⟩

theorem runSeq_of_runs {m : M Unit} (h : Runs m s () t) : runSeq m s = .next (t.endWith s.rflags) := runSeq_next h.1 h.2

theorem raiseIf_runs {c : Bool} (h : c = false) (e : Event) : Runs (raiseIf c e) s () s :=
  ⟨congrFun (congrArg (raiseIf · e) h) s, rfl⟩

theorem updIf_runs {c : Prop} [d : Decidable c] {f : State → State} (h : (f s).rflags = s.rflags) :
    Runs (if c then upd f else pure ()) s () (if c then f s else s) := by
  induction d with
  | isTrue => exact ⟨rfl, h⟩
  | isFalse => exact ⟨rfl, rfl⟩

/-! ### Pushes and pops -/

/-- The flags of `t`, and the merge that POPF makes with them, are those of `s`. -/
noncomputable def SameFlags (s t : State) : Prop := t.rflags = s.rflags ∧ mergeFlags t = mergeFlags s

theorem sameFlags_regStable (s : State) : RegStable (SameFlags s) :=
  ⟨⟨fun _x _y _z _u h => h, fun _x _y _z _u h => h⟩, fun _x _y _z h => h, fun _x _y h => h, fun _x _y h => h⟩

theorem Pushed.runs (h : Pushed n v s t) : Runs (push n v) s () t :=
  ⟨push_ok h, ((push_keeps (sameFlags_regStable s) n v).of_ok ⟨rfl, rfl⟩ (push_ok h)).1⟩

theorem Popped.sameFlags (h : Popped n v s t) : SameFlags s t :=
  (pop_keeps (sameFlags_regStable s) n).of_ok ⟨rfl, rfl⟩ (pop_ok h)

theorem Popped.runs (h : Popped n v s t) : Runs (pop n) s v t := ⟨pop_ok h, h.sameFlags.1⟩

/-! ### A load of a segment register leaves the flags (R421) -/

section
variable (f : BitVec 32)

theorem rflags_memStable : MemStable fun t => t.rflags = f :=
  ⟨fun _x _y _z _u h => h, fun _x _y _z _u h => h⟩

theorem setSeg_keepsRflags (r : SReg) (g : State → SegReg) : Keeps (fun t => t.rflags = f) (upd fun t => t.setSeg r (g t)) :=
  .upd fun t => (t.setSeg_rflags r (g t)).trans

theorem loadData_keepsRflags (r : SReg) (sel : BitVec 16) : Keeps (fun t => t.rflags = f) (loadData r sel) := by
  refine .bind (.readS _) fun _x => .ite (setSeg_keepsRflags f r _) (.bind (readDesc_keeps (rflags_memStable f) ..) fun _x => ?_)
  extract_lets +onlyGivenNames d
  refine .bind (.raiseIf ..) fun _x => .bind (.raiseIf ..) fun _x => .bind (.raiseIf ..) fun _x => ?_
  extract_lets +onlyGivenNames rest
  exact .ite (setSeg_keepsRflags f r _) (.bind (sysWrite_keeps (rflags_memStable f) ..) fun _x => setSeg_keepsRflags f r _)

theorem loadStackAt_keepsRflags (sel : BitVec 16) (cpl : Nat) : Keeps (fun t => t.rflags = f) (loadStackAt sel cpl) :=
  .bind (readDesc_keeps (rflags_memStable f) ..) fun _x => .afterCheck <| .afterCheck <| setSeg_keepsRflags f .ss _

theorem loadStack_keepsRflags (sel : BitVec 16) : Keeps (fun t => t.rflags = f) (loadStack sel) :=
  .bind (.readS _) fun _x => .ite (.bind (.raiseIf ..) fun _x => setSeg_keepsRflags f .ss _) (loadStackAt_keepsRflags f sel _)

theorem loadSegment_keepsRflags (r : SReg) (sel : BitVec 16) : Keeps (fun t => t.rflags = f) (loadSegment r sel) :=
  .bind (.readS _) fun _x => .ite (setSeg_keepsRflags f r _) <| .ite (loadStack_keepsRflags f sel) (loadData_keepsRflags f r sel)

end

/-! ### The stack pointer, the segment registers and the lists of PUSHA and POPA -/

/-- A register written at the address size that two bits select (R198). -/
theorem writeReg_ofSize (s : State) (r : Reg) (v : Word) (b c : Bool) :
    s.writeReg (asizeWidth (if b then .a64 else if c then .a32 else .a16)) r (v.setWidth _) =
      if b then s.writeReg .b64 r v else if c then s.writeReg .b32 r (v.setWidth 32) else s.writeReg .b16 r (v.setWidth 16) := by
  induction b with
  | true => exact congrArg (s.writeReg .b64 r) (BitVec.setWidth_eq v)
  | false => exact apply_ite (fun a => s.writeReg (asizeWidth a) r (v.setWidth _)) (c = true) .a32 .a16

/-- The segment registers that 64-bit mode pushes and pops (R787). -/
theorem stackable_of (h : s.is64 = true → g = .fs ∨ g = .gs) : (s.is64 && !stackable64 g) = false :=
  Bool.and_eq_false_imp.mpr fun h64 => (h h64).elim (congrArg (!stackable64 ·)) (congrArg (!stackable64 ·))

theorem pushRegs_runs {s₀ : State} {l : List Reg} (h : PushedAll w.bytes (l.map fun r => (s₀.readReg w r).toNat) s t) :
    Runs (pushRegs w s₀ l) s () t := by
  induction l generalizing s with
  | nil => exact h.symm.subst (motive := Runs (pushRegs w s₀ []) s ()) ⟨rfl, rfl⟩
  | cons r l ih => exact h.elim fun u h => h.1.runs.bind (ih h.2)

theorem popRegs_cons {l : List Reg} (hr : (r == rSP) = false) (h : Popped w.bytes v s u)
    (k : Runs (popRegs w l) (u.writeReg w r (BitVec.ofNat _ v)) () t) : Runs (popRegs w (r :: l)) s () t :=
  h.runs.bind ⟨(congrFun (if_neg (ne_true_of_eq_false hr)) u).trans k.1, k.2⟩

end Sys2Proof.Machine

namespace Sys2Proof

open Machine

/-- Settles O29: the stack pointer by the stack size, then each form by the parts that it runs. -/
theorem pushPop : Obligations.PushPop := by
  refine ⟨fun s v => ⟨rfl, rfl, rfl, writeReg_ofSize s rSP v .., writeReg_ofSize s rBP v ..⟩,
    ⟨fun s w => ⟨fun r t h => ?push_reg, fun imm t h => ?push_imm8, fun imm t h => ?push_imm, fun src v t u hr h => ?push_rm,
      fun g t hg h => ?push_sreg, fun hm n v t => ?push_span⟩,
    fun s t w v h => ⟨fun r => ?pop_reg, fun dst x put hd => ?pop_rm, fun g u hc hg hl => ?pop_sreg⟩⟩,
    fun s t w => ⟨fun h => ?pushf, fun v h => ?popf, fun hs h => ?pusha,
      fun hs di si bp skip bx dx cx ax u0 u1 u2 u3 u4 u5 u6 h0 h1 h2 h3 h4 h5 h6 h7 => ?popa⟩⟩
  case push_reg => exact runSeq_of_runs (m := pushForm (.reg w r)) (.bind ⟨rfl, rfl⟩ h.runs)
  case push_imm8 => exact runSeq_of_runs h.runs
  case push_imm => exact runSeq_of_runs h.runs
  case push_rm => exact runSeq_of_runs (.bind ⟨hr, rflags_of_onlyMem (readRmb_onlyMem hr)⟩ h.runs)
  case push_sreg =>
    exact runSeq_of_runs (m := pushForm (.sreg w g)) (.bind ⟨rfl, rfl⟩ (.bind (raiseIf_runs (stackable_of hg) _) h.runs))
  case push_span =>
    exact .imp fun sp => .imp fun u h => ⟨h.1, h.2.symm.subst (u.storeAt_onlySpan
      ((resolve_keeps memOk_regStable.toMemStable ..).of_ok hm h.1) sp n v)⟩
  case pop_reg => exact runSeq_of_runs (h.runs.bind ⟨rfl, rfl⟩)
  case pop_rm => exact runSeq_of_runs (h.runs.bind ⟨writeRmb_ok hd _, hd.rflags _⟩)
  case pop_sreg =>
    have hc : (g == .cs || (s.is64 && !stackable64 g)) = false := congrArg₂ or (beq_eq_false_iff_ne.mpr hc) (stackable_of hg)
    have hl : Runs (loadSegment g (BitVec.ofNat 16 v)) t () u := ⟨hl, (loadSegment_keepsRflags ..).of_ok rfl hl⟩
    exact runSeq_of_runs (m := popForm (.sreg w g)) <|
      .bind ⟨rfl, rfl⟩ <| .bind (raiseIf_runs hc _) <| h.runs.bind <| hl.bind (updIf_runs rfl)
  case pushf => exact runSeq_of_runs (m := pushfForm w) (.bind ⟨rfl, rfl⟩ h.runs)
  case popf =>
    exact (runSeq_ends (m := popfForm w) (M.bind_of_ok (pop_ok h))).trans <| congrArg
      (fun merge : Width → BitVec 32 → Bool → BitVec 32 =>
        Host.Outcome.next (t.endWith (merge w (BitVec.ofNat 32 v) false &&& 0xFFFEFFFF))) h.sameFlags.2
  case pusha => exact runSeq_of_runs (m := pushaForm w) (.bind ⟨invalid64_ok hs, rfl⟩ (.bind ⟨rfl, rfl⟩ (pushRegs_runs h)))
  case popa =>
    exact runSeq_of_runs (m := popaForm w) <| .bind ⟨invalid64_ok hs, rfl⟩ <|
      popRegs_cons rfl h0 <| popRegs_cons rfl h1 <| popRegs_cons rfl h2 <| h3.runs.bind <| popRegs_cons rfl h4 <|
      popRegs_cons rfl h5 <| popRegs_cons rfl h6 <| popRegs_cons rfl h7 ⟨rfl, rfl⟩

end Sys2Proof
end
